-- ==== Sys2Proof/Word.lean ====
section
/-! DEFINITION. The word types of the Descriptor Ring Controller and the shape of a sparse table. Rules cited in this
package are the numbered rules R<n> of spec/; D<n>, C<n>, I<n> are rows of spec/92, spec/90 and spec/93. -/

namespace Sys2Proof

/-- One byte of bus memory. -/
abbrev Byte := BitVec 8

/-- A flit: the 8-byte unit that sizes work requests (R15). -/
abbrev Flit := BitVec 64

/-- A bus (DMA) address (R100, ADDR_BITS = 64). -/
abbrev Addr := BitVec 64

/-- A command word (R140). -/
abbrev CmdWord := BitVec 64

/-- The `QID` field of a command word (R140). -/
abbrev Qid := BitVec 10

/-- Sparse data by key: pairs with strictly rising keys. What an absent key reads as is said by the reader. -/
abbrev Tab (β : Type) := List (Nat × β)

end Sys2Proof
end

