-- ==== Sys2Proof/Config.lean ====
section
/-! DEFINITION. What is fixed for one block (the parameters of R10), the shapes of the HOST and PEER capabilities (R13),
and the free values: opaque constants that no proof can evaluate. The parameters are a record that State carries and no
step changes, so a theorem over all states is a theorem over all parameter values (log entry 5). -/

namespace Sys2Proof

/-! ### What HOST and PEER hand to the DRC -/

/-- One DMA segment of a packet (R360). -/
structure Segment where
  addr : Addr
  len  : BitVec 32
deriving DecidableEq, Repr, Inhabited

/-- A segmentation-offload request (R149). -/
structure Lso where
  mss   : BitVec 16
  ehLen : Nat
  ipHl  : Nat
  tcpHl : Nat
  ipv6  : Bool
deriving DecidableEq, Repr, Inhabited

/-- An already computed checksum-offload request (R149). -/
structure Csum where
  ip    : Bool
  l4    : Bool
  ctype : BitVec 4
deriving DecidableEq, Repr, Inhabited

/-- An outbound packet as `HOST.dequeue` returns it (R149). `handle` names it to HOST and `data` are its payload bytes as
far as they are known; a payload byte past the end of `data` is free (log entry 13). -/
structure Packet where
  handle : Nat
  len    : BitVec 32
  lso    : Option Lso
  csum   : Csum
  vlan   : Option (BitVec 16)
  data   : List Byte
deriving DecidableEq, Repr, Inhabited

/-- One item of an EQ's pending-packet source (R13), which gives HOST's answers to `peek` and `dequeue` (log entry 12). -/
inductive SrcItem where
  /-- a packet that every `peek` sees until `dequeue` takes it -/
  | ready (p : Packet)
  /-- a packet that comes too late for a `peek` and in time for the next `dequeue` -/
  | late  (p : Packet)
  /-- one answer `none` of `dequeue` -/
  | pause
  /-- the answer to one `peek`, whatever the others are -/
  | glance (a : Option Packet)
  /-- the packet the last `peek` answered by a `glance`: `dequeue` takes it, and the next `peek` looks behind it -/
  | seen  (p : Packet)
deriving DecidableEq, Repr, Inhabited

/-- The answers of `HOST.map_load` (R360). -/
inductive MapAnswer where
  | ok (segs : List Segment)
  | tooMany
  | noResource
deriving DecidableEq, Repr, Inhabited

/-- The answers of `PEER.cmd` (R420): `ok` with the context id (without meaning for START, STOP and FREE), or an error
with its 32-bit code. -/
inductive PeerAnswer where
  | ok  (id : BitVec 17)
  | err (code : BitVec 32)
deriving DecidableEq, Repr, Inhabited

/-- One answer of a HOST or PEER capability, handed in before the command that draws it (log entry 2). -/
inductive Answer where
  | mapLoad   (a : MapAnswer)
  | compact   (a : Option Packet)
  | mapCreate (a : Bool)
  | bufAlloc  (a : Option Nat)
  | bufMap    (a : Option Addr)
  | dmaAlloc  (a : Option Addr)
  | peer      (a : PeerAnswer)
deriving DecidableEq, Repr, Inhabited

/-! ### Parameters (R10) -/

/-- The doorbell back-off function of R297: the formula, or any step function given as (least occupancy, threshold)
pairs in rising order (R11 and R297 let a model replace it; log entry 16). -/
inductive Backoff where
  | formula
  | steps (l : List (Nat × Nat))
deriving DecidableEq, Repr, Inhabited

/-- The parameters of R10 that are OPEN, decided or tuning values. -/
structure Config where
  niq            : Nat
  nfl            : Nat
  neq            : Nat
  ringAlign      : Nat
  classSizes     : List Nat
  flHdrMargin    : Nat
  rxCopyThresh   : Nat
  flDbThresh     : Nat
  creditDiv      : Nat
  creditMax      : Nat
  maxWrFlits     : Nat
  txSglSegs      : Nat
  txImmMax       : Nat
  coalPlenLimit  : Nat
  txLowCredit    : Nat
  txReclaimBatch : Nat
  dbBackoff      : Backoff
  txMaps         : Tab Nat
  peerIqMax      : Tab Nat
  kdbAddr        : Addr
  gtsAddr        : Addr
deriving DecidableEq, Repr, Inhabited

/-- The defaults of R10. DESIGN CHOICE (log entry 5): NIQ, NFL and NEQ have no default, and the model takes the largest
value R10 allows; CLASS_SIZE is the test vectors' choice (95_test_vectors.md section 0). -/
def Config.default : Config where
  niq := 1024
  nfl := 1024
  neq := 1024
  ringAlign := 4096
  classSizes := [2048, 4096, 9216]
  flHdrMargin := 32
  rxCopyThresh := 128
  flDbThresh := 8
  creditDiv := 4
  creditMax := 4095
  maxWrFlits := 64
  txSglSegs := 36
  txImmMax := 128
  coalPlenLimit := 65536
  txLowCredit := 8
  txReclaimBatch := 32
  dbBackoff := .formula
  txMaps := []
  peerIqMax := []
  kdbAddr := 0
  gtsAddr := 0

/-- Size of one flit in bytes (R10, the source's glossary). -/
def Config.flitBytes : Nat := 8
/-- Size of one egress slot in bytes (R10, D5). -/
def Config.eqEsize : Nat := 64
/-- Flits of one egress slot (R175). -/
def Config.slotFlits : Nat := 8
/-- Size of one free-list slot in bytes (R10, D9). -/
def Config.flEsize : Nat := 8
/-- Size in bytes of the status region behind an EQ's last slot (R101). -/
def Config.statusBytes : Nat := 64
/-- Number of interrupt-holdoff timer indices (R10, D13). -/
def Config.nTimer : Nat := 6
/-- Number of packet-count threshold indices (R10, D13). -/
def Config.nPktc : Nat := 4
/-- The largest `PIDX_INC` of one doorbell (R170). -/
def Config.maxPidxInc : Nat := 16383
/-- Header flits of the work requests (R175). -/
def Config.txpktHdrFlits : Nat := 4
def Config.txpktLsoHdrFlits : Nat := 6
def Config.txpktsHdrFlits : Nat := 2
def Config.txpktsPktFlits : Nat := 4
def Config.flushWrFlits : Nat := 2

/-- The ranges R10 gives the parameters, with the bounds the formats need: LEN16 and NPKT are 8 bits, IMMDLEN 9 bits,
CIDXINC 12 bits. -/
def Config.wf (c : Config) : Bool :=
  decide (1 ≤ c.niq ∧ c.niq ≤ 1024 ∧ 1 ≤ c.nfl ∧ c.nfl ≤ 1024 ∧ 1 ≤ c.neq ∧ c.neq ≤ 1024) &&
  decide (64 ≤ c.ringAlign ∧ c.ringAlign = 2 ^ Nat.log2 c.ringAlign) &&
  decide (1 ≤ c.classSizes.length ∧ c.classSizes.length ≤ 16) &&
  c.classSizes.all (fun n => decide (0 < n ∧ n % 16 = 0)) &&
  decide (c.classSizes.Pairwise (· < ·)) &&
  decide (1 ≤ c.creditDiv ∧ 1 ≤ c.creditMax ∧ c.creditMax ≤ 4095) &&
  decide (c.maxWrFlits ≤ 64 ∧ 1 ≤ c.txSglSegs ∧ c.txSglSegs ≤ 36) &&
  decide (c.txImmMax ≤ 128 ∧ c.coalPlenLimit ≤ 65536)

/-! ### Free values: whatever HOST, PEER or the spec leaves open. Each is applied to the counter `draws` of State, so
every use is a fresh value. Nothing is known of any of them (log entries 2, 8, 13, 15). -/

/-- The answer of `HOST.map_load` when no answer was handed in. -/
opaque Config.freeMapLoad : Nat → MapAnswer
/-- The answer of `HOST.compact` when none was handed in. -/
opaque Config.freeCompact : Nat → Option Packet
/-- The answer of `HOST.map_create` when none was handed in. -/
opaque Config.freeMapCreate : Nat → Bool
/-- The answer of `HOST.buf_alloc` when none was handed in. -/
opaque Config.freeBufAlloc : Nat → Option Nat
/-- The answer of `HOST.buf_map` when none was handed in. -/
opaque Config.freeBufMap : Nat → Option Addr
/-- The answer of `HOST.dma_alloc` when none was handed in. -/
opaque Config.freeDmaAlloc : Nat → Option Addr
/-- The answer of `PEER.cmd` when none was handed in. -/
opaque Config.freePeer : Nat → PeerAnswer
/-- Payload byte `k` of the packet with handle `h`, where the packet does not carry it (log entry 13). -/
opaque Config.freePktByte (h k : Nat) : Byte
/-- Which of two raced values a location holds (R102): true for the PEER's (log entry 15). -/
opaque Config.freeRace : Nat → Bool
/-- The batch cursor after a flush and after `Q_ALLOC`, which R58 calls unspecified (log entry 8). -/
opaque Config.freeCur : Nat → Nat
/-- `ETHHDR_LEN` of an Ethernet header shorter than 14 bytes: (eh_len − 14) / 4 is negative and R168 and R288 give the field no
value (log entry 32). -/
opaque Config.freeEthHdrLen : Nat → BitVec 4

end Sys2Proof
end

