-- ==== Sys2Proof/Syntax.lean ====
section
/-! DEFINITION. The commands of the DRC, one constructor per row of spec/opcode_table.json (R141), with their operands as
names rather than raw fields. -/

namespace Sys2Proof

/-- The role of an ingress queue (R47). The code 3 is reserved and has no name here. -/
inductive Role where
  | intrFwd
  | fwEvt
  | rx
deriving DecidableEq, Repr, Inhabited

/-- The entry size code of an ingress queue (R142): 16, 32, 64 or 128 bytes. -/
inductive ESize where
  | b16
  | b32
  | b64
  | b128
deriving DecidableEq, Repr, Inhabited

/-- The queue type of a lifecycle command (R145). The code 3 is reserved and has no name here. -/
inductive QType where
  | iq
  | fl
  | eq
deriving DecidableEq, Repr, Inhabited

/-- The 27 commands (R141). `q` is the queue index of the word's `QID` field. -/
inductive Instr where
  /-- IQ_CHECK, R200. -/
  | iqCheck (q : Qid)
  /-- IQ_CONSUME, R203. -/
  | iqConsume (q : Qid)
  /-- IQ_CREDIT, R210. -/
  | iqCredit (q : Qid)
  /-- IQ_SERVICE, R212; budget 0 is no limit. -/
  | iqService (q : Qid) (budget : BitVec 32)
  /-- FL_SELECT, R240. -/
  | flSelect (q : Qid) (mtu : BitVec 32)
  /-- FL_REFILL, R243. -/
  | flRefill (q : Qid) (n : BitVec 32)
  /-- FL_TAKE, R250. -/
  | flTake (q : Qid) (len : BitVec 32)
  /-- FL_DOORBELL, R255. -/
  | flDoorbell (q : Qid) (force : Bool)
  /-- EQ_TX, R280; limit 0 is no limit. -/
  | eqTx (q : Qid) (limit : BitVec 32)
  /-- EQ_WR_PKT, R285. -/
  | eqWrPkt (q : Qid)
  /-- EQ_WR_LSO, R288. -/
  | eqWrLso (q : Qid)
  /-- EQ_WR_IMM, R290. -/
  | eqWrImm (q : Qid)
  /-- EQ_WR_FLUSH, R293. -/
  | eqWrFlush (q : Qid)
  /-- EQ_DOORBELL, R296. -/
  | eqDoorbell (q : Qid) (force : Bool)
  /-- EQ_RECLAIMABLE, R340. -/
  | eqReclaimable (q : Qid)
  /-- EQ_RECLAIM, R341. -/
  | eqReclaim (q : Qid) (atleast : BitVec 16) (howmany : BitVec 32)
  /-- SGL_BUILD, R362. -/
  | sglBuild (q : Qid)
  /-- SGL_WRITE, R365; `f` is a flit index into the ring. -/
  | sglWrite (q : Qid) (f : BitVec 32)
  /-- TXPKTS_ADD, R391. -/
  | txpktsAdd (q : Qid)
  /-- TXPKTS_FLUSH, R396. -/
  | txpktsFlush (q : Qid)
  /-- Q_ALLOC_IQ, R424, operands R142. -/
  | qAllocIq (q : Qid) (role : Role) (tmr : BitVec 3) (pktc : BitVec 3) (esize : ESize) (fwd : Bool) (capM1 : BitVec 16) (tgt : Qid)
  /-- Q_ALLOC_FL, R425, operands R143. -/
  | qAllocFl (q : Qid) (capM1 : BitVec 16) (iq : Qid)
  /-- Q_ALLOC_EQ, R426, operands R144. -/
  | qAllocEq (q : Qid) (capM1 : BitVec 16) (iq : Qid)
  /-- Q_START, R427. -/
  | qStart (q : Qid) (t : QType)
  /-- Q_STOP, R429. -/
  | qStop (q : Qid) (t : QType)
  /-- Q_FREE, R430. -/
  | qFree (q : Qid) (t : QType)
  /-- Q_TEARDOWN, R428. -/
  | qTeardown (q : Qid) (t : QType)
deriving DecidableEq, Repr, Inhabited

end Sys2Proof
end

