-- ==== Sys2Proof/WellFormed.lean ====
section
/-! DEFINITION. Which commands are well formed: the queue index and operand ranges R141 to R146 give. -/

namespace Sys2Proof

/-- The queue type each command acts on (R141, R145). -/
def Instr.qtype : Instr → QType
  | .iqCheck _ | .iqConsume _ | .iqCredit _ | .iqService _ _ | .qAllocIq _ _ _ _ _ _ _ _ => .iq
  | .flSelect _ _ | .flRefill _ _ | .flTake _ _ | .flDoorbell _ _ | .qAllocFl _ _ _ => .fl
  | .eqTx _ _ | .eqWrPkt _ | .eqWrLso _ | .eqWrImm _ | .eqWrFlush _ | .eqDoorbell _ _ | .eqReclaimable _
  | .eqReclaim _ _ _ | .sglBuild _ | .sglWrite _ _ | .txpktsAdd _ | .txpktsFlush _ | .qAllocEq _ _ _ => .eq
  | .qStart _ t | .qStop _ t | .qFree _ t | .qTeardown _ t => t

/-- The queue index each command names (R140). -/
def Instr.qid : Instr → Qid
  | .iqCheck q | .iqConsume q | .iqCredit q | .iqService q _ | .qAllocIq q _ _ _ _ _ _ _ => q
  | .flSelect q _ | .flRefill q _ | .flTake q _ | .flDoorbell q _ | .qAllocFl q _ _ => q
  | .eqTx q _ | .eqWrPkt q | .eqWrLso q | .eqWrImm q | .eqWrFlush q | .eqDoorbell q _ | .eqReclaimable q
  | .eqReclaim q _ _ | .sglBuild q | .sglWrite q _ | .txpktsAdd q | .txpktsFlush q | .qAllocEq q _ _ => q
  | .qStart q _ | .qStop q _ | .qFree q _ | .qTeardown q _ => q

/-- The queue count of a type (R146). -/
def Config.count (c : Config) : QType → Nat
  | .iq => c.niq
  | .fl => c.nfl
  | .eq => c.neq

/-- The `QID` is below the queue count of the command's type (R146). -/
def Instr.qidOk (c : Config) (i : Instr) : Bool := decide (i.qid.toNat < c.count i.qtype)

/-- A packet-count index is −1 (0b111) or 0..NPKTC−1 (R142). -/
def pktcOk (p : BitVec 3) : Bool := decide (p = 7#3 ∨ p.toNat < Config.nPktc)

/-- An entry size that leaves room for a CPL payload (R142). -/
def ESize.hasPayload : ESize → Bool
  | .b16 | .b32 => false
  | .b64 | .b128 => true

/-- Every operand is in its stated range (R141 to R144). What depends on the state of a queue (a flit cursor inside the
free region, the role of another queue) is a check of the command's own rule. -/
def Instr.operandsOk : Instr → Bool
  | .flSelect _ mtu => decide (mtu.toNat ≤ 65535)
  | .flTake _ len => decide (1 ≤ len.toNat ∧ len.toNat ≤ 2 ^ 31 - 1)
  | .qAllocIq _ role tmr pktc esize _ capM1 _ =>
    decide (tmr.toNat < Config.nTimer) && pktcOk pktc && decide (1 ≤ capM1.toNat) &&
      (decide (role = .intrFwd) || esize.hasPayload)
  | .qAllocFl _ capM1 _ => decide (1 ≤ capM1.toNat)
  | .qAllocEq _ capM1 _ => decide (1 ≤ capM1.toNat ∧ capM1.toNat ≤ 16383)
  | .iqCheck _ | .iqConsume _ | .iqCredit _ | .iqService _ _ | .flRefill _ _ | .flDoorbell _ _ | .eqTx _ _
  | .eqWrPkt _ | .eqWrLso _ | .eqWrImm _ | .eqWrFlush _ | .eqDoorbell _ _ | .eqReclaimable _ | .eqReclaim _ _ _
  | .sglBuild _ | .sglWrite _ _ | .txpktsAdd _ | .txpktsFlush _ | .qStart _ _ | .qStop _ _ | .qFree _ _
  | .qTeardown _ _ => true

/-- A well-formed command of a block with parameters `c` (R146). -/
def Instr.wf (c : Config) (i : Instr) : Bool := i.qidOk c && i.operandsOk

end Sys2Proof
end

