-- ==== Sys2Proof/Decode.lean ====
section
/-! DEFINITION. The command word (R140 to R146): the decoder, total on every 64-bit word and rejecting by name, and after
it the encoder, the pseudo-instructions (R148) and the assembler spelling (R147). -/

namespace Sys2Proof

/-! ### Fields of the word (R140) -/

def opOf (w : CmdWord) : BitVec 6 := w.extractLsb' 58 6
def qidOf (w : CmdWord) : Qid := w.extractLsb' 48 10
def aOf (w : CmdWord) : BitVec 16 := w.extractLsb' 32 16
def bOf (w : CmdWord) : BitVec 32 := w.extractLsb' 0 32

/-- Why a word is refused. Every reason has the same effect, `BAD_CMD` (R146); the first that applies is named. -/
inductive DecodeError where
  /-- an opcode R141 does not list -/
  | reservedOpcode
  /-- a non-zero bit of a field named `= 0`, or a reserved code of a field -/
  | reservedBits
  /-- `QID` not below the queue count of the command's type -/
  | badQid
  /-- an operand out of its stated range -/
  | badOperand
deriving DecidableEq, Repr

/-- What the decoder answers. -/
inductive Decoded where
  | instr (i : Instr)
  | rejected (e : DecodeError)
deriving DecidableEq, Repr

/-! ### Codes of the enumerated operand fields -/

def Role.code : Role → BitVec 2
  | .intrFwd => 0#2
  | .fwEvt => 1#2
  | .rx => 2#2

/-- R142, `A[1:0]`; 3 is reserved. -/
def decodeRole (c : BitVec 2) : Option Role :=
  if c = 0#2 then some .intrFwd else if c = 1#2 then some .fwEvt else if c = 2#2 then some .rx else none

def ESize.code : ESize → BitVec 2
  | .b16 => 0#2
  | .b32 => 1#2
  | .b64 => 2#2
  | .b128 => 3#2

/-- R142, `A[9:8]`: `esize = 16 << code`. -/
def ESize.bytes : ESize → Nat
  | .b16 => 16
  | .b32 => 32
  | .b64 => 64
  | .b128 => 128

/-- R142, `A[9:8]`. -/
def decodeESize (c : BitVec 2) : ESize :=
  if c = 0#2 then .b16 else if c = 1#2 then .b32 else if c = 2#2 then .b64 else .b128

def QType.code : QType → BitVec 2
  | .iq => 0#2
  | .fl => 1#2
  | .eq => 2#2

/-- R145, `A[1:0]`; 3 is reserved. -/
def decodeQType (c : BitVec 2) : Option QType :=
  if c = 0#2 then some .iq else if c = 1#2 then some .fl else if c = 2#2 then some .eq else none

/-! ### Operand shapes -/

/-- `A = 0`, `B = 0`. -/
def shapeQ (w : CmdWord) (i : Instr) : Decoded :=
  if aOf w = 0 ∧ bOf w = 0 then .instr i else .rejected .reservedBits

/-- `A = 0`, `B` the operand. -/
def shapeQB (w : CmdWord) (i : BitVec 32 → Instr) : Decoded :=
  if aOf w = 0 then .instr (i (bOf w)) else .rejected .reservedBits

/-- `A[0]` the FORCE bit, `A[15:1] = 0`, `B = 0`. -/
def shapeQF (w : CmdWord) (i : Bool → Instr) : Decoded :=
  if (aOf w).extractLsb' 1 15 = 0 ∧ bOf w = 0 then .instr (i ((aOf w).getLsbD 0)) else .rejected .reservedBits

/-- The operands of `Q_ALLOC_IQ` (R142). -/
def shapeAllocIq (w : CmdWord) : Decoded :=
  let a := aOf w
  let b := bOf w
  if a.extractLsb' 11 5 = 0 ∧ b.extractLsb' 26 6 = 0 then
    match decodeRole (a.extractLsb' 0 2) with
    | none => .rejected .reservedBits
    | some role =>
      .instr (.qAllocIq (qidOf w) role (a.extractLsb' 2 3) (a.extractLsb' 5 3) (decodeESize (a.extractLsb' 8 2))
        (a.getLsbD 10) (b.extractLsb' 0 16) (b.extractLsb' 16 10))
  else .rejected .reservedBits

/-- The operands of `Q_ALLOC_FL` (R143) and `Q_ALLOC_EQ` (R144): `B[15:0] = cap − 1`, `B[25:16]` an IQ index. -/
def shapeAllocRing (w : CmdWord) (i : BitVec 16 → Qid → Instr) : Decoded :=
  if aOf w = 0 ∧ (bOf w).extractLsb' 26 6 = 0 then
    .instr (i ((bOf w).extractLsb' 0 16) ((bOf w).extractLsb' 16 10))
  else .rejected .reservedBits

/-- The operands of the lifecycle commands (R145). -/
def shapeLife (w : CmdWord) (i : QType → Instr) : Decoded :=
  if (aOf w).extractLsb' 2 14 = 0 ∧ bOf w = 0 then
    match decodeQType ((aOf w).extractLsb' 0 2) with
    | none => .rejected .reservedBits
    | some t => .instr (i t)
  else .rejected .reservedBits

/-- The opcode map of R141: opcode and fixed fields, before the range checks. -/
def decodeFields (w : CmdWord) : Decoded :=
  match (opOf w).toNat with
  | 0x01 => shapeQ w (.iqCheck (qidOf w))
  | 0x02 => shapeQ w (.iqConsume (qidOf w))
  | 0x03 => shapeQ w (.iqCredit (qidOf w))
  | 0x04 => shapeQB w (.iqService (qidOf w))
  | 0x08 => shapeQB w (.flSelect (qidOf w))
  | 0x09 => shapeQB w (.flRefill (qidOf w))
  | 0x0A => shapeQB w (.flTake (qidOf w))
  | 0x0B => shapeQF w (.flDoorbell (qidOf w))
  | 0x10 => shapeQB w (.eqTx (qidOf w))
  | 0x11 => shapeQ w (.eqWrPkt (qidOf w))
  | 0x12 => shapeQ w (.eqWrLso (qidOf w))
  | 0x13 => shapeQ w (.eqWrImm (qidOf w))
  | 0x14 => shapeQ w (.eqWrFlush (qidOf w))
  | 0x15 => shapeQF w (.eqDoorbell (qidOf w))
  | 0x18 => shapeQ w (.eqReclaimable (qidOf w))
  | 0x19 => .instr (.eqReclaim (qidOf w) (aOf w) (bOf w))
  | 0x1C => shapeQ w (.sglBuild (qidOf w))
  | 0x1D => shapeQB w (.sglWrite (qidOf w))
  | 0x20 => shapeQ w (.txpktsAdd (qidOf w))
  | 0x21 => shapeQ w (.txpktsFlush (qidOf w))
  | 0x28 => shapeAllocIq w
  | 0x29 => shapeAllocRing w (.qAllocFl (qidOf w))
  | 0x2A => shapeAllocRing w (.qAllocEq (qidOf w))
  | 0x2B => shapeLife w (.qStart (qidOf w))
  | 0x2C => shapeLife w (.qStop (qidOf w))
  | 0x2D => shapeLife w (.qFree (qidOf w))
  | 0x2E => shapeLife w (.qTeardown (qidOf w))
  | _ => .rejected .reservedOpcode

/-- Decoding (R146): total, and a command comes back only when it is well formed. -/
def decode (c : Config) (w : CmdWord) : Decoded :=
  match decodeFields w with
  | .rejected e => .rejected e
  | .instr i =>
    if i.qidOk c then
      if i.operandsOk then .instr i else .rejected .badOperand
    else .rejected .badQid

/-! ### The encoder -/

/-- A command word from its four fields (R140). -/
def packWord (op : BitVec 6) (q : Qid) (a : BitVec 16) (b : BitVec 32) : CmdWord := ((op ++ q) ++ a) ++ b

/-- `A[0]` = FORCE. -/
def packForce (force : Bool) : BitVec 16 := 0#15 ++ BitVec.ofBool force

/-- `A` of `Q_ALLOC_IQ` (R142). -/
def packAllocIqA (role : Role) (tmr pktc : BitVec 3) (esize : ESize) (fwd : Bool) : BitVec 16 :=
  ((((0#5 ++ BitVec.ofBool fwd) ++ esize.code) ++ pktc) ++ tmr) ++ role.code

/-- `B` of the allocations (R142 to R144). -/
def packAllocB (capM1 : BitVec 16) (x : Qid) : BitVec 32 := (0#6 ++ x) ++ capM1

/-- `A` of the lifecycle commands (R145). -/
def packType (t : QType) : BitVec 16 := 0#14 ++ t.code

/-- The opcode of each command (R141). -/
def Instr.opcode : Instr → BitVec 6
  | .iqCheck _ => 0x01
  | .iqConsume _ => 0x02
  | .iqCredit _ => 0x03
  | .iqService _ _ => 0x04
  | .flSelect _ _ => 0x08
  | .flRefill _ _ => 0x09
  | .flTake _ _ => 0x0A
  | .flDoorbell _ _ => 0x0B
  | .eqTx _ _ => 0x10
  | .eqWrPkt _ => 0x11
  | .eqWrLso _ => 0x12
  | .eqWrImm _ => 0x13
  | .eqWrFlush _ => 0x14
  | .eqDoorbell _ _ => 0x15
  | .eqReclaimable _ => 0x18
  | .eqReclaim _ _ _ => 0x19
  | .sglBuild _ => 0x1C
  | .sglWrite _ _ => 0x1D
  | .txpktsAdd _ => 0x20
  | .txpktsFlush _ => 0x21
  | .qAllocIq _ _ _ _ _ _ _ _ => 0x28
  | .qAllocFl _ _ _ => 0x29
  | .qAllocEq _ _ _ => 0x2A
  | .qStart _ _ => 0x2B
  | .qStop _ _ => 0x2C
  | .qFree _ _ => 0x2D
  | .qTeardown _ _ => 0x2E

/-- The `A` field of each command (R141 to R145). -/
def Instr.aField : Instr → BitVec 16
  | .flDoorbell _ force | .eqDoorbell _ force => packForce force
  | .eqReclaim _ atleast _ => atleast
  | .qAllocIq _ role tmr pktc esize fwd _ _ => packAllocIqA role tmr pktc esize fwd
  | .qStart _ t | .qStop _ t | .qFree _ t | .qTeardown _ t => packType t
  | .iqCheck _ | .iqConsume _ | .iqCredit _ | .iqService _ _ | .flSelect _ _ | .flRefill _ _ | .flTake _ _
  | .eqTx _ _ | .eqWrPkt _ | .eqWrLso _ | .eqWrImm _ | .eqWrFlush _ | .eqReclaimable _ | .sglBuild _
  | .sglWrite _ _ | .txpktsAdd _ | .txpktsFlush _ | .qAllocFl _ _ _ | .qAllocEq _ _ _ => 0

/-- The `B` field of each command (R141 to R145). -/
def Instr.bField : Instr → BitVec 32
  | .iqService _ budget => budget
  | .flSelect _ mtu => mtu
  | .flRefill _ n => n
  | .flTake _ len => len
  | .eqTx _ limit => limit
  | .eqReclaim _ _ howmany => howmany
  | .sglWrite _ f => f
  | .qAllocIq _ _ _ _ _ _ capM1 tgt => packAllocB capM1 tgt
  | .qAllocFl _ capM1 iq | .qAllocEq _ capM1 iq => packAllocB capM1 iq
  | .iqCheck _ | .iqConsume _ | .iqCredit _ | .flDoorbell _ _ | .eqWrPkt _ | .eqWrLso _ | .eqWrImm _
  | .eqWrFlush _ | .eqDoorbell _ _ | .eqReclaimable _ | .sglBuild _ | .txpktsAdd _ | .txpktsFlush _
  | .qStart _ _ | .qStop _ _ | .qFree _ _ | .qTeardown _ _ => 0

/-- The word of a command (R140, R141). -/
def encode (i : Instr) : CmdWord := packWord i.opcode i.qid i.aField i.bField

/-- What the decoder reads from an instruction of `nbits` bits whose bits are `w`, under the parameters of reset
(log entry 27). Every command is one 64-bit word, so bits above `nbits` are zero and bits above 63 do not exist. -/
def decodeTableWord (nbits w : Nat) : Option Instr :=
  match decode Config.default (BitVec.ofNat 64 (w % 2 ^ nbits)) with
  | .instr i => some i
  | .rejected _ => none

/-! ### Pseudo-instructions (R148) -/

def pseudoIqPoll (q : Qid) : Instr := .iqCheck q
def pseudoTx (q : Qid) : Instr := .eqTx q 0
def pseudoReclaimAll (q : Qid) : Instr := .eqReclaim q 0 0xFFFFFFFF#32
def pseudoRing (q : Qid) : Instr := .eqDoorbell q true
def pseudoFlRing (q : Qid) : Instr := .flDoorbell q true
def pseudoStopFree (q : Qid) (t : QType) : Instr := .qTeardown q t

/-! ### Assembler spelling (R147): the text of a command as the assembler writes it -/

def QType.letters : QType → String
  | .iq => "iq"
  | .fl => "fl"
  | .eq => "eq"

def Role.letters : Role → String
  | .intrFwd => "INTR_FWD"
  | .fwEvt => "FW_EVT"
  | .rx => "RX"

/-- `MNEMONIC qN`. -/
def asmQ (m : String) (q : Qid) : String := m ++ " q" ++ toString q.toNat

/-- `MNEMONIC qN, a, b`. -/
def asmQAB (m : String) (q : Qid) (a b : Nat) : String := asmQ m q ++ ", " ++ toString a ++ ", " ++ toString b

/-- `MNEMONIC tN`. -/
def asmT (m : String) (q : Qid) (t : QType) : String := m ++ " " ++ t.letters ++ toString q.toNat

/-- The assembler's text of a command (R147). -/
def asm : Instr → String
  | .iqCheck q => asmQ "IQ_CHECK" q
  | .iqConsume q => asmQ "IQ_CONSUME" q
  | .iqCredit q => asmQ "IQ_CREDIT" q
  | .iqService q budget => asmQAB "IQ_SERVICE" q 0 budget.toNat
  | .flSelect q mtu => asmQAB "FL_SELECT" q 0 mtu.toNat
  | .flRefill q n => asmQAB "FL_REFILL" q 0 n.toNat
  | .flTake q len => asmQAB "FL_TAKE" q 0 len.toNat
  | .flDoorbell q force => asmQAB "FL_DOORBELL" q force.toNat 0
  | .eqTx q limit => asmQAB "EQ_TX" q 0 limit.toNat
  | .eqWrPkt q => asmQ "EQ_WR_PKT" q
  | .eqWrLso q => asmQ "EQ_WR_LSO" q
  | .eqWrImm q => asmQ "EQ_WR_IMM" q
  | .eqWrFlush q => asmQ "EQ_WR_FLUSH" q
  | .eqDoorbell q force => asmQAB "EQ_DOORBELL" q force.toNat 0
  | .eqReclaimable q => asmQ "EQ_RECLAIMABLE" q
  | .eqReclaim q atleast howmany => asmQAB "EQ_RECLAIM" q atleast.toNat howmany.toNat
  | .sglBuild q => asmQ "SGL_BUILD" q
  | .sglWrite q f => asmQAB "SGL_WRITE" q 0 f.toNat
  | .txpktsAdd q => asmQ "TXPKTS_ADD" q
  | .txpktsFlush q => asmQ "TXPKTS_FLUSH" q
  | .qAllocIq q role tmr pktc esize fwd capM1 tgt =>
    asmQ "Q_ALLOC_IQ" q ++ ", role=" ++ role.letters ++ ", tmr=" ++ toString tmr.toNat ++ ", pktc=" ++ toString pktc.toInt
      ++ ", esize=" ++ toString esize.bytes ++ ", fwd=" ++ toString fwd.toNat ++ ", cap=" ++ toString (capM1.toNat + 1)
      ++ ", tgt=" ++ toString tgt.toNat
  | .qAllocFl q capM1 iq =>
    asmQ "Q_ALLOC_FL" q ++ ", cap=" ++ toString (capM1.toNat + 1) ++ ", iq=" ++ toString iq.toNat
  | .qAllocEq q capM1 iq =>
    asmQ "Q_ALLOC_EQ" q ++ ", cap=" ++ toString (capM1.toNat + 1) ++ ", iq=" ++ toString iq.toNat
  | .qStart q t => asmT "Q_START" q t
  | .qStop q t => asmT "Q_STOP" q t
  | .qFree q t => asmT "Q_FREE" q t
  | .qTeardown q t => asmT "Q_TEARDOWN" q t

end Sys2Proof
end

