-- ==== Sys2Proof/Machine/State.lean ====
section
/-! DEFINITION. The state of the DRC as plain data (10_state.md R40 to R63), the state of PEER that the spec names (R62),
the pending inputs and the recorded outputs, and the state after reset (R600). -/

namespace Sys2Proof.Machine

/-! ### Block registers -/

/-- Result codes (R43). The codes 11 to 255 are reserved and never written, so they have no name. -/
inductive RC where
  | ok
  | empty
  | noMap
  | noDesc
  | noBuf
  | dropped
  | cmdFail
  | reject
  | stalled
  | badCmd
  | faulted
deriving DecidableEq, Repr, Inhabited

/-- The result register `RES` (R44). -/
structure Res where
  rc    : RC
  value : BitVec 32
deriving DecidableEq, Repr, Inhabited

/-- Fault codes (R501). The codes 0 and 7 to 255 are never written, so they have no name. -/
inductive FaultCode where
  | unexpectedRsp
  | badQid
  | flUnderrun
  | overReclaim
  | partialCredit
  | badStatus
deriving DecidableEq, Repr, Inhabited

/-- A queue selector: type and index (R42, R50). -/
structure Sel where
  type  : QType
  index : Nat
deriving DecidableEq, Repr, Inhabited

/-- The lifecycle states (R61). -/
inductive QState where
  | uninit
  | mem
  | reg
  | run
deriving DecidableEq, Repr, Inhabited

/-! ### Queue records -/

/-- An ingress queue record (R45 to R49, R60). -/
structure IQ where
  st             : QState
  cntxtId        : BitVec 16
  base           : Addr
  cap            : Nat
  esize          : Nat
  cidx           : Nat
  gen            : Bool
  role           : Role
  tmrIdx         : BitVec 3
  pktcIdx        : BitVec 3
  ncons          : Nat
  creditBatch    : Nat
  fl             : Option Nat
  fwd            : Bool
  tgt            : BitVec 10
  svcReq         : Bool
  rxcsum         : BitVec 64
  vlanExtraction : BitVec 64
  rxPkts         : BitVec 64
deriving DecidableEq, Repr, Inhabited

/-- A mapped receive buffer in a free-list slot: HOST handle, bus address, size class (R52). -/
structure RxBuf where
  buf  : Nat
  addr : Addr
  bcls : Nat
deriving DecidableEq, Repr, Inhabited

/-- Who owns a free-list slot's buffer (R52). The buffer is present exactly when the slot is not `empty`. -/
inductive Own where
  | empty
  | posted   (b : RxBuf)
  | retained (b : RxBuf)
deriving DecidableEq, Repr, Inhabited

/-- A free-list slot record (R52). -/
structure FlSlot where
  own    : Own
  mapCls : Option Nat
deriving DecidableEq, Repr, Inhabited

/-- A free-list record (R51, R60). A slot the table `sd` does not list is `FlSlot.reset`. -/
structure FL where
  st        : QState
  cntxtId   : BitVec 16
  base      : Addr
  cap       : Nat
  pidx      : Nat
  cidx      : Nat
  needed    : Nat
  pending   : Nat
  cls       : Nat
  sd        : Tab FlSlot
  owner     : Nat
  allocFail : BitVec 64
  mapFail   : BitVec 64
deriving DecidableEq, Repr, Inhabited

/-- An egress slot record (R55). -/
structure EqSlot where
  descUsed : Nat
  mapsUsed : Nat
deriving DecidableEq, Repr, Inhabited

/-- The coalescing accumulator (R58). `accepting` is `bst = ACCEPTING`; `flushed` is not a stored state (R390). -/
structure Batch where
  accepting : Bool
  npkt      : Nat
  nflits    : Nat
  plen      : Nat
  cur       : Nat
  nmaps     : Nat
deriving DecidableEq, Repr, Inhabited

/-- The SGL register (R59). `nsegs` and `sg_nflits` are views of `segs` (log entry 23). `isHeld` is the model's: a WR command
without credit left the packet here (R285) and in `eq.held` too (R510), and it is stored once (`EQ.heldPkt`, log entry 40). It
means something only with `valid`, and a register just built is not held. -/
structure SglReg where
  valid   : Bool
  mapHeld : Bool
  pkt     : Packet
  segs    : List Segment
  isHeld  : Bool := false
deriving DecidableEq, Repr, Inhabited

/-- The statistics counters of an egress queue (R60). -/
structure EqStats where
  txcsum        : BitVec 64
  vlanInsertion : BitVec 64
  tsoWrs        : BitVec 64
  immWrs        : BitVec 64
  sglWrs        : BitVec 64
  txpktsWrs     : BitVec 64
  txpktsPkts    : BitVec 64
  noDmamap      : BitVec 64
  noDesc        : BitVec 64
  drops         : BitVec 64
  defrags       : BitVec 64
deriving DecidableEq, Repr, Inhabited

/-- An egress queue record (R54 to R60). `eq.held` of R54 is `EQ.heldPkt`: the field `held`, or the packet of an SGL register with
`isHeld`. A slot `sd` does not list is `{0, 0}`; an entry `maps` does not list is `none`. -/
structure EQ where
  st        : QState
  cntxtId   : BitVec 17
  base      : Addr
  cap       : Nat
  pidx      : Nat
  cidx      : Nat
  avail     : Nat
  pending   : Nat
  statAddr  : Addr
  iq        : Nat
  stalled   : Bool
  flushOut  : Bool
  resumeReq : Bool
  held      : Option Packet
  sd        : Tab EqSlot
  txMaps    : Nat
  maps      : Tab Packet
  mapPidx   : Nat
  mapCidx   : Nat
  mapAvail  : Nat
  batch     : Batch
  sgl       : SglReg
  stats     : EqStats
deriving DecidableEq, Repr, Inhabited

/-! ### State of PEER that the spec names (R62, R520), never read by a command (log entry 14) -/

/-- PEER's view of an ingress queue: write index, generation, credit returned, and whether its interrupt is armed. `written`
counts the entries written, for the bound of R116. -/
structure PeerIq where
  pidx    : Nat
  gen     : Bool
  cred    : Nat
  written : Nat
  armed   : Bool
deriving DecidableEq, Repr, Inhabited

/-- PEER's view of a free list: its consumer index and the buffers published and not yet used. -/
structure PeerFl where
  cidx  : Nat
  avail : Nat
deriving DecidableEq, Repr, Inhabited

/-- PEER's view of an egress queue: the sum modulo `cap` of the doorbell increments received, the first slot of the first WR
it has not finished (R106, R114), and the `EGR_UPDATE` entries it owes for finished WRs with `EQUIQ = 1` (R114). -/
structure PeerEq where
  hwPidx : Nat
  hwCidx : Nat
  owed   : Nat
deriving DecidableEq, Repr, Inhabited

/-! ### Inputs: pending answers, packet sources and events -/

/-- The answers handed in and not yet drawn, oldest first, and the packet source of each EQ (log entries 2 and 12). -/
structure HostIn where
  mapLoad   : List MapAnswer
  compact   : List (Option Packet)
  mapCreate : List Bool
  bufAlloc  : List (Option Nat)
  bufMap    : List (Option Addr)
  dmaAlloc  : List (Option Addr)
  peer      : List PeerAnswer
  src       : Tab (List SrcItem)
deriving DecidableEq, Repr, Inhabited

/-- What the outside does between two commands, and the commands themselves (log entry 1). -/
inductive Event where
  /-- HOST writes a command word to the command port (R140). -/
  | command (w : CmdWord)
  /-- Block reset (R600). -/
  | reset
  /-- HOST adds an item to the packet source of an EQ (R13). -/
  | submit (eq : Nat) (item : SrcItem)
  /-- HOST or PEER prepares the next answer of a capability (R13). -/
  | answer (a : Answer)
  /-- PEER raises the interrupt of an IQ, through the forwarding queue where it has one (R520). The bytes are those of the
  `INTR` entry that the format leaves open. -/
  | interrupt (iq : Nat) (bytes : List Byte)
  /-- PEER writes one ingress entry at its write index, with its generation bit (R116). -/
  | peerEntry (iq : Nat) (bytes : List Byte)
  /-- PEER finishes the WR at its consumer index, and writes the status word or not (R114). -/
  | peerFinish (eq : Nat) (update : Bool)
  /-- PEER writes an `EGR_UPDATE` entry it owes (R114, R154). The bytes are those the format leaves open. -/
  | peerNotify (eq : Nat) (bytes : List Byte)
  /-- PEER writes the status word of an EQ with any consumer index, also one that breaks R114 (R106, R501). -/
  | peerStatus (eq : Nat) (hwCidx : BitVec 16)
  /-- PEER receives a frame for an RX queue: its data into published buffers, then the entry that reports it (R115). The bytes
  are those of the entry that the format leaves open. -/
  | peerFrame (iq : Nat) (frame bytes : List Byte)
  /-- PEER uses `n` published buffers of a free list without saying for what (R115). -/
  | peerUse (fl : Nat) (n : Nat)
  /-- Any other DMA write of PEER: frame data, or a write that breaks its obligations (R102). -/
  | peerStore (a : Addr) (bytes : List Byte)
deriving DecidableEq, Repr, Inhabited

/-! ### Outputs: what the DRC does to the outside, recorded in order (log entry 21) -/

/-- A buffer named to HOST: a receive buffer by its handle, or an outbound packet. -/
inductive BufRef where
  | rx  (h : Nat)
  | pkt (p : Packet)
deriving DecidableEq, Repr, Inhabited

/-- A received frame (R250): copied bytes, or buffers attached by reference with the bytes each holds. -/
inductive Frame where
  | copy (bytes : List Byte)
  | refs (parts : List (Nat × Nat))
deriving DecidableEq, Repr, Inhabited

/-- Receive metadata (R204). -/
structure RxMeta where
  csumCalc : Bool
  csum     : BitVec 16
  vlanEx   : Bool
  vlan     : BitVec 16
deriving DecidableEq, Repr, Inhabited

/-- The handshake requests (R420). -/
inductive PeerReq where
  | allocIq (base : Addr) (cap esize : Nat) (role : Role) (fwd : Bool) (tgt : BitVec 16) (tmr pktc : BitVec 3)
  | allocFl (base : Addr) (cap owner : Nat)
  | allocEq (base : Addr) (cap : Nat) (statAddr : Addr) (iqId : BitVec 16)
  | start (t : QType) (id : BitVec 17)
  | stop (t : QType) (id : BitVec 17)
  | free (t : QType) (id : BitVec 17)
deriving DecidableEq, Repr, Inhabited

/-- The two doorbell registers (R100). -/
inductive Reg where
  | kdb
  | gts
deriving DecidableEq, Repr, Inhabited

/-- One action of the DRC on the outside: bus writes, `Barrier()`, register writes, and HOST and PEER calls (R13). -/
inductive Effect where
  | memWrite (a : Addr) (v : Flit)
  | zeroFill (a : Addr) (n : Nat)
  | barrier
  | regWrite (r : Reg) (v : BitVec 32)
  | mapLoad (p : Packet)
  | compact (p : Packet)
  | mapCreate (cls : Nat)
  | bufAlloc (cls : Nat)
  | bufMap (h : Nat)
  | dmaAlloc (n : Nat)
  | dmaFree (a : Addr)
  | unmap (b : BufRef)
  | release (b : BufRef)
  | deliver (f : Frame) (md : Option RxMeta)
  | cmdReply (bytes : List Byte)
  | resume (eq : Nat)
  | peerCmd (r : PeerReq)
  | log (r : PeerReq) (t : QType) (q : Nat) (code : BitVec 32)
deriving DecidableEq, Repr, Inhabited

/-! ### The state -/

/-- The whole state. The first group is the DRC's (R40), `mem` is bus memory (R100), the `peer…` tables are PEER's (R62),
and the last group is the model's own (log entries 1, 2, 5, 21). -/
structure State where
  fault  : BitVec 32
  res    : Res
  qmap   : Tab Sel
  iqs    : Tab IQ
  fls    : Tab FL
  eqs    : Tab EQ
  mem    : List Host.Cell
  peerIq : Tab PeerIq
  peerFl : Tab PeerFl
  peerEq : Tab PeerEq
  cfg    : Config
  host   : HostIn
  out    : List Effect
  inbox  : List Event
  draws  : Nat
deriving DecidableEq, Repr, Inhabited

/-! ### Values after reset -/

/-- A packet handle slot that holds nothing yet. -/
def noPacket : Packet where
  handle := 0
  len := 0
  lso := none
  csum := { ip := false, l4 := false, ctype := 0 }
  vlan := none
  data := []

/-- An ingress record after reset: `st`, `svc_req` and the counters by R63; every other field unspecified there and zero
here. DESIGN CHOICE, unsafe (log entry 6). -/
def IQ.reset : IQ where
  st := .uninit
  cntxtId := 0
  base := 0
  cap := 0
  esize := 0
  cidx := 0
  gen := false
  role := .intrFwd
  tmrIdx := 0
  pktcIdx := 0
  ncons := 0
  creditBatch := 0
  fl := none
  fwd := false
  tgt := 0
  svcReq := false
  rxcsum := 0
  vlanExtraction := 0
  rxPkts := 0

/-- A free-list slot with no buffer and no map (R52). -/
def FlSlot.reset : FlSlot where
  own := .empty
  mapCls := none

/-- A free-list record after reset (R63, log entry 6). -/
def FL.reset : FL where
  st := .uninit
  cntxtId := 0
  base := 0
  cap := 0
  pidx := 0
  cidx := 0
  needed := 0
  pending := 0
  cls := 0
  sd := []
  owner := 0
  allocFail := 0
  mapFail := 0

/-- An egress slot record as `Q_ALLOC` leaves it (R55). -/
def EqSlot.reset : EqSlot where
  descUsed := 0
  mapsUsed := 0

/-- The empty batch with a given cursor (R58). -/
def Batch.empty (cur : Nat) : Batch where
  accepting := false
  npkt := 0
  nflits := 0
  plen := 0
  cur := cur
  nmaps := 0

/-- All egress counters zero (R60). -/
def EqStats.zero : EqStats where
  txcsum := 0
  vlanInsertion := 0
  tsoWrs := 0
  immWrs := 0
  sglWrs := 0
  txpktsWrs := 0
  txpktsPkts := 0
  noDmamap := 0
  noDesc := 0
  drops := 0
  defrags := 0

/-- An egress record after reset (R63, log entry 6). -/
def EQ.reset : EQ where
  st := .uninit
  cntxtId := 0
  base := 0
  cap := 0
  pidx := 0
  cidx := 0
  avail := 0
  pending := 0
  statAddr := 0
  iq := 0
  stalled := false
  flushOut := false
  resumeReq := false
  held := none
  sd := []
  txMaps := 0
  maps := []
  mapPidx := 0
  mapCidx := 0
  mapAvail := 0
  batch := Batch.empty 0
  sgl := { valid := false, mapHeld := false, pkt := noPacket, segs := [] }
  stats := EqStats.zero

/-- PEER's view of an IQ it has written nothing to: `p_gen` starts 1 (R62, R116). -/
def PeerIq.reset : PeerIq where
  pidx := 0
  gen := true
  cred := 0
  written := 0
  armed := false

def PeerFl.reset : PeerFl where
  cidx := 0
  avail := 0

def PeerEq.reset : PeerEq where
  hwPidx := 0
  hwCidx := 0
  owed := 0

/-- Nothing pending at HOST and PEER. -/
def HostIn.none : HostIn where
  mapLoad := []
  compact := []
  mapCreate := []
  bufAlloc := []
  bufMap := []
  dmaAlloc := []
  peer := []
  src := []

/-- The machine right after block reset (R600), with nothing in memory, nothing pending and the parameters of R10. -/
def State.reset : State where
  fault := 0
  res := { rc := .ok, value := 0 }
  qmap := []
  iqs := []
  fls := []
  eqs := []
  mem := []
  peerIq := []
  peerFl := []
  peerEq := []
  cfg := Config.default
  host := HostIn.none
  out := []
  inbox := []
  draws := 0

/-! ### Faults and refusals of the model -/

/-- The reasons the model itself could stop with a fault: none. The spec's faults are a register (R500): a command that
raises one ends in a next state with `FAULT` latched, and every other command ends with a result code. -/
inductive Fault where
deriving DecidableEq, Repr

/-- The reasons the model could refuse. -/
inductive Refusal where
  /-- Raised by an arm of `exec` whose instruction has no meaning yet; no arm is in that case. Safe: the run ends there. -/
  | notModelled (mnemonic : String)
deriving DecidableEq, Repr

end Sys2Proof.Machine

namespace Sys2Proof

/-- The fields of an ingress record after teardown, which R428 leaves unspecified (log entry 7). -/
opaque Config.freeIq : Nat → Machine.IQ
/-- The fields of a free-list record after teardown (log entry 7). -/
opaque Config.freeFl : Nat → Machine.FL
/-- The fields of an egress record after teardown (log entry 7). -/
opaque Config.freeEq : Nat → Machine.EQ

end Sys2Proof
end

