-- ==== Sys2Proof/Machine/Flags.lean ====
section
/-! DEFINITION. The condition state: result codes and `RES` (R43, R44), the `FAULT` register (R42, R501), and the
statistics counters of a packet (R286). -/

namespace Sys2Proof.Machine

/-- The number of a result code (R43). -/
def RC.code : RC → BitVec 8
  | .ok => 0
  | .empty => 1
  | .noMap => 2
  | .noDesc => 3
  | .noBuf => 4
  | .dropped => 5
  | .cmdFail => 6
  | .reject => 7
  | .stalled => 8
  | .badCmd => 9
  | .faulted => 10

/-- `RES` as the 40 bits HOST reads. R44 gives the two widths and not their places: `rc` in bits 39:32 and `value` in bits 31:0
are the model's. DESIGN CHOICE (log entry 45). -/
def Res.word (r : Res) : BitVec 40 := r.rc.code ++ r.value

/-- The number of a fault code (R501). -/
def FaultCode.code : FaultCode → BitVec 8
  | .unexpectedRsp => 1
  | .badQid => 2
  | .flUnderrun => 3
  | .overReclaim => 4
  | .partialCredit => 5
  | .badStatus => 6

/-- The queue selector of `FAULT.qid`: `type[1:0] ++ index[9:0]`, zero-extended to 16 bits (R42). -/
def Sel.word (q : Sel) : BitVec 16 := (0#4 ++ q.type.code) ++ BitVec.ofNat 10 q.index

/-- The value of `FAULT` after `raise Fault(code, q)`: valid in bit 31, code in 23:16, selector in 15:0, the rest 0 (R42). -/
def faultWord (c : FaultCode) (q : Sel) : BitVec 32 := ((1#1 ++ 0#7) ++ c.code) ++ q.word

/-- `FAULT.valid` (R42). -/
def faultValid (f : BitVec 32) : Bool := f.getLsbD 31

/-- `FAULT.code` (R42). -/
def faultCodeOf (f : BitVec 32) : BitVec 8 := f.extractLsb' 16 8

/-- `FAULT.qid` (R42). -/
def faultQidOf (f : BitVec 32) : BitVec 16 := f.extractLsb' 0 16

/-- Add 1 to a 64-bit counter when a condition holds; the counter wraps (R60). -/
def bumpIf (b : Bool) (n : BitVec 64) : BitVec 64 := if b then n + 1 else n

/-- `count_offloads` (R286), once per packet written. -/
def countOffloads (p : Packet) (s : EqStats) : EqStats :=
  { s with
    txcsum := bumpIf (p.csum.ip || p.csum.l4) s.txcsum
    vlanInsertion := bumpIf p.vlan.isSome s.vlanInsertion }

end Sys2Proof.Machine
end

