-- ==== Sys2Proof/Machine/Operands.lean ====
section
/-! DEFINITION. The formats the DRC reads and writes: arithmetic of R12, register values (R170, R171), free-list pointers
(R160), work-request flits (R161 to R173), the SGL (R165, R361, R367), ingress control words (R150, R199). -/

namespace Sys2Proof.Machine

/-! ### Arithmetic (R12) -/

/-- `ceil_div(a, b)`. -/
def ceilDiv (a b : Nat) : Nat := (a + b - 1) / b

/-- `fls(x)`: the 1-based position of the highest set bit, 0 for 0. -/
def fls (x : Nat) : Nat := if x = 0 then 0 else Nat.log2 x + 1

/-- `(a − b) mod cap` for `a, b < cap` (R12). -/
def subMod (a b cap : Nat) : Nat := (a + cap - b) % cap

/-! ### Parameters that depend on a queue (R10, R297) -/

/-- IQ_CREDIT_BATCH of a queue (R10, R211): `max(1, cap div 4)` clipped to 4095 with the default parameters. -/
def creditBatch (c : Config) (cap : Nat) : Nat := min c.creditMax (max 1 (cap / c.creditDiv))

/-- The last threshold of a step function that the occupancy reaches, 1 before the first. -/
def stepsAt (x : Nat) : List (Nat × Nat) → Nat
  | [] => 1
  | (least, v) :: t => if x < least then 1 else max v (stepsAt x t)

/-- `backoff(eq)` for an occupancy `x = cap − avail` (R297). -/
def backoff (c : Config) (x : Nat) : Nat :=
  match c.dbBackoff with
  | .formula => 2 ^ (fls x / 2)
  | .steps l => stepsAt x l

/-- `FL_SELECT`'s class (R240): the least class covering MTU plus margin, the last class if there is none. -/
def selectClass (c : Config) (mtu : Nat) : Nat :=
  (c.classSizes.findIdx? (fun n => decide (mtu + c.flHdrMargin ≤ n))).getD (c.classSizes.length - 1)

/-- CLASS_SIZE of a class. -/
def classSize (c : Config) (cls : Nat) : Nat := c.classSizes.getD cls 0

/-! ### Ring addresses (R14) -/

/-- `slot_addr(q, i) = base + i · esize`. -/
def slotAddr (base : Addr) (esize i : Nat) : Addr := base + BitVec.ofNat 64 (i * esize)

/-- The address of flit `f`, wrapping at the ring end (R281 `wflit`, R615). -/
def flitAddr (base : Addr) (cap f : Nat) : Addr := base + BitVec.ofNat 64 (8 * (f % (8 * cap)))

/-- `ndesc(nflits)` (R161). -/
def ndesc (nflits : Nat) : Nat := ceilDiv nflits Config.slotFlits

/-! ### Registers of PEER (R170, R171) -/

/-- A `KDB` value: context id, bit 14 zero, increment (R170). -/
def kdbWord (id : BitVec 17) (inc : Nat) : BitVec 32 := (id ++ 0#1) ++ BitVec.ofNat 14 inc

/-- A `GTS` value: context id, timer index, CNT_EN, increment (R171, R210). CNT_EN is 1 iff `pktc_idx ≥ 0`. -/
def gtsWord (id : BitVec 16) (tmr pktc : BitVec 3) (inc : Nat) : BitVec 32 :=
  ((id ++ tmr) ++ BitVec.ofBool (!pktc.msb)) ++ BitVec.ofNat 12 inc

/-! ### Bytes of a flit (R103: the byte at the lowest address is the most significant) -/

/-- Byte `k` of a flit in address order. -/
def flitByte (v : Flit) (k : Nat) : Byte := v.extractLsb' (56 - 8 * k) 8

/-- The flit of up to eight bytes in address order, missing ones zero. -/
def flitOfBytes (l : List Byte) : Flit :=
  ((((((l.getD 0 0 ++ l.getD 1 0) ++ l.getD 2 0) ++ l.getD 3 0) ++ l.getD 4 0) ++ l.getD 5 0) ++ l.getD 6 0) ++ l.getD 7 0

/-- A free-list slot word (R160): address bits 63:4, class index in bits 3:0. -/
def flPointer (b : RxBuf) : Flit := b.addr.extractLsb' 4 60 ++ BitVec.ofNat 4 b.bcls

/-! ### Ingress control word (R150, R199) -/

/-- What the DRC reads of the 16-byte control word: byte 8 and bytes 4..7. -/
structure Ctrl where
  typeGen : Byte
  lenqid  : BitVec 32
deriving DecidableEq, Repr

/-- `gen_of`: bit 7 of byte 8. -/
def Ctrl.gen (c : Ctrl) : Bool := c.typeGen.getLsbD 7
/-- `type_of`: bits 5:4 of byte 8 (R151: 0 FLBUF, 1 CPL, 2 INTR, 3 reserved). -/
def Ctrl.type (c : Ctrl) : BitVec 2 := c.typeGen.extractLsb' 4 2
/-- `LEN`: bits 30:0. -/
def Ctrl.len (c : Ctrl) : Nat := (c.lenqid.extractLsb' 0 31).toNat
/-- `NEWBUF`: bit 31. -/
def Ctrl.newbuf (c : Ctrl) : Bool := c.lenqid.getLsbD 31
/-- `QID`: bits 16:0. -/
def Ctrl.qid (c : Ctrl) : Nat := (c.lenqid.extractLsb' 0 17).toNat

/-- Response types (R151). -/
def typeFlbuf : BitVec 2 := 0
def typeCpl : BitVec 2 := 1
def typeIntr : BitVec 2 := 2

/-- CPL opcodes (R152). -/
def cplRxPkt : Byte := 0x3B
def cplEgrUpdate : Byte := 0xA5
def cplFw4Msg : Byte := 0xC0
def cplFw6Msg : Byte := 0xE0

/-! ### Packets (R149, R283) -/

/-- The header lengths R149 allows. -/
def Lso.ok (l : Lso) : Bool :=
  decide (l.mss ≠ 0) && decide (14 ≤ l.ehLen ∧ (l.ehLen - 14) % 4 = 0 ∧ l.ehLen - 14 ≤ 60) &&
  decide (l.ipHl % 4 = 0 ∧ l.ipHl ≤ 16380) && decide (l.tcpHl % 4 = 0 ∧ l.tcpHl ≤ 60)

/-- The packet precheck (R283): a length or an offload request the wire format cannot carry fails it. A packet of length 0,
which R149 excludes and R283 does not name, passes. DESIGN CHOICE (log entry 39). -/
def precheck (p : Packet) : Bool :=
  decide (p.len.toNat ≤ 65535) && (match p.lso with | none => true | some l => Lso.ok l)

/-- `HOST.pkt_bytes(pkt)` (R13): the `len` payload bytes in order; a byte the packet does not carry is free (log entry 13). -/
def pktBytes (p : Packet) : List Byte :=
  (List.range p.len.toNat).map (fun k => p.data.getD k (Config.freePktByte p.handle k))

/-! ### Work-request flits -/

/-- `hdr0(op, immdlen, equiq, len16)` (R281, R162). `EQUEQ` is always 1 (R173). -/
def hdr0 (op : Byte) (immdlen : Nat) (equiq : Bool) (len16 : Nat) : Flit :=
  (((((op ++ 0#15) ++ BitVec.ofNat 9 immdlen) ++ BitVec.ofBool equiq) ++ 1#1) ++ 0#22) ++ BitVec.ofNat 8 len16

/-- `core0(len)` (R281, R164). -/
def core0 (len : BitVec 32) : Flit := (0xEE#8 ++ 0#40) ++ len.extractLsb' 0 16

/-- `ctrl1(m)` (R166). -/
def ctrl1 (p : Packet) : Flit :=
  ((((((BitVec.ofBool (!p.csum.l4) ++ BitVec.ofBool (!p.csum.ip)) ++ 0#18) ++ (if p.csum.l4 then p.csum.ctype else 0#4))
    ++ 0#7) ++ BitVec.ofBool p.vlan.isSome) ++ 0#16) ++ p.vlan.getD 0

/-- `ETHHDR_LEN` (R168): the low four bits of `(eh_len − 14) / 4`. Below 14 that is negative, and the field is a free value
(log entry 32). -/
def ethHdrLen (n : Nat) : BitVec 4 := if n < 14 then Config.freeEthHdrLen n else BitVec.ofNat 4 ((n - 14) / 4)

/-- Flit 0 of `CPL_TX_PKT_LSO_CORE` (R168, R288). -/
def lso0 (l : Lso) : Flit :=
  ((((((((0xED#8 ++ 1#1) ++ 1#1) ++ 0#1) ++ BitVec.ofBool l.ipv6) ++ ethHdrLen l.ehLen)
    ++ BitVec.ofNat 12 (l.ipHl / 4)) ++ BitVec.ofNat 4 (l.tcpHl / 4)) ++ 0#16) ++ l.mss

/-- Flit 1 of `CPL_TX_PKT_LSO_CORE` (R168): `LEN`. -/
def lso1 (p : Packet) : Flit := 0#32 ++ p.len

/-- Flit 1 of a `TXPKTS` header (R163): PLEN, NPKT, NDESC. -/
def txpkts1 (plen npkt nd : Nat) : Flit := ((BitVec.ofNat 16 plen ++ BitVec.ofNat 8 npkt) ++ BitVec.ofNat 8 nd) ++ 0#32

/-- `ULP_TXPKT` (R169): the part's size in 16-byte units. -/
def ulpTxpkt (part : Nat) : Flit := (0x0D#8 ++ 0#24) ++ BitVec.ofNat 32 (part / 2)

/-- `ULPTX_IDATA` (R169): 16 bytes of CPL follow. -/
def ulptxIdata : Flit := (0x81#8 ++ 0#24) ++ 16#32

/-- The WR opcodes (R162). -/
def wrTxpkt : Byte := 0x08
def wrTxpkts : Byte := 0x09
def wrEqFlush : Byte := 0x1B

/-! ### The SGL -/

/-- `sgl_flits(n)` for `n ≥ 1` (R361). -/
def sglFlits (n : Nat) : Nat := 2 + 3 * ((n - 1) / 2) + 2 * ((n - 1) % 2)

/-- The segments after the first (R365): per pair a flit of both lengths and two addresses, a leftover with a zero. -/
def sglRest : List Segment → List Flit
  | [] => []
  | [a] => [a.len ++ 0#32, a.addr]
  | a :: b :: t => (a.len ++ b.len) :: a.addr :: b.addr :: sglRest t

/-- The SGL of a segment list, without its pad (R165, R365). -/
def sglBody : List Segment → List Flit
  | [] => []
  | a :: t => (((0x82#8 ++ 0#8) ++ BitVec.ofNat 16 (t.length + 1)) ++ a.len) :: a.addr :: sglRest t

/-- The zero flit that keeps the next SGL 16-byte aligned (R366). -/
def sglPad (n : Nat) : List Flit := if n % 2 = 1 then [0] else []

/-- What `sgl_write` writes: the SGL and its pad (R365, R366). -/
def sglWritten (segs : List Segment) : List Flit := sglBody segs ++ sglPad (sglBody segs).length

/-- PEER's reading of the segments after the first, `n` of them left (R367). -/
def sglDecodeRest : Nat → List Flit → List Segment
  | 0, _ => []
  | 1, l :: a :: _ => [{ addr := a, len := l.extractLsb' 32 32 }]
  | n + 2, l :: a :: b :: t =>
    { addr := a, len := l.extractLsb' 32 32 } :: { addr := b, len := l.extractLsb' 0 32 } :: sglDecodeRest n t
  | _, _ => []

/-- PEER's reading of an SGL (R367). The DRC never decodes. -/
def sglDecode : List Flit → List Segment
  | h :: a :: t =>
    { addr := a, len := h.extractLsb' 0 32 } :: sglDecodeRest ((h.extractLsb' 32 16).toNat - 1) t
  | _ => []

/-- The slots PEER reads a WR to cover, from `LEN16` of its flit 0 (R174). -/
def peerWrSlots (flit0 : Flit) : Nat := ceilDiv (16 * (flit0.extractLsb' 0 8).toNat) 64

/-! ### Whole work requests as flit lists -/

/-- Flits of a `TXPKT` WR in SGL form, counting the pad (R167). -/
def pktWrFlits (segs : List Segment) : Nat :=
  Config.txpktHdrFlits + sglFlits segs.length + sglFlits segs.length % 2

/-- A `TXPKT` WR, SGL form (R167, R285). -/
def pktWr (p : Packet) (segs : List Segment) : List Flit :=
  [hdr0 wrTxpkt 16 false (pktWrFlits segs / 2), 0, core0 p.len, ctrl1 p] ++ sglWritten segs

/-- Flits of a `TXPKT` WR in LSO form (R168). -/
def lsoWrFlits (segs : List Segment) : Nat :=
  Config.txpktLsoHdrFlits + sglFlits segs.length + sglFlits segs.length % 2

/-- A `TXPKT` WR, segmentation-offload form (R168, R288). -/
def lsoWr (p : Packet) (l : Lso) (segs : List Segment) : List Flit :=
  [hdr0 wrTxpkt 32 false (lsoWrFlits segs / 2), 0, lso0 l, lso1 p, core0 p.len, ctrl1 p] ++ sglWritten segs

/-- Flits of a `TXPKT` WR in immediate form (R167). -/
def immWrFlits (len : Nat) : Nat := Config.txpktHdrFlits + 2 * ceilDiv len 16

/-- The payload of an immediate WR as `n` flits, zero-filled (R290). -/
def immFlits (bytes : List Byte) (n : Nat) : List Flit :=
  (List.range n).map (fun k => flitOfBytes ((bytes.drop (8 * k)).take 8))

/-- A `TXPKT` WR, immediate form (R167, R290). -/
def immWr (p : Packet) : List Flit :=
  [hdr0 wrTxpkt (16 + p.len.toNat) false (immWrFlits p.len.toNat / 2), 0, core0 p.len, ctrl1 p]
    ++ immFlits (pktBytes p) (2 * ceilDiv p.len.toNat 16)

/-- The flush-only WR (R172, R293). -/
def flushWr : List Flit := [hdr0 wrEqFlush 0 true 1, 0]

/-- Flits of a packet's part of a coalesced batch (R169, R391). -/
def partFlits (segs : List Segment) : Nat :=
  Config.txpktsPktFlits + sglFlits segs.length + sglFlits segs.length % 2

/-- A packet's part of a coalesced batch (R169, R391). -/
def partWr (p : Packet) (segs : List Segment) : List Flit :=
  [ulpTxpkt (partFlits segs), ulptxIdata, core0 p.len, ctrl1 p] ++ sglWritten segs

/-- The header of a coalesced batch (R163, R169, R396). -/
def batchHdr (b : Batch) : List Flit :=
  [hdr0 wrTxpkts 0 false (b.nflits / 2), txpkts1 b.plen b.npkt (ndesc b.nflits)]

end Sys2Proof.Machine
end

