-- ==== Sys2Proof/Machine/Ops.lean ====
section
/-! DEFINITION. The shared operations: sparse tables, bus memory, queue records, recorded outputs, the draws from HOST and
PEER, the doorbell writes, taking a fault (R500), block reset (R600), and how a command ends (R44). -/

namespace Sys2Proof

/-! ### Sparse tables -/

/-- The value at a key, `d` for a key that is not listed. -/
def Tab.get {β : Type} (d : β) : Tab β → Nat → β
  | [], _ => d
  | (a, b) :: t, k => if a = k then b else Tab.get d t k

/-- Put a value at a key, keeping the keys rising. -/
def Tab.put {β : Type} : Tab β → Nat → β → Tab β
  | [], k, v => [(k, v)]
  | (a, b) :: t, k, v =>
    if k < a then (k, v) :: (a, b) :: t else if k = a then (k, v) :: t else (a, b) :: Tab.put t k v

/-- Remove a key. -/
def Tab.del {β : Type} (t : Tab β) (k : Nat) : Tab β := t.filter (fun c => c.1 != k)

/-- The value at a key, `none` for a key that is not listed. -/
def Tab.find {β : Type} : Tab β → Nat → Option β
  | [], _ => none
  | (a, b) :: t, k => if a = k then some b else Tab.find t k

/-- The keys rise strictly, so no key is listed twice. -/
abbrev Tab.sorted {β : Type} (t : Tab β) : Prop := t.Pairwise (fun a b => a.1 < b.1)

end Sys2Proof

namespace Sys2Proof.Machine

/-! ### Bus memory (R100, R103) -/

/-- What an address that memory does not list reads as. DESIGN CHOICE, unsafe (log entry 9). -/
def unlistedByte : Byte := 0

/-- The byte at an address. -/
def Memory.get (m : List Host.Cell) (a : Nat) : Byte := Tab.get unlistedByte m a

/-- Write one byte; writing what an unlisted address reads as removes the entry. -/
def Memory.set (m : List Host.Cell) (a : Nat) (b : Byte) : List Host.Cell :=
  if b = unlistedByte then Tab.del m a else Tab.put m a b

/-- Zero-fill `n` bytes from `a` (R101): the entries in the range go. -/
def Memory.zero (m : List Host.Cell) (a n : Nat) : List Host.Cell :=
  m.filter (fun c => !(decide (a ≤ c.1) && decide (c.1 < a + n)))

/-- The canonical form: addresses strictly rising and inside the 64-bit space, no entry equal to an unlisted byte. -/
abbrev Memory.wf (m : List Host.Cell) : Prop :=
  m.Pairwise (fun a b => a.1 < b.1) ∧ ∀ c ∈ m, c.1 < 2 ^ 64 ∧ c.2 ≠ unlistedByte

/-- Write a list of bytes from an address on; addresses wrap at 2^64. DESIGN CHOICE, unsafe (log entry 35). -/
def Memory.setBytes (m : List Host.Cell) (a : Addr) : List Byte → List Host.Cell
  | [] => m
  | b :: t => Memory.setBytes (Memory.set m a.toNat b) (a + 1) t

/-- The eight bytes of a flit in address order (R103). -/
def flitBytes (v : Flit) : List Byte := (List.range 8).map (flitByte v)

/-! ### Queue records: one home, reached only through these -/

def State.iq (s : State) (j : Nat) : IQ := Tab.get IQ.reset s.iqs j
def State.fl (s : State) (j : Nat) : FL := Tab.get FL.reset s.fls j
def State.eq (s : State) (j : Nat) : EQ := Tab.get EQ.reset s.eqs j

def State.setIq (s : State) (j : Nat) (q : IQ) : State := { s with iqs := Tab.put s.iqs j q }
def State.setFl (s : State) (j : Nat) (f : FL) : State := { s with fls := Tab.put s.fls j f }
def State.setEq (s : State) (j : Nat) (e : EQ) : State := { s with eqs := Tab.put s.eqs j e }

def FL.slot (f : FL) (j : Nat) : FlSlot := Tab.get FlSlot.reset f.sd j
def FL.setSlot (f : FL) (j : Nat) (x : FlSlot) : FL := { f with sd := Tab.put f.sd j x }
def EQ.slot (e : EQ) (j : Nat) : EqSlot := Tab.get EqSlot.reset e.sd j

/-- Free slots that hold a published buffer of a free list: `cap − 1 − needed − pending` (R250, R256). -/
def FL.published (f : FL) : Nat := f.cap - 1 - f.needed - f.pending

def State.setQmap (s : State) (m : Tab Sel) : State := { s with qmap := m }

/-- `QMAP(id)` (R50). -/
def State.lookup (s : State) (id : Nat) : Option Sel := Tab.find s.qmap id

/-- The context id of a queue as a `QMAP` key and handshake field. -/
def State.ctxId (s : State) (t : QType) (j : Nat) : BitVec 17 :=
  match t with
  | .iq => (s.iq j).cntxtId.setWidth 17
  | .fl => (s.fl j).cntxtId.setWidth 17
  | .eq => (s.eq j).cntxtId

/-- The lifecycle state of a queue (R61). -/
def State.qst (s : State) (t : QType) (j : Nat) : QState :=
  match t with
  | .iq => (s.iq j).st
  | .fl => (s.fl j).st
  | .eq => (s.eq j).st

/-- Change the lifecycle state of a queue and nothing else (R61). -/
def State.setSt (s : State) (t : QType) (j : Nat) (st : QState) : State :=
  match t with
  | .iq => s.setIq j { s.iq j with st := st }
  | .fl => s.setFl j { s.fl j with st := st }
  | .eq => s.setEq j { s.eq j with st := st }

/-! ### Outputs -/

/-- Record one action on the outside. -/
def State.emit (s : State) (e : Effect) : State := { s with out := s.out ++ [e] }

/-! ### Memory accesses of the DRC -/

def State.readByte (s : State) (a : Addr) : Byte := Memory.get s.mem a.toNat

/-- `MemRead(a, n)` as bytes in address order. A read that runs past address 2^64 − 1 goes on at address 0, which the spec
leaves open (R13, R250). DESIGN CHOICE, unsafe (log entry 35). -/
def State.readBytes (s : State) (a : Addr) (n : Nat) : List Byte :=
  (List.range n).map (fun k => s.readByte (a + BitVec.ofNat 64 k))

/-- A big-endian 32-bit read. -/
def State.read32 (s : State) (a : Addr) : BitVec 32 :=
  ((s.readByte a ++ s.readByte (a + 1)) ++ s.readByte (a + 2)) ++ s.readByte (a + 3)

/-- `MemRead(a, 8)` as a flit. -/
def State.read64 (s : State) (a : Addr) : Flit := flitOfBytes (s.readBytes a 8)

def State.setMem (s : State) (m : List Host.Cell) : State := { s with mem := m }

/-- `MemWrite(a, 8, v)` (R103). -/
def State.writeFlit (s : State) (a : Addr) (v : Flit) : State :=
  (s.setMem (Memory.setBytes s.mem a (flitBytes v))).emit (.memWrite a v)

/-- Zero-fill of freshly allocated ring memory (R101). -/
def State.zeroFill (s : State) (a : Addr) (n : Nat) : State :=
  (s.setMem (Memory.zero s.mem a.toNat n)).emit (.zeroFill a n)

/-! ### Draws (R13): the next answer handed in, or a free value (log entries 2 and 3) -/

/-- The next answer of a tape, the tape after it and the counter after it. -/
def drawTape {α : Type} (tape : List α) (free : Nat → α) (n : Nat) : α × List α × Nat :=
  match tape with
  | a :: t => (a, t, n)
  | [] => (free n, [], n + 1)

/-- The state after a capability was called: tapes, counter, and the recorded call. -/
def State.drew (s : State) (h : HostIn) (n : Nat) (e : Effect) : State :=
  { s with host := h, draws := n, out := s.out ++ [e] }

/-- What R360 says of an `ok` answer of `HOST.map_load`. -/
def segsOk (c : Config) (p : Packet) (l : List Segment) : Bool :=
  decide (1 ≤ l.length ∧ l.length ≤ c.txSglSegs) && l.all (fun g => decide (1 ≤ g.len.toNat)) &&
  decide ((l.map (fun g => g.len.toNat)).sum = p.len.toNat)

/-- An answer of `HOST.map_load` brought inside its signature (R360): too many segments are `too_many`, any other list that
is not the packet's layout is `no_resource` (log entry 3). -/
def mapAnswerOk (c : Config) (p : Packet) : MapAnswer → MapAnswer
  | .ok l => if segsOk c p l then .ok l else if c.txSglSegs < l.length then .tooMany else .noResource
  | .tooMany => .tooMany
  | .noResource => .noResource

/-- `HOST.map_load(pkt)`. -/
def State.mapLoad (s : State) (p : Packet) : MapAnswer × State :=
  let d := drawTape s.host.mapLoad Config.freeMapLoad s.draws
  (mapAnswerOk s.cfg p d.1, s.drew { s.host with mapLoad := d.2.1 } d.2.2 (.mapLoad p))

/-- `HOST.compact(pkt)`. -/
def State.compact (s : State) (p : Packet) : Option Packet × State :=
  let d := drawTape s.host.compact Config.freeCompact s.draws
  (d.1, s.drew { s.host with compact := d.2.1 } d.2.2 (.compact p))

/-- `HOST.map_create(class)`. -/
def State.mapCreate (s : State) (cls : Nat) : Bool × State :=
  let d := drawTape s.host.mapCreate Config.freeMapCreate s.draws
  (d.1, s.drew { s.host with mapCreate := d.2.1 } d.2.2 (.mapCreate cls))

/-- `HOST.buf_alloc(class)`. Any handle is taken, also one that a slot or a delivered frame still has (R5), though R251 says that
no buffer has two holders. DESIGN CHOICE (log entry 42). -/
def State.bufAlloc (s : State) (cls : Nat) : Option Nat × State :=
  let d := drawTape s.host.bufAlloc Config.freeBufAlloc s.draws
  (d.1, s.drew { s.host with bufAlloc := d.2.1 } d.2.2 (.bufAlloc cls))

/-- An address with bits 3:0 zero; any other answer of `HOST.buf_map` is `fail` (R104, R245). -/
def alignedAddr : Option Addr → Option Addr
  | none => none
  | some a => if a.extractLsb' 0 4 = 0 then some a else none

/-- `HOST.buf_map(buf)`, an unaligned answer read as `fail` (R104). -/
def State.bufMap (s : State) (h : Nat) : Option Addr × State :=
  let d := drawTape s.host.bufMap Config.freeBufMap s.draws
  (alignedAddr d.1, s.drew { s.host with bufMap := d.2.1 } d.2.2 (.bufMap h))

/-- The base address of a queue's memory. -/
def State.baseOf (s : State) (t : QType) (j : Nat) : Addr :=
  match t with
  | .iq => (s.iq j).base
  | .fl => (s.fl j).base
  | .eq => (s.eq j).base

/-- The size of a queue's memory in bytes (R101). -/
def State.blockBytes (s : State) (t : QType) (j : Nat) : Nat :=
  match t with
  | .iq => (s.iq j).cap * (s.iq j).esize
  | .fl => (s.fl j).cap * Config.flEsize
  | .eq => (s.eq j).cap * Config.eqEsize + Config.statusBytes

/-- A queue has no memory, or none of it lies in the `n` bytes from `a` on. -/
def State.apart (s : State) (a n : Nat) (t : QType) (j : Nat) : Bool :=
  decide (s.qst t j = .uninit ∨ a + n ≤ (s.baseOf t j).toNat ∨ (s.baseOf t j).toNat + s.blockBytes t j ≤ a)

/-- No queue has memory in the `n` bytes from `a` on. -/
def State.blockClear (s : State) (a n : Nat) : Bool :=
  s.iqs.all (fun c => s.apart a n .iq c.1) && s.fls.all (fun c => s.apart a n .fl c.1) &&
    s.eqs.all (fun c => s.apart a n .eq c.1)

/-- A base aligned to RING_ALIGN and to the entries (R101, R104), whose block lies inside the address space and, so that no
agent writes memory the other owns (R102), in no live queue's memory. Any other answer of `HOST.dma_alloc` is outside its
signature and read as `none`. DEDUCED (log entries 3, 36 and 37). -/
def ringBase (s : State) (n esize : Nat) : Option Addr → Option Addr
  | none => none
  | some a =>
    if a.toNat % s.cfg.ringAlign = 0 ∧ a.toNat % esize = 0 ∧ a.toNat + n ≤ 2 ^ 64 ∧ s.blockClear a.toNat n then some a else none

/-- `HOST.dma_alloc(n)` for entries of `esize` bytes. -/
def State.dmaAlloc (s : State) (n esize : Nat) : Option Addr × State :=
  let d := drawTape s.host.dmaAlloc Config.freeDmaAlloc s.draws
  (ringBase s n esize d.1, s.drew { s.host with dmaAlloc := d.2.1 } d.2.2 (.dmaAlloc n))

/-- `PEER.cmd(req)` (R420). -/
def State.peerCmd (s : State) (r : PeerReq) : PeerAnswer × State :=
  let d := drawTape s.host.peer Config.freePeer s.draws
  (d.1, s.drew { s.host with peer := d.2.1 } d.2.2 (.peerCmd r))

/-- The packet source of an EQ. -/
def State.src (s : State) (j : Nat) : List SrcItem := Tab.get [] s.host.src j

def State.setSrc (s : State) (j : Nat) (l : List SrcItem) : State :=
  { s with host := { s.host with src := Tab.put s.host.src j l } }

/-- The answer of a `peek`, and the source after it: a `glance` is used up, and its packet is what the next `dequeue` takes
unless another `peek` comes first. -/
def peekSrc : List SrcItem → Option Packet × List SrcItem
  | [] => (none, [])
  | .ready p :: t => (some p, .ready p :: t)
  | .late p :: t => (none, .late p :: t)
  | .pause :: t => (none, .pause :: t)
  | .glance none :: t => (none, t)
  | .glance (some p) :: t => (some p, .seen p :: t)
  | .seen _ :: t => peekSrc t

/-- The answer of a `dequeue`, and the source after it; a `glance` that no `peek` asked for is passed over. -/
def dequeueSrc : List SrcItem → Option Packet × List SrcItem
  | [] => (none, [])
  | .ready p :: t => (some p, t)
  | .late p :: t => (some p, t)
  | .seen p :: t => (some p, t)
  | .pause :: t => (none, t)
  | .glance _ :: t => dequeueSrc t

/-- `HOST.peek()` (R13): is there a packet behind the one in hand? Every answer is possible at every call (R5). -/
def State.peek (s : State) (j : Nat) : Option Packet × State :=
  ((peekSrc (s.src j)).1, s.setSrc j (peekSrc (s.src j)).2)

/-- `HOST.dequeue()` (R13): the packet the last `peek` answered, if it answered one (43_egress_tx.md). -/
def State.dequeue (s : State) (j : Nat) : Option Packet × State :=
  ((dequeueSrc (s.src j)).1, s.setSrc j (dequeueSrc (s.src j)).2)

/-- A batch cursor where R58 calls it unspecified: a free value (log entry 8). -/
def State.freshCur (s : State) : Nat × State := (Config.freeCur s.draws, { s with draws := s.draws + 1 })

/-! ### Doorbell registers (R170, R171) -/

def State.peerIqOf (s : State) (j : Nat) : PeerIq := Tab.get PeerIq.reset s.peerIq j
def State.peerFlOf (s : State) (j : Nat) : PeerFl := Tab.get PeerFl.reset s.peerFl j
def State.peerEqOf (s : State) (j : Nat) : PeerEq := Tab.get PeerEq.reset s.peerEq j
def State.setPeerIq (s : State) (j : Nat) (p : PeerIq) : State := { s with peerIq := Tab.put s.peerIq j p }
def State.setPeerFl (s : State) (j : Nat) (p : PeerFl) : State := { s with peerFl := Tab.put s.peerFl j p }
def State.setPeerEq (s : State) (j : Nat) (p : PeerEq) : State := { s with peerEq := Tab.put s.peerEq j p }

/-- The bus address of a doorbell register (R107). -/
def Reg.addr (c : Config) : Reg → Addr
  | .kdb => c.kdbAddr
  | .gts => c.gtsAddr

/-- `RegWrite(KDB, …)` for an EQ: PEER adds the increment to `hw_pidx` (R62, R170). -/
def State.kdbEq (s : State) (j inc : Nat) : State :=
  (s.emit (.regWrite .kdb (kdbWord (s.eq j).cntxtId inc))).setPeerEq j
    { s.peerEqOf j with hwPidx := ((s.peerEqOf j).hwPidx + inc) % (s.eq j).cap }

/-- `RegWrite(KDB, …)` for a free list: PEER may use `inc` more buffers (R62, R255). -/
def State.kdbFl (s : State) (j inc : Nat) : State :=
  (s.emit (.regWrite .kdb (kdbWord ((s.fl j).cntxtId.setWidth 17) inc))).setPeerFl j
    { s.peerFlOf j with avail := (s.peerFlOf j).avail + inc }

/-- `RegWrite(GTS, …)` (R210): PEER gets `ncons` entries of credit and the queue's interrupt is armed (R520). -/
def State.gts (s : State) (j : Nat) : State :=
  let q := s.iq j
  (s.emit (.regWrite .gts (gtsWord q.cntxtId q.tmrIdx q.pktcIdx q.ncons))).setPeerIq j
    { s.peerIqOf j with cred := (s.peerIqOf j).cred + q.ncons, armed := true }

/-! ### Ending a command -/

/-- `return rc(value)` (R13, R44). -/
def State.finish (s : State) (rc : RC) (v : Nat) : State := { s with res := { rc := rc, value := BitVec.ofNat 32 v } }

/-- The command is refused: `RES <- {BAD_CMD, 0}` and nothing else changes (R146, R43). -/
def State.badCmd (s : State) : State := s.finish .badCmd 0

/-- `raise Fault(code, q)` (R500): `FAULT` is written, `RES` and everything else stay. -/
def State.raiseFault (s : State) (c : FaultCode) (q : Sel) : State := { s with fault := faultWord c q }

/-- How the body of a command ran: to its end with a value, or up to a raised fault, whose state holds the fault and the
changes made before it (R500). -/
inductive Ran (α : Type) where
  | done (a : α) (s : State)
  | raised (s : State)
deriving Repr

/-- Raise a fault inside a body. -/
def Ran.raise {α : Type} (s : State) (c : FaultCode) (q : Sel) : Ran α := .raised (s.raiseFault c q)

/-- Run the rest of a body after a part of it that may raise. -/
def Ran.bind {α β : Type} (r : Ran α) (f : α → State → Ran β) : Ran β :=
  match r with
  | .done a s => f a s
  | .raised s => .raised s

/-- End a command: `return rc(value)`, or the raised fault, which leaves `RES` (R44). -/
def Ran.finish {α : Type} (r : Ran α) (f : α → RC × Nat) : State :=
  match r with
  | .done a s => s.finish (f a).1 (f a).2
  | .raised s => s

/-! ### Block reset (R600) -/

/-- Block reset: `FAULT`, `RES`, `QMAP` and every queue record; bus memory, PEER, HOST and the parameters are not touched. -/
def State.blockReset (s : State) : State :=
  { s with fault := 0, res := { rc := .ok, value := 0 }, qmap := [], iqs := [], fls := [], eqs := [] }

/-- The event list without its head. -/
def State.setInbox (s : State) (l : List Event) : State := { s with inbox := l }

end Sys2Proof.Machine
end

