-- ==== Sys2Proof/Machine/FreeList.lean ====
section
/-! DEFINITION. The free list (42_freelist.md): size-class selection, refill, consumption, doorbell. -/

namespace Sys2Proof.Machine

/-- A queue in `REG` or `RUN`. -/
def QState.registered (st : QState) : Bool := decide (st = .reg ∨ st = .run)

/-- The selector of a free list, an ingress queue, an egress queue. -/
def selFl (j : Nat) : Sel := { type := .fl, index := j }
def selIq (j : Nat) : Sel := { type := .iq, index := j }
def selEq (j : Nat) : Sel := { type := .eq, index := j }

/-! ### Refill (R242 to R247) -/

/-- `publish` of R242: write the pointer to ring slot `k` and mark it posted. -/
def flPublish (j k : Nat) (b : RxBuf) (s : State) : State :=
  let s := s.writeFlit (slotAddr (s.fl j).base Config.flEsize k) (flPointer b)
  s.setFl j ((s.fl j).setSlot k { (s.fl j).slot k with own := .posted b })

/-- Count a failed map creation or buffer mapping. -/
def flMapFailed (j : Nat) (s : State) : State := s.setFl j { s.fl j with mapFail := (s.fl j).mapFail + 1 }

/-- Count a failed buffer allocation. -/
def flAllocFailed (j : Nat) (s : State) : State := s.setFl j { s.fl j with allocFail := (s.fl j).allocFail + 1 }

/-- Recreate slot `k`'s DMA map when its class is not the active one (R246). -/
def flRemap (j k : Nat) (s : State) : Bool × State :=
  if ((s.fl j).slot k).mapCls = some (s.fl j).cls then (true, s)
  else
    let r := s.mapCreate (s.fl j).cls
    if r.1 then
      (true, r.2.setFl j ((r.2.fl j).setSlot k { (r.2.fl j).slot k with mapCls := some (r.2.fl j).cls }))
    else (false, flMapFailed j r.2)

/-- Fill an empty slot `k` with a fresh buffer of the active class (R242, R245). Where it fails after its map was recreated, the
new `map_cls` stays, and a stale buffer stays released, as the pseudocode of R242 has it; R247 says that nothing changes for
such a slot. DEDUCED (log entry 44). -/
def flFillFresh (j k : Nat) (s : State) : Bool × State :=
  let m := flRemap j k s
  if m.1 then
    let r := m.2.bufAlloc (m.2.fl j).cls
    match r.1 with
    | none => (false, flAllocFailed j r.2)
    | some h =>
      let a := r.2.bufMap h
      match a.1 with
      | none => (false, flMapFailed j (a.2.emit (.release (.rx h))))
      | some addr => (true, flPublish j k { buf := h, addr := addr, bcls := (a.2.fl j).cls } a.2)
  else (false, m.2)

/-- Give back a retained buffer of a stale class (R242, R244). -/
def flDropRetained (j k : Nat) (b : RxBuf) (s : State) : State :=
  let s := (s.emit (.unmap (.rx b.buf))).emit (.release (.rx b.buf))
  s.setFl j ((s.fl j).setSlot k { (s.fl j).slot k with own := .empty })

/-- `fill_slot(fl, pidx)` (R242): `true` for ok, `false` for stop. -/
def fillSlot (j : Nat) (s : State) : Bool × State :=
  let k := (s.fl j).pidx
  match ((s.fl j).slot k).own with
  | .retained b =>
    if b.bcls = (s.fl j).cls then (true, flPublish j k b s) else flFillFresh j k (flDropRetained j k b s)
  | .empty => flFillFresh j k s
  | .posted _ => flFillFresh j k s

/-- The counters after one posted slot (R243). -/
def flPosted (j : Nat) (s : State) : State :=
  let f := s.fl j
  s.setFl j { f with pidx := (f.pidx + 1) % f.cap, needed := f.needed - 1, pending := f.pending + 1 }

/-- The loop of R243: `k` slots still to fill, `posted` filled so far. -/
def flRefillLoop (j : Nat) : Nat → Nat → State → Nat × State
  | 0, posted, s => (posted, s)
  | k + 1, posted, s =>
    let r := fillSlot j s
    if r.1 then flRefillLoop j k (posted + 1) (flPosted j r.2) else (posted, r.2)

/-! ### Doorbell (R255) -/

/-- The writes of one doorbell, at most 16383 slots each (R255); `n` bounds the loop and is at least `pending`. -/
def flRing (j : Nat) : Nat → State → State
  | 0, s => s
  | n + 1, s =>
    let p := (s.fl j).pending
    if p = 0 then s
    else
      let inc := min p Config.maxPidxInc
      let s := s.kdbFl j inc
      flRing j n (s.setFl j { s.fl j with pending := p - inc })

/-- `fl_doorbell(fl, force)` (R255): the slots published. -/
def flDoorbell (j : Nat) (force : Bool) (s : State) : Nat × State :=
  let p := (s.fl j).pending
  if p = 0 ∨ (force = false ∧ p < s.cfg.flDbThresh) then (0, s)
  else (p, flRing j p (s.emit .barrier))

/-- `fl_refill(fl, n)` (R243): result code and slots posted. -/
def flRefill (j n : Nat) (s : State) : (RC × Nat) × State :=
  let k := min n (s.fl j).needed
  let r := flRefillLoop j k 0 s
  let d := flDoorbell j false r.2
  ((if r.1 = k then .ok else .noBuf, r.1), d.2)

/-! ### Consumption (R250 to R252) -/

/-- Add a buffer to a frame by reference. -/
def Frame.attach (f : Frame) (h chunk : Nat) : Frame :=
  match f with
  | .copy _ => .refs [(h, chunk)]
  | .refs l => .refs (l ++ [(h, chunk)])

/-- The consumer side after a slot was taken: its ownership, `cidx` and `needed` (R250). -/
def flTaken (j : Nat) (own : Own) (s : State) : State :=
  let f := s.fl j
  let f := f.setSlot f.cidx { f.slot f.cidx with own := own }
  s.setFl j { f with cidx := (f.cidx + 1) % f.cap, needed := f.needed + 1 }

/-- The loop of R250. The first argument is the number of published buffers left, `cap − 1 − needed − pending`, which each
turn lowers by one; `rem` bytes are still to be found, `taken` slots are consumed. -/
def flTakeLoop (j len : Nat) : Nat → Nat → Frame → Nat → State → Ran (Frame × Nat)
  | 0, rem, frame, taken, s =>
    if rem = 0 then .done (frame, taken) s else Ran.raise s .flUnderrun (selFl j)
  | n + 1, rem, frame, taken, s =>
    if rem = 0 then .done (frame, taken) s
    else
      match ((s.fl j).slot (s.fl j).cidx).own with
      | .posted b =>
        let size := classSize s.cfg b.bcls
        if taken = 0 ∧ len ≤ s.cfg.rxCopyThresh ∧ len ≤ size then
          flTakeLoop j len n (rem - min rem size) (.copy (s.readBytes b.addr len)) (taken + 1) (flTaken j (.retained b) s)
        else
          flTakeLoop j len n (rem - min rem size) (frame.attach b.buf (min rem size)) (taken + 1)
            (flTaken j .empty (s.emit (.unmap (.rx b.buf))))
      | .empty => Ran.raise s .flUnderrun (selFl j)
      | .retained _ => Ran.raise s .flUnderrun (selFl j)

/-- `fl_take(fl, len)` (R250): the frame and the slots taken. -/
def flTake (j len : Nat) (s : State) : Ran (Frame × Nat) :=
  flTakeLoop j len (s.fl j).published len (.refs []) 0 s

/-! ### Commands -/

/-- FL_SELECT (R240), in `MEM`, `REG` or `RUN`. -/
def execFlSelect (q : Qid) (mtu : BitVec 32) (s : State) : Host.Outcome State Fault Refusal :=
  let j := q.toNat
  .next
    (if (s.fl j).st = .uninit then s.badCmd
     else
       let c := selectClass s.cfg mtu.toNat
       (s.setFl j { s.fl j with cls := c }).finish .ok c)

/-- FL_REFILL (R243), in `REG` or `RUN`. -/
def execFlRefill (q : Qid) (n : BitVec 32) (s : State) : Host.Outcome State Fault Refusal :=
  let j := q.toNat
  .next
    (if (s.fl j).st.registered then
       let r := flRefill j n.toNat s
       r.2.finish r.1.1 r.1.2
     else s.badCmd)

/-- FL_TAKE (R250), in `RUN`. -/
def execFlTake (q : Qid) (len : BitVec 32) (s : State) : Host.Outcome State Fault Refusal :=
  let j := q.toNat
  .next
    (if (s.fl j).st = .run then
       ((flTake j len.toNat s).bind (fun r s => .done r.2 (s.emit (.deliver r.1 none)))).finish (fun k => (.ok, k))
     else s.badCmd)

/-- FL_DOORBELL (R255), in `REG` or `RUN`. -/
def execFlDoorbell (q : Qid) (force : Bool) (s : State) : Host.Outcome State Fault Refusal :=
  let j := q.toNat
  .next
    (if (s.fl j).st.registered then
       let r := flDoorbell j force s
       r.2.finish .ok r.1
     else s.badCmd)

end Sys2Proof.Machine
end

