-- ==== Sys2Proof/Machine/EgressOps.lean ====
section
/-! DEFINITION. What the egress commands share (43_egress_tx.md): writing and committing a work request (R281), maps (R282),
drops (R283), the doorbell with back-off (R296, R297), the flush-only WR (R293), stall (R298), progress (R300). -/

namespace Sys2Proof.Machine

/-- `wflit(eq, f, v)` (R281): flit `f`, wrapping at the ring end. -/
def wflit (j f : Nat) (v : Flit) (s : State) : State :=
  s.writeFlit (flitAddr (s.eq j).base (s.eq j).cap f) v

/-- Consecutive flits from `f` on, in order. -/
def wflits (j f : Nat) : List Flit → State → State
  | [], s => s
  | v :: t, s => wflits j (f + 1) t (wflit j f v s)

/-- `commit(eq, nflits, maps)` (R281). -/
def eqCommit (j nflits maps : Nat) (s : State) : State :=
  let e := s.eq j
  let n := ndesc nflits
  s.setEq j { e with
    sd := Tab.put e.sd e.pidx { descUsed := n, mapsUsed := maps }
    pidx := (e.pidx + n) % e.cap
    avail := e.avail - n
    pending := e.pending + n }

/-- `map_commit(eq)` (R282): the packet of the SGL register owns the map at `map_pidx`. -/
def eqMapCommit (j : Nat) (s : State) : State :=
  let e := s.eq j
  s.setEq j { e with
    maps := Tab.put e.maps e.mapPidx e.sgl.pkt
    mapPidx := (e.mapPidx + 1) % e.txMaps
    mapAvail := e.mapAvail - 1
    sgl := { e.sgl with mapHeld := false } }

/-- `sgl_release(eq)` (R282). -/
def sglRelease (j : Nat) (s : State) : State :=
  let e := s.eq j
  let s := if e.sgl.mapHeld then s.emit (.unmap (.pkt e.sgl.pkt)) else s
  s.setEq j { e with sgl := { e.sgl with mapHeld := false, valid := false } }

/-- Change the counters of an EQ (R60). -/
def eqStats (j : Nat) (f : EqStats → EqStats) (s : State) : State :=
  s.setEq j { s.eq j with stats := f (s.eq j).stats }

/-- `drop(m)` (R362, R283): released to HOST and counted. -/
def eqDrop (j : Nat) (p : Packet) (s : State) : State :=
  eqStats j (fun c => { c with drops := c.drops + 1 }) (s.emit (.release (.pkt p)))

/-- `sg_valid <- 0`: a WR command consumed the SGL register. -/
def sglConsume (j : Nat) (s : State) : State :=
  s.setEq j { s.eq j with sgl := { (s.eq j).sgl with valid := false } }

/-- The packet of `eq.held` is stored in the SGL register (log entry 40). -/
def EQ.heldInSgl (e : EQ) : Bool := e.held.isNone && e.sgl.valid && e.sgl.isHeld

/-- `eq.held` as R54 names it: the packet of the field `held`, or else the one that a WR command without credit left in the SGL
register (R285, R510). DEDUCED (log entry 40). -/
def EQ.heldPkt (e : EQ) : Option Packet := if e.heldInSgl then some e.sgl.pkt else e.held

/-- `eq.held` names the packet of the SGL register, which keeps its SGL and its map (R285, R510). DEDUCED (log entry 40). -/
def sglHold (j : Nat) (s : State) : State := s.setEq j { s.eq j with sgl := { (s.eq j).sgl with isHeld := true } }

/-- `eq.held <- p`. -/
def eqHold (j : Nat) (p : Option Packet) (s : State) : State := s.setEq j { s.eq j with held := p }

/-- The packet a command takes: `eq.held` if there is one, else `HOST.dequeue()` (R280, R290, R362). A held packet that the SGL
register has is no case of it: EQ_TX takes that one first (`txFirst`), SGL_BUILD needs an empty register, and EQ_WR_IMM looks
for it (`immHeld`). -/
def takePacket (j : Nat) (s : State) : Option Packet × State :=
  match (s.eq j).held with
  | some p => (some p, eqHold j none s)
  | none => s.dequeue j

/-- `eq_doorbell(eq, force)` (R296): the slots published. -/
def eqDoorbell (j : Nat) (force : Bool) (s : State) : Nat × State :=
  let e := s.eq j
  if e.pending = 0 ∨ (force = false ∧ e.pending < backoff s.cfg (e.cap - e.avail)) then (0, s)
  else
    let s := (s.emit .barrier).kdbEq j e.pending
    (e.pending, s.setEq j { s.eq j with pending := 0 })

/-- `write_flush(eq)` (R293): `true` when the flush-only WR was written. -/
def writeFlush (j : Nat) (s : State) : Bool × State :=
  let e := s.eq j
  if e.avail < 1 then (false, s)
  else
    let s := eqCommit j Config.flushWrFlits 0 (wflits j (Config.slotFlits * e.pidx) flushWr s)
    (true, s.setEq j { s.eq j with flushOut := true })

/-- `stall_flush(eq, why)` (R298). `noMap` says that the stall was for want of a map. -/
def stallFlush (j : Nat) (noMap : Bool) (s : State) : State :=
  let s := s.setEq j { s.eq j with stalled := true }
  let s := eqStats j (fun c => if noMap then { c with noDmamap := c.noDmamap + 1 } else { c with noDesc := c.noDesc + 1 }) s
  if (s.eq j).flushOut = false ∧ 1 ≤ (s.eq j).avail then (writeFlush j s).2 else s

/-- `eq_progress(eq)` (R300). -/
def eqProgress (j : Nat) (s : State) : State :=
  let s := s.setEq j { s.eq j with flushOut := false }
  if (s.eq j).stalled then (s.setEq j { s.eq j with resumeReq := true }).emit (.resume j) else s

end Sys2Proof.Machine
end

