-- ==== Sys2Proof/Machine/Sgl.lean ====
section
/-! DEFINITION. The SGL builder (45_sgl.md). -/

namespace Sys2Proof.Machine

/-- The number of flits of the SGL in the register, without its pad (R59, R361). -/
def SglReg.nflits (g : SglReg) : Nat := sglFlits g.segs.length

/-- The flits of the SGL in the register with its pad (R366). -/
def SglReg.padded (g : SglReg) : Nat := g.nflits + g.nflits % 2

/-- A loaded map: the SGL register describes the packet (R362). -/
def sglLoad (j : Nat) (p : Packet) (segs : List Segment) (s : State) : State :=
  s.setEq j { s.eq j with sgl := { valid := true, mapHeld := true, pkt := p, segs := segs } }

/-- What `sgl_build_pkt` answers: the code, the packet the caller's `m` names after it, the state (R362). -/
structure Built where
  rc  : RC
  pkt : Packet
  s   : State

/-- The retry of R362 with a compacted packet. -/
def sglRetry (j : Nat) (p : Packet) (s : State) : Built :=
  let r := s.mapLoad p
  match r.1 with
  | .ok segs => { rc := .ok, pkt := p, s := sglLoad j p segs r.2 }
  | .tooMany => { rc := .dropped, pkt := p, s := eqDrop j p r.2 }
  | .noResource => { rc := .noMap, pkt := p, s := r.2 }

/-- `sgl_build_pkt(eq, m)` (R362). -/
def sglBuildPkt (j : Nat) (p : Packet) (s : State) : Built :=
  if (s.eq j).mapAvail = 0 then { rc := .noMap, pkt := p, s := s }
  else
    let r := s.mapLoad p
    match r.1 with
    | .ok segs => { rc := .ok, pkt := p, s := sglLoad j p segs r.2 }
    | .noResource => { rc := .noMap, pkt := p, s := r.2 }
    | .tooMany =>
      let c := (eqStats j (fun c => { c with defrags := c.defrags + 1 }) r.2).compact p
      match c.1 with
      | none => { rc := .dropped, pkt := p, s := eqDrop j p c.2 }
      | some p' => sglRetry j p' c.2

/-- `n` flits from `f` lie inside the free region: the `avail` slots from `pidx` on (R365). -/
def inFreeRegion (e : EQ) (f n : Nat) : Bool :=
  decide (subMod f (Config.slotFlits * e.pidx) (Config.slotFlits * e.cap) + n ≤ Config.slotFlits * e.avail)

/-- The condition of the command form of `SGL_WRITE` (R365). -/
def sglWriteOk (e : EQ) (f : Nat) : Bool :=
  decide (e.st = .run) && !e.batch.accepting && e.sgl.valid && decide (f % 2 = 0) &&
  decide (f < Config.slotFlits * e.cap) && inFreeRegion e f e.sgl.padded

/-- SGL_BUILD (R362). -/
def execSglBuild (q : Qid) (s : State) : Host.Outcome State Fault Refusal :=
  let j := q.toNat
  .next
    (if (s.eq j).st = .run ∧ (s.eq j).sgl.valid = false then
       let t := takePacket j s
       match t.1 with
       | none => t.2.finish .empty 0
       | some p =>
         let b := sglBuildPkt j p t.2
         if b.rc = .ok then b.s.finish .ok (b.s.eq j).sgl.nflits
         else if b.rc = .noMap then (eqHold j (some b.pkt) b.s).finish .noMap 0
         else b.s.finish b.rc 0
     else s.badCmd)

/-- SGL_WRITE (R365). -/
def execSglWrite (q : Qid) (f : BitVec 32) (s : State) : Host.Outcome State Fault Refusal :=
  let j := q.toNat
  .next
    (if sglWriteOk (s.eq j) f.toNat then
       (wflits j f.toNat (sglWritten (s.eq j).sgl.segs) s).finish .ok (s.eq j).sgl.padded
     else s.badCmd)

end Sys2Proof.Machine
end

