-- ==== Sys2Proof/Machine/Coalesce.lean ====
section
/-! DEFINITION. Packet coalescing (46_coalesce.md). -/

namespace Sys2Proof.Machine

/-- The batch a packet is offered to: the open one, or a fresh one with its header and cursor (R391). -/
def batchBase (e : EQ) : Batch :=
  if e.batch.accepting then e.batch
  else { accepting := false, npkt := 0, nflits := Config.txpktsHdrFlits, plen := 0,
         cur := Config.slotFlits * e.pidx + Config.txpktsHdrFlits, nmaps := e.batch.nmaps }

/-- The checks of R391, on the values the batch would have after acceptance. -/
def batchAccepts (c : Config) (e : EQ) : Bool :=
  let b := batchBase e
  let n := b.nflits + partFlits e.sgl.segs
  e.sgl.pkt.lso.isNone && decide (n ≤ c.maxWrFlits) && decide (ndesc n ≤ e.avail) &&
  decide (b.plen + e.sgl.pkt.len.toNat < c.coalPlenLimit)

/-- The accumulator after acceptance (R391). -/
def batchJoined (e : EQ) : Batch :=
  let b := batchBase e
  let part := partFlits e.sgl.segs
  { accepting := true
    npkt := b.npkt + 1
    nflits := b.nflits + part
    plen := b.plen + e.sgl.pkt.len.toNat
    cur := (b.cur + part) % (Config.slotFlits * e.cap)
    nmaps := b.nmaps + 1 }

/-- An accepted packet: its part is written, its map taken, the accumulator updated (R391). -/
def txpktsJoin (j : Nat) (s : State) : State :=
  let e := s.eq j
  let s := eqMapCommit j (wflits j (batchBase e).cur (partWr e.sgl.pkt e.sgl.segs) s)
  let s := s.setEq j { s.eq j with batch := batchJoined e }
  sglConsume j (eqStats j (countOffloads e.sgl.pkt) s)

/-- `txpkts_add(eq)` (R391): `true` for accepted; a rejected offer changes nothing. -/
def txpktsAdd (j : Nat) (s : State) : Bool × State :=
  if batchAccepts s.cfg (s.eq j) then (true, txpktsJoin j s) else (false, s)

/-- The accumulator back to empty, its cursor unspecified (R58, R396, log entry 8). -/
def batchClear (j : Nat) (s : State) : State :=
  s.freshCur.2.setEq j { s.eq j with batch := Batch.empty s.freshCur.1 }

/-- `txpkts_flush(eq)` (R396): the packets in the WR. -/
def txpktsFlush (j : Nat) (s : State) : Nat × State :=
  let e := s.eq j
  let b := e.batch
  if b.accepting then
    let s := eqCommit j b.nflits b.nmaps (wflits j (Config.slotFlits * e.pidx) (batchHdr b) s)
    let s := eqStats j
      (fun c => { c with txpktsWrs := c.txpktsWrs + 1, txpktsPkts := c.txpktsPkts + BitVec.ofNat 64 b.npkt }) s
    (b.npkt, batchClear j s)
  else (0, s)

/-- TXPKTS_ADD (R391). -/
def execTxpktsAdd (q : Qid) (s : State) : Host.Outcome State Fault Refusal :=
  let j := q.toNat
  .next
    (if (s.eq j).st = .run ∧ (s.eq j).sgl.valid then
       let r := txpktsAdd j s
       if r.1 then r.2.finish .ok (r.2.eq j).batch.npkt else r.2.finish .reject 0
     else s.badCmd)

/-- TXPKTS_FLUSH (R396). -/
def execTxpktsFlush (q : Qid) (s : State) : Host.Outcome State Fault Refusal :=
  let j := q.toNat
  .next
    (if (s.eq j).st = .run then
       let r := txpktsFlush j s
       r.2.finish .ok r.1
     else s.badCmd)

end Sys2Proof.Machine
end

