-- ==== Sys2Proof/Machine/Reclaim.lean ====
section
/-! DEFINITION. Descriptor reclamation (44_reclaim.md). -/

namespace Sys2Proof.Machine

/-- `hw_cidx` of a status word: bits 31:16 (R106). -/
def hwCidxOf (w : Flit) : Nat := (w.extractLsb' 16 16).toNat

/-- The consumer index in an EQ's status word, the single snapshot of R340. -/
def hwCidx (j : Nat) (s : State) : Nat := hwCidxOf (s.read64 (s.eq j).statAddr)

/-- `reclaimable(eq)` (R340). -/
def reclaimable (j : Nat) (s : State) : Ran Nat :=
  let e := s.eq j
  let hw := hwCidx j s
  if e.cap ≤ hw then Ran.raise s .badStatus (selEq j)
  else if e.cap - 1 - e.avail < subMod hw e.cidx e.cap then Ran.raise s .overReclaim (selEq j)
  else .done (subMod hw e.cidx e.cap) s

/-- The validation walk of R341: the records from slot `k` on tile exactly `left` slots. The first argument bounds the walk;
every record covers at least one slot, so `left` turns are enough. -/
def wrTiles (e : EQ) : Nat → Nat → Nat → Bool
  | 0, _, left => decide (left = 0)
  | n + 1, k, left =>
    if left = 0 then true
    else
      let d := (e.slot k).descUsed
      if d = 0 ∨ left < d then false else wrTiles e n ((k + d) % e.cap) (left - d)

/-- Unload a map and hand its packet back to its owner (R341, R614). -/
def unmapRelease (b : BufRef) (s : State) : State := (s.emit (.unmap b)).emit (.release b)

/-- Return the map at `map_cidx` (R341). -/
def mapReturn (j : Nat) (s : State) : State :=
  let e := s.eq j
  let s :=
    match Tab.find e.maps e.mapCidx with
    | none => s
    | some p => unmapRelease (.pkt p) s
  s.setEq j { s.eq j with maps := Tab.del e.maps e.mapCidx, mapCidx := (e.mapCidx + 1) % e.txMaps }

/-- Return `k` maps in the order they were taken (R341). -/
def mapReturns (j : Nat) : Nat → State → State
  | 0, s => s
  | k + 1, s => mapReturns j k (mapReturn j s)

/-- Reclaim the WR at `cidx`: its maps and its slots (R341). -/
def reclaimOne (j : Nat) (s : State) : State :=
  let r := (s.eq j).slot (s.eq j).cidx
  let s := mapReturns j r.mapsUsed s
  let e := s.eq j
  s.setEq j { e with
    mapAvail := e.mapAvail + r.mapsUsed
    cidx := (e.cidx + r.descUsed) % e.cap
    avail := e.avail + r.descUsed }

/-- The reclaim walk of R341, whole WRs only and never past `howmany`: the slots returned. The third argument bounds it. -/
def reclaimLoop (j r howmany : Nat) : Nat → Nat → State → Nat × State
  | 0, got, s => (got, s)
  | n + 1, got, s =>
    let d := ((s.eq j).slot (s.eq j).cidx).descUsed
    if got < r ∧ got + d ≤ howmany then reclaimLoop j r howmany n (got + d) (reclaimOne j s) else (got, s)

/-- `reclaim(eq, atleast, howmany)` after its operand check (R341). -/
def reclaim (j atleast howmany : Nat) (s : State) : Ran Nat :=
  (reclaimable j s).bind fun r s =>
    if r = 0 ∨ r < atleast then .done 0 s
    else if wrTiles (s.eq j) r (s.eq j).cidx r then
      let w := reclaimLoop j r howmany r 0 s
      .done w.1 w.2
    else Ran.raise s .partialCredit (selEq j)

/-- EQ_RECLAIMABLE (R340), in `REG` or `RUN`. -/
def execEqReclaimable (q : Qid) (s : State) : Host.Outcome State Fault Refusal :=
  let j := q.toNat
  .next
    (if (s.eq j).st.registered then (reclaimable j s).finish (fun r => (.ok, r))
     else s.badCmd)

/-- EQ_RECLAIM (R341), in `REG` or `RUN`. -/
def execEqReclaim (q : Qid) (atleast : BitVec 16) (howmany : BitVec 32) (s : State) : Host.Outcome State Fault Refusal :=
  let j := q.toNat
  .next
    (if (s.eq j).st.registered ∧ atleast.toNat ≤ howmany.toNat then
       (reclaim j atleast.toNat howmany.toNat s).finish (fun n => (.ok, n))
     else s.badCmd)

end Sys2Proof.Machine
end

