-- ==== Sys2Proof/Machine/Egress.lean ====
section
/-! DEFINITION. Egress transmission (43_egress_tx.md): single work requests and the transmit loop. -/

namespace Sys2Proof.Machine

/-! ### Single work requests (R285, R288, R290) -/

/-- Write and commit the WR of the packet in the SGL register: flits, map, slots, counters, register (R285, R288). -/
def sendSgl (j : Nat) (flits : List Flit) (nfl : Nat) (count : EqStats → EqStats) (s : State) : State :=
  let p := (s.eq j).sgl.pkt
  let s := eqCommit j nfl 1 (eqMapCommit j (wflits j (Config.slotFlits * (s.eq j).pidx) flits s))
  sglConsume j (eqStats j (fun c => countOffloads p (count c)) s)

/-- `write_pkt(eq)` (R285): the slots of the WR, or `none` for `NO_DESC`, with nothing written and the SGL kept. -/
def writePkt (j : Nat) (s : State) : Option Nat × State :=
  let g := (s.eq j).sgl
  let n := pktWrFlits g.segs
  if (s.eq j).avail < ndesc n then (none, s)
  else (some (ndesc n), sendSgl j (pktWr g.pkt g.segs) n (fun c => { c with sglWrs := c.sglWrs + 1 }) s)

/-- `write_lso(eq)` (R288), with the offload request of the packet in the SGL register. -/
def writeLso (j : Nat) (l : Lso) (s : State) : Option Nat × State :=
  let g := (s.eq j).sgl
  let n := lsoWrFlits g.segs
  if (s.eq j).avail < ndesc n then (none, s)
  else (some (ndesc n), sendSgl j (lsoWr g.pkt l g.segs) n (fun c => { c with tsoWrs := c.tsoWrs + 1 }) s)

/-- The WR of the packet in the SGL register by its kind (R280). -/
def writeOne (j : Nat) (s : State) : Option Nat × State :=
  match (s.eq j).sgl.pkt.lso with
  | none => writePkt j s
  | some l => writeLso j l s

/-- `write_imm(eq, m)` (R290). -/
def writeImm (j : Nat) (p : Packet) (s : State) : Option Nat × State :=
  let n := immWrFlits p.len.toNat
  if (s.eq j).avail < ndesc n then (none, s)
  else
    let s := eqCommit j n 0 (wflits j (Config.slotFlits * (s.eq j).pidx) (immWr p) s)
    (some (ndesc n), eqStats j (fun c => countOffloads p { c with immWrs := c.immWrs + 1 }) (s.emit (.release (.pkt p))))

/-- A packet that may go as immediate data (R284, R290). -/
def immOk (c : Config) (p : Packet) : Bool := p.lso.isNone && decide (p.len.toNat ≤ c.txImmMax)

/-! ### The transmit loop (R280) -/

/-- What became of one packet in the loop of R280. -/
inductive TxStep where
  /-- dropped; not counted as sent -/
  | dropped (s : State)
  /-- joined the open batch; counted, no doorbell check -/
  | coalesced (s : State)
  /-- written as its own WR; counted, and the doorbell checked -/
  | sent (s : State)
  /-- stopped for want of a map (`noMap`) or of descriptors; the packet to keep -/
  | stalled (noMap : Bool) (p : Packet) (s : State)

/-- A packet is in a coalescing context (R284), by what the next `peek` answers. -/
def coalescing (j : Nat) (s : State) : Bool := (s.eq j).batch.accepting || (s.peek j).1.isSome

/-- Flush the open batch before a single WR (R280, R394). -/
def flushFirst (j : Nat) (s : State) : State :=
  if (s.eq j).batch.accepting then (eqDoorbell j false (txpktsFlush j s).2).2 else s

/-- The single WR of a packet in the SGL register, after the open batch (R280). -/
def txSingle (j : Nat) (p : Packet) (s : State) : TxStep :=
  let r := writeOne j (flushFirst j s)
  match r.1 with
  | none => .stalled false p r.2
  | some _ => .sent r.2

/-- A packet in the SGL register: offered to the batch in a coalescing context, else its own WR (R280). -/
def txBuilt (j : Nat) (coal : Bool) (p : Packet) (s : State) : TxStep :=
  if coal && p.lso.isNone then
    let a := txpktsAdd j s
    if a.1 then .coalesced a.2 else txSingle j p a.2
  else txSingle j p s

/-- The SGL path of R280 for one packet. -/
def txSgl (j : Nat) (coal : Bool) (p : Packet) (s : State) : TxStep :=
  let b := sglBuildPkt j p s
  if b.rc = .ok then txBuilt j coal b.pkt b.s
  else if b.rc = .dropped then .dropped b.s
  else .stalled true b.pkt b.s

/-- The body of the loop of R280 for one packet. -/
def txOne (j : Nat) (p : Packet) (s : State) : TxStep :=
  if precheck p then
    let coal := coalescing j s
    let s := (s.peek j).2
    if !coal && immOk s.cfg p then
      let r := writeImm j p s
      match r.1 with
      | none => .stalled false p r.2
      | some _ => .sent r.2
    else txSgl j coal p s
  else .dropped (eqDrop j p s)

/-- How the loop of R280 ended: packets sent, the stall if there was one, the state. -/
structure TxEnd where
  sent  : Nat
  stall : Option Bool
  s     : State

/-- The loop of R280, under fuel: every turn takes a packet, so the length of the source bounds it (log entry 11). A packet in
hand when the limit is reached, or when the loop stalls, is kept in `eq.held` (R280, R301, C10). -/
def txLoop (j limit : Nat) : Nat → Option Packet → Nat → State → TxEnd
  | _, none, sent, s => { sent := sent, stall := none, s := s }
  | 0, some p, sent, s => { sent := sent, stall := none, s := eqHold j (some p) s }
  | fuel + 1, some p, sent, s =>
    if limit = 0 ∨ sent < limit then
      match txOne j p s with
      | .dropped s => txLoop j limit fuel (s.dequeue j).1 sent (s.dequeue j).2
      | .coalesced s => txLoop j limit fuel (s.dequeue j).1 (sent + 1) (s.dequeue j).2
      | .sent s =>
        let s := (eqDoorbell j false s).2
        txLoop j limit fuel (s.dequeue j).1 (sent + 1) (s.dequeue j).2
      | .stalled noMap p s => { sent := sent, stall := some noMap, s := eqHold j (some p) (sglRelease j s) }
    else { sent := sent, stall := none, s := eqHold j (some p) s }

/-- A stall keeps the packet in `eq.held` and gives its map back (R280, R510). Where `eq.held` is full already, the packet of the
SGL register stays there. DEDUCED (log entry 18). -/
def txKeep (j : Nat) (p : Packet) (s : State) : State :=
  match (s.eq j).held with
  | none => eqHold j (some p) (sglRelease j s)
  | some _ => s

/-- The packet that an earlier `SGL_BUILD` left in the SGL register goes first, as the oldest packet the DRC holds (R302). R280
does not read the register before it overwrites it, and R301, R510 and R511 forbid losing its packet; the model keeps the
invariants, as 90_conflicts.md C10 does. It is offered to the open batch once in this EQ_TX, also if a TXPKTS_ADD command
rejected it before: the "offered once" of R394 is read for each EQ_TX. DEDUCED (log entry 18). -/
def txFirst (j : Nat) (s : State) : TxEnd :=
  let p := (s.eq j).sgl.pkt
  if (s.eq j).sgl.valid then
    if precheck p then
      match txBuilt j (coalescing j s) p (s.peek j).2 with
      | .dropped s => { sent := 0, stall := none, s := s }
      | .coalesced s => { sent := 1, stall := none, s := s }
      | .sent s => { sent := 1, stall := none, s := (eqDoorbell j false s).2 }
      | .stalled noMap p s => { sent := 0, stall := some noMap, s := txKeep j p s }
    else { sent := 0, stall := none, s := eqDrop j p (sglRelease j s) }
  else { sent := 0, stall := none, s := s }

/-- The packet loop of R280 behind the packet of the SGL register. -/
def txPackets (j limit : Nat) (e : TxEnd) : TxEnd :=
  match e.stall with
  | some _ => e
  | none =>
    let t := takePacket j e.s
    txLoop j limit ((t.2.src j).length + 1) t.1 e.sent t.2

/-- What R280 does after its loop: flush, stall or clear, forced doorbell. -/
def txEnd (j : Nat) (stall : Option Bool) (s : State) : State :=
  let s := (txpktsFlush j s).2
  let s :=
    match stall with
    | some noMap => stallFlush j noMap s
    | none => s.setEq j { s.eq j with stalled := false }
  (eqDoorbell j true s).2

/-- The opportunistic reclaim of R280 and R342. -/
def txReclaim (j : Nat) (s : State) : Ran Unit :=
  if (s.eq j).avail < s.cfg.txLowCredit then (reclaim j 0 s.cfg.txReclaimBatch s).bind fun _ s => .done () s
  else .done () s

/-- The transmit part of EQ_TX after its reclaim (R280): result code and packets sent. -/
def txRun (j limit : Nat) (s : State) : (RC × Nat) × State :=
  let e := txPackets j limit (txFirst j s)
  ((if e.stall.isSome then .stalled else .ok, e.sent), txEnd j e.stall e.s)

/-! ### Commands -/

/-- EQ_TX (R280). -/
def execEqTx (q : Qid) (limit : BitVec 32) (s : State) : Host.Outcome State Fault Refusal :=
  let j := q.toNat
  .next
    (if (s.eq j).st = .run then
       ((txReclaim j (s.setEq j { s.eq j with resumeReq := false })).bind fun _ s =>
         let r := txRun j limit.toNat s
         .done r.1 r.2).finish id
     else s.badCmd)

/-- How EQ_WR_PKT and EQ_WR_LSO end (R285, R288). Without credit the SGL is kept, as R285 says, and its packet is in `eq.held`,
as the table of R510 says. -/
def wrResult (j : Nat) (r : Option Nat × State) : State :=
  match r.1 with
  | none => (sglHold j r.2).finish .noDesc 0
  | some n => r.2.finish .ok n

/-- EQ_WR_PKT (R285). -/
def execEqWrPkt (q : Qid) (s : State) : Host.Outcome State Fault Refusal :=
  let j := q.toNat
  let e := s.eq j
  .next
    (if e.st = .run ∧ e.batch.accepting = false ∧ e.sgl.valid ∧ e.sgl.pkt.lso.isNone then wrResult j (writePkt j s)
     else s.badCmd)

/-- EQ_WR_LSO (R288). -/
def execEqWrLso (q : Qid) (s : State) : Host.Outcome State Fault Refusal :=
  let j := q.toNat
  let e := s.eq j
  .next
    (match e.sgl.pkt.lso with
     | none => s.badCmd
     | some l =>
       if e.st = .run ∧ e.batch.accepting = false ∧ e.sgl.valid then wrResult j (writeLso j l s) else s.badCmd)

/-- EQ_WR_IMM with the packet of `eq.held` in the SGL register: sent, it leaves the register and gives its map back
(`sgl_release`, R282), since immediate data uses none (R290); not sent, it stays where it is. DEDUCED (log entry 40). -/
def immHeld (j : Nat) (s : State) : State :=
  let p := (s.eq j).sgl.pkt
  if immOk s.cfg p then
    let r := writeImm j p (sglRelease j s)
    match r.1 with
    | none => s.finish .noDesc 0
    | some n => r.2.finish .ok n
  else s.badCmd

/-- EQ_WR_IMM (R290). A packet it cannot send goes to, or stays in, `eq.held`. -/
def execEqWrImm (q : Qid) (s : State) : Host.Outcome State Fault Refusal :=
  let j := q.toNat
  let e := s.eq j
  .next
    (if e.st = .run ∧ e.batch.accepting = false then
       if e.heldInSgl then immHeld j s
       else
         let t := takePacket j s
         match t.1 with
         | none => t.2.finish .empty 0
         | some p =>
           if immOk s.cfg p then
             let r := writeImm j p t.2
             match r.1 with
             | none => (eqHold j (some p) r.2).finish .noDesc 0
             | some n => r.2.finish .ok n
           else (eqHold j (some p) t.2).badCmd
     else s.badCmd)

/-- EQ_WR_FLUSH (R293). -/
def execEqWrFlush (q : Qid) (s : State) : Host.Outcome State Fault Refusal :=
  let j := q.toNat
  let e := s.eq j
  .next
    (if e.st = .run ∧ e.batch.accepting = false then
       let r := writeFlush j s
       if r.1 then r.2.finish .ok 1 else r.2.finish .noDesc 0
     else s.badCmd)

/-- EQ_DOORBELL (R296). -/
def execEqDoorbell (q : Qid) (force : Bool) (s : State) : Host.Outcome State Fault Refusal :=
  let j := q.toNat
  .next
    (if (s.eq j).st = .run then
       let r := eqDoorbell j force s
       r.2.finish .ok r.1
     else s.badCmd)

end Sys2Proof.Machine
end

