-- ==== Sys2Proof/Machine/Ingress.lean ====
section
/-! DEFINITION. The ingress queue (41_ingress.md): generation-bit comparator, dispatch by role, cursor, credit return and
the service loop. -/

namespace Sys2Proof.Machine

/-! ### Entry access (R199) -/

/-- The address of the entry at the cursor. -/
def entryAddr (j : Nat) (s : State) : Addr := slotAddr (s.iq j).base (s.iq j).esize (s.iq j).cidx

/-- `ctrl_of(iq)`: the last 16 bytes of the entry, of which byte 8 and bytes 4..7 are read. -/
def ctrlOf (j : Nat) (s : State) : Ctrl :=
  let a := entryAddr j s + BitVec.ofNat 64 ((s.iq j).esize - 16)
  { typeGen := s.readByte (a + 8), lenqid := s.read32 (a + 4) }

/-- `is_new(iq)`: the generation bit matches the queue's. -/
def isNew (j : Nat) (s : State) : Bool := (ctrlOf j s).gen == (s.iq j).gen

/-- Byte `k` of `payload(iq)`. -/
def payloadByte (j k : Nat) (s : State) : Byte := s.readByte (entryAddr j s + BitVec.ofNat 64 k)

/-- `payload(iq)`, `esize − 16` bytes. -/
def payload (j : Nat) (s : State) : List Byte := s.readBytes (entryAddr j s) ((s.iq j).esize - 16)

/-- `BE32(p.byte[0..3])[16:0]` (R154). -/
def egrQid (j : Nat) (s : State) : Nat := ((s.read32 (entryAddr j s)).extractLsb' 0 17).toNat

/-- The metadata of a `CPL_RX_PKT` (R153, R204). -/
def rxMeta (j : Nat) (s : State) : RxMeta where
  csumCalc := (payloadByte j 1 s).getLsbD 3
  csum := payloadByte j 2 s ++ payloadByte j 3 s
  vlanEx := (payloadByte j 1 s).getLsbD 1
  vlan := payloadByte j 4 s ++ payloadByte j 5 s

/-! ### Cursor and credit (R201, R210) -/

/-- `advance(iq)` (R201); the test is `cidx + 1 < cap`, which is `cidx ≠ cap − 1` for a cursor inside the ring
(log entry 28). -/
def advance (q : IQ) : IQ :=
  if q.cidx + 1 < q.cap then { q with cidx := q.cidx + 1 } else { q with cidx := 0, gen := !q.gen }

/-- `credit_return(iq)` (R210). -/
def creditReturn (j : Nat) (s : State) : State :=
  let s := s.gts j
  s.setIq j { s.iq j with ncons := 0 }

/-! ### Dispatch (R204 to R208) -/

/-- `egress_progress(id)` (R207). -/
def egressProgress (j id : Nat) (s : State) : Ran Unit :=
  match s.lookup id with
  | none => Ran.raise s .badQid (selIq j)
  | some t =>
    if t.type = .eq ∧ (s.eq t.index).st.registered then .done () (eqProgress t.index s)
    else Ran.raise s .badQid (selIq j)

/-- The receive counters of R204. -/
def rxCount (md : RxMeta) (q : IQ) : IQ :=
  { q with
    rxPkts := q.rxPkts + 1
    rxcsum := bumpIf md.csumCalc q.rxcsum
    vlanExtraction := bumpIf md.vlanEx q.vlanExtraction }

/-- A frame taken and delivered with its metadata (R204). An RX queue without a free list has no published buffer at all,
so its frame underruns too; the lifecycle rules exclude that state (log entry 20). -/
def rxFrame (j len : Nat) (s : State) : Ran Unit :=
  match (s.iq j).fl with
  | none => Ran.raise s .flUnderrun (selIq j)
  | some f =>
    let md := rxMeta j s
    (flTake f len s).bind fun r s =>
      let s := s.emit (.deliver r.1 (some md))
      .done () (s.setIq j (rxCount md (s.iq j)))

/-- `dispatch_rx` (R204). A frame of length 0 is an unexpected response. -/
def dispatchRx (j : Nat) (s : State) : Ran Unit :=
  let c := ctrlOf j s
  if c.type = typeFlbuf then
    if payloadByte j 0 s ≠ cplRxPkt ∨ c.len = 0 then Ran.raise s .unexpectedRsp (selIq j) else rxFrame j c.len s
  else if c.type = typeCpl then
    if payloadByte j 0 s = cplEgrUpdate then egressProgress j (egrQid j s) s else Ran.raise s .unexpectedRsp (selIq j)
  else Ran.raise s .unexpectedRsp (selIq j)

/-- `dispatch_fw` (R205). -/
def dispatchFw (j : Nat) (s : State) : Ran Unit :=
  if (ctrlOf j s).type ≠ typeCpl then Ran.raise s .unexpectedRsp (selIq j)
  else if payloadByte j 0 s = cplFw4Msg ∨ payloadByte j 0 s = cplFw6Msg then
    .done () (s.emit (.cmdReply (payload j s)))
  else if payloadByte j 0 s = cplEgrUpdate then egressProgress j (egrQid j s) s
  else Ran.raise s .unexpectedRsp (selIq j)

/-- `dispatch_fwd` (R206). -/
def dispatchFwd (j : Nat) (s : State) : Ran Unit :=
  if (ctrlOf j s).type ≠ typeIntr then Ran.raise s .unexpectedRsp (selIq j)
  else
    match s.lookup (ctrlOf j s).qid with
    | none => Ran.raise s .badQid (selIq j)
    | some t =>
      if t.type = .iq ∧ (s.iq t.index).st = .run then .done () (s.setIq t.index { s.iq t.index with svcReq := true })
      else Ran.raise s .badQid (selIq j)

/-- Dispatch by the queue's role (R203, R47). -/
def dispatch (j : Nat) (s : State) : Ran Unit :=
  match (s.iq j).role with
  | .rx => dispatchRx j s
  | .fwEvt => dispatchFw j s
  | .intrFwd => dispatchFwd j s

/-! ### Consuming (R203, R212) -/

/-- After dispatch: advance, count, and return credit at the batch threshold (R203). -/
def consumed (j : Nat) (s : State) : State :=
  let q := advance (s.iq j)
  let q := { q with ncons := q.ncons + 1 }
  let s := s.setIq j q
  if q.ncons = q.creditBatch then creditReturn j s else s

/-- The body of R203 after its `is_new` test. -/
def consumeOne (j : Nat) (s : State) : Ran Unit := (dispatch j s).bind fun _ s => .done () (consumed j s)

/-- The loop of R212, under fuel: entries consumed, and whether it ended on a stale entry. No command writes ring memory
inside the loop, so `cap + 2` turns are always enough (log entry 11). -/
def serviceLoop (j budget : Nat) : Nat → Nat → State → Ran (Nat × Bool)
  | 0, n, s => .done (n, false) s
  | fuel + 1, n, s =>
    if budget ≠ 0 ∧ n = budget then .done (n, false) s
    else if isNew j s then (consumeOne j s).bind fun _ s => serviceLoop j budget fuel (n + 1) s
    else .done (n, true) s

/-- The refill after an RX service (R212). -/
def serviceRefill (j : Nat) (s : State) : State :=
  match (s.iq j).role, (s.iq j).fl with
  | .rx, some f => (flDoorbell f false (flRefill f (s.fl f).needed s).2).2
  | _, _ => s

/-- What R212 does after its loop. -/
def serviceEnd (j : Nat) (stale : Bool) (s : State) : State :=
  let s := serviceRefill j (creditReturn j s)
  if stale then s.setIq j { s.iq j with svcReq := false } else s

/-! ### Commands -/

/-- IQ_CHECK (R200). -/
def execIqCheck (q : Qid) (s : State) : Host.Outcome State Fault Refusal :=
  let j := q.toNat
  .next
    (if (s.iq j).st = .run then (if isNew j s then s.finish .ok 1 else s.finish .empty 0)
     else s.badCmd)

/-- IQ_CONSUME (R203). -/
def execIqConsume (q : Qid) (s : State) : Host.Outcome State Fault Refusal :=
  let j := q.toNat
  .next
    (if (s.iq j).st = .run then
       (if isNew j s then (consumeOne j s).finish (fun _ => (.ok, (ctrlOf j s).type.toNat)) else s.finish .empty 0)
     else s.badCmd)

/-- IQ_CREDIT (R210). -/
def execIqCredit (q : Qid) (s : State) : Host.Outcome State Fault Refusal :=
  let j := q.toNat
  .next
    (if (s.iq j).st = .run then (creditReturn j s).finish .ok (s.iq j).ncons
     else s.badCmd)

/-- IQ_SERVICE (R212). -/
def execIqService (q : Qid) (budget : BitVec 32) (s : State) : Host.Outcome State Fault Refusal :=
  let j := q.toNat
  .next
    (if (s.iq j).st = .run then
       ((serviceLoop j budget.toNat ((s.iq j).cap + 2) 0 s).bind
         (fun r s => .done r.1 (serviceEnd j r.2 s))).finish (fun n => (if n = 0 then .empty else .ok, n))
     else s.badCmd)

end Sys2Proof.Machine
end

