-- ==== Sys2Proof/Machine/Lifecycle.lean ====
section
/-! DEFINITION. The queue lifecycle (47_lifecycle.md): the handshake, allocation, start, stop, free and teardown. -/

namespace Sys2Proof.Machine

/-! ### The handshake (R420, R421) -/

/-- `PEER.cmd(r)` for queue `j` of type `t`, with the log an `err` answer leaves (R421). -/
def handshake (t : QType) (j : Nat) (r : PeerReq) (s : State) : PeerAnswer × State :=
  let a := s.peerCmd r
  match a.1 with
  | .ok id => (.ok id, a.2)
  | .err c => (.err c, a.2.emit (.log r t j c))

/-- A context id of a queue of type `t`: 17 bits for an EQ, 16 for the others (R420, log entry 3). -/
def ctxIdFor (t : QType) (id : BitVec 17) : BitVec 17 :=
  match t with
  | .iq | .fl => (id.setWidth 16).setWidth 17
  | .eq => id

/-! ### Dependency checks (R422) -/

/-- No free list with memory has IQ `j` as owner. -/
def noFlDepends (j : Nat) (s : State) : Bool :=
  s.fls.all fun c => decide ((s.fl c.1).st = .uninit) || decide ((s.fl c.1).owner ≠ j)

/-- No EQ with memory notifies IQ `j`. -/
def noEqDepends (j : Nat) (s : State) : Bool :=
  s.eqs.all fun c => decide ((s.eq c.1).st = .uninit) || decide ((s.eq c.1).iq ≠ j)

/-- No IQ with memory forwards its interrupts to IQ `j`. -/
def noIqDepends (j : Nat) (s : State) : Bool :=
  s.iqs.all fun c => decide ((s.iq c.1).st = .uninit) || !(s.iq c.1).fwd || decide ((s.iq c.1).tgt.toNat ≠ j)

/-- The check of R422 for starting: an RX IQ needs its free list in `RUN`. -/
def canStart (t : QType) (j : Nat) (s : State) : Bool :=
  match t with
  | .iq =>
    match (s.iq j).role, (s.iq j).fl with
    | .rx, some f => decide ((s.fl f).st = .run)
    | .rx, none => false
    | .fwEvt, _ | .intrFwd, _ => true
  | .fl | .eq => true

/-- The check of R422 for stopping: a free list's owner is not in `RUN`. -/
def canStop (t : QType) (j : Nat) (s : State) : Bool :=
  match t with
  | .fl => decide ((s.iq (s.fl j).owner).st ≠ .run)
  | .iq | .eq => true

/-- The checks of R422 for freeing: no record depends on an IQ, a free list's owner is not in `RUN`. So the free list of an RX
queue is torn down before the queue, where R603 names the queue first. DEDUCED (log entry 43). -/
def canFree (t : QType) (j : Nat) (s : State) : Bool :=
  match t with
  | .iq => noFlDepends j s && noEqDepends j s && noIqDepends j s
  | .fl => decide ((s.iq (s.fl j).owner).st ≠ .run)
  | .eq => true

/-! ### Allocation (R424 to R426) -/

/-- A registered queue: its id, its `QMAP` pair, `REG`, and PEER's fresh view of it (R62, log entry 14). -/
def register (t : QType) (j : Nat) (id : BitVec 17) (s : State) : State :=
  let s := s.setQmap (Tab.put s.qmap id.toNat { type := t, index := j })
  match t with
  | .iq => (s.setIq j { s.iq j with cntxtId := id.setWidth 16, st := .reg }).setPeerIq j PeerIq.reset
  | .fl => (s.setFl j { s.fl j with cntxtId := id.setWidth 16, st := .reg }).setPeerFl j PeerFl.reset
  | .eq => (s.setEq j { s.eq j with cntxtId := id, st := .reg }).setPeerEq j PeerEq.reset

/-- The end of every allocation, on a queue in `MEM`: the handshake, and the registration if it gives a fresh id. A reused
id is logged with code 0 (R421, R424, log entry 30). -/
def allocEnd (t : QType) (j : Nat) (r : PeerReq) (s : State) : State :=
  let a := handshake t j r s
  match a.1 with
  | .err c => a.2.finish .cmdFail c.toNat
  | .ok id0 =>
    let id := ctxIdFor t id0
    if (a.2.lookup id.toNat).isSome then (a.2.emit (.log r t j 0)).finish .cmdFail 0
    else (register t j id a.2).finish .ok id.toNat

/-- The record `Q_ALLOC_IQ` writes before its handshake (R424). -/
def freshIq (c : Config) (old : IQ) (base : Addr) (cap esize : Nat) (role : Role) (tmr pktc : BitVec 3) (fwd : Bool)
    (tgt : Qid) : IQ :=
  { old with
    st := .mem
    base := base
    cap := cap
    esize := esize
    role := role
    tmrIdx := tmr
    pktcIdx := pktc
    fwd := fwd
    tgt := tgt
    cidx := 0
    gen := true
    ncons := 0
    creditBatch := creditBatch c cap
    fl := none
    svcReq := false
    rxcsum := 0
    vlanExtraction := 0
    rxPkts := 0 }

/-- The record `Q_ALLOC_FL` writes before its handshake (R425). -/
def freshFl (old : FL) (base : Addr) (cap owner : Nat) : FL :=
  { old with
    st := .mem
    base := base
    cap := cap
    owner := owner
    pidx := 0
    cidx := 0
    needed := cap - 1
    pending := 0
    cls := 0
    sd := []
    allocFail := 0
    mapFail := 0 }

/-- TX_MAPS of a queue (R10): the listed size where it is larger than `cap` and at most 65536, else `2 · cap` (log entry 33). -/
def txMapsFor (c : Config) (j cap : Nat) : Nat :=
  match Tab.find c.txMaps j with
  | some m => if cap < m ∧ m ≤ 65536 then m else 2 * cap
  | none => 2 * cap

/-- The record `Q_ALLOC_EQ` writes before its handshake (R426). The SGL register keeps its other fields: only `sg_valid` and
`map_held` are written. The batch cursor is unspecified (R58). -/
def freshEq (old : EQ) (base : Addr) (cap iq txMaps cur : Nat) : EQ :=
  { old with
    st := .mem
    base := base
    cap := cap
    statAddr := base + BitVec.ofNat 64 (cap * Config.eqEsize)
    iq := iq
    pidx := 0
    cidx := 0
    avail := cap - 1
    pending := 0
    stalled := false
    flushOut := false
    resumeReq := false
    held := none
    sd := []
    txMaps := txMaps
    maps := []
    mapPidx := 0
    mapCidx := 0
    mapAvail := txMaps
    batch := Batch.empty cur
    sgl := { old.sgl with valid := false, mapHeld := false }
    stats := EqStats.zero }

/-- The forwarding queue of `Q_ALLOC_IQ` is an `INTR_FWD` queue in `REG` or `RUN` (R424). -/
def fwdOk (fwd : Bool) (tgt : Qid) (s : State) : Bool :=
  !fwd || (decide ((s.iq tgt.toNat).role = .intrFwd) && (s.iq tgt.toNat).st.registered)

/-- The interrupt target `t` of the handshake: the forwarding queue's context id, or the vector (R424). -/
def intrTarget (fwd : Bool) (tgt : Qid) (s : State) : BitVec 16 :=
  if fwd then (s.iq tgt.toNat).cntxtId else tgt.setWidth 16

/-- The owner of `Q_ALLOC_FL` is an RX queue in `MEM` or `REG` without a free list (R425). -/
def ownerOk (o : Nat) (s : State) : Bool :=
  decide ((s.iq o).role = .rx) && decide ((s.iq o).st = .mem ∨ (s.iq o).st = .reg) && (s.iq o).fl.isNone

/-- The notification queue of `Q_ALLOC_EQ` is a FW_EVT or RX queue in `REG` or `RUN` (R426). -/
def notifyOk (i : Nat) (s : State) : Bool :=
  decide ((s.iq i).role = .fwEvt ∨ (s.iq i).role = .rx) && (s.iq i).st.registered

/-! ### Stop and teardown (R428, R429) -/

/-- Take the newest map back from the open batch and return its packet (R429). -/
def discardMap (j : Nat) (s : State) : State :=
  let e := s.eq j
  let k := (e.mapPidx + e.txMaps - 1) % e.txMaps
  let s :=
    match Tab.find e.maps k with
    | none => s
    | some p => (s.emit (.unmap (.pkt p))).emit (.release (.pkt p))
  s.setEq j { s.eq j with maps := Tab.del e.maps k, mapPidx := k }

/-- The maps of the open batch, newest first (R429). -/
def discardMaps (j : Nat) : Nat → State → State
  | 0, s => s
  | k + 1, s => discardMaps j k (discardMap j s)

/-- The open batch is emptied; its cursor keeps its value (R429). -/
def discardBatch (j : Nat) (s : State) : State :=
  let n := (s.eq j).batch.nmaps
  let s := discardMaps j n s
  s.setEq j { s.eq j with mapAvail := (s.eq j).mapAvail + n, batch := Batch.empty (s.eq j).batch.cur }

/-- The packet of the SGL register goes back to HOST (R429, R282). -/
def discardSgl (j : Nat) (s : State) : State :=
  if (s.eq j).sgl.valid then (sglRelease j s).emit (.release (.pkt (s.eq j).sgl.pkt)) else s

/-- The held packet goes back to HOST (R429). -/
def discardHeld (j : Nat) (s : State) : State :=
  match (s.eq j).held with
  | none => s
  | some p => eqHold j none (s.emit (.release (.pkt p)))

/-- `discard_tx(eq)` (R429). -/
def discardTx (j : Nat) (s : State) : State :=
  let s := discardHeld j (discardSgl j (discardBatch j s))
  s.setEq j { s.eq j with stalled := false, flushOut := false, resumeReq := false }

/-- `discard_tx` for an EQ, nothing for the other types. -/
def discardFor (t : QType) (j : Nat) (s : State) : State :=
  match t with
  | .eq => discardTx j s
  | .iq | .fl => s

/-- Give every buffer of a free list back to HOST, in slot order (R428). -/
def releaseBufs : Tab FlSlot → State → State
  | [], s => s
  | c :: t, s =>
    match c.2.own with
    | .empty => releaseBufs t s
    | .posted b => releaseBufs t ((s.emit (.unmap (.rx b.buf))).emit (.release (.rx b.buf)))
    | .retained b => releaseBufs t ((s.emit (.unmap (.rx b.buf))).emit (.release (.rx b.buf)))

/-- Give every packet with a map back to HOST, in map order (R428). -/
def releaseMaps : Tab Packet → State → State
  | [], s => s
  | c :: t, s => releaseMaps t ((s.emit (.unmap (.pkt c.2))).emit (.release (.pkt c.2)))

/-- The disable requests of a teardown, logged and not aborting: the failures counted (R428). -/
def disable (t : QType) (j : Nat) (s : State) : Nat × State :=
  let id := s.ctxId t j
  let a := if s.qst t j = .run then handshake t j (.stop t id) s else (.ok 0, s)
  let s1 := if s.qst t j = .run then discardFor t j a.2 else a.2
  let b := if (s.qst t j).registered then handshake t j (.free t id) s1 else (.ok 0, s1)
  let s2 := if (s.qst t j).registered then b.2.setQmap (Tab.del b.2.qmap id.toNat) else b.2
  ((match a.1 with | .ok _ => 0 | .err _ => 1) + (match b.1 with | .ok _ => 0 | .err _ => 1), s2)

/-- The buffers a teardown releases, and its effect on the owner IQ (R428, R110). -/
def releaseAll (t : QType) (j : Nat) (s : State) : State :=
  match t with
  | .iq => s
  | .fl =>
    let o := (s.fl j).owner
    let s := releaseBufs (s.fl j).sd s
    s.setIq o { s.iq o with fl := none }
  | .eq =>
    let s := if (s.eq j).st = .mem then discardTx j s else s
    releaseMaps (s.eq j).maps s

/-- The record back to `UNINIT`: its statistics stay, the batch of an EQ is empty (R390), and every other field is unspecified
(R428, log entry 7). -/
def forget (t : QType) (j : Nat) (s : State) : State :=
  let n := s.draws
  let s := { s with draws := n + 1 }
  match t with
  | .iq =>
    let q := s.iq j
    s.setIq j { Config.freeIq n with
      st := .uninit, rxcsum := q.rxcsum, vlanExtraction := q.vlanExtraction, rxPkts := q.rxPkts }
  | .fl =>
    let f := s.fl j
    s.setFl j { Config.freeFl n with st := .uninit, allocFail := f.allocFail, mapFail := f.mapFail }
  | .eq =>
    let e := s.eq j
    s.setEq j { Config.freeEq n with
      st := .uninit, stats := e.stats, batch := Batch.empty (Config.freeEq n).batch.cur }

/-- The body of a teardown of a queue that has memory (R428). -/
def teardown (t : QType) (j : Nat) (s : State) : Nat × State :=
  let d := disable t j s
  let s := releaseAll t j d.2
  (d.1, forget t j (s.emit (.dmaFree (s.baseOf t j))))

/-! ### Commands -/

/-- Q_ALLOC_IQ (R424). -/
def execQAllocIq (q : Qid) (role : Role) (tmr pktc : BitVec 3) (esize : ESize) (fwd : Bool) (capM1 : BitVec 16) (tgt : Qid)
    (s : State) : Host.Outcome State Fault Refusal :=
  let j := q.toNat
  let cap := capM1.toNat + 1
  let es := esize.bytes
  .next
    (if (s.iq j).st = .uninit ∧ fwdOk fwd tgt s then
       let r := s.dmaAlloc (cap * es) es
       match r.1 with
       | none => r.2.finish .noBuf 0
       | some base =>
         let s := (r.2.zeroFill base (cap * es)).setIq j (freshIq r.2.cfg (r.2.iq j) base cap es role tmr pktc fwd tgt)
         allocEnd .iq j (.allocIq base cap es role fwd (intrTarget fwd tgt s) tmr pktc) s
     else s.badCmd)

/-- Q_ALLOC_FL (R425). -/
def execQAllocFl (q : Qid) (capM1 : BitVec 16) (iq : Qid) (s : State) : Host.Outcome State Fault Refusal :=
  let j := q.toNat
  let o := iq.toNat
  let cap := capM1.toNat + 1
  .next
    (if (s.fl j).st = .uninit ∧ ownerOk o s then
       let r := s.dmaAlloc (cap * Config.flEsize) Config.flEsize
       match r.1 with
       | none => r.2.finish .noBuf 0
       | some base =>
         let s := (r.2.zeroFill base (cap * Config.flEsize)).setFl j (freshFl (r.2.fl j) base cap o)
         let s := s.setIq o { s.iq o with fl := some j }
         allocEnd .fl j (.allocFl base cap o) s
     else s.badCmd)

/-- Q_ALLOC_EQ (R426). -/
def execQAllocEq (q : Qid) (capM1 : BitVec 16) (iq : Qid) (s : State) : Host.Outcome State Fault Refusal :=
  let j := q.toNat
  let i := iq.toNat
  let cap := capM1.toNat + 1
  let bytes := cap * Config.eqEsize + Config.statusBytes
  .next
    (if (s.eq j).st = .uninit ∧ notifyOk i s then
       let r := s.dmaAlloc bytes Config.eqEsize
       match r.1 with
       | none => r.2.finish .noBuf 0
       | some base =>
         let c := r.2.freshCur
         let s := (c.2.zeroFill base bytes).setEq j (freshEq (c.2.eq j) base cap i (txMapsFor c.2.cfg j cap) c.1)
         allocEnd .eq j (.allocEq base cap (s.eq j).statAddr (s.iq i).cntxtId) s
     else s.badCmd)

/-- What `Q_START` does after its handshake (R427): its value and the state. -/
def started (t : QType) (j : Nat) (s : State) : Nat × State :=
  match t with
  | .iq => (0, creditReturn j s)
  | .fl =>
    let r := flRefill j (s.fl j).needed s
    (r.1.2, (flDoorbell j true r.2).2)
  | .eq => (0, s)

/-- Q_START (R427). -/
def execQStart (q : Qid) (t : QType) (s : State) : Host.Outcome State Fault Refusal :=
  let j := q.toNat
  .next
    (if s.qst t j = .reg ∧ canStart t j s then
       let a := handshake t j (.start t (s.ctxId t j)) s
       match a.1 with
       | .err c => a.2.finish .cmdFail c.toNat
       | .ok _ =>
         let r := started t j (a.2.setSt t j .run)
         r.2.finish .ok r.1
     else s.badCmd)

/-- Q_STOP (R429). -/
def execQStop (q : Qid) (t : QType) (s : State) : Host.Outcome State Fault Refusal :=
  let j := q.toNat
  .next
    (if s.qst t j = .run ∧ canStop t j s then
       let a := handshake t j (.stop t (s.ctxId t j)) s
       match a.1 with
       | .err c => a.2.finish .cmdFail c.toNat
       | .ok _ => (discardFor t j (a.2.setSt t j .reg)).finish .ok 0
     else s.badCmd)

/-- Q_FREE (R430). -/
def execQFree (q : Qid) (t : QType) (s : State) : Host.Outcome State Fault Refusal :=
  let j := q.toNat
  .next
    (if s.qst t j = .reg ∧ canFree t j s then
       let a := handshake t j (.free t (s.ctxId t j)) s
       match a.1 with
       | .err c => a.2.finish .cmdFail c.toNat
       | .ok _ =>
         let s := a.2.setQmap (Tab.del a.2.qmap (s.ctxId t j).toNat)
         (s.setSt t j .mem).finish .ok 0
     else s.badCmd)

/-- Q_TEARDOWN (R428). A queue without memory answers OK before any check (log entry 17). -/
def execQTeardown (q : Qid) (t : QType) (s : State) : Host.Outcome State Fault Refusal :=
  let j := q.toNat
  .next
    (if s.qst t j = .uninit then s.finish .ok 0
     else if canStop t j s ∧ canFree t j s then
       let r := teardown t j s
       r.2.finish .ok r.1
     else s.badCmd)

end Sys2Proof.Machine
end

