-- ==== Sys2Proof/Machine/Dispatch.lean ====
section
/-! DEFINITION. One arm per command (R141). -/

namespace Sys2Proof.Machine

def exec (i : Instr) (s : State) : Host.Outcome State Fault Refusal :=
  match i with
  | .iqCheck q => Sys2Proof.Machine.execIqCheck q s
  | .iqConsume q => Sys2Proof.Machine.execIqConsume q s
  | .iqCredit q => Sys2Proof.Machine.execIqCredit q s
  | .iqService q budget => Sys2Proof.Machine.execIqService q budget s
  | .flSelect q mtu => Sys2Proof.Machine.execFlSelect q mtu s
  | .flRefill q n => Sys2Proof.Machine.execFlRefill q n s
  | .flTake q len => Sys2Proof.Machine.execFlTake q len s
  | .flDoorbell q force => Sys2Proof.Machine.execFlDoorbell q force s
  | .eqTx q limit => Sys2Proof.Machine.execEqTx q limit s
  | .eqWrPkt q => Sys2Proof.Machine.execEqWrPkt q s
  | .eqWrLso q => Sys2Proof.Machine.execEqWrLso q s
  | .eqWrImm q => Sys2Proof.Machine.execEqWrImm q s
  | .eqWrFlush q => Sys2Proof.Machine.execEqWrFlush q s
  | .eqDoorbell q force => Sys2Proof.Machine.execEqDoorbell q force s
  | .eqReclaimable q => Sys2Proof.Machine.execEqReclaimable q s
  | .eqReclaim q atleast howmany => Sys2Proof.Machine.execEqReclaim q atleast howmany s
  | .sglBuild q => Sys2Proof.Machine.execSglBuild q s
  | .sglWrite q f => Sys2Proof.Machine.execSglWrite q f s
  | .txpktsAdd q => Sys2Proof.Machine.execTxpktsAdd q s
  | .txpktsFlush q => Sys2Proof.Machine.execTxpktsFlush q s
  | .qAllocIq q role tmr pktc esize fwd capM1 tgt => Sys2Proof.Machine.execQAllocIq q role tmr pktc esize fwd capM1 tgt s
  | .qAllocFl q capM1 iq => Sys2Proof.Machine.execQAllocFl q capM1 iq s
  | .qAllocEq q capM1 iq => Sys2Proof.Machine.execQAllocEq q capM1 iq s
  | .qStart q t => Sys2Proof.Machine.execQStart q t s
  | .qStop q t => Sys2Proof.Machine.execQStop q t s
  | .qFree q t => Sys2Proof.Machine.execQFree q t s
  | .qTeardown q t => Sys2Proof.Machine.execQTeardown q t s

end Sys2Proof.Machine
end

