-- ==== Sys2Proof/Machine/Environment.lean ====
section
/-! DEFINITION. What HOST and PEER do between two commands (R5, R62, R112 to R116, R520), one function per event. A PEER
action outside its obligations is no such action and changes nothing, except `peerStatus`, `peerUse` and `peerStore`, which
also stand for what PEER does against them. -/

namespace Sys2Proof.Machine

/-- HOST or PEER prepares an answer: it goes behind the answers already waiting (log entry 2). -/
def HostIn.answer (h : HostIn) : Answer → HostIn
  | .mapLoad a => { h with mapLoad := h.mapLoad ++ [a] }
  | .compact a => { h with compact := h.compact ++ [a] }
  | .mapCreate a => { h with mapCreate := h.mapCreate ++ [a] }
  | .bufAlloc a => { h with bufAlloc := h.bufAlloc ++ [a] }
  | .bufMap a => { h with bufMap := h.bufMap ++ [a] }
  | .dmaAlloc a => { h with dmaAlloc := h.dmaAlloc ++ [a] }
  | .peer a => { h with peer := h.peer ++ [a] }

def State.setHost (s : State) (h : HostIn) : State := { s with host := h }

/-- HOST adds an item at the end of an EQ's packet source (R13). -/
def hostSubmit (j : Nat) (item : SrcItem) (s : State) : State := s.setSrc j (s.src j ++ [item])

/-- PEER_IQ_MAX of a queue (R10): the listed bound, else `cap − 1`. R10 gives no upper bound, and a listed value above `cap`
lets PEER overwrite entries the DRC has not consumed. DESIGN CHOICE (log entry 38). -/
def peerIqMax (j : Nat) (s : State) : Nat := (Tab.find s.cfg.peerIqMax j).getD ((s.iq j).cap - 1)

/-- An entry of `esize` bytes as PEER writes it: the given bytes, missing ones zero, with PEER's generation in bit 7 of the
control word's byte 8 (R116, R150). -/
def peerEntryBytes (esize : Nat) (gen : Bool) (bytes : List Byte) : List Byte :=
  (List.range esize).map fun k =>
    let b := bytes.getD k 0
    if k + 8 = esize then BitVec.ofBool gen ++ b.extractLsb' 0 7 else b

/-- PEER's index and generation after one entry (R116). -/
def peerIqNext (cap : Nat) (p : PeerIq) : PeerIq :=
  let p := { p with written := p.written + 1 }
  if p.pidx + 1 < cap then { p with pidx := p.pidx + 1 } else { p with pidx := 0, gen := !p.gen }

/-- PEER may write an entry: the queue runs and the bound of R116 leaves room. -/
def peerRoom (j : Nat) (s : State) : Bool :=
  decide ((s.iq j).st = .run ∧ (s.peerIqOf j).written - (s.peerIqOf j).cred < peerIqMax j s)

/-- PEER writes one whole entry at its index (R112, R116, D38), if it may. -/
def peerWriteEntry (j : Nat) (bytes : List Byte) (s : State) : State :=
  let q := s.iq j
  let p := s.peerIqOf j
  if peerRoom j s then
    (s.setMem (Memory.setBytes s.mem (slotAddr q.base q.esize p.pidx) (peerEntryBytes q.esize p.gen bytes))).setPeerIq j
      (peerIqNext q.cap p)
  else s

/-! ### Entries PEER writes by their formats (R150 to R154); the bytes and bits the format leaves open are the event's -/

/-- Byte 8 of a control word with its `TYPE` (R150). -/
def typedByte (t : BitVec 2) (b : Byte) : Byte := (b.extractLsb' 6 2 ++ t) ++ b.extractLsb' 0 4

/-- The entry of `esize` bytes with the given `TYPE`, `n` bytes from `first` on replaced by `put`, the others as given. -/
def formattedEntry (esize : Nat) (t : BitVec 2) (first n : Nat) (put : Nat → Byte → Byte) (bytes : List Byte) : List Byte :=
  (List.range esize).map fun k =>
    let b := bytes.getD k 0
    if first ≤ k ∧ k < first + n then put (k - first) b else if k + 8 = esize then typedByte t b else b

/-- Byte `k` of a big-endian word with a context id in bits 16:0, the bits above it as given (R150, R154). -/
def idByte (id : BitVec 17) (k : Nat) (b : Byte) : Byte :=
  match k with
  | 0 => b
  | 1 => b.extractLsb' 1 7 ++ id.extractLsb' 16 1
  | 2 => id.extractLsb' 8 8
  | _ => id.extractLsb' 0 8

/-- An `EGR_UPDATE` entry (R154): opcode and context id, then the consumer and producer index. -/
def egrEntry (esize : Nat) (id : BitVec 17) (c p : Nat) (bytes : List Byte) : List Byte :=
  formattedEntry esize typeCpl 0 8 (fun k b =>
    match k with
    | 0 => cplEgrUpdate
    | 1 | 2 | 3 => idByte id k b
    | 4 => (BitVec.ofNat 16 c).extractLsb' 8 8
    | 5 => (BitVec.ofNat 16 c).extractLsb' 0 8
    | 6 => (BitVec.ofNat 16 p).extractLsb' 8 8
    | _ => (BitVec.ofNat 16 p).extractLsb' 0 8) bytes

/-- An `INTR` entry naming a queue by its context id (R150, R151). -/
def intrEntry (esize : Nat) (id : BitVec 17) (bytes : List Byte) : List Byte :=
  formattedEntry esize typeIntr (esize - 12) 4 (idByte id) bytes

/-- Byte `k` of the word of `NEWBUF`, as given, and `LEN` (R150). -/
def lenByte (n k : Nat) (b : Byte) : Byte :=
  match k with
  | 0 => b.extractLsb' 7 1 ++ (BitVec.ofNat 31 n).extractLsb' 24 7
  | 1 => (BitVec.ofNat 31 n).extractLsb' 16 8
  | 2 => (BitVec.ofNat 31 n).extractLsb' 8 8
  | _ => (BitVec.ofNat 31 n).extractLsb' 0 8

/-- The entry of a received frame of `n` bytes (R150, R153): `CPL_RX_PKT` in front, `LEN` in the control word. -/
def frameEntry (esize n : Nat) (bytes : List Byte) : List Byte :=
  formattedEntry esize typeFlbuf (esize - 12) 4 (lenByte n) (cplRxPkt :: bytes.drop 1)

/-! ### Interrupts (R49, R520) -/

/-- The line of an IQ rises: a request for service, and the queue is disarmed. A forwarded queue has no line. -/
def raiseLine (j : Nat) (s : State) : State :=
  if (s.iq j).st = .run ∧ (s.iq j).fwd = false ∧ (s.peerIqOf j).armed then
    (s.setIq j { s.iq j with svcReq := true }).setPeerIq j { s.peerIqOf j with armed := false }
  else s

/-- PEER raises the interrupt of an armed IQ after writing entries, which it may do while some are not credited (R520, log
entry 22): on the queue's line, or for a forwarded queue by an `INTR` entry in the forwarding queue and that queue's line. -/
def peerInterrupt (j : Nat) (bytes : List Byte) (s : State) : State :=
  let q := s.iq j
  let p := s.peerIqOf j
  if q.st = .run ∧ p.armed ∧ p.cred < p.written then
    if q.fwd then
      let k := q.tgt.toNat
      if peerRoom k s then
        raiseLine k (peerWriteEntry k (intrEntry (s.iq k).esize (s.ctxId .iq j) bytes)
          (s.setPeerIq j { p with armed := false }))
      else s
    else raiseLine j s
  else s

/-! ### Egress queues (R106, R114) -/

/-- The status word PEER writes: bits 63:32 zero, `hw_cidx`, `hw_pidx` (R106). -/
def statusWord (hwCidx hwPidx : BitVec 16) : Flit := (0#32 ++ hwCidx) ++ hwPidx

/-- PEER writes the status word of an EQ in `RUN` (R106). A value that breaks R114 is possible, and the DRC detects it where
R501 says so. -/
def peerWriteStatus (j : Nat) (hwCidx : BitVec 16) (s : State) : State :=
  if (s.eq j).st = .run then
    s.setMem (Memory.setBytes s.mem (s.eq j).statAddr
      (flitBytes (statusWord hwCidx (BitVec.ofNat 16 (s.peerEqOf j).hwPidx))))
  else s

/-- Flit 0 of the WR at PEER's consumer index. -/
def peerWrHead (j : Nat) (s : State) : Flit :=
  s.read64 (slotAddr (s.eq j).base Config.eqEsize (s.peerEqOf j).hwCidx)

/-- PEER finishes the WR at its consumer index (R114): whole, in ring order, and only if all its slots are published. It may then
write the status word, and does so before the notification it owes for a WR with `EQUIQ = 1` (R162). -/
def peerFinish (j : Nat) (update : Bool) (s : State) : State :=
  let e := s.eq j
  let p := s.peerEqOf j
  let w := peerWrHead j s
  let n := peerWrSlots w
  let c := (p.hwCidx + n) % e.cap
  if e.st = .run ∧ 1 ≤ n ∧ n ≤ subMod p.hwPidx p.hwCidx e.cap then
    let s := s.setPeerEq j { p with hwCidx := c, owed := if w.getLsbD 31 then p.owed + 1 else p.owed }
    if update || w.getLsbD 31 then peerWriteStatus j (BitVec.ofNat 16 c) s else s
  else s

/-- PEER writes an `EGR_UPDATE` entry it owes to the EQ's notification IQ (R114, R154). -/
def peerNotify (j : Nat) (bytes : List Byte) (s : State) : State :=
  let e := s.eq j
  let p := s.peerEqOf j
  if e.st.registered ∧ 1 ≤ p.owed ∧ peerRoom e.iq s then
    peerWriteEntry e.iq (egrEntry (s.iq e.iq).esize e.cntxtId p.hwCidx p.hwPidx bytes)
      (s.setPeerEq j { p with owed := p.owed - 1 })
  else s

/-! ### Free lists and other memory (R102, R115) -/

/-- PEER uses `n` published buffers of a free list in `RUN` (R62, R115). -/
def peerUseBufs (j n : Nat) (s : State) : State :=
  let p := s.peerFlOf j
  if (s.fl j).st = .run ∧ n ≤ p.avail then
    s.setPeerFl j { cidx := (p.cidx + n) % (s.fl j).cap, avail := p.avail - n }
  else s

/-- The slots of a ring of `cap` slots of `esize` bytes at `base` hold an address. -/
def inRing (base : Addr) (cap esize : Nat) (a : Addr) : Bool := decide ((a - base).toNat < cap * esize)

/-- An address in memory that the DRC owns against PEER: the slots of a free list or an EQ with memory (R102). -/
def drcOwns (s : State) (a : Addr) : Bool :=
  s.fls.any (fun c => decide ((s.fl c.1).st ≠ .uninit) && inRing (s.fl c.1).base (s.fl c.1).cap Config.flEsize a) ||
  s.eqs.any (fun c => decide ((s.eq c.1).st ≠ .uninit) && inRing (s.eq c.1).base (s.eq c.1).cap Config.eqEsize a)

/-- Any other DMA write of PEER, byte by byte. A byte the DRC owns is raced: it holds either value (R102, log entry 15). -/
def peerWriteBytes (a : Addr) : List Byte → State → State
  | [], s => s
  | b :: t, s =>
    if drcOwns s a then
      let s1 := if Config.freeRace s.draws then s.setMem (Memory.set s.mem a.toNat b) else s
      peerWriteBytes (a + 1) t { s1 with draws := s1.draws + 1 }
    else peerWriteBytes (a + 1) t (s.setMem (Memory.set s.mem a.toNat b))

/-- PEER writes frame data into published buffers, in ring order from its consumer index, each buffer filled before the next
is begun (R115, R160, R252); `none` if the first argument, the buffers it may use, is too small. -/
def peerPlace (f : Nat) : Nat → List Byte → State → Option State
  | _, [], s => some s
  | 0, _ :: _, _ => none
  | n + 1, b :: l, s =>
    let p := s.peerFlOf f
    let w := s.read64 (slotAddr (s.fl f).base Config.flEsize p.cidx)
    let size := classSize s.cfg (w.extractLsb' 0 4).toNat
    peerPlace f n ((b :: l).drop size)
      ((peerWriteBytes (w.extractLsb' 4 60 ++ 0#4) ((b :: l).take size) s).setPeerFl f
        { cidx := (p.cidx + 1) % (s.fl f).cap, avail := p.avail - 1 })

/-- PEER receives a frame for an RX queue (R115, R150, R153): the data in fresh buffers first, then the entry that reports it.
Without buffers or room for the entry it does not. -/
def peerFrame (j : Nat) (frame bytes : List Byte) (s : State) : State :=
  match (s.iq j).fl with
  | none => s
  | some f =>
    if (s.iq j).role = .rx ∧ (s.fl f).st = .run ∧ 1 ≤ frame.length ∧ frame.length < 2 ^ 31 ∧ peerRoom j s then
      match peerPlace f (s.peerFlOf f).avail frame s with
      | none => s
      | some u => peerWriteEntry j (frameEntry (s.iq j).esize frame.length bytes) u
    else s

end Sys2Proof.Machine
end

