-- ==== Sys2Proof/Machine/Command.lean ====
section
/-! DEFINITION. Running one command word (R140, R146, R502) and handling one event. -/

namespace Sys2Proof.Machine

/-- One command word: the fault latch first, then decoding, then the meaning (R502). -/
def runCommand (w : CmdWord) (s : State) : Host.Outcome State Fault Refusal :=
  if faultValid s.fault then .next (s.finish .faulted 0)
  else
    match decode s.cfg w with
    | .rejected _ => .next s.badCmd
    | .instr i => exec i s

/-- One event, already taken off the inbox. -/
def handleEvent (e : Event) (s : State) : Host.Outcome State Fault Refusal :=
  match e with
  | .command w => runCommand w s
  | .reset => .next s.blockReset
  | .submit j item => .next (hostSubmit j item s)
  | .answer a => .next (s.setHost (s.host.answer a))
  | .interrupt j bytes => .next (peerInterrupt j bytes s)
  | .peerEntry j bytes => .next (peerWriteEntry j bytes s)
  | .peerFinish j update => .next (peerFinish j update s)
  | .peerNotify j bytes => .next (peerNotify j bytes s)
  | .peerStatus j c => .next (peerWriteStatus j c s)
  | .peerFrame j frame bytes => .next (peerFrame j frame bytes s)
  | .peerUse j n => .next (peerUseBufs j n s)
  | .peerStore a bytes => .next (peerWriteBytes a bytes s)

/-- A command word placed as the next event of the inbox. -/
def placeCommand (w : CmdWord) (s : State) : State := s.setInbox (.command w :: s.inbox)

end Sys2Proof.Machine
end

