-- ==== Sys2Proof/Machine/Step.lean ====
section
/-! DEFINITION. One step: the next event of the inbox. The DRC has no program counter and fetches nothing (R41, R107): its
program is the sequence of command words HOST writes, which the inbox holds (log entry 1). -/

namespace Sys2Proof.Machine

/-- One step: the oldest event, or nothing when none is pending (the DRC waits for a command). -/
def step (s : State) : Host.Outcome State Fault Refusal :=
  match s.inbox with
  | [] => .next s
  | e :: rest => handleEvent e (s.setInbox rest)

/-- HOST writes a command word, of `nbits` bits with value `w`, as the next event (log entry 1). -/
def State.withFetchWord (s : State) (nbits w : Nat) : State := placeCommand (BitVec.ofNat 64 (w % 2 ^ nbits)) s

end Sys2Proof.Machine
end

