-- ==== Sys2Proof/Safety.lean ====
section
/-! DEFINITION. What holds of the machine between two steps, as the spec's laws say it: the canonical memory, the fault
register, the free-list law (R53), the egress credit and map laws (R57, R343), the batch budgets (R395), the ingress bounds
(R45), the queue map and the dependencies (R431, R422). -/

namespace Sys2Proof.Machine

/-! ### Block registers -/

/-- `FAULT` is 0 or what a raised fault writes: a code of R501 and the selector of a queue the block can have (R42). -/
def FaultLegal (f : BitVec 32) : Prop := f = 0 ∨ ∃ c q, q.index < 1024 ∧ f = faultWord c q

/-! ### Free lists -/

/-- A slot's buffer is posted. -/
def Own.isPosted : Own → Bool
  | .posted _ => true
  | .empty | .retained _ => false

/-- The number of posted slots of a free list. -/
def FL.postedCount (f : FL) : Nat := ((List.range f.cap).filter (fun j => (f.slot j).own.isPosted)).length

/-- The law of a free list with memory (R51, R53, R256): the posted slots are exactly the window from `cidx` of the
`cap − 1 − needed` slots that have a live buffer. -/
structure FL.Law (f : FL) : Prop where
  cap_min   : 2 ≤ f.cap
  cap_max   : f.cap ≤ 65536
  cidx_lt   : f.cidx < f.cap
  needed_le : f.needed ≤ f.cap - 1
  pidx_eq   : f.pidx = (f.cidx + (f.cap - 1 - f.needed)) % f.cap
  pend_le   : f.pending ≤ f.cap - 1 - f.needed
  window    : ∀ j, (f.slot j).own.isPosted = true ↔ j < f.cap ∧ subMod j f.cidx f.cap < f.cap - 1 - f.needed

/-! ### Egress queues -/

/-- The maps used by the records that tile exactly `left` slots from slot `k` on, `none` where records do not tile them. The
first argument bounds the walk; `left` turns are enough. -/
def wrMaps (e : EQ) : Nat → Nat → Nat → Option Nat
  | 0, _, left => if left = 0 then some 0 else none
  | n + 1, k, left =>
    if left = 0 then some 0
    else
      let d := (e.slot k).descUsed
      if d = 0 ∨ left < d then none else (wrMaps e n ((k + d) % e.cap) (left - d)).map (· + (e.slot k).mapsUsed)

/-- The slots of an EQ that hold unreclaimed work: `cap − 1 − avail`. -/
def EQ.inUse (e : EQ) : Nat := e.cap - 1 - e.avail

/-- The law of an EQ with memory (R54, R56, R57, R343): the unreclaimed records tile the slots in use, and their maps, the
open batch's and the free ones make up the pool. -/
structure EQ.Law (e : EQ) : Prop where
  cap_min   : 2 ≤ e.cap
  cap_max   : e.cap ≤ 16384
  cidx_lt   : e.cidx < e.cap
  avail_le  : e.avail ≤ e.cap - 1
  pidx_eq   : e.pidx = (e.cidx + e.inUse) % e.cap
  maps_gt   : e.cap < e.txMaps
  mcidx_lt  : e.mapCidx < e.txMaps
  mavail_le : e.mapAvail ≤ e.txMaps
  mpidx_eq  : e.mapPidx = (e.mapCidx + (e.txMaps - e.mapAvail)) % e.txMaps
  tiled     : ∃ m, wrMaps e e.inUse e.cidx e.inUse = some m ∧ e.mapAvail + e.batch.nmaps + m = e.txMaps
  loaded    : ∀ k, (Tab.find e.maps k).isSome = true ↔ k < e.txMaps ∧ subMod k e.mapCidx e.txMaps < e.txMaps - e.mapAvail
  sg_map    : e.sgl.valid = true → e.sgl.mapHeld = true ∧ 1 ≤ e.mapAvail

/-- Pending slots are in use (R57). A status word that claims slots no doorbell has published breaks it, and the check of R340
does not see that (log entry 19), so it stands beside the law. -/
def EQ.PendLaw (e : EQ) : Prop := e.pending ≤ e.inUse

/-- PEER's status word claims no slot that is still pending (R114): what R340 would reclaim lies in the published slots. -/
def StatusPublished (j : Nat) (s : State) : Prop :=
  hwCidx j s < (s.eq j).cap →
    subMod (hwCidx j s) (s.eq j).cidx (s.eq j).cap ≤ (s.eq j).inUse - (s.eq j).pending

/-- The budgets of the open batch (R395), and where its cursor stands: the parts, of at least 6 flits each, fill the flits
from `8 · pidx + 2` on, an even number of them (R390, R169). -/
structure BatchLaw (c : Config) (e : EQ) : Prop where
  flits : e.batch.accepting = true → e.batch.nflits ≤ c.maxWrFlits ∧ ndesc e.batch.nflits ≤ e.avail
  len   : e.batch.accepting = true → e.batch.plen < c.coalPlenLimit
  count : e.batch.accepting = true → 1 ≤ e.batch.npkt ∧ e.batch.nmaps = e.batch.npkt ∧ 2 + 6 * e.batch.npkt ≤ e.batch.nflits
  cur   : e.batch.accepting = true → e.batch.nflits % 2 = 0 ∧ e.batch.cur = (8 * e.pidx + e.batch.nflits) % (8 * e.cap)
  empty : e.batch.accepting = false → e.batch.npkt = 0 ∧ e.batch.nflits = 0 ∧ e.batch.plen = 0 ∧ e.batch.nmaps = 0

/-! ### Ingress queues -/

/-- The bounds of an IQ with memory (R45, R203). -/
structure IQ.Law (q : IQ) : Prop where
  cap_min  : 2 ≤ q.cap
  cap_max  : q.cap ≤ 65536
  esize    : q.esize = 16 ∨ q.esize = 32 ∨ q.esize = 64 ∨ q.esize = 128
  cidx_lt  : q.cidx < q.cap
  credit   : 1 ≤ q.creditBatch ∧ q.creditBatch ≤ 4095
  ncons_lt : q.ncons < q.creditBatch

/-! ### The whole machine -/

/-- Every free list with memory obeys its law. -/
def FlInv (s : State) : Prop := ∀ j, (s.fl j).st ≠ .uninit → (s.fl j).Law

/-- Every EQ with memory obeys its law. -/
def EqInv (s : State) : Prop := ∀ j, (s.eq j).st ≠ .uninit → (s.eq j).Law

/-- Every EQ with memory keeps the budgets of its batch. -/
def BatchInv (s : State) : Prop := ∀ j, (s.eq j).st ≠ .uninit → BatchLaw s.cfg (s.eq j)

/-- Every IQ with memory keeps its bounds. -/
def IqInv (s : State) : Prop := ∀ j, (s.iq j).st ≠ .uninit → (s.iq j).Law

/-- The tables of the state list each key once, in rising order. -/
structure TabsSorted (s : State) : Prop where
  qmap : Tab.sorted s.qmap
  iqs  : Tab.sorted s.iqs
  fls  : Tab.sorted s.fls
  eqs  : Tab.sorted s.eqs

/-- A queue is in `QMAP`, under its own id, exactly when it is in `REG` or `RUN` (R431). -/
def QmapInv (s : State) : Prop :=
  ∀ id t j, s.lookup id = some { type := t, index := j } ↔ (s.qst t j).registered = true ∧ id = (s.ctxId t j).toNat

/-- No record with memory points at one without (R422). -/
structure DepInv (s : State) : Prop where
  fl_owner  : ∀ f, (s.fl f).st ≠ .uninit →
    (s.iq (s.fl f).owner).st ≠ .uninit ∧ (s.iq (s.fl f).owner).role = .rx ∧ (s.iq (s.fl f).owner).fl = some f
  iq_fl     : ∀ i f, (s.iq i).st ≠ .uninit → (s.iq i).fl = some f → (s.fl f).st ≠ .uninit ∧ (s.fl f).owner = i
  rx_run    : ∀ i, (s.iq i).st = .run → (s.iq i).role = .rx → ∃ f, (s.iq i).fl = some f ∧ (s.fl f).st = .run
  eq_iq     : ∀ e, (s.eq e).st ≠ .uninit → (s.iq (s.eq e).iq).st.registered = true
  iq_fwd    : ∀ i, (s.iq i).st ≠ .uninit → (s.iq i).fwd = true →
    (s.iq (s.iq i).tgt.toNat).role = .intrFwd ∧ (s.iq (s.iq i).tgt.toNat).st.registered = true

/-! ### What a command leaves alone -/

/-- `t` agrees with `s` on `FAULT`, on every queue record and every view PEER has of a queue other than queue `j` of type `ty`,
on the packet sources of the other queues, on the parameters and on the pending events. -/
structure Untouched (ty : QType) (j : Nat) (s t : State) : Prop where
  fault  : t.fault = s.fault
  iqs    : ∀ k, (ty ≠ .iq ∨ k ≠ j) → t.iq k = s.iq k
  fls    : ∀ k, (ty ≠ .fl ∨ k ≠ j) → t.fl k = s.fl k
  eqs    : ∀ k, (ty ≠ .eq ∨ k ≠ j) → t.eq k = s.eq k
  peerIq : ∀ k, (ty ≠ .iq ∨ k ≠ j) → t.peerIqOf k = s.peerIqOf k
  peerFl : ∀ k, (ty ≠ .fl ∨ k ≠ j) → t.peerFlOf k = s.peerFlOf k
  peerEq : ∀ k, (ty ≠ .eq ∨ k ≠ j) → t.peerEqOf k = s.peerEqOf k
  src    : ∀ k, (ty ≠ .eq ∨ k ≠ j) → t.src k = s.src k
  cfg    : t.cfg = s.cfg
  inbox  : t.inbox = s.inbox

/-- A block HOST may give for `n` bytes of ring memory with entries of `esize` bytes: aligned to RING_ALIGN and to the entries,
inside the address space, and apart from the memory of every queue (R101, R102, R104; log entries 3, 36 and 37). -/
def RingPlaced (s : State) (base : Addr) (n esize : Nat) : Prop :=
  base.toNat % s.cfg.ringAlign = 0 ∧ base.toNat % esize = 0 ∧ base.toNat + n ≤ 2 ^ 64 ∧ ∀ t j, s.qst t j ≠ .uninit →
    base.toNat + n ≤ (s.baseOf t j).toNat ∨ (s.baseOf t j).toNat + s.blockBytes t j ≤ base.toNat

/-- No two queues share ring memory, so neither the DRC nor PEER writes memory the other owns in a ring (R102, log entry 36). -/
def BlocksApart (s : State) : Prop :=
  ∀ t j t' j', (t ≠ t' ∨ j ≠ j') → s.qst t j ≠ .uninit → s.qst t' j' ≠ .uninit →
    (s.baseOf t j).toNat + s.blockBytes t j ≤ (s.baseOf t' j').toNat ∨
      (s.baseOf t' j').toNat + s.blockBytes t' j' ≤ (s.baseOf t j).toNat

/-- The ring of an EQ lies inside the address space, as `Q_ALLOC_EQ` makes sure (R101). -/
def EQ.ringFits (e : EQ) : Prop := e.base.toNat + 64 * e.cap ≤ 2 ^ 64

/-- Address `a` is one of the bytes of the `n` flits from flit `f` of an EQ's ring on (R281). -/
def EQ.inFlits (e : EQ) (f n a : Nat) : Prop :=
  ∃ k, k < n ∧ ∃ b, b < 8 ∧ a = (flitAddr e.base e.cap (f + k) + BitVec.ofNat 64 b).toNat

/-- From `s` to `t` the flits of the list were written to the ring of `e` from flit `f` on, and no other byte of memory
changed. -/
def RingWritten (e : EQ) (f : Nat) (l : List Flit) (s t : State) : Prop :=
  (∀ k, (h : k < l.length) → t.read64 (flitAddr e.base e.cap (f + k)) = l[k]) ∧
  ∀ a, ¬ e.inFlits f l.length a → Memory.get t.mem a = Memory.get s.mem a

/-- The `GTS` value of an IQ returning `n` entries of credit, field by field (R171). -/
def gtsFields (q : IQ) (n : Nat) (v : BitVec 32) : Prop :=
  v.extractLsb' 16 16 = q.cntxtId ∧ v.extractLsb' 13 3 = q.tmrIdx ∧ v.getLsbD 12 = !q.pktcIdx.msb ∧
  v.extractLsb' 0 12 = BitVec.ofNat 12 n

/-- The `KDB` value of a queue publishing `n` slots, field by field (R170). -/
def kdbFields (id : BitVec 17) (n : Nat) (v : BitVec 32) : Prop :=
  v.extractLsb' 15 17 = id ∧ v.getLsbD 14 = false ∧ v.extractLsb' 0 14 = BitVec.ofNat 14 n

/-- Flit 0 of a work request, field by field (R162). -/
def hdrFields (op : Byte) (immdlen : Nat) (equiq : Bool) (len16 : Nat) (v : Flit) : Prop :=
  v.extractLsb' 56 8 = op ∧ v.extractLsb' 41 15 = 0 ∧ v.extractLsb' 32 9 = BitVec.ofNat 9 immdlen ∧ v.getLsbD 31 = equiq ∧
  v.getLsbD 30 = true ∧ v.extractLsb' 8 22 = 0 ∧ v.extractLsb' 0 8 = BitVec.ofNat 8 len16

/-- Flit 0 of `CPL_TX_PKT_CORE`, field by field (R164). -/
def coreFields (len : BitVec 32) (v : Flit) : Prop :=
  v.extractLsb' 56 8 = 0xEE#8 ∧ v.extractLsb' 32 24 = 0 ∧ v.extractLsb' 16 16 = 0 ∧ v.extractLsb' 0 16 = len.extractLsb' 0 16

/-- `ctrl1`, field by field (R166). -/
def ctrlFields (p : Packet) (v : Flit) : Prop :=
  v.getLsbD 63 = !p.csum.l4 ∧ v.getLsbD 62 = !p.csum.ip ∧ v.extractLsb' 44 18 = 0 ∧
  v.extractLsb' 40 4 = (if p.csum.l4 then p.csum.ctype else 0) ∧ v.extractLsb' 33 7 = 0 ∧ v.getLsbD 32 = p.vlan.isSome ∧
  v.extractLsb' 16 16 = 0 ∧ v.extractLsb' 0 16 = p.vlan.getD 0

/-- Flit 0 of `CPL_TX_PKT_LSO_CORE`, field by field (R168). -/
def lsoFields (o : Lso) (v : Flit) : Prop :=
  v.extractLsb' 56 8 = 0xED#8 ∧ v.getLsbD 55 = true ∧ v.getLsbD 54 = true ∧ v.getLsbD 53 = false ∧ v.getLsbD 52 = o.ipv6 ∧
  (14 ≤ o.ehLen → v.extractLsb' 48 4 = BitVec.ofNat 4 ((o.ehLen - 14) / 4)) ∧
  v.extractLsb' 36 12 = BitVec.ofNat 12 (o.ipHl / 4) ∧ v.extractLsb' 32 4 = BitVec.ofNat 4 (o.tcpHl / 4) ∧
  v.extractLsb' 16 16 = 0 ∧ v.extractLsb' 0 16 = o.mss

/-- The record of an IQ after it consumed one entry: cursor and generation (R201), and the count of R203. -/
def afterEntry (q : IQ) : IQ :=
  { q with
    cidx := if q.cidx = q.cap - 1 then 0 else q.cidx + 1
    gen := if q.cidx = q.cap - 1 then !q.gen else q.gen
    ncons := if q.ncons + 1 = q.creditBatch then 0 else q.ncons + 1 }

/-- The credit write of R203: one when the batch threshold is reached, none before. -/
def creditWrite (q : IQ) : List Effect :=
  if q.ncons + 1 = q.creditBatch then [.regWrite .gts (gtsWord q.cntxtId q.tmrIdx q.pktcIdx (q.ncons + 1))] else []

/-- The entries a command of an ingress queue consumed, as its result says (R203, R212). -/
def consumedBy (i : Instr) (t : State) : Nat :=
  match i with
  | .iqConsume _ => if t.res.rc = .ok then 1 else 0
  | .iqService _ _ => t.res.value.toNat
  | _ => 0

/-- The sum of the `CIDXINC` fields of the `GTS` writes in a list of actions (R171). -/
def cidxIncs : List Effect → Nat
  | [] => 0
  | .regWrite .gts v :: l => (v.extractLsb' 0 12).toNat + cidxIncs l
  | _ :: l => cidxIncs l

/-- A run of ingress commands on one queue, none of which faults, with the entries they consume (R213). -/
inductive IngressRun (q : Qid) : State → Nat → State → Prop where
  | done (s : State) : IngressRun q s 0 s
  | more (i : Instr) (s u t : State) (n : Nat) (hi : i = .iqConsume q ∨ i = .iqCredit q ∨ ∃ b, i = .iqService q b)
      (he : exec i s = .next u) (hf : u.fault = s.fault) (hr : IngressRun q u n t) :
      IngressRun q s (consumedBy i u + n) t

/-- A WR command on `s` that ends `NO_DESC` writes nothing and keeps the SGL (R285), and `eq.held` is its packet (R510), unless it
was another one already (log entry 40). -/
def KeepsInRegister (j : Nat) (s : State) (o : Host.Outcome State Fault Refusal) : Prop :=
  let e := s.eq j
  ∃ t, o = .next t ∧ t = { s.setEq j { e with sgl := { e.sgl with isHeld := true } } with res := { rc := .noDesc, value := 0 } } ∧
    (e.held = none → (t.eq j).heldPkt = some e.sgl.pkt)

/-- EQ_WR_IMM on `s` has packet `p` in hand: its EQ record is `taken` without the packet, and `back` when the packet is put back.
The packet is the one of `eq.held` or of HOST's source (R290), or the held one that the SGL register has (log entry 40). -/
inductive ImmTakes (j : Nat) (s : State) : Packet → EQ → EQ → Prop where
  | hand (p : Packet) (h : (s.eq j).heldInSgl = false) (ht : (takePacket j s).1 = some p) :
      ImmTakes j s p { s.eq j with held := none } { s.eq j with held := some p }
  | register (h : (s.eq j).heldInSgl = true) :
      ImmTakes j s (s.eq j).sgl.pkt
        { s.eq j with sgl := { (s.eq j).sgl with mapHeld := false, valid := false } } (s.eq j)

/-- EQ_TX with limit `l` on `s` sends one packet first, which leaves `v`, and goes on from there (R280): as EQ_TX with the limit
that is left, one more packet counted, or, with no more to send, to its end, the next packet kept in `eq.held` (C10). -/
def TxGoesOn (q : Qid) (l : BitVec 32) (s v : State) : Prop :=
  let j := q.toNat
  (l ≠ 1 → s.cfg.txLowCredit ≤ (v.eq j).avail →
    ∃ t, exec (.eqTx q (if l = 0 then 0 else l - 1)) v = .next t ∧
      exec (.eqTx q l) s = .next { t with res := { t.res with value := t.res.value + 1 } }) ∧
  (l = 1 → let x := takePacket j v
    exec (.eqTx q l) s = .next ((txEnd j none (eqHold j x.1 x.2)).finish .ok 1))

/-- What EQ_TX with limit `l` on `s` makes of a packet that is in the SGL register of `u`, in a coalescing context or not (R280):
it joins the batch if TXPKTS_ADD takes it there; otherwise the open batch is flushed and its doorbell checked, it goes as by
EQ_WR_PKT or, with an offload request, by EQ_WR_LSO, and the doorbell is checked again. EQ_TX then goes on. -/
def TxRegisterGoes (q : Qid) (l : BitVec 32) (s : State) (coal : Bool) (u : State) : Prop :=
  let j := q.toNat; let p := (u.eq j).sgl.pkt; let back := fun v : State => { v with res := s.res }
  (∀ v, coal = true → p.lso = none → exec (.txpktsAdd q) u = .next v → v.res.rc = .ok → TxGoesOn q l s (back v)) ∧
  ∀ v, (coal = false ∨ p.lso ≠ none ∨ exec (.txpktsAdd q) u = .next { u with res := { rc := .reject, value := 0 } }) →
    exec (if p.lso = none then .eqWrPkt q else .eqWrLso q) (flushFirst j u) = .next v → v.res.rc = .ok →
    TxGoesOn q l s (eqDoorbell j false (back v)).2

/-- The free-list record after its slot at `cidx` was consumed, left with the given owner (R250). -/
def afterTake (f : FL) (own : Own) : FL :=
  { f with
    sd := Tab.put f.sd f.cidx { f.slot f.cidx with own := own }
    cidx := (f.cidx + 1) % f.cap
    needed := f.needed + 1 }

/-- The bytes that the first `n` of the buffers `b 0, b 1, …` hold (R241, R252). -/
def bufBytes (c : Config) (b : Nat → RxBuf) (n : Nat) : Nat := ((List.range n).map fun i => classSize c (b i).bcls).sum

/-- What a frame of `len` bytes attached from the first `k` of the buffers says of each: the bytes still to come, at most the
buffer's size (R250, R252). -/
def frameParts (c : Config) (b : Nat → RxBuf) (len k : Nat) : List (Nat × Nat) :=
  (List.range k).map fun i => ((b i).buf, min (len - bufBytes c b i) (classSize c (b i).bcls))

/-- HOST's next answers let `n` empty slots of a free list be filled: maps created, buffers given and mapped at 16-byte
aligned addresses (R104, R245). -/
def HostFills (h : HostIn) (n : Nat) : Prop :=
  (∀ i, i < n → h.mapCreate[i]? = some true) ∧ (∀ i, i < n → ∃ b, h.bufAlloc[i]? = some (some b)) ∧
  ∀ i, i < n → ∃ a, h.bufMap[i]? = some (some a) ∧ a.extractLsb' 0 4 = 0

/-- The lifecycle states in which each command has its effect; in any other it ends `BAD_CMD` (R61, R431). -/
def legalIn : Instr → List QState
  | .iqCheck _ | .iqConsume _ | .iqCredit _ | .iqService _ _ | .flTake _ _ | .eqTx _ _ | .eqWrPkt _ | .eqWrLso _ | .eqWrImm _
  | .eqWrFlush _ | .eqDoorbell _ _ | .sglBuild _ | .sglWrite _ _ | .txpktsAdd _ | .txpktsFlush _ | .qStop _ _ => [.run]
  | .flSelect _ _ => [.mem, .reg, .run]
  | .flRefill _ _ | .flDoorbell _ _ | .eqReclaimable _ | .eqReclaim _ _ _ => [.reg, .run]
  | .qAllocIq _ _ _ _ _ _ _ _ | .qAllocFl _ _ _ | .qAllocEq _ _ _ => [.uninit]
  | .qStart _ _ | .qFree _ _ => [.reg]
  | .qTeardown _ _ => [.uninit, .mem, .reg, .run]

/-- The transitions of R431: what a lifecycle command may make of the state of its queue. -/
def lifecycleMove : Instr → QState → QState → Prop
  | .qAllocIq _ _ _ _ _ _ _ _, a, b | .qAllocFl _ _ _, a, b | .qAllocEq _ _ _, a, b => a = .uninit ∧ (b = .mem ∨ b = .reg)
  | .qStart _ _, a, b => a = .reg ∧ b = .run
  | .qStop _ _, a, b => a = .run ∧ b = .reg
  | .qFree _ _, a, b => a = .reg ∧ b = .mem
  | .qTeardown _ _, _, b => b = .uninit
  | _, _, _ => False

/-- One for a failed handshake (R428). -/
def errs : PeerAnswer → Nat
  | .ok _ => 0
  | .err _ => 1

end Sys2Proof.Machine
end

