-- ==== Sys2Proof/Certificates/Slice0/Obligations.lean ====
section
/-! DEFINITION. The statements for the provers, each with the rules of spec/ it formalises. A statement about a command speaks
of `exec`, which `StepRunsDecodedCommand` ties to a step of the machine. -/

open Sys2Proof Sys2Proof.Machine

/-! ### Encoding (R140 to R146) -/

/-- R140 to R146: decoding the word of any well-formed command gives the command back, under every parameter set. -/
def Obligations.DecodeEncodeRoundTrip : Prop :=
  ∀ (c : Config) (i : Instr), i.wf c = true → decode c (encode i) = .instr i

/-- R146: a word that decodes to a command is that command's one encoding, and the command is well formed. -/
def Obligations.DecodedWordIsTheEncoding : Prop :=
  ∀ (c : Config) (w : CmdWord) (i : Instr), decode c w = .instr i → i.wf c = true ∧ encode i = w

/-- The encoding vectors of 95_test_vectors.md, one of each operand shape. -/
def Obligations.SampleWordsDecode : Prop :=
  decode Config.default 0x0402000000000000#64 = .instr (.iqCheck 2#10) ∧
  decode Config.default 0x20000000000005DC#64 = .instr (.flSelect 0#10 1500#32) ∧
  decode Config.default 0x5403000100000000#64 = .instr (.eqDoorbell 3#10 true) ∧
  decode Config.default 0x64030001000003E8#64 = .instr (.eqReclaim 3#10 1#16 1000#32) ∧
  decode Config.default 0x740300000000001E#64 = .instr (.sglWrite 3#10 30#32) ∧
  decode Config.default 0x8003000000000000#64 = .instr (.txpktsAdd 3#10) ∧
  decode Config.default 0xA00102E5000300FF#64 = .instr (.qAllocIq 1#10 .fwEvt 1#3 7#3 .b64 false 255#16 3#10) ∧
  decode Config.default 0xA80000000002007F#64 = .instr (.qAllocEq 0#10 127#16 2#10) ∧
  decode Config.default 0xB800000100000000#64 = .instr (.qTeardown 0#10 .fl)

/-- R146: a command word that is not the encoding of a well-formed command ends `BAD_CMD` and changes nothing else but the
event list it came from. -/
def Obligations.IllegalWordIsRefused : Prop :=
  ∀ (s : State) (w : CmdWord) (rest : List Event), s.inbox = .command w :: rest → faultValid s.fault = false →
    (∀ i : Instr, i.wf s.cfg = true → encode i ≠ w) →
    step s = .next { s with inbox := rest, res := { rc := .badCmd, value := 0 } }

/-! ### A step of the machine -/

/-- R140, R502: when the next event is a command word that decodes to `i` and no fault is latched, the step is `exec i`. The
event list is the model's (log entry 1): the DRC has no program counter, so a step only takes the word off the list. With no
event pending the machine waits. A well-formed command written to the command port as the next event runs in the next step, on
the state as it was. -/
def Obligations.StepRunsDecodedCommand : Prop :=
  (∀ (s : State) (w : CmdWord) (rest : List Event) (i : Instr), s.inbox = .command w :: rest →
    faultValid s.fault = false → decode s.cfg w = .instr i → step s = exec i { s with inbox := rest }) ∧
  (∀ s : State, s.inbox = [] → step s = .next s) ∧
  ∀ (s : State) (i : Instr), i.wf s.cfg = true → faultValid s.fault = false →
    step (s.withFetchWord 64 (encode i).toNat) = exec i s

/-- R502: while a fault is latched every command word, legal or not, ends `FAULTED` and changes nothing else. -/
def Obligations.LatchRefusesEveryCommand : Prop :=
  ∀ (s : State) (w : CmdWord) (rest : List Event), s.inbox = .command w :: rest → faultValid s.fault = true →
    step s = .next { s with inbox := rest, res := { rc := .faulted, value := 0 } }

/-- R61, R431: a command on a queue in a lifecycle state it is not legal in ends `BAD_CMD` and changes nothing else. -/
def Obligations.WrongStateIsRefused : Prop :=
  ∀ (i : Instr) (s : State), s.qst i.qtype i.qid.toNat ∉ legalIn i →
    exec i s = .next { s with res := { rc := .badCmd, value := 0 } }

/-- R10, R11: the parameters are fixed: no step of any kind changes them. -/
def Obligations.StepKeepsParameters : Prop :=
  ∀ s t : State, step s = .next t → t.cfg = s.cfg

/-! ### Faults and reset (R42, R44, R500, R600, R601) -/

/-- R42, R501: a raised fault sets bit 31, puts the code in bits 23:16 and the selector in bits 15:0, and leaves every other
bit 0. -/
def Obligations.FaultRegisterFields : Prop :=
  ∀ (c : FaultCode) (t : QType) (j : Nat), j < 1024 →
    let f := faultWord c { type := t, index := j }
    f.getLsbD 31 = true ∧ f.extractLsb' 24 7 = 0 ∧ f.extractLsb' 16 8 = c.code ∧ f.extractLsb' 12 4 = 0 ∧
    f.extractLsb' 10 2 = t.code ∧ (f.extractLsb' 0 10).toNat = j ∧ 1 ≤ c.code.toNat ∧ c.code.toNat ≤ 6

/-- R44, R500: a command that raises a fault leaves `RES` as it was. -/
def Obligations.FaultLeavesResult : Prop :=
  ∀ (i : Instr) (s t : State), exec i s = .next t → t.fault ≠ s.fault → t.res = s.res

/-- R601: a block reset clears a latched fault, and nothing else does. -/
def Obligations.OnlyResetClearsFault : Prop :=
  (∀ s t : State, faultValid s.fault = true → step s = .next t → (∀ rest, s.inbox ≠ .reset :: rest) →
    t.fault = s.fault ∧ faultValid t.fault = true) ∧
  ∀ (s t : State) (rest : List Event), s.inbox = .reset :: rest → step s = .next t → faultValid t.fault = false

/-- R600: block reset, from any state, in one step. Memory, PEER and HOST are not touched, and nothing is called. -/
def Obligations.BlockResetClearsTheBlock : Prop :=
  ∀ (s : State) (rest : List Event), s.inbox = .reset :: rest →
    ∃ t, step s = .next t ∧ t.fault = 0 ∧ t.res = { rc := .ok, value := 0 } ∧ (∀ id, t.lookup id = none) ∧
      (∀ j, (t.iq j).st = .uninit ∧ (t.iq j).svcReq = false ∧ (t.iq j).rxcsum = 0 ∧ (t.iq j).vlanExtraction = 0 ∧
        (t.iq j).rxPkts = 0) ∧
      (∀ j, (t.fl j).st = .uninit ∧ (t.fl j).allocFail = 0 ∧ (t.fl j).mapFail = 0) ∧
      (∀ j, (t.eq j).st = .uninit ∧ (t.eq j).sgl.valid = false ∧ (t.eq j).sgl.mapHeld = false ∧
        (t.eq j).stats = EqStats.zero) ∧
      t.mem = s.mem ∧ t.peerIq = s.peerIq ∧ t.peerFl = s.peerFl ∧ t.peerEq = s.peerEq ∧ t.host = s.host ∧ t.out = s.out ∧
      t.cfg = s.cfg ∧ t.inbox = rest

/-- The state after reset meets every invariant that is stated below to hold from step to step. Its parameters NIQ, NFL, NEQ
and CLASS_SIZE are the model's choice (log entry 5), and so is its memory, in which nothing is listed (log entry 9). -/
def Obligations.ResetMeetsTheInvariants : Prop :=
  FaultLegal State.reset.fault ∧ Memory.wf State.reset.mem ∧ IqInv State.reset ∧ FlInv State.reset ∧ EqInv State.reset ∧
  BatchInv State.reset ∧ QmapInv State.reset ∧ DepInv State.reset ∧ BlocksApart State.reset ∧ State.reset.cfg.wf = true

/-- R42: `FAULT` only ever holds 0 or what a raised fault writes. -/
def Obligations.StepKeepsFaultLegal : Prop :=
  ∀ s t : State, FaultLegal s.fault → step s = .next t → FaultLegal t.fault

/-! ### Memory (R100, R103) -/

/-- The memory stays in its canonical form, whatever a step writes (the model's form, log entry 9). -/
def Obligations.StepKeepsMemoryCanonical : Prop :=
  ∀ s t : State, Memory.wf s.mem → step s = .next t → Memory.wf t.mem

/-- R103: a flit is stored with its most significant byte at the lowest address, reads back as itself, and no other byte
changes. -/
def Obligations.FlitStoreIsBigEndian : Prop :=
  ∀ (s : State) (a : Addr) (v : Flit),
    (s.writeFlit a v).read64 a = v ∧
    (∀ k, k < 8 → (s.writeFlit a v).readByte (a + BitVec.ofNat 64 k) = v.extractLsb' (56 - 8 * k) 8) ∧
    ∀ x : Addr, (∀ k, k < 8 → x ≠ a + BitVec.ofNat 64 k) → (s.writeFlit a v).readByte x = s.readByte x

/-! ### Ingress queues (41_ingress.md) -/

/-- R202: from slot 0, `k` advances leave the cursor at `k mod cap` and flip the generation `k div cap` times. -/
def Obligations.CursorWrapLaw : Prop :=
  ∀ (q : IQ) (k : Nat), 1 ≤ q.cap → q.cidx = 0 →
    (advance^[k] q).cidx = k % q.cap ∧ (advance^[k] q).gen = (q.gen ^^ decide (k / q.cap % 2 = 1))

/-- R200: IQ_CHECK compares bit 7 of byte 8 of the control word with the queue's generation, and changes nothing but `RES`. On a
stale entry IQ_CONSUME does the same (R203). -/
def Obligations.IqCheckComparesGeneration : Prop :=
  ∀ (q : Qid) (s : State), let r := s.iq q.toNat
    r.st = .run →
    let b := s.readByte (slotAddr r.base r.esize r.cidx + BitVec.ofNat 64 (r.esize - 16) + 8)
    (b.getLsbD 7 = r.gen → exec (.iqCheck q) s = .next { s with res := { rc := .ok, value := 1 } }) ∧
    (b.getLsbD 7 ≠ r.gen → exec (.iqCheck q) s = .next { s with res := { rc := .empty, value := 0 } } ∧
      exec (.iqConsume q) s = .next { s with res := { rc := .empty, value := 0 } })

/-- R210, R171: IQ_CREDIT writes `GTS` once with the queue's coalescing parameters and its count, clears the count, and answers
it; PEER gets the credit and the queue is armed (R62, R520). -/
def Obligations.IqCreditReturnsCount : Prop :=
  ∀ (q : Qid) (s : State), let j := q.toNat; let r := s.iq j
    r.st = .run →
    ∃ t v, exec (.iqCredit q) s = .next t ∧ t.out = s.out ++ [.regWrite .gts v] ∧ gtsFields r r.ncons v ∧
      t.iq j = { r with ncons := 0 } ∧ t.res = { rc := .ok, value := BitVec.ofNat 32 r.ncons } ∧
      t.peerIqOf j = { s.peerIqOf j with cred := (s.peerIqOf j).cred + r.ncons, armed := true } ∧
      Untouched .iq j s t ∧ t.qmap = s.qmap ∧ t.mem = s.mem

/-- R203, R205: IQ_CONSUME on a firmware reply hands the payload to HOST, advances, counts, and returns credit at the batch
threshold. -/
def Obligations.IqConsumeDeliversReply : Prop :=
  ∀ (q : Qid) (s : State), let j := q.toNat; let r := s.iq j
    r.st = .run → r.Law → r.role = .fwEvt → (ctrlOf j s).gen = r.gen → (ctrlOf j s).type = 1#2 →
    (payloadByte j 0 s = 0xC0#8 ∨ payloadByte j 0 s = 0xE0#8) →
    ∃ t, exec (.iqConsume q) s = .next t ∧ t.iq j = afterEntry r ∧
      t.out = s.out ++ .cmdReply (s.readBytes (slotAddr r.base r.esize r.cidx) (r.esize - 16)) :: creditWrite r ∧
      t.res = { rc := .ok, value := 1 } ∧ Untouched .iq j s t ∧ t.qmap = s.qmap ∧ t.mem = s.mem

/-- R203, R206: IQ_CONSUME on a forwarded notification of a running IQ asks for its service and services nothing. -/
def Obligations.IqConsumeForwardsInterrupt : Prop :=
  ∀ (q : Qid) (k : Nat) (s : State), let j := q.toNat; let r := s.iq j
    r.st = .run → r.Law → r.role = .intrFwd → (ctrlOf j s).gen = r.gen → (ctrlOf j s).type = 2#2 →
    s.lookup (ctrlOf j s).qid = some { type := .iq, index := k } → (s.iq k).st = .run →
    ∃ t, exec (.iqConsume q) s = .next t ∧ t.out = s.out ++ creditWrite r ∧ t.res = { rc := .ok, value := 2 } ∧
      (k ≠ j → t.iq j = afterEntry r ∧ t.iq k = { s.iq k with svcReq := true }) ∧
      (k = j → t.iq j = { afterEntry r with svcReq := true }) ∧
      (∀ l, l ≠ j → l ≠ k → t.iq l = s.iq l) ∧ (∀ l, t.fl l = s.fl l) ∧ (∀ l, t.eq l = s.eq l) ∧
      t.fault = s.fault ∧ t.qmap = s.qmap ∧ t.mem = s.mem

/-- R203, R207, R300: IQ_CONSUME on a progress notification of a registered EQ clears `flush_out`, and asks HOST for a resume
exactly when the EQ is stalled; its credit does not change. -/
def Obligations.IqConsumeReportsProgress : Prop :=
  ∀ (q : Qid) (k : Nat) (s : State), let j := q.toNat; let r := s.iq j; let e := s.eq k
    r.st = .run → r.Law → (r.role = .fwEvt ∨ r.role = .rx) → (ctrlOf j s).gen = r.gen → (ctrlOf j s).type = 1#2 →
    payloadByte j 0 s = 0xA5#8 → s.lookup (egrQid j s) = some { type := .eq, index := k } → (e.st = .reg ∨ e.st = .run) →
    ∃ t, exec (.iqConsume q) s = .next t ∧ t.iq j = afterEntry r ∧
      t.eq k = { e with flushOut := false, resumeReq := e.stalled || e.resumeReq } ∧
      t.out = s.out ++ (if e.stalled then [.resume k] else []) ++ creditWrite r ∧ t.res = { rc := .ok, value := 1 } ∧
      (∀ l, l ≠ j → t.iq l = s.iq l) ∧ (∀ l, t.fl l = s.fl l) ∧ (∀ l, l ≠ k → t.eq l = s.eq l) ∧
      t.fault = s.fault ∧ t.qmap = s.qmap ∧ t.mem = s.mem

/-- R203, R204, R250: IQ_CONSUME on a received frame that fits the buffer at the free list's consumer index. A short frame is
copied and the buffer retained, a longer one is attached and its mapping released; the metadata goes with it. -/
def Obligations.IqConsumeReceivesFrame : Prop :=
  ∀ (q : Qid) (f : Nat) (b : RxBuf) (s : State), let j := q.toNat; let r := s.iq j; let len := (ctrlOf j s).len
    r.st = .run → r.Law → r.role = .rx → r.fl = some f → (ctrlOf j s).gen = r.gen → (ctrlOf j s).type = 0#2 →
    payloadByte j 0 s = 0x3B#8 → 1 ≤ len → 1 ≤ (s.fl f).published →
    ((s.fl f).slot (s.fl f).cidx).own = .posted b → len ≤ classSize s.cfg b.bcls →
    let md : RxMeta :=
      { csumCalc := (payloadByte j 1 s).getLsbD 3, csum := payloadByte j 2 s ++ payloadByte j 3 s
        vlanEx := (payloadByte j 1 s).getLsbD 1, vlan := payloadByte j 4 s ++ payloadByte j 5 s }
    ∃ t, exec (.iqConsume q) s = .next t ∧
      (len ≤ s.cfg.rxCopyThresh → t.fl f = afterTake (s.fl f) (.retained b) ∧
        t.out = s.out ++ .deliver (.copy (s.readBytes b.addr len)) (some md) :: creditWrite r) ∧
      (s.cfg.rxCopyThresh < len → t.fl f = afterTake (s.fl f) .empty ∧
        t.out = s.out ++ .unmap (.rx b.buf) :: .deliver (.refs [(b.buf, len)]) (some md) :: creditWrite r) ∧
      t.iq j = { afterEntry r with
        rxPkts := r.rxPkts + 1, rxcsum := if md.csumCalc then r.rxcsum + 1 else r.rxcsum
        vlanExtraction := if md.vlanEx then r.vlanExtraction + 1 else r.vlanExtraction } ∧
      t.res = { rc := .ok, value := 0 } ∧ (∀ l, l ≠ j → t.iq l = s.iq l) ∧ (∀ l, l ≠ f → t.fl l = s.fl l) ∧
      (∀ l, t.eq l = s.eq l) ∧ t.fault = s.fault ∧ t.qmap = s.qmap ∧ t.mem = s.mem

/-- R208, with the cases of R204 to R207: an entry the role does not handle, and a notification that names no queue of the right
type and state, faults, and the entry is not consumed: nothing but `FAULT` changes. -/
def Obligations.IqConsumeFaultsUnconsumed : Prop :=
  ∀ (q : Qid) (s : State), let j := q.toNat; let r := s.iq j; let ty := (ctrlOf j s).type; let op := payloadByte j 0 s
    r.st = .run → (ctrlOf j s).gen = r.gen →
    ((r.role = .rx ∧ ((ty = 0#2 ∧ (op ≠ 0x3B#8 ∨ (ctrlOf j s).len = 0)) ∨ (ty = 1#2 ∧ op ≠ 0xA5#8) ∨ ty = 2#2 ∨ ty = 3#2)) ∨
     (r.role = .fwEvt ∧ (ty ≠ 1#2 ∨ (op ≠ 0xC0#8 ∧ op ≠ 0xE0#8 ∧ op ≠ 0xA5#8))) ∨ (r.role = .intrFwd ∧ ty ≠ 2#2) →
      exec (.iqConsume q) s = .next { s with fault := faultWord .unexpectedRsp { type := .iq, index := j } }) ∧
    ((r.role = .intrFwd ∧ ty = 2#2 ∧
        ∀ k, s.lookup (ctrlOf j s).qid = some { type := .iq, index := k } → (s.iq k).st ≠ .run) ∨
     ((r.role = .fwEvt ∨ r.role = .rx) ∧ ty = 1#2 ∧ op = 0xA5#8 ∧
        ∀ k, s.lookup (egrQid j s) = some { type := .eq, index := k } → (s.eq k).st ≠ .reg ∧ (s.eq k).st ≠ .run) →
      exec (.iqConsume q) s = .next { s with fault := faultWord .badQid { type := .iq, index := j } })

/-- R212: IQ_SERVICE at a stale entry returns what credit there is, refills the free list of an RX queue, and clears the
service request. At a new entry it does what IQ_CONSUME does, and goes on as a service with the budget that is left, or, with
none left, returns credit and refills; a fault ends it. A firmware reply under a budget of 1 is consumed and the request
kept. A budget bounds the result. -/
def Obligations.IqServiceRunsItsLoop : Prop :=
  (∀ (q : Qid) (budget : BitVec 32) (s : State), let j := q.toNat; let r := s.iq j
    r.st = .run → (ctrlOf j s).gen ≠ r.gen → ∃ t, exec (.iqService q budget) s = .next t ∧
      t.iq j = { r with ncons := 0, svcReq := false } ∧ t.res = { rc := .empty, value := 0 } ∧
      (∀ k, k ≠ j → t.iq k = s.iq k) ∧ (∀ k, t.eq k = s.eq k) ∧ t.fault = s.fault ∧ t.qmap = s.qmap ∧
      (r.role ≠ .rx → t.out = s.out ++ [.regWrite .gts (gtsWord r.cntxtId r.tmrIdx r.pktcIdx r.ncons)] ∧
        Untouched .iq j s t ∧ t.mem = s.mem) ∧
      ∀ f, r.role = .rx → r.fl = some f → (∀ k, k ≠ f → t.fl k = s.fl k) ∧
        let u := flDoorbell f false (flRefill f (s.fl f).needed (creditReturn j s)).2
        t.fl f = u.2.fl f ∧ t.mem = u.2.mem ∧ t.out = u.2.out) ∧
  (∀ (q : Qid) (s : State), let j := q.toNat; let r := s.iq j
    r.st = .run → r.Law → r.role = .fwEvt → (ctrlOf j s).gen = r.gen → (ctrlOf j s).type = 1#2 →
    (payloadByte j 0 s = 0xC0#8 ∨ payloadByte j 0 s = 0xE0#8) →
    ∃ t, exec (.iqService q 1#32) s = .next t ∧ t.iq j = { afterEntry r with ncons := 0 } ∧
      t.res = { rc := .ok, value := 1 } ∧ Untouched .iq j s t ∧ t.qmap = s.qmap ∧ t.mem = s.mem) ∧
  (∀ (q : Qid) (budget : BitVec 32) (s t : State), (s.iq q.toNat).st = .run → budget ≠ 0 → faultValid s.fault = false →
    exec (.iqService q budget) s = .next t → t.fault = s.fault → t.res.value.toNat ≤ budget.toNat) ∧
  ∀ (q : Qid) (budget : BitVec 32) (s u : State), let j := q.toNat; let r := s.iq j
    r.st = .run → r.Law → (ctrlOf j s).gen = r.gen → faultValid s.fault = false → exec (.iqConsume q) s = .next u →
    (u.fault ≠ s.fault → exec (.iqService q budget) s = .next u) ∧
    (u.fault = s.fault → let v := { u with res := s.res }; let w := creditReturn j v
      (budget ≠ 1 → ∃ t, exec (.iqService q (if budget = 0 then 0 else budget - 1)) v = .next t ∧
        exec (.iqService q budget) s =
          .next (if t.fault = s.fault then { t with res := { rc := .ok, value := t.res.value + 1 } } else t)) ∧
      (budget = 1 → (r.role ≠ .rx ∨ r.fl = none →
          exec (.iqService q budget) s = .next { w with res := { rc := .ok, value := 1 } }) ∧
        ∀ f, r.role = .rx → r.fl = some f → exec (.iqService q budget) s =
          .next { (flDoorbell f false (flRefill f (w.fl f).needed w).2).2 with res := { rc := .ok, value := 1 } }))

/-- After R213: over a run of ingress commands on one queue, the `CIDXINC` fields written plus the final count are the entries
consumed plus the count at the start. The run has no command that faults, and no event between two commands, so this says less
than the rule. -/
def Obligations.CreditAccounting : Prop :=
  ∀ (q : Qid) (s t : State) (n : Nat), (s.iq q.toNat).st = .run → (s.iq q.toNat).Law → faultValid s.fault = false →
    IngressRun q s n t →
    ∃ l, t.out = s.out ++ l ∧ cidxIncs l + (t.iq q.toNat).ncons = (s.iq q.toNat).ncons + n

/-- R45: the bounds of every ingress queue hold from step to step. -/
def Obligations.StepKeepsIngressBounds : Prop :=
  ∀ s t : State, s.cfg.wf = true → IqInv s → step s = .next t → IqInv t

/-! ### Free lists (42_freelist.md) -/

/-- R240: FL_SELECT makes the least class that covers the MTU and the header margin active, the last class if none does, and
changes nothing else. -/
def Obligations.FlSelectChoosesLeastClass : Prop :=
  ∀ (q : Qid) (mtu : BitVec 32) (s : State), let j := q.toNat; let n := s.cfg.classSizes.length
    (s.fl j).st ≠ .uninit → 1 ≤ n →
    ∃ c t, exec (.flSelect q mtu) s = .next t ∧ t = { s.setFl j { s.fl j with cls := c } with
        res := { rc := .ok, value := BitVec.ofNat 32 c } } ∧
      ((c < n ∧ mtu.toNat + s.cfg.flHdrMargin ≤ classSize s.cfg c ∧
          ∀ k, k < c → classSize s.cfg k < mtu.toNat + s.cfg.flHdrMargin) ∨
       (c = n - 1 ∧ ∀ k, k < n → classSize s.cfg k < mtu.toNat + s.cfg.flHdrMargin))

/-- R255, R113: FL_DOORBELL publishes everything pending when it is forced or the threshold is reached: one barrier, then
doorbells of at most 16383 slots that sum to it. Otherwise it writes nothing. -/
def Obligations.FlDoorbellPublishesPending : Prop :=
  ∀ (q : Qid) (force : Bool) (s : State), let j := q.toNat; let f := s.fl j
    (f.st = .reg ∨ f.st = .run) →
    (f.pending = 0 ∨ (force = false ∧ f.pending < s.cfg.flDbThresh) →
      exec (.flDoorbell q force) s = .next { s with res := { rc := .ok, value := 0 } }) ∧
    (f.pending ≠ 0 → force = true ∨ s.cfg.flDbThresh ≤ f.pending →
      ∃ t incs vs, exec (.flDoorbell q force) s = .next t ∧ incs.sum = f.pending ∧ (∀ n ∈ incs, 1 ≤ n ∧ n ≤ 16383) ∧
        t.out = s.out ++ .barrier :: vs.map (.regWrite .kdb) ∧ List.Forall₂ (kdbFields (f.cntxtId.setWidth 17)) incs vs ∧
        t.fl j = { f with pending := 0 } ∧ t.res = { rc := .ok, value := BitVec.ofNat 32 f.pending } ∧
        (t.peerFlOf j).avail = (s.peerFlOf j).avail + f.pending ∧ Untouched .fl j s t ∧ t.qmap = s.qmap ∧ t.mem = s.mem)

/-- R242, R243, R244, R247: FL_REFILL posts `n` slots in order from `pidx`, writes their pointers and no other byte of memory.
It posts all that were asked for and needed, or fewer exactly when a map or a buffer failed, which it counts once and whose
slot stays empty. A retained buffer of the active class is posted again, any other slot is filled from HOST's answers. -/
def Obligations.FlRefillPostsInOrder : Prop :=
  ∀ (q : Qid) (want : BitVec 32) (s : State), let j := q.toNat; let f := s.fl j
    (f.st = .reg ∨ f.st = .run) → f.Law → f.base.toNat + 8 * f.cap ≤ 2 ^ 64 →
    let k := min want.toNat f.needed; let at_ := fun i => (f.pidx + i) % f.cap
    ∃ t n, exec (.flRefill q want) s = .next t ∧ n ≤ k ∧
      t.res = { rc := if n = k then .ok else .noBuf, value := BitVec.ofNat 32 n } ∧
      (n = k → (t.fl j).allocFail = f.allocFail ∧ (t.fl j).mapFail = f.mapFail) ∧
      (n < k → ((t.fl j).slot (at_ n)).own = .empty ∧
        (((t.fl j).allocFail = f.allocFail + 1 ∧ (t.fl j).mapFail = f.mapFail) ∨
         ((t.fl j).allocFail = f.allocFail ∧ (t.fl j).mapFail = f.mapFail + 1))) ∧
      (∀ i, i < n → ∀ b, (f.slot (at_ i)).own = .retained b → b.bcls = f.cls → ((t.fl j).slot (at_ i)).own = .posted b) ∧
      ((∀ i, i < k → ∃ b, (f.slot (at_ i)).own = .retained b ∧ b.bcls = f.cls) → n = k) ∧
      (HostFills s.host k → n = k ∧ ((∀ i, i < k → (f.slot (at_ i)).own = .empty) → ∀ i, i < k → ∃ b,
        ((t.fl j).slot (at_ i)).own = .posted b ∧ s.host.bufAlloc[i]? = some (some b.buf) ∧
        s.host.bufMap[i]? = some (some b.addr))) ∧
      (t.fl j).needed = f.needed - n ∧ (t.fl j).pidx = (f.pidx + n) % f.cap ∧ (t.fl j).cidx = f.cidx ∧
      (t.fl j).pending = (if f.pending + n < s.cfg.flDbThresh then f.pending + n else 0) ∧
      (t.fl j).st = f.st ∧ (t.fl j).cls = f.cls ∧ (t.fl j).base = f.base ∧ (t.fl j).cap = f.cap ∧
      (t.fl j).owner = f.owner ∧ (t.fl j).cntxtId = f.cntxtId ∧
      (∀ i, i < n → ∃ b, ((t.fl j).slot ((f.pidx + i) % f.cap)).own = .posted b ∧ b.bcls = f.cls ∧
        t.read64 (slotAddr f.base 8 ((f.pidx + i) % f.cap)) = b.addr.extractLsb' 4 60 ++ BitVec.ofNat 4 b.bcls) ∧
      (∀ k, (∀ i, i ≤ n → k ≠ (f.pidx + i) % f.cap) → (t.fl j).slot k = f.slot k) ∧
      (∀ a : Addr, (∀ i, i < n → ∀ b, b < 8 → a ≠ slotAddr f.base 8 ((f.pidx + i) % f.cap) + BitVec.ofNat 64 b) →
        t.readByte a = s.readByte a) ∧
      Untouched .fl j s t ∧ t.qmap = s.qmap

/-- R250: FL_TAKE on a frame that fits the published buffer at `cidx`: a short one is copied and the buffer retained, a longer
one attached and unmapped. With no published buffer it faults, names the free list, and changes nothing else. -/
def Obligations.FlTakeOneBuffer : Prop :=
  (∀ (q : Qid) (len : BitVec 32) (b : RxBuf) (s : State), let j := q.toNat; let f := s.fl j; let n := len.toNat
    f.st = .run → 1 ≤ n → 1 ≤ f.published → (f.slot f.cidx).own = .posted b → n ≤ classSize s.cfg b.bcls →
    ∃ t, exec (.flTake q len) s = .next t ∧ t.res = { rc := .ok, value := 1 } ∧
      (n ≤ s.cfg.rxCopyThresh → t.fl j = afterTake f (.retained b) ∧
        t.out = s.out ++ [.deliver (.copy (s.readBytes b.addr n)) none]) ∧
      (s.cfg.rxCopyThresh < n → t.fl j = afterTake f .empty ∧
        t.out = s.out ++ [.unmap (.rx b.buf), .deliver (.refs [(b.buf, n)]) none]) ∧
      Untouched .fl j s t ∧ t.qmap = s.qmap ∧ t.mem = s.mem) ∧
  ∀ (q : Qid) (len : BitVec 32) (s : State), (s.fl q.toNat).st = .run → 1 ≤ len.toNat → (s.fl q.toNat).published = 0 →
    exec (.flTake q len) s = .next { s with fault := faultWord .flUnderrun { type := .fl, index := q.toNat } }

/-- R250, R252: FL_TAKE on a frame that the published buffers can hold takes as many consecutive buffers as it needs: they hold
it, and one fewer would not. A short frame in one buffer is copied and the buffer retained; any other is attached, each buffer
with its chunk and unmapped. A frame they cannot hold underruns with every published buffer taken. -/
def Obligations.FlTakeSpansBuffers : Prop :=
  ∀ (q : Qid) (len : BitVec 32) (b : Nat → RxBuf) (s : State), let j := q.toNat; let f := s.fl j; let n := len.toNat
    let at_ := fun i => (f.cidx + i) % f.cap
    f.st = .run → f.Law → 1 ≤ n → (∀ i, i < f.published → (f.slot (at_ i)).own = .posted (b i)) →
    (n ≤ bufBytes s.cfg b f.published →
      ∃ t k, exec (.flTake q len) s = .next t ∧ t.res = { rc := .ok, value := BitVec.ofNat 32 k } ∧
        1 ≤ k ∧ k ≤ f.published ∧ n ≤ bufBytes s.cfg b k ∧ bufBytes s.cfg b (k - 1) < n ∧
        (k = 1 → n ≤ s.cfg.rxCopyThresh → ((t.fl j).slot f.cidx).own = .retained (b 0) ∧
          t.out = s.out ++ [.deliver (.copy (s.readBytes (b 0).addr n)) none]) ∧
        (k ≠ 1 ∨ s.cfg.rxCopyThresh < n → (∀ i, i < k → ((t.fl j).slot (at_ i)).own = .empty) ∧
          t.out = s.out ++ (List.range k).map (fun i => .unmap (.rx (b i).buf)) ++
            [.deliver (.refs (frameParts s.cfg b n k)) none]) ∧
        (t.fl j).cidx = at_ k ∧ (t.fl j).needed = f.needed + k ∧ (t.fl j).pidx = f.pidx ∧ (t.fl j).pending = f.pending ∧
        (∀ x, (∀ i, i < k → x ≠ at_ i) → (t.fl j).slot x = f.slot x) ∧
        Untouched .fl j s t ∧ t.qmap = s.qmap ∧ t.mem = s.mem) ∧
    (bufBytes s.cfg b f.published < n →
      ∃ t, exec (.flTake q len) s = .next t ∧ t.fault = faultWord .flUnderrun { type := .fl, index := j } ∧ t.res = s.res ∧
        (t.fl j).cidx = at_ f.published ∧ (t.fl j).needed = f.needed + f.published ∧ t.mem = s.mem)

/-- R53: under the free-list law `needed` and the posted slots add up to `cap − 1`, and `pending` is at most the posted slots. -/
def Obligations.FreeListLawCountsBuffers : Prop :=
  ∀ f : FL, f.Law → f.needed + f.postedCount = f.cap - 1 ∧ f.pending ≤ f.postedCount

/-- R53, R253: the free-list law holds from step to step. -/
def Obligations.StepKeepsFreeListLaw : Prop :=
  ∀ s t : State, FlInv s → step s = .next t → FlInv t

/-! ### Egress: work requests (43_egress_tx.md, 45_sgl.md, 46_coalesce.md) -/

/-- R296, R297, R113, R170: EQ_DOORBELL publishes everything pending when it is forced or the back-off threshold is reached: one
barrier and one doorbell. Otherwise it writes nothing. The thresholds of the formula never fall as occupancy grows. -/
def Obligations.EqDoorbellBacksOff : Prop :=
  (∀ c : Config, c.dbBackoff = .formula → backoff c 1 = 1 ∧
    (∀ k x, 1 ≤ k → 2 ^ (2 * k - 1) ≤ x → x < 2 ^ (2 * k + 1) → backoff c x = 2 ^ k) ∧
    ∀ x y, x ≤ y → backoff c x ≤ backoff c y) ∧
  ∀ (q : Qid) (force : Bool) (s : State), let j := q.toNat; let e := s.eq j
    e.st = .run →
    (e.pending = 0 ∨ (force = false ∧ e.pending < backoff s.cfg (e.cap - e.avail)) →
      exec (.eqDoorbell q force) s = .next { s with res := { rc := .ok, value := 0 } }) ∧
    (e.pending ≠ 0 → force = true ∨ backoff s.cfg (e.cap - e.avail) ≤ e.pending →
      ∃ t v, exec (.eqDoorbell q force) s = .next t ∧ t.out = s.out ++ [.barrier, .regWrite .kdb v] ∧
        kdbFields e.cntxtId e.pending v ∧ t.eq j = { e with pending := 0 } ∧
        t.res = { rc := .ok, value := BitVec.ofNat 32 e.pending } ∧
        t.peerEqOf j = { s.peerEqOf j with hwPidx := ((s.peerEqOf j).hwPidx + e.pending) % e.cap } ∧
        Untouched .eq j s t ∧ t.qmap = s.qmap ∧ t.mem = s.mem)

/-- R361: the flits of an SGL, by the formula, by its closed form, and as written. R368: written into a ring from an even flit
on, wrapping, and read back, an SGL of 1 to 64 segments decodes to the list; the flits written are the count of R361 made even,
all of them from the start on, and no other byte changes. -/
def Obligations.SglSizeAndRoundTrip : Prop :=
  (∀ n, 1 ≤ n → sglFlits n = 2 + 3 * ((n - 1) / 2) + 2 * ((n - 1) % 2) ∧ sglFlits n = ceilDiv (3 * (n - 1)) 2 + 2) ∧
  (∀ l : List Segment, l ≠ [] → (sglBody l).length = sglFlits l.length) ∧
  ([1, 2, 3, 4, 5, 8, 16, 36, 64].map sglFlits = [2, 4, 5, 7, 8, 13, 25, 55, 97]) ∧
  ∀ (s : State) (j f : Nat) (l : List Segment), let e := s.eq j; let n := sglFlits l.length
    1 ≤ l.length → l.length ≤ 64 → f % 2 = 0 → e.ringFits → n + n % 2 ≤ 8 * e.cap →
    let t := wflits j f (sglWritten l) s
    (sglWritten l).length = n + n % 2 ∧ RingWritten e f (sglWritten l) s t ∧
    sglDecode ((List.range n).map (fun k => t.read64 (flitAddr e.base e.cap (f + k)))) = l

/-- R161 to R166, R168, R174: the flits that the work requests are built from hold the fields of their formats, and for every form
of work request PEER reads from `LEN16` the slots the DRC commits. Below an `eh_len` of 14 no value of `ETHHDR_LEN` is stated
(log entry 32). -/
def Obligations.PeerReadsCommittedSlots : Prop :=
  (∀ (op : Byte) (n k : Nat) (b : Bool), hdrFields op n b k (hdr0 op n b k)) ∧
  (∀ len : BitVec 32, coreFields len (core0 len)) ∧ (∀ p : Packet, ctrlFields p (ctrl1 p)) ∧
  (∀ o : Lso, lsoFields o (lso0 o)) ∧
  (∀ (g : Segment) (l : List Segment), ∃ v rest, sglBody (g :: l) = v :: g.addr :: rest ∧ v.extractLsb' 56 8 = 0x82#8 ∧
    v.extractLsb' 48 8 = 0 ∧ v.extractLsb' 32 16 = BitVec.ofNat 16 (l.length + 1) ∧ v.extractLsb' 0 32 = g.len) ∧
  (∀ (p : Packet) (l : List Segment), 1 ≤ l.length → l.length ≤ 36 →
    ((pktWr p l).map peerWrSlots).head? = some (ndesc (pktWr p l).length) ∧
    ∀ o : Lso, ((lsoWr p o l).map peerWrSlots).head? = some (ndesc (lsoWr p o l).length)) ∧
  (∀ p : Packet, p.len.toNat ≤ 128 → ((immWr p).map peerWrSlots).head? = some (ndesc (immWr p).length)) ∧
  (flushWr.map peerWrSlots).head? = some (ndesc flushWr.length) ∧
  ∀ b : Batch, b.nflits ≤ 64 → b.nflits % 2 = 0 → ((batchHdr b).map peerWrSlots).head? = some (ndesc b.nflits)

/-- R293, R393: EQ_WR_FLUSH writes the two flits of a flush request at `pidx`, takes one slot and no map, and marks the request
outstanding; without credit it writes nothing, and with a batch open it is refused. -/
def Obligations.EqWrFlushWritesOneSlot : Prop :=
  ∀ (q : Qid) (s : State), let j := q.toNat; let e := s.eq j
    e.st = .run →
    (e.batch.accepting = true → exec (.eqWrFlush q) s = .next { s with res := { rc := .badCmd, value := 0 } }) ∧
    (e.batch.accepting = false → e.avail = 0 →
      exec (.eqWrFlush q) s = .next { s with res := { rc := .noDesc, value := 0 } }) ∧
    (e.batch.accepting = false → e.Law → e.ringFits → 1 ≤ e.avail → ∃ t, exec (.eqWrFlush q) s = .next t ∧
      t.res = { rc := .ok, value := 1 } ∧
      RingWritten e (8 * e.pidx) [0x1B000000C0000001#64, 0#64] s t ∧
      t.eq j = { e with
        sd := Tab.put e.sd e.pidx { descUsed := 1, mapsUsed := 0 }, pidx := (e.pidx + 1) % e.cap, avail := e.avail - 1
        pending := e.pending + 1, flushOut := true } ∧
      Untouched .eq j s t ∧ t.qmap = s.qmap)

/-- R285, R282, R286: EQ_WR_PKT sends the packet of the SGL register as one work request: its flits, its map, its slots, its
counters; without credit it writes nothing, the SGL stays, and `eq.held` is the packet (R510), unless it was another one already
(log entry 40). With a batch open, with no packet in the register or with one that needs segmentation offload it is refused
(R393). -/
def Obligations.EqWrPktSendsRegister : Prop :=
  ∀ (q : Qid) (s : State), let j := q.toNat; let e := s.eq j; let p := e.sgl.pkt
    let n := 4 + sglFlits e.sgl.segs.length + sglFlits e.sgl.segs.length % 2
    e.st = .run →
    (e.batch.accepting = true ∨ e.sgl.valid = false ∨ p.lso ≠ none →
      exec (.eqWrPkt q) s = .next { s with res := { rc := .badCmd, value := 0 } }) ∧
    (e.batch.accepting = false → e.sgl.valid = true → p.lso = none → e.avail < ndesc n →
      KeepsInRegister j s (exec (.eqWrPkt q) s)) ∧
    (e.batch.accepting = false → e.sgl.valid = true → p.lso = none → e.sgl.segs ≠ [] → e.Law → e.ringFits →
      ndesc n ≤ e.avail → ∃ t, exec (.eqWrPkt q) s = .next t ∧ t.res = { rc := .ok, value := BitVec.ofNat 32 (ndesc n) } ∧
      RingWritten e (8 * e.pidx)
        ([hdr0 0x08#8 16 false (n / 2), 0, core0 p.len, ctrl1 p] ++ sglWritten e.sgl.segs) s t ∧
      t.eq j = { e with
        sd := Tab.put e.sd e.pidx { descUsed := ndesc n, mapsUsed := 1 }, pidx := (e.pidx + ndesc n) % e.cap
        avail := e.avail - ndesc n, pending := e.pending + ndesc n, maps := Tab.put e.maps e.mapPidx p
        mapPidx := (e.mapPidx + 1) % e.txMaps, mapAvail := e.mapAvail - 1
        sgl := { e.sgl with mapHeld := false, valid := false }
        stats := countOffloads p { e.stats with sglWrs := e.stats.sglWrs + 1 } } ∧
      Untouched .eq j s t ∧ t.qmap = s.qmap)

/-- R288, R168: EQ_WR_LSO sends the packet of the SGL register with its segmentation-offload request; without credit its
SGL stays, and `eq.held` is the packet (R510), unless it was another one already (log entry 40). With a batch open, with no
packet in the register or with one that needs no offload it is refused (R393). -/
def Obligations.EqWrLsoSendsRegister : Prop :=
  ∀ (q : Qid) (s : State), let j := q.toNat; let e := s.eq j; let p := e.sgl.pkt
    let n := 6 + sglFlits e.sgl.segs.length + sglFlits e.sgl.segs.length % 2
    e.st = .run →
    (e.batch.accepting = true ∨ e.sgl.valid = false ∨ p.lso = none →
      exec (.eqWrLso q) s = .next { s with res := { rc := .badCmd, value := 0 } }) ∧
    (e.batch.accepting = false → e.sgl.valid = true → p.lso ≠ none → e.avail < ndesc n →
      KeepsInRegister j s (exec (.eqWrLso q) s)) ∧
    (∀ o, e.batch.accepting = false → e.sgl.valid = true → p.lso = some o → e.sgl.segs ≠ [] → e.Law → e.ringFits →
      ndesc n ≤ e.avail → ∃ t, exec (.eqWrLso q) s = .next t ∧ t.res = { rc := .ok, value := BitVec.ofNat 32 (ndesc n) } ∧
      RingWritten e (8 * e.pidx)
        ([hdr0 0x08#8 32 false (n / 2), 0, lso0 o, 0#32 ++ p.len, core0 p.len, ctrl1 p] ++ sglWritten e.sgl.segs) s t ∧
      t.eq j = { e with
        sd := Tab.put e.sd e.pidx { descUsed := ndesc n, mapsUsed := 1 }, pidx := (e.pidx + ndesc n) % e.cap
        avail := e.avail - ndesc n, pending := e.pending + ndesc n, maps := Tab.put e.maps e.mapPidx p
        mapPidx := (e.mapPidx + 1) % e.txMaps, mapAvail := e.mapAvail - 1
        sgl := { e.sgl with mapHeld := false, valid := false }
        stats := countOffloads p { e.stats with tsoWrs := e.stats.tsoWrs + 1 } } ∧
      Untouched .eq j s t ∧ t.qmap = s.qmap)

/-- R290: EQ_WR_IMM takes the held packet, or else one from HOST's source, and sends it as immediate data without a map; a
packet it cannot send, for want of credit or by its kind, is kept. With no packet it answers `EMPTY`, and with a batch open it
is refused (R393). The payload bytes HOST did not hand in are free (log entry 13); that `eq.held` is empty after the packet
was sent is the model's reading (log entry 29), and so is that a held packet in the SGL register leaves it with its map when it
is sent (log entry 40). -/
def Obligations.EqWrImmSendsOrKeeps : Prop :=
  ∀ (q : Qid) (s s1 : State), let j := q.toNat; let e := s.eq j
    e.st = .run →
    (e.batch.accepting = true → exec (.eqWrImm q) s = .next { s with res := { rc := .badCmd, value := 0 } }) ∧
    (e.batch.accepting = false → e.heldInSgl = false → takePacket j s = (none, s1) →
      exec (.eqWrImm q) s = .next { s1 with res := { rc := .empty, value := 0 } }) ∧
    ∀ p taken back, e.batch.accepting = false → e.Law → e.ringFits → ImmTakes j s p taken back →
    let n := 4 + 2 * ceilDiv p.len.toNat 16; let d := ndesc n
    (p.lso = none → p.len.toNat ≤ s.cfg.txImmMax → d ≤ e.avail → ∃ t, exec (.eqWrImm q) s = .next t ∧
      t.res = { rc := .ok, value := BitVec.ofNat 32 d } ∧
      RingWritten e (8 * e.pidx) ([hdr0 0x08#8 (16 + p.len.toNat) false (n / 2), 0, core0 p.len, ctrl1 p] ++
        immFlits (pktBytes p) (2 * ceilDiv p.len.toNat 16)) s t ∧
      t.eq j = { taken with
        sd := Tab.put e.sd e.pidx { descUsed := d, mapsUsed := 0 }, pidx := (e.pidx + d) % e.cap
        avail := e.avail - d, pending := e.pending + d
        stats := countOffloads p { e.stats with immWrs := e.stats.immWrs + 1 } } ∧
      (∃ l, t.out = s.out ++ (if e.heldInSgl then [.unmap (.pkt p)] else []) ++ l ++ [.release (.pkt p)] ∧
        ∀ x ∈ l, ∃ a v, x = .memWrite a v) ∧ Untouched .eq j s t ∧ t.qmap = s.qmap) ∧
    (p.lso = none → p.len.toNat ≤ s.cfg.txImmMax → e.avail < d → ∃ t, exec (.eqWrImm q) s = .next t ∧
      t.res = { rc := .noDesc, value := 0 } ∧ t.eq j = back ∧ t.out = s.out ∧ t.mem = s.mem ∧
      Untouched .eq j s t ∧ t.qmap = s.qmap) ∧
    (p.lso ≠ none ∨ s.cfg.txImmMax < p.len.toNat → ∃ t, exec (.eqWrImm q) s = .next t ∧
      t.res = { rc := .badCmd, value := 0 } ∧ t.eq j = back ∧ t.out = s.out ∧ t.mem = s.mem ∧
      Untouched .eq j s t ∧ t.qmap = s.qmap)

/-- R362: SGL_BUILD, by the answers of HOST: a layout fills the register; want of a map keeps the packet; a packet of too many
segments is compacted once and then built, kept or dropped; no packet answers `EMPTY`, and a register that is full is a
refusal. That `eq.held` is empty after the packet was built or dropped is the model's reading (log entry 29). -/
def Obligations.SglBuildFollowsHost : Prop :=
  ∀ (q : Qid) (s : State), let j := q.toNat; let e := s.eq j
    e.st = .run →
    (e.sgl.valid = true → exec (.sglBuild q) s = .next { s with res := { rc := .badCmd, value := 0 } }) ∧
    (∀ s1, e.sgl.valid = false → takePacket j s = (none, s1) →
      exec (.sglBuild q) s = .next { s1 with res := { rc := .empty, value := 0 } }) ∧
    ∀ p s1, e.sgl.valid = false → takePacket j s = (some p, s1) →
      (e.mapAvail = 0 → ∃ t, exec (.sglBuild q) s = .next t ∧ t.res = { rc := .noMap, value := 0 } ∧
        t.eq j = { e with held := some p } ∧ t.out = s.out ∧ Untouched .eq j s t ∧ t.qmap = s.qmap ∧ t.mem = s.mem) ∧
      (1 ≤ e.mapAvail → ∃ t, exec (.sglBuild q) s = .next t ∧ Untouched .eq j s t ∧ t.qmap = s.qmap ∧ t.mem = s.mem ∧
        let a := s1.mapLoad p; let c := a.2.compact p
        (∀ l, a.1 = .ok l → t.res = { rc := .ok, value := BitVec.ofNat 32 (sglFlits l.length) } ∧
          t.eq j = { e with held := none, sgl := { valid := true, mapHeld := true, pkt := p, segs := l } }) ∧
        (a.1 = .noResource → t.res = { rc := .noMap, value := 0 } ∧ t.eq j = { e with held := some p }) ∧
        (a.1 = .tooMany → c.1 = none → t.res = { rc := .dropped, value := 0 } ∧ t.eq j = { e with
          held := none, stats := { e.stats with defrags := e.stats.defrags + 1, drops := e.stats.drops + 1 } }) ∧
        ∀ p', a.1 = .tooMany → c.1 = some p' →
          (∀ l, (c.2.mapLoad p').1 = .ok l → t.res = { rc := .ok, value := BitVec.ofNat 32 (sglFlits l.length) } ∧
            t.eq j = { e with
              held := none, sgl := { valid := true, mapHeld := true, pkt := p', segs := l }
              stats := { e.stats with defrags := e.stats.defrags + 1 } }) ∧
          ((c.2.mapLoad p').1 = .noResource → t.res = { rc := .noMap, value := 0 } ∧ t.eq j = { e with
            held := some p', stats := { e.stats with defrags := e.stats.defrags + 1 } }) ∧
          ((c.2.mapLoad p').1 = .tooMany → t.res = { rc := .dropped, value := 0 } ∧ t.eq j = { e with
            held := none, stats := { e.stats with defrags := e.stats.defrags + 1, drops := e.stats.drops + 1 } }))

/-- R365, R366: SGL_WRITE writes the SGL of the register and its pad at an even flit inside the free region and changes no
record; anywhere else, with no packet in the register, or with a batch open it is refused, whatever the record holds. -/
def Obligations.SglWriteStaysInFreeRegion : Prop :=
  ∀ (q : Qid) (f : BitVec 32) (s : State), let j := q.toNat; let e := s.eq j
    let n := sglFlits e.sgl.segs.length + sglFlits e.sgl.segs.length % 2
    let ok := e.batch.accepting = false ∧ e.sgl.valid = true ∧ f.toNat % 2 = 0 ∧ f.toNat < 8 * e.cap ∧
      (f.toNat + 8 * e.cap - 8 * e.pidx) % (8 * e.cap) + n ≤ 8 * e.avail
    e.st = .run →
    (ok → e.Law → e.ringFits → e.sgl.segs ≠ [] →
      ∃ t, exec (.sglWrite q f) s = .next t ∧ t.res = { rc := .ok, value := BitVec.ofNat 32 n } ∧
      RingWritten e f.toNat (sglWritten e.sgl.segs) s t ∧ t.eq j = e ∧ Untouched .eq j s t ∧ t.qmap = s.qmap) ∧
    (¬ ok → exec (.sglWrite q f) s = .next { s with res := { rc := .badCmd, value := 0 } })

/-- R391: TXPKTS_ADD takes the packet of the SGL register into the batch exactly when it needs no segmentation offload and the
flit, descriptor and length budgets hold after it; otherwise only `RES` changes, to a refusal where the register is empty. -/
def Obligations.TxpktsAddChecksBudgets : Prop :=
  ∀ (q : Qid) (s : State), let j := q.toNat; let e := s.eq j; let p := e.sgl.pkt; let b := e.batch
    let part := 4 + sglFlits e.sgl.segs.length + sglFlits e.sgl.segs.length % 2
    let new := (if b.accepting then b.nflits else 2) + part
    let len := (if b.accepting then b.plen else 0) + p.len.toNat
    let c := if b.accepting then b.cur else 8 * e.pidx + 2
    let fits := p.lso = none ∧ new ≤ s.cfg.maxWrFlits ∧ ceilDiv new 8 ≤ e.avail ∧ len < s.cfg.coalPlenLimit
    e.st = .run →
    (e.sgl.valid = false → exec (.txpktsAdd q) s = .next { s with res := { rc := .badCmd, value := 0 } }) ∧
    (fits → e.sgl.valid = true → e.sgl.segs ≠ [] → e.Law → BatchLaw s.cfg e → e.ringFits →
      ∃ t, exec (.txpktsAdd q) s = .next t ∧ t.res = { rc := .ok, value := BitVec.ofNat 32 (b.npkt + 1) } ∧
      RingWritten e c ([0x0D#8 ++ 0#24 ++ BitVec.ofNat 32 (part / 2), 0x8100000000000010#64, core0 p.len, ctrl1 p] ++
        sglWritten e.sgl.segs) s t ∧
      t.eq j = { e with
        batch := { accepting := true, npkt := b.npkt + 1, nflits := new, plen := len, cur := (c + part) % (8 * e.cap)
                   nmaps := b.nmaps + 1 }
        maps := Tab.put e.maps e.mapPidx p, mapPidx := (e.mapPidx + 1) % e.txMaps, mapAvail := e.mapAvail - 1
        sgl := { e.sgl with mapHeld := false, valid := false }, stats := countOffloads p e.stats } ∧
      Untouched .eq j s t ∧ t.qmap = s.qmap) ∧
    (¬ fits → e.sgl.valid = true → exec (.txpktsAdd q) s = .next { s with res := { rc := .reject, value := 0 } })

/-- R396, R163: TXPKTS_FLUSH writes the aggregated header in front of the parts, commits the batch as one work request and
empties it; its cursor is then unspecified (log entry 8). With no batch open it does nothing. -/
def Obligations.TxpktsFlushCommitsBatch : Prop :=
  ∀ (q : Qid) (s : State), let j := q.toNat; let e := s.eq j; let b := e.batch; let n := ndesc b.nflits
    e.st = .run → e.Law → BatchLaw s.cfg e → e.ringFits →
    (b.accepting = false → exec (.txpktsFlush q) s = .next { s with res := { rc := .ok, value := 0 } }) ∧
    (b.accepting = true → ∃ t c, exec (.txpktsFlush q) s = .next t ∧
      t.res = { rc := .ok, value := BitVec.ofNat 32 b.npkt } ∧
      RingWritten e (8 * e.pidx) [hdr0 0x09#8 0 false (b.nflits / 2),
        BitVec.ofNat 16 b.plen ++ BitVec.ofNat 8 b.npkt ++ BitVec.ofNat 8 n ++ 0#32] s t ∧
      t.eq j = { e with
        sd := Tab.put e.sd e.pidx { descUsed := n, mapsUsed := b.nmaps }, pidx := (e.pidx + n) % e.cap
        avail := e.avail - n, pending := e.pending + n
        batch := { accepting := false, npkt := 0, nflits := 0, plen := 0, cur := c, nmaps := 0 }
        stats := { e.stats with
          txpktsWrs := e.stats.txpktsWrs + 1, txpktsPkts := e.stats.txpktsPkts + BitVec.ofNat 64 b.npkt } } ∧
      Untouched .eq j s t ∧ t.qmap = s.qmap)

/-- R280, R283, R284, R301: one turn of EQ_TX with credit to spare, on its state `s0` with the resume request cleared. EQ_TX
asks HOST once whether a packet is behind the one in hand. A packet that goes through the SGL path is built as by SGL_BUILD,
and dropped or sent from the register; a small packet alone goes as by EQ_WR_IMM, and its doorbell is checked. The packet of a
register that is full goes first, the model's reading (log entry 18). EQ_TX then goes on with the limit that is left. With no
packet EQ_TX only clears its requests and publishes what is pending; one small packet, and one in the register, end in the
records below. -/
def Obligations.EqTxSendsLonePacket : Prop :=
  (∀ (q : Qid) (limit : BitVec 32) (s : State), let j := q.toNat; let e := s.eq j
    let s0 := s.setEq j { e with resumeReq := false }; let p := e.sgl.pkt
    let back := fun u : State => { u with res := s.res }
    e.st = .run → s.cfg.txLowCredit ≤ e.avail →
    (∀ m s1, e.sgl.valid = false → takePacket j s0 = (some m, s1) → let inHand := eqHold j (some m) (s1.peek j).2
      (precheck m = false → exec (.eqTx q limit) s = exec (.eqTx q limit) (eqDrop j m s1)) ∧
      (∀ u, precheck m = true → (coalescing j s1 = true ∨ immOk s.cfg m = false) → exec (.sglBuild q) inHand = .next u →
        (u.res.rc = .dropped → exec (.eqTx q limit) s = exec (.eqTx q limit) (back u)) ∧
        (u.res.rc = .ok → TxRegisterGoes q limit s (coalescing j s1) (back u))) ∧
      ∀ u, precheck m = true → coalescing j s1 = false → immOk s.cfg m = true → exec (.eqWrImm q) inHand = .next u →
        u.res.rc = .ok → TxGoesOn q limit s (eqDoorbell j false (back u)).2) ∧
    (e.sgl.valid = true → precheck p = false →
      exec (.eqTx q limit) s = exec (.eqTx q limit) (eqDrop j p (sglRelease j s0))) ∧
    (e.sgl.valid = true → precheck p = true → TxRegisterGoes q limit s (coalescing j s0) (s0.peek j).2)) ∧
  ∀ (q : Qid) (limit : BitVec 32) (s s1 : State), let j := q.toNat; let e := s.eq j
    e.st = .run → e.batch.accepting = false → e.Law → e.ringFits → s.cfg.txLowCredit ≤ e.avail →
    (e.sgl.valid = false → takePacket j s = (none, s1) → ∃ t, exec (.eqTx q limit) s = .next t ∧
      t.res = { rc := .ok, value := 0 } ∧ t.eq j = { e with resumeReq := false, stalled := false, pending := 0 } ∧ t.mem = s.mem ∧
      Untouched .eq j s t ∧ t.qmap = s.qmap ∧ t.out = s.out ++
        (if e.pending = 0 then [] else [.barrier, .regWrite .kdb (kdbWord e.cntxtId e.pending)])) ∧
    (e.sgl.valid = true → takePacket j (s.peek j).2 = (none, s1) → e.sgl.pkt.lso = none → e.sgl.pkt.len.toNat ≤ 65535 →
      e.sgl.segs ≠ [] → let p := e.sgl.pkt
      let d := ndesc (4 + sglFlits e.sgl.segs.length + sglFlits e.sgl.segs.length % 2)
      d ≤ e.avail → ∃ t l, exec (.eqTx q limit) s = .next t ∧ t.res = { rc := .ok, value := 1 } ∧
        RingWritten e (8 * e.pidx) (pktWr p e.sgl.segs) s t ∧
        t.eq j = { e with
          resumeReq := false, stalled := false, pending := 0
          sd := Tab.put e.sd e.pidx { descUsed := d, mapsUsed := 1 }, pidx := (e.pidx + d) % e.cap, avail := e.avail - d
          maps := Tab.put e.maps e.mapPidx p, mapPidx := (e.mapPidx + 1) % e.txMaps, mapAvail := e.mapAvail - 1
          sgl := { e.sgl with mapHeld := false, valid := false }
          stats := countOffloads p { e.stats with sglWrs := e.stats.sglWrs + 1 } } ∧
        t.out = s.out ++ l ++ [.barrier, .regWrite .kdb (kdbWord e.cntxtId (e.pending + d))] ∧
        (∀ x ∈ l, ∃ a v, x = .memWrite a v) ∧ Untouched .eq j s t ∧ t.qmap = s.qmap) ∧
    ∀ p, e.sgl.valid = false → takePacket j s = (some p, s1) → s1.src j = [] → p.lso = none →
      p.len.toNat ≤ s.cfg.txImmMax → p.len.toNat ≤ 65535 → let d := ndesc (4 + 2 * ceilDiv p.len.toNat 16)
      d ≤ e.avail → ∃ t l, exec (.eqTx q limit) s = .next t ∧ t.res = { rc := .ok, value := 1 } ∧
        RingWritten e (8 * e.pidx) (immWr p) s t ∧
        t.eq j = { e with
          held := none, resumeReq := false, stalled := false, pending := 0
          sd := Tab.put e.sd e.pidx { descUsed := d, mapsUsed := 0 }, pidx := (e.pidx + d) % e.cap, avail := e.avail - d
          stats := countOffloads p { e.stats with immWrs := e.stats.immWrs + 1 } } ∧
        t.out = s.out ++ l ++ [.release (.pkt p), .barrier, .regWrite .kdb (kdbWord e.cntxtId (e.pending + d))] ∧
        (∀ x ∈ l, ∃ a v, x = .memWrite a v) ∧ Untouched .eq j s t ∧ t.qmap = s.qmap

/-- R280, R298, R301, R342, R612: however its loop ends, EQ_TX leaves nothing pending and no batch open, clears the resume
request, keeps a packet in `eq.held` when it stalls (the one of the SGL register stays there where `eq.held` was full, log entry
18), and sends no more than its limit; with credit to spare it cannot fault. It writes only
slots that hold no unreclaimed work: of memory, only the flits from `pidx` on that the credit after its reclaim covers. -/
def Obligations.EqTxLeavesNothingPending : Prop :=
  ∀ (q : Qid) (limit : BitVec 32) (s t : State), let j := q.toNat
    (s.eq j).st = .run → faultValid s.fault = false → exec (.eqTx q limit) s = .next t →
    (s.cfg.txLowCredit ≤ (s.eq j).avail → t.fault = s.fault) ∧
    (t.fault = s.fault →
      (t.res.rc = .ok ∨ t.res.rc = .stalled) ∧ (t.eq j).pending = 0 ∧ (t.eq j).batch.accepting = false ∧
      (t.eq j).resumeReq = false ∧ ((t.eq j).stalled = true ↔ t.res.rc = .stalled) ∧
      (t.res.rc = .stalled → (t.eq j).held.isSome = true ∧ ((t.eq j).sgl.valid = true →
        (s.eq j).sgl.valid = true ∧ (s.eq j).held.isSome = true ∧ (t.eq j).sgl = (s.eq j).sgl ∧
          (t.eq j).held = (s.eq j).held)) ∧
      (limit ≠ 0 → t.res.value.toNat ≤ limit.toNat) ∧
      Untouched .eq j s t ∧ t.qmap = s.qmap ∧
      ((s.eq j).Law → BatchLaw s.cfg (s.eq j) → ∀ a,
        ¬ (s.eq j).inFlits (8 * (s.eq j).pidx) (8 * ((s.eq j).cap - 1 - subMod (s.eq j).pidx (t.eq j).cidx (s.eq j).cap)) a →
        Memory.get t.mem a = Memory.get s.mem a))

/-! ### Egress: reclaim (44_reclaim.md) -/

/-- R340: EQ_RECLAIMABLE reads the consumer index once and faults on an index outside the ring or past what was produced;
otherwise it answers the distance, and only `RES` changes. -/
def Obligations.EqReclaimableReadsStatusWord : Prop :=
  ∀ (q : Qid) (s : State), let j := q.toNat; let e := s.eq j
    let hw := ((s.read64 e.statAddr).extractLsb' 16 16).toNat; let r := (hw + e.cap - e.cidx) % e.cap
    (e.st = .reg ∨ e.st = .run) →
    (e.cap ≤ hw → exec (.eqReclaimable q) s = .next { s with fault := faultWord .badStatus { type := .eq, index := j } }) ∧
    (hw < e.cap → e.cap - 1 - e.avail < r →
      exec (.eqReclaimable q) s = .next { s with fault := faultWord .overReclaim { type := .eq, index := j } }) ∧
    (hw < e.cap → r ≤ e.cap - 1 - e.avail →
      exec (.eqReclaimable q) s = .next { s with res := { rc := .ok, value := BitVec.ofNat 32 r } })

/-- R341: EQ_RECLAIM returns whole work requests only: it changes nothing on a fault or when there is too little to bother, and
otherwise takes the records from `cidx` on, with their maps, as many as fit `howmany`, and unmaps and releases the packet of
each of those maps to HOST, in the order the maps were taken. -/
def Obligations.EqReclaimReturnsWholeRequests : Prop :=
  ∀ (q : Qid) (atleast : BitVec 16) (howmany : BitVec 32) (s : State), let j := q.toNat; let e := s.eq j
    let hw := ((s.read64 e.statAddr).extractLsb' 16 16).toNat; let r := (hw + e.cap - e.cidx) % e.cap
    (e.st = .reg ∨ e.st = .run) → e.Law →
    (howmany.toNat < atleast.toNat →
      exec (.eqReclaim q atleast howmany) s = .next { s with res := { rc := .badCmd, value := 0 } }) ∧
    (atleast.toNat ≤ howmany.toNat →
      (e.cap ≤ hw → exec (.eqReclaim q atleast howmany) s = .next
        { s with fault := faultWord .badStatus { type := .eq, index := j } }) ∧
      (hw < e.cap → e.cap - 1 - e.avail < r → exec (.eqReclaim q atleast howmany) s = .next
        { s with fault := faultWord .overReclaim { type := .eq, index := j } }) ∧
      (hw < e.cap → r ≤ e.cap - 1 - e.avail → (r = 0 ∨ r < atleast.toNat) →
        exec (.eqReclaim q atleast howmany) s = .next { s with res := { rc := .ok, value := 0 } }) ∧
      (hw < e.cap → r ≤ e.cap - 1 - e.avail → 1 ≤ r → atleast.toNat ≤ r → wrMaps e r e.cidx r = none →
        exec (.eqReclaim q atleast howmany) s = .next
          { s with fault := faultWord .partialCredit { type := .eq, index := j } }) ∧
      (hw < e.cap → r ≤ e.cap - 1 - e.avail → 1 ≤ r → atleast.toNat ≤ r → wrMaps e r e.cidx r ≠ none →
        ∃ t d m, exec (.eqReclaim q atleast howmany) s = .next t ∧ t.res = { rc := .ok, value := BitVec.ofNat 32 d } ∧
          d ≤ r ∧ d ≤ howmany.toNat ∧ wrMaps e d e.cidx d = some m ∧
          (d < r → howmany.toNat < d + (e.slot ((e.cidx + d) % e.cap)).descUsed) ∧
          t.eq j = { e with
            cidx := (e.cidx + d) % e.cap, avail := e.avail + d, mapAvail := e.mapAvail + m
            mapCidx := (e.mapCidx + m) % e.txMaps, maps := (t.eq j).maps } ∧
          (∀ k, Tab.find (t.eq j).maps k =
            if subMod k e.mapCidx e.txMaps < m ∧ k < e.txMaps then none else Tab.find e.maps k) ∧
          (∃ ps : List Packet, ps.length = m ∧ (∀ i, i < m → Tab.find e.maps ((e.mapCidx + i) % e.txMaps) = ps[i]?) ∧
            t.out = s.out ++ ps.flatMap fun p => [.unmap (.pkt p), .release (.pkt p)]) ∧
          Untouched .eq j s t ∧ t.qmap = s.qmap ∧ t.mem = s.mem))

/-- R57, R343: the credit law and the map law of every EQ hold from step to step, beside the budgets of its batch. Pending slots
stay in use too, while the status word PEER wrote claims no slot that is still pending (R114; log entry 19). -/
def Obligations.StepKeepsCreditLaw : Prop :=
  ∀ s t : State, EqInv s → BatchInv s → step s = .next t → EqInv t ∧
    ((∀ j, (s.eq j).st ≠ .uninit → (s.eq j).PendLaw ∧ StatusPublished j s) →
      ∀ j, (t.eq j).st ≠ .uninit → (t.eq j).PendLaw)

/-- R395, R390: the budgets of every batch hold from step to step, with the credit law. -/
def Obligations.StepKeepsBatchBudgets : Prop :=
  ∀ s t : State, EqInv s → BatchInv s → step s = .next t → BatchInv t

/-! ### Lifecycle (47_lifecycle.md) -/

/-- R424, R101, R104: Q_ALLOC_IQ. No memory leaves the queue `UNINIT`, and a block that HOST gives is aligned and apart from the
memory of every queue (which blocks count: log entries 36 and 37); a refused handshake or a reused id leaves it in `MEM`;
otherwise it is registered under its 16-bit id with the fields of R424, its ring zero-filled. A forwarding target that is not
a registered INTR_FWD queue is refused. An answer longer than 16 bits is cut to the id's width (log entry 3), and a reused id
is logged with code 0 (log entry 30). -/
def Obligations.QAllocIqRegisters : Prop :=
  ∀ (q : Qid) (role : Role) (tmr pktc : BitVec 3) (esize : ESize) (fwd : Bool) (capM1 : BitVec 16) (tgt : Qid) (s : State),
    let i : Instr := .qAllocIq q role tmr pktc esize fwd capM1 tgt; let j := q.toNat; let cap := capM1.toNat + 1
    let d := s.dmaAlloc (cap * esize.bytes) esize.bytes
    let target := fwd = true → (s.iq tgt.toNat).role = .intrFwd ∧ ((s.iq tgt.toNat).st = .reg ∨ (s.iq tgt.toNat).st = .run)
    (s.iq j).st = .uninit →
    (¬ target → exec i s = .next { s with res := { rc := .badCmd, value := 0 } }) ∧
    (target → d.1 = none → ∃ t, exec i s = .next t ∧ t.res = { rc := .noBuf, value := 0 } ∧ t.iq j = s.iq j ∧
      Untouched .iq j s t ∧ t.qmap = s.qmap ∧ t.mem = s.mem) ∧
    ∀ base, target → d.1 = some base →
      let rq : PeerReq := .allocIq base cap esize.bytes role fwd
        (if fwd then (s.iq tgt.toNat).cntxtId else tgt.setWidth 16) tmr pktc
      let a := (d.2.peerCmd rq).1
      let fresh : IQ := { s.iq j with
        st := .mem, base := base, cap := cap, esize := esize.bytes, role := role, tmrIdx := tmr, pktcIdx := pktc, fwd := fwd
        tgt := tgt, cidx := 0, gen := true, ncons := 0, creditBatch := min s.cfg.creditMax (max 1 (cap / s.cfg.creditDiv))
        fl := none, svcReq := false, rxcsum := 0, vlanExtraction := 0, rxPkts := 0 }
      RingPlaced s base (cap * esize.bytes) esize.bytes ∧ ∃ t l, exec i s = .next t ∧ Untouched .iq j s t ∧
        (∀ x, Memory.get t.mem x =
          if base.toNat ≤ x ∧ x < base.toNat + cap * esize.bytes then 0 else Memory.get s.mem x) ∧
        t.out = s.out ++ [.dmaAlloc (cap * esize.bytes), .zeroFill base (cap * esize.bytes), .peerCmd rq] ++ l ∧
        (∀ c, a = .err c → t.res = { rc := .cmdFail, value := c } ∧ t.iq j = fresh ∧ t.qmap = s.qmap ∧
          l = [.log rq .iq j c]) ∧
        ∀ id0, a = .ok id0 → let id : BitVec 16 := id0.setWidth 16
          ((s.lookup id.toNat).isSome → t.res = { rc := .cmdFail, value := 0 } ∧ t.iq j = fresh ∧ t.qmap = s.qmap ∧
            l = [.log rq .iq j 0]) ∧
          (s.lookup id.toNat = none → t.res = { rc := .ok, value := id.setWidth 32 } ∧
            t.iq j = { fresh with cntxtId := id, st := .reg } ∧ l = [] ∧
            ∀ x, t.lookup x = if x = id.toNat then some { type := .iq, index := j } else s.lookup x)

/-- R425, R110, R101: Q_ALLOC_FL. As for an IQ, its block too, with every slot empty, all but one slot needed, and the owner's `fl` set; an owner that is
not an RX queue in `MEM` or `REG` without a free list is refused. The id is cut and a reused one answered as for an IQ (log
entries 3 and 30). -/
def Obligations.QAllocFlRegisters : Prop :=
  ∀ (q : Qid) (capM1 : BitVec 16) (iq : Qid) (s : State), let j := q.toNat; let o := iq.toNat; let cap := capM1.toNat + 1
    let d := s.dmaAlloc (cap * 8) 8
    let owner := (s.iq o).role = .rx ∧ ((s.iq o).st = .mem ∨ (s.iq o).st = .reg) ∧ (s.iq o).fl = none
    (s.fl j).st = .uninit →
    (¬ owner → exec (.qAllocFl q capM1 iq) s = .next { s with res := { rc := .badCmd, value := 0 } }) ∧
    (owner → d.1 = none → ∃ t, exec (.qAllocFl q capM1 iq) s = .next t ∧ t.res = { rc := .noBuf, value := 0 } ∧
      t.fl j = s.fl j ∧ Untouched .fl j s t ∧ t.qmap = s.qmap ∧ t.mem = s.mem) ∧
    ∀ base, owner → d.1 = some base →
      let a := (d.2.peerCmd (.allocFl base cap o)).1
      let fresh : FL := { s.fl j with
        st := .mem, base := base, cap := cap, owner := o, pidx := 0, cidx := 0, needed := cap - 1, pending := 0, cls := 0
        sd := [], allocFail := 0, mapFail := 0 }
      RingPlaced s base (cap * 8) 8 ∧ ∃ t, exec (.qAllocFl q capM1 iq) s = .next t ∧ t.iq o = { s.iq o with fl := some j } ∧
        (∀ k, k ≠ o → t.iq k = s.iq k) ∧ (∀ k, k ≠ j → t.fl k = s.fl k) ∧ (∀ k, t.eq k = s.eq k) ∧ t.fault = s.fault ∧
        (∀ x, Memory.get t.mem x = if base.toNat ≤ x ∧ x < base.toNat + cap * 8 then 0 else Memory.get s.mem x) ∧
        (∀ c, a = .err c → t.res = { rc := .cmdFail, value := c } ∧ t.fl j = fresh ∧ t.qmap = s.qmap) ∧
        ∀ id0, a = .ok id0 → let id : BitVec 16 := id0.setWidth 16
          ((s.lookup id.toNat).isSome → t.res = { rc := .cmdFail, value := 0 } ∧ t.fl j = fresh ∧ t.qmap = s.qmap) ∧
          (s.lookup id.toNat = none → t.res = { rc := .ok, value := id.setWidth 32 } ∧
            t.fl j = { fresh with cntxtId := id, st := .reg } ∧
            ∀ x, t.lookup x = if x = id.toNat then some { type := .fl, index := j } else s.lookup x)

/-- R426, R101: Q_ALLOC_EQ. As for an IQ, its block too, under a 17-bit id, with its status region behind the ring, every slot but one
available and the whole map pool free; a notification queue that is not a registered FW_EVT or RX queue is refused. The batch
cursor is unspecified (log entry 8; its free value is drawn before PEER answers), and a reused id is answered as for an IQ (log entry 30). -/
def Obligations.QAllocEqRegisters : Prop :=
  ∀ (q : Qid) (capM1 : BitVec 16) (iq : Qid) (s : State), let j := q.toNat; let i := iq.toNat; let cap := capM1.toNat + 1
    let n := cap * 64 + 64; let d := s.dmaAlloc n 64
    let notify := ((s.iq i).role = .fwEvt ∨ (s.iq i).role = .rx) ∧ ((s.iq i).st = .reg ∨ (s.iq i).st = .run)
    (s.eq j).st = .uninit →
    (¬ notify → exec (.qAllocEq q capM1 iq) s = .next { s with res := { rc := .badCmd, value := 0 } }) ∧
    (notify → d.1 = none → ∃ t, exec (.qAllocEq q capM1 iq) s = .next t ∧ t.res = { rc := .noBuf, value := 0 } ∧
      t.eq j = s.eq j ∧ Untouched .eq j s t ∧ t.qmap = s.qmap ∧ t.mem = s.mem) ∧
    ∀ base, notify → d.1 = some base →
      let a := (d.2.freshCur.2.peerCmd (.allocEq base cap (base + BitVec.ofNat 64 (cap * 64)) (s.iq i).cntxtId)).1
      RingPlaced s base n 64 ∧ ∃ t m cur, exec (.qAllocEq q capM1 iq) s = .next t ∧ Untouched .eq j s t ∧ cap < m ∧
        (Tab.find s.cfg.txMaps j = none → m = 2 * cap) ∧
        (∀ x, Memory.get t.mem x = if base.toNat ≤ x ∧ x < base.toNat + n then 0 else Memory.get s.mem x) ∧
        let fresh : EQ := { s.eq j with
          st := .mem, base := base, cap := cap, statAddr := base + BitVec.ofNat 64 (cap * 64), iq := i, pidx := 0, cidx := 0
          avail := cap - 1, pending := 0, stalled := false, flushOut := false, resumeReq := false, held := none, sd := []
          txMaps := m, maps := [], mapPidx := 0, mapCidx := 0, mapAvail := m, batch := Batch.empty cur
          sgl := { (s.eq j).sgl with valid := false, mapHeld := false }, stats := EqStats.zero }
        (∀ c, a = .err c → t.res = { rc := .cmdFail, value := c } ∧ t.eq j = fresh ∧ t.qmap = s.qmap) ∧
        ∀ id, a = .ok id →
          ((s.lookup id.toNat).isSome → t.res = { rc := .cmdFail, value := 0 } ∧ t.eq j = fresh ∧ t.qmap = s.qmap) ∧
          (s.lookup id.toNat = none → t.res = { rc := .ok, value := id.setWidth 32 } ∧
            t.eq j = { fresh with cntxtId := id, st := .reg } ∧
            ∀ x, t.lookup x = if x = id.toNat then some { type := .eq, index := j } else s.lookup x)

/-- R427, R422: Q_START. An RX queue needs its free list running. After an agreed handshake an IQ is rearmed, a free list is
refilled and everything pending published, an EQ only runs; a refused one leaves the queue in `REG`. -/
def Obligations.QStartRunsQueue : Prop :=
  ∀ (q : Qid) (t : QType) (s : State), let j := q.toNat; let rq : PeerReq := .start t (s.ctxId t j)
    let a := s.peerCmd rq
    s.qst t j = .reg →
    (t = .iq → (s.iq j).role = .rx → (∀ f, (s.iq j).fl = some f → (s.fl f).st ≠ .run) →
      exec (.qStart q t) s = .next { s with res := { rc := .badCmd, value := 0 } }) ∧
    ((t = .iq → (s.iq j).role = .rx → ∃ f, (s.iq j).fl = some f ∧ (s.fl f).st = .run) →
      ∃ u, exec (.qStart q t) s = .next u ∧ u.qmap = s.qmap ∧ u.fault = s.fault ∧
        (∀ c, a.1 = .err c → u.qst t j = .reg ∧ u.res = { rc := .cmdFail, value := c } ∧ u.mem = s.mem ∧
          u.out = s.out ++ [.peerCmd rq, .log rq t j c]) ∧
        ∀ id, a.1 = .ok id →
          (t = .iq → u.iq j = { s.iq j with st := .run, ncons := 0 } ∧ u.res = { rc := .ok, value := 0 } ∧ u.mem = s.mem ∧
            Untouched .iq j s u ∧ u.out = s.out ++ [.peerCmd rq,
              .regWrite .gts (gtsWord (s.iq j).cntxtId (s.iq j).tmrIdx (s.iq j).pktcIdx (s.iq j).ncons)]) ∧
          (t = .fl → let r := flRefill j (s.fl j).needed (a.2.setFl j { s.fl j with st := .run })
            Untouched .fl j s u ∧ u.fl j = (flDoorbell j true r.2).2.fl j ∧ u.mem = r.2.mem ∧ (u.fl j).st = .run ∧
            u.res = { rc := .ok, value := BitVec.ofNat 32 r.1.2 }) ∧
          (t = .eq → u.eq j = { s.eq j with st := .run } ∧ u.res = { rc := .ok, value := 0 } ∧ u.mem = s.mem ∧
            Untouched .eq j s u ∧ u.out = s.out ++ [.peerCmd rq]))

/-- R429, R430, R422: Q_STOP and Q_FREE. An agreed stop leaves an IQ or a free list as it was but in `REG`, and gives back to HOST
what an EQ holds and has not handed to PEER: the maps of the open batch, newest first, then the packet of the SGL register,
then the held one (one packet that is in both goes back once, log entry 40). The batch cursor of a stopped EQ stays (log entry
8). An agreed free takes the id out of `QMAP`. A refused handshake changes nothing but `RES`, and a queue others depend on is not stopped or freed. -/
def Obligations.QStopAndQFreeStepDown : Prop :=
  (∀ (q : Qid) (t : QType) (s : State), let j := q.toNat; let rq : PeerReq := .stop t (s.ctxId t j)
    s.qst t j = .run →
    (t = .fl → (s.iq (s.fl j).owner).st = .run →
      exec (.qStop q t) s = .next { s with res := { rc := .badCmd, value := 0 } }) ∧
    ((t = .fl → (s.iq (s.fl j).owner).st ≠ .run) →
      ∃ u, exec (.qStop q t) s = .next u ∧ Untouched t j s u ∧ u.qmap = s.qmap ∧ u.mem = s.mem ∧
        (∀ c, (s.peerCmd rq).1 = .err c → u.res = { rc := .cmdFail, value := c } ∧
          u.out = s.out ++ [.peerCmd rq, .log rq t j c] ∧ u.iqs = s.iqs ∧ u.fls = s.fls ∧ u.eqs = s.eqs) ∧
        ∀ id, (s.peerCmd rq).1 = .ok id → u.res = { rc := .ok, value := 0 } ∧
          (t = .iq → u.iq j = { s.iq j with st := .reg } ∧ u.out = s.out ++ [.peerCmd rq]) ∧
          (t = .fl → u.fl j = { s.fl j with st := .reg } ∧ u.out = s.out ++ [.peerCmd rq]) ∧
          (t = .eq → (s.eq j).Law → let e := s.eq j
            (∃ ps : List Packet, ps.length = e.batch.nmaps ∧
              (∀ i, i < ps.length → Tab.find e.maps ((e.mapPidx + e.txMaps - 1 - i) % e.txMaps) = ps[i]?) ∧
              u.out = s.out ++ .peerCmd rq :: (ps.flatMap fun p => [.unmap (.pkt p), .release (.pkt p)]) ++
                (if e.sgl.valid then [.unmap (.pkt e.sgl.pkt), .release (.pkt e.sgl.pkt)] else []) ++
                e.held.toList.map fun p => .release (.pkt p)) ∧
            u.eq j = { e with
              st := .reg, mapAvail := e.mapAvail + e.batch.nmaps, mapPidx := (u.eq j).mapPidx, maps := (u.eq j).maps
              batch := Batch.empty e.batch.cur, sgl := (u.eq j).sgl, held := none, stalled := false, flushOut := false
              resumeReq := false } ∧ (u.eq j).sgl.valid = false ∧ (u.eq j).Law))) ∧
  ∀ (q : Qid) (t : QType) (s : State), let j := q.toNat; let rq : PeerReq := .free t (s.ctxId t j)
    s.qst t j = .reg →
    ((t = .fl ∧ (s.iq (s.fl j).owner).st = .run) ∨
      (t = .iq ∧ ((∃ f, (s.fl f).st ≠ .uninit ∧ (s.fl f).owner = j) ∨ (∃ e, (s.eq e).st ≠ .uninit ∧ (s.eq e).iq = j) ∨
        ∃ i, (s.iq i).st ≠ .uninit ∧ (s.iq i).fwd = true ∧ (s.iq i).tgt.toNat = j)) →
      exec (.qFree q t) s = .next { s with res := { rc := .badCmd, value := 0 } }) ∧
    ((t = .fl → (s.iq (s.fl j).owner).st ≠ .run) →
      (t = .iq → (∀ f, (s.fl f).st ≠ .uninit → (s.fl f).owner ≠ j) ∧ (∀ e, (s.eq e).st ≠ .uninit → (s.eq e).iq ≠ j) ∧
        ∀ i, (s.iq i).st ≠ .uninit → (s.iq i).fwd = true → (s.iq i).tgt.toNat ≠ j) →
      ∃ u, exec (.qFree q t) s = .next u ∧ Untouched t j s u ∧ u.mem = s.mem ∧
        (∀ c, (s.peerCmd rq).1 = .err c → u.res = { rc := .cmdFail, value := c } ∧ u.qmap = s.qmap ∧
          u.iqs = s.iqs ∧ u.fls = s.fls ∧ u.eqs = s.eqs) ∧
        ∀ id, (s.peerCmd rq).1 = .ok id → u.res = { rc := .ok, value := 0 } ∧
          (∀ x, u.lookup x = if x = (s.ctxId t j).toNat then none else s.lookup x) ∧
          (t = .iq → u.iq j = { s.iq j with st := .mem }) ∧ (t = .fl → u.fl j = { s.fl j with st := .mem }) ∧
          (t = .eq → u.eq j = { s.eq j with st := .mem }))

/-- R428, R422, R614, R120: Q_TEARDOWN does nothing to a queue without memory (that it does so before any check is the model's
reading, log entry 17); a queue with memory that others depend on is refused; otherwise it asks PEER to stop and free the queue first, goes on
after a refusal and counts it, gives the memory back last, and leaves the queue `UNINIT` and out of `QMAP`. -/
def Obligations.QTeardownReleasesAfterDisabling : Prop :=
  ∀ (q : Qid) (t : QType) (s : State), let j := q.toNat; let id := s.ctxId t j
    let stop := s.peerCmd (.stop t id); let free := s.peerCmd (.free t id); let free2 := stop.2.peerCmd (.free t id)
    (s.qst t j = .uninit → exec (.qTeardown q t) s = .next { s with res := { rc := .ok, value := 0 } }) ∧
    (s.qst t j ≠ .uninit → (t = .fl ∧ (s.iq (s.fl j).owner).st = .run) ∨
        (t = .iq ∧ ((∃ f, (s.fl f).st ≠ .uninit ∧ (s.fl f).owner = j) ∨
          (∃ e, (s.eq e).st ≠ .uninit ∧ (s.eq e).iq = j) ∨
          ∃ i, (s.iq i).st ≠ .uninit ∧ (s.iq i).fwd = true ∧ (s.iq i).tgt.toNat = j)) →
      exec (.qTeardown q t) s = .next { s with res := { rc := .badCmd, value := 0 } }) ∧
    (s.qst t j ≠ .uninit → (t = .fl → (s.iq (s.fl j).owner).st ≠ .run) →
      (t = .iq → (∀ f, (s.fl f).st ≠ .uninit → (s.fl f).owner ≠ j) ∧ (∀ e, (s.eq e).st ≠ .uninit → (s.eq e).iq ≠ j) ∧
        ∀ i, (s.iq i).st ≠ .uninit → (s.iq i).fwd = true → (s.iq i).tgt.toNat ≠ j) →
      ∃ u n l, exec (.qTeardown q t) s = .next u ∧ u.qst t j = .uninit ∧ u.res = { rc := .ok, value := BitVec.ofNat 32 n } ∧
        n = (match s.qst t j with | .run => errs stop.1 + errs free2.1 | .reg => errs free.1 | .mem | .uninit => 0) ∧
        u.out = s.out ++ l ++ [.dmaFree (s.baseOf t j)] ∧ (∀ a, Effect.dmaFree a ∉ l) ∧
        (s.qst t j = .run → l.head? = some (.peerCmd (.stop t id)) ∧ Effect.peerCmd (.free t id) ∈ l) ∧
        (s.qst t j = .reg → l.head? = some (.peerCmd (.free t id))) ∧
        (∀ x, u.lookup x = if (s.qst t j = .reg ∨ s.qst t j = .run) ∧ x = id.toNat then none else s.lookup x) ∧
        (t = .fl → (u.iq (s.fl j).owner).fl = none ∧ ∀ k x,
          (((s.fl j).slot k).own = .posted x ∨ ((s.fl j).slot k).own = .retained x) → Effect.release (.rx x.buf) ∈ l) ∧
        (t = .eq → (u.eq j).stats = (s.eq j).stats ∧
          ∀ k p, Tab.find (s.eq j).maps k = some p → Effect.release (.pkt p) ∈ l) ∧
        u.mem = s.mem ∧ u.fault = s.fault ∧
        ∀ ty k, (ty ≠ t ∨ k ≠ j) → u.qst ty k = s.qst ty k)

/-- R431, R61: only the lifecycle commands change the state of a queue, each only that of its own queue, and only by the
transitions of the table. -/
def Obligations.LifecycleTransitions : Prop :=
  ∀ (i : Instr) (s t : State) (ty : QType) (j : Nat), exec i s = .next t → t.qst ty j ≠ s.qst ty j →
    i.qtype = ty ∧ i.qid.toNat = j ∧ lifecycleMove i (s.qst ty j) (t.qst ty j)

/-- R431: a queue is in `QMAP`, under its own id, exactly when it is in `REG` or `RUN`, from step to step. -/
def Obligations.StepKeepsQueueMap : Prop :=
  ∀ s t : State, QmapInv s → step s = .next t → QmapInv t

/-- R422, R102: no record with memory ever points at one without, and an RX queue in `RUN` has its free list in `RUN`, from step
to step; nor do two queues ever share ring memory (by which blocks of HOST count, log entry 36). -/
def Obligations.StepKeepsDependencies : Prop :=
  ∀ s t : State, step s = .next t → (DepInv s → DepInv t) ∧ (BlocksApart s → BlocksApart t)
end

