-- ==== Sys2Proof/Laws/Arith.lean ====
section
/-! SUPPORT. Ring arithmetic (R12): distances and positions modulo a capacity. -/

namespace Sys2Proof.Machine

theorem subMod_lt {c : Nat} (hc : 0 < c) (a b : Nat) : subMod a b c < c := Nat.mod_lt _ hc

theorem add_mod_of_lt {a b c : Nat} (ha : a < c) (hb : b < c) : (a + b) % c = if a + b < c then a + b else a + b - c := by
  split
  · exact Nat.mod_eq_of_lt ‹_›
  · rw [Nat.mod_eq_sub_mod (by omega), Nat.mod_eq_of_lt (by omega)]

theorem subMod_eq {a b c : Nat} (ha : a < c) (hb : b < c) : subMod a b c = if b ≤ a then a - b else a + c - b := by
  unfold subMod
  split
  · rw [Nat.mod_eq_sub_mod (by omega), Nat.mod_eq_of_lt (by omega)]; omega
  · exact Nat.mod_eq_of_lt (by omega)

/-- The position `i` slots past `b` is `i` away from it. -/
theorem subMod_add {b i c : Nat} (hb : b < c) (hi : i < c) : subMod ((b + i) % c) b c = i := by
  rw [subMod_eq (Nat.mod_lt _ (by omega)) hb, add_mod_of_lt hb hi]
  split <;> split <;> omega

/-- The slot at its own distance. -/
theorem add_subMod {a b c : Nat} (ha : a < c) (hb : b < c) : (b + subMod a b c) % c = a := by
  have h := subMod_lt (by omega : 0 < c) a b
  rw [add_mod_of_lt hb h, subMod_eq ha hb]
  split <;> split <;> omega

theorem subMod_self {a c : Nat} (ha : a < c) : subMod a a c = 0 := by rw [subMod_eq ha ha]; simp

/-- Distance from the next slot. -/
theorem subMod_succ {a b c : Nat} (ha : a < c) (hb : b < c) (hne : a ≠ b) :
    subMod a ((b + 1) % c) c + 1 = subMod a b c := by
  by_cases h1 : c = 1
  · omega
  · rw [subMod_eq ha (Nat.mod_lt _ (by omega)), subMod_eq ha hb, add_mod_of_lt hb (by omega)]
    split <;> split <;> split <;> omega

/-- Distance from a slot `n` further on, when the slot is at least that far away. -/
theorem subMod_add_right {a b c n : Nat} (ha : a < c) (hb : b < c) (hn : n ≤ subMod a b c) :
    subMod a ((b + n) % c) c = subMod a b c - n := by
  have h := subMod_lt (by omega : 0 < c) a b
  have hn' : n < c := by omega
  rw [subMod_eq ha hb] at hn h ⊢
  rw [subMod_eq ha (Nat.mod_lt _ (by omega)), add_mod_of_lt hb hn']
  split at hn <;> split <;> split <;> omega

theorem mod_add_mod' (a b c : Nat) : (a % c + b) % c = (a + b) % c := Nat.mod_add_mod a c b

/-- Two different offsets below the capacity lead to different slots. -/
theorem add_mod_inj {b i k c : Nat} (hb : b < c) (hi : i < c) (hk : k < c) (h : (b + i) % c = (b + k) % c) : i = k := by
  have := subMod_add hb hi
  rw [h, subMod_add hb hk] at this
  exact this.symm

end Sys2Proof.Machine
end

