-- ==== Sys2Proof/Laws/Bits.lean ====
section
/-! SUPPORT. Fields of concatenations, and with them the fields of the words the DRC reads and writes. -/

namespace Sys2Proof

/-- A field above the low part of a concatenation. -/
theorem extract_append_hi {m n : Nat} (x : BitVec m) (y : BitVec n) {s : Nat} (l : Nat) (h : n ≤ s) :
    (x ++ y).extractLsb' s l = x.extractLsb' (s - n) l := by
  apply BitVec.eq_of_getLsbD_eq
  intro i hi
  simp only [BitVec.getLsbD_extractLsb', BitVec.getLsbD_append]
  have : ¬ s + i < n := by omega
  simp only [this, hi, if_false]
  congr 2; omega

/-- A field inside the low part of a concatenation. -/
theorem extract_append_lo {m n : Nat} (x : BitVec m) (y : BitVec n) {s l : Nat} (h : s + l ≤ n) :
    (x ++ y).extractLsb' s l = y.extractLsb' s l := by
  apply BitVec.eq_of_getLsbD_eq
  intro i hi
  simp only [BitVec.getLsbD_extractLsb', BitVec.getLsbD_append]
  have : s + i < n := by omega
  simp only [this, hi, if_true]

/-- The field that is the whole word. -/
theorem extract_all {n : Nat} (x : BitVec n) : x.extractLsb' 0 n = x := by
  apply BitVec.eq_of_getLsbD_eq
  intro i hi
  simp [hi]

/-! ### The command word -/

theorem opOf_packWord (op : BitVec 6) (q : Qid) (a : BitVec 16) (b : BitVec 32) : opOf (packWord op q a b) = op := by
  unfold opOf packWord
  rw [extract_append_hi _ b _ (by omega), extract_append_hi _ a _ (by omega), extract_append_hi _ q _ (by omega)]
  exact extract_all op

theorem qidOf_packWord (op : BitVec 6) (q : Qid) (a : BitVec 16) (b : BitVec 32) : qidOf (packWord op q a b) = q := by
  unfold qidOf packWord
  rw [extract_append_hi _ b _ (by omega), extract_append_hi _ a _ (by omega), extract_append_lo _ q (by omega)]
  exact extract_all q

theorem aOf_packWord (op : BitVec 6) (q : Qid) (a : BitVec 16) (b : BitVec 32) : aOf (packWord op q a b) = a := by
  unfold aOf packWord
  rw [extract_append_hi _ b _ (by omega), extract_append_lo _ a (by omega)]
  exact extract_all a

theorem bOf_packWord (op : BitVec 6) (q : Qid) (a : BitVec 16) (b : BitVec 32) : bOf (packWord op q a b) = b := by
  unfold bOf packWord
  rw [extract_append_lo _ b (by omega)]
  exact extract_all b

/-- A word is the packing of its four fields. -/
theorem packWord_fields (w : CmdWord) : packWord (opOf w) (qidOf w) (aOf w) (bOf w) = w := by
  apply BitVec.eq_of_getLsbD_eq
  intro i hi
  simp only [packWord, opOf, qidOf, aOf, bOf, BitVec.getLsbD_append, BitVec.getLsbD_extractLsb']
  by_cases h1 : i < 32
  · simp [h1]
  · by_cases h2 : i - 32 < 16
    · have : 32 + (i - 32) = i := by omega
      simp [h1, h2, this]
    · by_cases h3 : i - 32 - 16 < 10
      · have : 48 + (i - 32 - 16) = i := by omega
        simp [h1, h2, h3, this]
      · have : 58 + (i - 32 - 16 - 10) = i := by omega
        have h4 : i - 32 - 16 - 10 < 6 := by omega
        simp [h1, h2, h3, this, h4]

theorem decodeRole_code (r : Role) : decodeRole r.code = some r := by cases r <;> rfl
theorem decodeQType_code (t : QType) : decodeQType t.code = some t := by cases t <;> rfl
theorem decodeESize_code (e : ESize) : decodeESize e.code = e := by cases e <;> rfl

theorem packForce_fields (b : Bool) : (packForce b).extractLsb' 1 15 = 0 ∧ (packForce b).getLsbD 0 = b := by
  cases b <;> decide

theorem packType_fields (t : QType) : (packType t).extractLsb' 2 14 = 0 ∧ (packType t).extractLsb' 0 2 = t.code := by
  cases t <;> decide

theorem packAllocB_fields (c : BitVec 16) (x : Qid) :
    (packAllocB c x).extractLsb' 26 6 = 0 ∧ (packAllocB c x).extractLsb' 0 16 = c ∧ (packAllocB c x).extractLsb' 16 10 = x := by
  unfold packAllocB
  refine ⟨?_, ?_, ?_⟩
  · rw [extract_append_hi _ c _ (by omega), extract_append_hi _ x _ (by omega)]; exact extract_all _
  · rw [extract_append_lo _ c (by omega)]; exact extract_all _
  · rw [extract_append_hi _ c _ (by omega), extract_append_lo _ x (by omega)]; exact extract_all _

theorem packAllocIqA_fields (r : Role) (t p : BitVec 3) (e : ESize) (f : Bool) :
    (packAllocIqA r t p e f).extractLsb' 11 5 = 0 ∧ (packAllocIqA r t p e f).extractLsb' 0 2 = r.code ∧
    (packAllocIqA r t p e f).extractLsb' 2 3 = t ∧ (packAllocIqA r t p e f).extractLsb' 5 3 = p ∧
    (packAllocIqA r t p e f).extractLsb' 8 2 = e.code ∧ (packAllocIqA r t p e f).getLsbD 10 = f := by
  unfold packAllocIqA
  refine ⟨?_, ?_, ?_, ?_, ?_, ?_⟩
  · rw [extract_append_hi _ r.code _ (by omega), extract_append_hi _ t _ (by omega), extract_append_hi _ p _ (by omega),
      extract_append_hi _ e.code _ (by omega), extract_append_hi _ (BitVec.ofBool f) _ (by omega)]
    exact extract_all _
  · rw [extract_append_lo _ r.code (by omega)]; exact extract_all _
  · rw [extract_append_hi _ r.code _ (by omega), extract_append_lo _ t (by omega)]; exact extract_all _
  · rw [extract_append_hi _ r.code _ (by omega), extract_append_hi _ t _ (by omega), extract_append_lo _ p (by omega)]
    exact extract_all _
  · rw [extract_append_hi _ r.code _ (by omega), extract_append_hi _ t _ (by omega), extract_append_hi _ p _ (by omega),
      extract_append_lo _ e.code (by omega)]
    exact extract_all _
  · rw [BitVec.getLsbD_append, BitVec.getLsbD_append, BitVec.getLsbD_append, BitVec.getLsbD_append, BitVec.getLsbD_append]
    cases f <;> rfl

end Sys2Proof

namespace Sys2Proof.Machine

/-! ### Registers -/

/-- The fields of a `KDB` value (R170). -/
theorem kdbWord_fields (id : BitVec 17) (n : Nat) : kdbFields id n (kdbWord id n) := by
  unfold kdbFields kdbWord
  refine ⟨?_, ?_, ?_⟩
  · rw [extract_append_hi _ (BitVec.ofNat 14 n) _ (by omega), extract_append_hi _ 0#1 _ (by omega)]; exact extract_all _
  · rw [BitVec.getLsbD_append, BitVec.getLsbD_append]; rfl
  · rw [extract_append_lo _ (BitVec.ofNat 14 n) (by omega)]; exact extract_all _

/-- The fields of a `GTS` value (R171). -/
theorem gtsWord_fields (q : IQ) (n : Nat) : gtsFields q n (gtsWord q.cntxtId q.tmrIdx q.pktcIdx n) := by
  unfold gtsFields gtsWord
  refine ⟨?_, ?_, ?_, ?_⟩
  · rw [extract_append_hi _ (BitVec.ofNat 12 n) _ (by omega), extract_append_hi _ (BitVec.ofBool _) _ (by omega),
      extract_append_hi _ q.tmrIdx _ (by omega)]
    exact extract_all _
  · rw [extract_append_hi _ (BitVec.ofNat 12 n) _ (by omega), extract_append_hi _ (BitVec.ofBool _) _ (by omega),
      extract_append_lo _ q.tmrIdx (by omega)]
    exact extract_all _
  · rw [BitVec.getLsbD_append, BitVec.getLsbD_append, if_neg (by omega), if_pos (by omega)]
    cases q.pktcIdx.msb <;> rfl
  · rw [extract_append_lo _ (BitVec.ofNat 12 n) (by omega)]; exact extract_all _

/-- A raised fault is a valid one (R42). -/
theorem faultValid_faultWord (c : FaultCode) (q : Sel) : faultValid (faultWord c q) = true := by
  unfold faultValid faultWord
  rw [BitVec.getLsbD_append, if_neg (by omega)]
  cases c <;> rfl

/-- Where no fault is latched, raising one changes `FAULT`. -/
theorem raiseFault_ne {s : State} (h : faultValid s.fault = false) (u : State) (c : FaultCode) (q : Sel) :
    (u.raiseFault c q).fault ≠ s.fault := by
  intro e
  have e' : faultWord c q = s.fault := e
  rw [← e', faultValid_faultWord] at h
  cases h

end Sys2Proof.Machine
end

