-- ==== Sys2Proof/Laws/State.lean ====
section
/-! SUPPORT. Each state update field by field, and what the record accessors read after it, all by `rfl`, so that no proof
unfolds a record update. -/

namespace Sys2Proof.Machine

/-! ### `setIq` -/

@[simp] theorem State.setIq_fault (s : State) (j : Nat) (q : IQ) : (s.setIq j q).fault = s.fault := rfl
@[simp] theorem State.setIq_res (s : State) (j : Nat) (q : IQ) : (s.setIq j q).res = s.res := rfl
@[simp] theorem State.setIq_qmap (s : State) (j : Nat) (q : IQ) : (s.setIq j q).qmap = s.qmap := rfl
@[simp] theorem State.setIq_iqs (s : State) (j : Nat) (q : IQ) : (s.setIq j q).iqs = Tab.put s.iqs j q := rfl
@[simp] theorem State.setIq_fls (s : State) (j : Nat) (q : IQ) : (s.setIq j q).fls = s.fls := rfl
@[simp] theorem State.setIq_eqs (s : State) (j : Nat) (q : IQ) : (s.setIq j q).eqs = s.eqs := rfl
@[simp] theorem State.setIq_mem (s : State) (j : Nat) (q : IQ) : (s.setIq j q).mem = s.mem := rfl
@[simp] theorem State.setIq_peerIq (s : State) (j : Nat) (q : IQ) : (s.setIq j q).peerIq = s.peerIq := rfl
@[simp] theorem State.setIq_peerFl (s : State) (j : Nat) (q : IQ) : (s.setIq j q).peerFl = s.peerFl := rfl
@[simp] theorem State.setIq_peerEq (s : State) (j : Nat) (q : IQ) : (s.setIq j q).peerEq = s.peerEq := rfl
@[simp] theorem State.setIq_cfg (s : State) (j : Nat) (q : IQ) : (s.setIq j q).cfg = s.cfg := rfl
@[simp] theorem State.setIq_host (s : State) (j : Nat) (q : IQ) : (s.setIq j q).host = s.host := rfl
@[simp] theorem State.setIq_out (s : State) (j : Nat) (q : IQ) : (s.setIq j q).out = s.out := rfl
@[simp] theorem State.setIq_inbox (s : State) (j : Nat) (q : IQ) : (s.setIq j q).inbox = s.inbox := rfl
@[simp] theorem State.setIq_draws (s : State) (j : Nat) (q : IQ) : (s.setIq j q).draws = s.draws := rfl
@[simp] theorem State.setIq_get_fl (s : State) (j : Nat) (q : IQ) (k : Nat) : (s.setIq j q).fl k = s.fl k := rfl
@[simp] theorem State.setIq_get_eq (s : State) (j : Nat) (q : IQ) (k : Nat) : (s.setIq j q).eq k = s.eq k := rfl
@[simp] theorem State.setIq_get_lookup (s : State) (j : Nat) (q : IQ) (id : Nat) : (s.setIq j q).lookup id = s.lookup id := rfl
@[simp] theorem State.setIq_get_readByte (s : State) (j : Nat) (q : IQ) (a : Addr) : (s.setIq j q).readByte a = s.readByte a := rfl
@[simp] theorem State.setIq_get_src (s : State) (j : Nat) (q : IQ) (k : Nat) : (s.setIq j q).src k = s.src k := rfl
@[simp] theorem State.setIq_get_peerIqOf (s : State) (j : Nat) (q : IQ) (k : Nat) : (s.setIq j q).peerIqOf k = s.peerIqOf k := rfl
@[simp] theorem State.setIq_get_peerFlOf (s : State) (j : Nat) (q : IQ) (k : Nat) : (s.setIq j q).peerFlOf k = s.peerFlOf k := rfl
@[simp] theorem State.setIq_get_peerEqOf (s : State) (j : Nat) (q : IQ) (k : Nat) : (s.setIq j q).peerEqOf k = s.peerEqOf k := rfl

/-! ### `setFl` -/

@[simp] theorem State.setFl_fault (s : State) (j : Nat) (f : FL) : (s.setFl j f).fault = s.fault := rfl
@[simp] theorem State.setFl_res (s : State) (j : Nat) (f : FL) : (s.setFl j f).res = s.res := rfl
@[simp] theorem State.setFl_qmap (s : State) (j : Nat) (f : FL) : (s.setFl j f).qmap = s.qmap := rfl
@[simp] theorem State.setFl_iqs (s : State) (j : Nat) (f : FL) : (s.setFl j f).iqs = s.iqs := rfl
@[simp] theorem State.setFl_fls (s : State) (j : Nat) (f : FL) : (s.setFl j f).fls = Tab.put s.fls j f := rfl
@[simp] theorem State.setFl_eqs (s : State) (j : Nat) (f : FL) : (s.setFl j f).eqs = s.eqs := rfl
@[simp] theorem State.setFl_mem (s : State) (j : Nat) (f : FL) : (s.setFl j f).mem = s.mem := rfl
@[simp] theorem State.setFl_peerIq (s : State) (j : Nat) (f : FL) : (s.setFl j f).peerIq = s.peerIq := rfl
@[simp] theorem State.setFl_peerFl (s : State) (j : Nat) (f : FL) : (s.setFl j f).peerFl = s.peerFl := rfl
@[simp] theorem State.setFl_peerEq (s : State) (j : Nat) (f : FL) : (s.setFl j f).peerEq = s.peerEq := rfl
@[simp] theorem State.setFl_cfg (s : State) (j : Nat) (f : FL) : (s.setFl j f).cfg = s.cfg := rfl
@[simp] theorem State.setFl_host (s : State) (j : Nat) (f : FL) : (s.setFl j f).host = s.host := rfl
@[simp] theorem State.setFl_out (s : State) (j : Nat) (f : FL) : (s.setFl j f).out = s.out := rfl
@[simp] theorem State.setFl_inbox (s : State) (j : Nat) (f : FL) : (s.setFl j f).inbox = s.inbox := rfl
@[simp] theorem State.setFl_draws (s : State) (j : Nat) (f : FL) : (s.setFl j f).draws = s.draws := rfl
@[simp] theorem State.setFl_get_iq (s : State) (j : Nat) (f : FL) (k : Nat) : (s.setFl j f).iq k = s.iq k := rfl
@[simp] theorem State.setFl_get_eq (s : State) (j : Nat) (f : FL) (k : Nat) : (s.setFl j f).eq k = s.eq k := rfl
@[simp] theorem State.setFl_get_lookup (s : State) (j : Nat) (f : FL) (id : Nat) : (s.setFl j f).lookup id = s.lookup id := rfl
@[simp] theorem State.setFl_get_readByte (s : State) (j : Nat) (f : FL) (a : Addr) : (s.setFl j f).readByte a = s.readByte a := rfl
@[simp] theorem State.setFl_get_src (s : State) (j : Nat) (f : FL) (k : Nat) : (s.setFl j f).src k = s.src k := rfl
@[simp] theorem State.setFl_get_peerIqOf (s : State) (j : Nat) (f : FL) (k : Nat) : (s.setFl j f).peerIqOf k = s.peerIqOf k := rfl
@[simp] theorem State.setFl_get_peerFlOf (s : State) (j : Nat) (f : FL) (k : Nat) : (s.setFl j f).peerFlOf k = s.peerFlOf k := rfl
@[simp] theorem State.setFl_get_peerEqOf (s : State) (j : Nat) (f : FL) (k : Nat) : (s.setFl j f).peerEqOf k = s.peerEqOf k := rfl

/-! ### `setEq` -/

@[simp] theorem State.setEq_fault (s : State) (j : Nat) (e : EQ) : (s.setEq j e).fault = s.fault := rfl
@[simp] theorem State.setEq_res (s : State) (j : Nat) (e : EQ) : (s.setEq j e).res = s.res := rfl
@[simp] theorem State.setEq_qmap (s : State) (j : Nat) (e : EQ) : (s.setEq j e).qmap = s.qmap := rfl
@[simp] theorem State.setEq_iqs (s : State) (j : Nat) (e : EQ) : (s.setEq j e).iqs = s.iqs := rfl
@[simp] theorem State.setEq_fls (s : State) (j : Nat) (e : EQ) : (s.setEq j e).fls = s.fls := rfl
@[simp] theorem State.setEq_eqs (s : State) (j : Nat) (e : EQ) : (s.setEq j e).eqs = Tab.put s.eqs j e := rfl
@[simp] theorem State.setEq_mem (s : State) (j : Nat) (e : EQ) : (s.setEq j e).mem = s.mem := rfl
@[simp] theorem State.setEq_peerIq (s : State) (j : Nat) (e : EQ) : (s.setEq j e).peerIq = s.peerIq := rfl
@[simp] theorem State.setEq_peerFl (s : State) (j : Nat) (e : EQ) : (s.setEq j e).peerFl = s.peerFl := rfl
@[simp] theorem State.setEq_peerEq (s : State) (j : Nat) (e : EQ) : (s.setEq j e).peerEq = s.peerEq := rfl
@[simp] theorem State.setEq_cfg (s : State) (j : Nat) (e : EQ) : (s.setEq j e).cfg = s.cfg := rfl
@[simp] theorem State.setEq_host (s : State) (j : Nat) (e : EQ) : (s.setEq j e).host = s.host := rfl
@[simp] theorem State.setEq_out (s : State) (j : Nat) (e : EQ) : (s.setEq j e).out = s.out := rfl
@[simp] theorem State.setEq_inbox (s : State) (j : Nat) (e : EQ) : (s.setEq j e).inbox = s.inbox := rfl
@[simp] theorem State.setEq_draws (s : State) (j : Nat) (e : EQ) : (s.setEq j e).draws = s.draws := rfl
@[simp] theorem State.setEq_get_iq (s : State) (j : Nat) (e : EQ) (k : Nat) : (s.setEq j e).iq k = s.iq k := rfl
@[simp] theorem State.setEq_get_fl (s : State) (j : Nat) (e : EQ) (k : Nat) : (s.setEq j e).fl k = s.fl k := rfl
@[simp] theorem State.setEq_get_lookup (s : State) (j : Nat) (e : EQ) (id : Nat) : (s.setEq j e).lookup id = s.lookup id := rfl
@[simp] theorem State.setEq_get_readByte (s : State) (j : Nat) (e : EQ) (a : Addr) : (s.setEq j e).readByte a = s.readByte a := rfl
@[simp] theorem State.setEq_get_src (s : State) (j : Nat) (e : EQ) (k : Nat) : (s.setEq j e).src k = s.src k := rfl
@[simp] theorem State.setEq_get_peerIqOf (s : State) (j : Nat) (e : EQ) (k : Nat) : (s.setEq j e).peerIqOf k = s.peerIqOf k := rfl
@[simp] theorem State.setEq_get_peerFlOf (s : State) (j : Nat) (e : EQ) (k : Nat) : (s.setEq j e).peerFlOf k = s.peerFlOf k := rfl
@[simp] theorem State.setEq_get_peerEqOf (s : State) (j : Nat) (e : EQ) (k : Nat) : (s.setEq j e).peerEqOf k = s.peerEqOf k := rfl

/-! ### `setQmap` -/

@[simp] theorem State.setQmap_fault (s : State) (m : Tab Sel) : (s.setQmap m).fault = s.fault := rfl
@[simp] theorem State.setQmap_res (s : State) (m : Tab Sel) : (s.setQmap m).res = s.res := rfl
@[simp] theorem State.setQmap_qmap (s : State) (m : Tab Sel) : (s.setQmap m).qmap = m := rfl
@[simp] theorem State.setQmap_iqs (s : State) (m : Tab Sel) : (s.setQmap m).iqs = s.iqs := rfl
@[simp] theorem State.setQmap_fls (s : State) (m : Tab Sel) : (s.setQmap m).fls = s.fls := rfl
@[simp] theorem State.setQmap_eqs (s : State) (m : Tab Sel) : (s.setQmap m).eqs = s.eqs := rfl
@[simp] theorem State.setQmap_mem (s : State) (m : Tab Sel) : (s.setQmap m).mem = s.mem := rfl
@[simp] theorem State.setQmap_peerIq (s : State) (m : Tab Sel) : (s.setQmap m).peerIq = s.peerIq := rfl
@[simp] theorem State.setQmap_peerFl (s : State) (m : Tab Sel) : (s.setQmap m).peerFl = s.peerFl := rfl
@[simp] theorem State.setQmap_peerEq (s : State) (m : Tab Sel) : (s.setQmap m).peerEq = s.peerEq := rfl
@[simp] theorem State.setQmap_cfg (s : State) (m : Tab Sel) : (s.setQmap m).cfg = s.cfg := rfl
@[simp] theorem State.setQmap_host (s : State) (m : Tab Sel) : (s.setQmap m).host = s.host := rfl
@[simp] theorem State.setQmap_out (s : State) (m : Tab Sel) : (s.setQmap m).out = s.out := rfl
@[simp] theorem State.setQmap_inbox (s : State) (m : Tab Sel) : (s.setQmap m).inbox = s.inbox := rfl
@[simp] theorem State.setQmap_draws (s : State) (m : Tab Sel) : (s.setQmap m).draws = s.draws := rfl
@[simp] theorem State.setQmap_get_iq (s : State) (m : Tab Sel) (k : Nat) : (s.setQmap m).iq k = s.iq k := rfl
@[simp] theorem State.setQmap_get_fl (s : State) (m : Tab Sel) (k : Nat) : (s.setQmap m).fl k = s.fl k := rfl
@[simp] theorem State.setQmap_get_eq (s : State) (m : Tab Sel) (k : Nat) : (s.setQmap m).eq k = s.eq k := rfl
@[simp] theorem State.setQmap_get_readByte (s : State) (m : Tab Sel) (a : Addr) : (s.setQmap m).readByte a = s.readByte a := rfl
@[simp] theorem State.setQmap_get_src (s : State) (m : Tab Sel) (k : Nat) : (s.setQmap m).src k = s.src k := rfl
@[simp] theorem State.setQmap_get_peerIqOf (s : State) (m : Tab Sel) (k : Nat) : (s.setQmap m).peerIqOf k = s.peerIqOf k := rfl
@[simp] theorem State.setQmap_get_peerFlOf (s : State) (m : Tab Sel) (k : Nat) : (s.setQmap m).peerFlOf k = s.peerFlOf k := rfl
@[simp] theorem State.setQmap_get_peerEqOf (s : State) (m : Tab Sel) (k : Nat) : (s.setQmap m).peerEqOf k = s.peerEqOf k := rfl

/-! ### `setMem` -/

@[simp] theorem State.setMem_fault (s : State) (m : List Host.Cell) : (s.setMem m).fault = s.fault := rfl
@[simp] theorem State.setMem_res (s : State) (m : List Host.Cell) : (s.setMem m).res = s.res := rfl
@[simp] theorem State.setMem_qmap (s : State) (m : List Host.Cell) : (s.setMem m).qmap = s.qmap := rfl
@[simp] theorem State.setMem_iqs (s : State) (m : List Host.Cell) : (s.setMem m).iqs = s.iqs := rfl
@[simp] theorem State.setMem_fls (s : State) (m : List Host.Cell) : (s.setMem m).fls = s.fls := rfl
@[simp] theorem State.setMem_eqs (s : State) (m : List Host.Cell) : (s.setMem m).eqs = s.eqs := rfl
@[simp] theorem State.setMem_mem (s : State) (m : List Host.Cell) : (s.setMem m).mem = m := rfl
@[simp] theorem State.setMem_peerIq (s : State) (m : List Host.Cell) : (s.setMem m).peerIq = s.peerIq := rfl
@[simp] theorem State.setMem_peerFl (s : State) (m : List Host.Cell) : (s.setMem m).peerFl = s.peerFl := rfl
@[simp] theorem State.setMem_peerEq (s : State) (m : List Host.Cell) : (s.setMem m).peerEq = s.peerEq := rfl
@[simp] theorem State.setMem_cfg (s : State) (m : List Host.Cell) : (s.setMem m).cfg = s.cfg := rfl
@[simp] theorem State.setMem_host (s : State) (m : List Host.Cell) : (s.setMem m).host = s.host := rfl
@[simp] theorem State.setMem_out (s : State) (m : List Host.Cell) : (s.setMem m).out = s.out := rfl
@[simp] theorem State.setMem_inbox (s : State) (m : List Host.Cell) : (s.setMem m).inbox = s.inbox := rfl
@[simp] theorem State.setMem_draws (s : State) (m : List Host.Cell) : (s.setMem m).draws = s.draws := rfl
@[simp] theorem State.setMem_get_iq (s : State) (m : List Host.Cell) (k : Nat) : (s.setMem m).iq k = s.iq k := rfl
@[simp] theorem State.setMem_get_fl (s : State) (m : List Host.Cell) (k : Nat) : (s.setMem m).fl k = s.fl k := rfl
@[simp] theorem State.setMem_get_eq (s : State) (m : List Host.Cell) (k : Nat) : (s.setMem m).eq k = s.eq k := rfl
@[simp] theorem State.setMem_get_lookup (s : State) (m : List Host.Cell) (id : Nat) : (s.setMem m).lookup id = s.lookup id := rfl
@[simp] theorem State.setMem_get_src (s : State) (m : List Host.Cell) (k : Nat) : (s.setMem m).src k = s.src k := rfl
@[simp] theorem State.setMem_get_peerIqOf (s : State) (m : List Host.Cell) (k : Nat) : (s.setMem m).peerIqOf k = s.peerIqOf k := rfl
@[simp] theorem State.setMem_get_peerFlOf (s : State) (m : List Host.Cell) (k : Nat) : (s.setMem m).peerFlOf k = s.peerFlOf k := rfl
@[simp] theorem State.setMem_get_peerEqOf (s : State) (m : List Host.Cell) (k : Nat) : (s.setMem m).peerEqOf k = s.peerEqOf k := rfl

/-! ### `setHost` -/

@[simp] theorem State.setHost_fault (s : State) (h : HostIn) : (s.setHost h).fault = s.fault := rfl
@[simp] theorem State.setHost_res (s : State) (h : HostIn) : (s.setHost h).res = s.res := rfl
@[simp] theorem State.setHost_qmap (s : State) (h : HostIn) : (s.setHost h).qmap = s.qmap := rfl
@[simp] theorem State.setHost_iqs (s : State) (h : HostIn) : (s.setHost h).iqs = s.iqs := rfl
@[simp] theorem State.setHost_fls (s : State) (h : HostIn) : (s.setHost h).fls = s.fls := rfl
@[simp] theorem State.setHost_eqs (s : State) (h : HostIn) : (s.setHost h).eqs = s.eqs := rfl
@[simp] theorem State.setHost_mem (s : State) (h : HostIn) : (s.setHost h).mem = s.mem := rfl
@[simp] theorem State.setHost_peerIq (s : State) (h : HostIn) : (s.setHost h).peerIq = s.peerIq := rfl
@[simp] theorem State.setHost_peerFl (s : State) (h : HostIn) : (s.setHost h).peerFl = s.peerFl := rfl
@[simp] theorem State.setHost_peerEq (s : State) (h : HostIn) : (s.setHost h).peerEq = s.peerEq := rfl
@[simp] theorem State.setHost_cfg (s : State) (h : HostIn) : (s.setHost h).cfg = s.cfg := rfl
@[simp] theorem State.setHost_host (s : State) (h : HostIn) : (s.setHost h).host = h := rfl
@[simp] theorem State.setHost_out (s : State) (h : HostIn) : (s.setHost h).out = s.out := rfl
@[simp] theorem State.setHost_inbox (s : State) (h : HostIn) : (s.setHost h).inbox = s.inbox := rfl
@[simp] theorem State.setHost_draws (s : State) (h : HostIn) : (s.setHost h).draws = s.draws := rfl
@[simp] theorem State.setHost_get_iq (s : State) (h : HostIn) (k : Nat) : (s.setHost h).iq k = s.iq k := rfl
@[simp] theorem State.setHost_get_fl (s : State) (h : HostIn) (k : Nat) : (s.setHost h).fl k = s.fl k := rfl
@[simp] theorem State.setHost_get_eq (s : State) (h : HostIn) (k : Nat) : (s.setHost h).eq k = s.eq k := rfl
@[simp] theorem State.setHost_get_lookup (s : State) (h : HostIn) (id : Nat) : (s.setHost h).lookup id = s.lookup id := rfl
@[simp] theorem State.setHost_get_readByte (s : State) (h : HostIn) (a : Addr) : (s.setHost h).readByte a = s.readByte a := rfl
@[simp] theorem State.setHost_get_peerIqOf (s : State) (h : HostIn) (k : Nat) : (s.setHost h).peerIqOf k = s.peerIqOf k := rfl
@[simp] theorem State.setHost_get_peerFlOf (s : State) (h : HostIn) (k : Nat) : (s.setHost h).peerFlOf k = s.peerFlOf k := rfl
@[simp] theorem State.setHost_get_peerEqOf (s : State) (h : HostIn) (k : Nat) : (s.setHost h).peerEqOf k = s.peerEqOf k := rfl

/-! ### `setPeerIq` -/

@[simp] theorem State.setPeerIq_fault (s : State) (j : Nat) (p : PeerIq) : (s.setPeerIq j p).fault = s.fault := rfl
@[simp] theorem State.setPeerIq_res (s : State) (j : Nat) (p : PeerIq) : (s.setPeerIq j p).res = s.res := rfl
@[simp] theorem State.setPeerIq_qmap (s : State) (j : Nat) (p : PeerIq) : (s.setPeerIq j p).qmap = s.qmap := rfl
@[simp] theorem State.setPeerIq_iqs (s : State) (j : Nat) (p : PeerIq) : (s.setPeerIq j p).iqs = s.iqs := rfl
@[simp] theorem State.setPeerIq_fls (s : State) (j : Nat) (p : PeerIq) : (s.setPeerIq j p).fls = s.fls := rfl
@[simp] theorem State.setPeerIq_eqs (s : State) (j : Nat) (p : PeerIq) : (s.setPeerIq j p).eqs = s.eqs := rfl
@[simp] theorem State.setPeerIq_mem (s : State) (j : Nat) (p : PeerIq) : (s.setPeerIq j p).mem = s.mem := rfl
@[simp] theorem State.setPeerIq_peerIq (s : State) (j : Nat) (p : PeerIq) : (s.setPeerIq j p).peerIq = Tab.put s.peerIq j p := rfl
@[simp] theorem State.setPeerIq_peerFl (s : State) (j : Nat) (p : PeerIq) : (s.setPeerIq j p).peerFl = s.peerFl := rfl
@[simp] theorem State.setPeerIq_peerEq (s : State) (j : Nat) (p : PeerIq) : (s.setPeerIq j p).peerEq = s.peerEq := rfl
@[simp] theorem State.setPeerIq_cfg (s : State) (j : Nat) (p : PeerIq) : (s.setPeerIq j p).cfg = s.cfg := rfl
@[simp] theorem State.setPeerIq_host (s : State) (j : Nat) (p : PeerIq) : (s.setPeerIq j p).host = s.host := rfl
@[simp] theorem State.setPeerIq_out (s : State) (j : Nat) (p : PeerIq) : (s.setPeerIq j p).out = s.out := rfl
@[simp] theorem State.setPeerIq_inbox (s : State) (j : Nat) (p : PeerIq) : (s.setPeerIq j p).inbox = s.inbox := rfl
@[simp] theorem State.setPeerIq_draws (s : State) (j : Nat) (p : PeerIq) : (s.setPeerIq j p).draws = s.draws := rfl
@[simp] theorem State.setPeerIq_get_iq (s : State) (j : Nat) (p : PeerIq) (k : Nat) : (s.setPeerIq j p).iq k = s.iq k := rfl
@[simp] theorem State.setPeerIq_get_fl (s : State) (j : Nat) (p : PeerIq) (k : Nat) : (s.setPeerIq j p).fl k = s.fl k := rfl
@[simp] theorem State.setPeerIq_get_eq (s : State) (j : Nat) (p : PeerIq) (k : Nat) : (s.setPeerIq j p).eq k = s.eq k := rfl
@[simp] theorem State.setPeerIq_get_lookup (s : State) (j : Nat) (p : PeerIq) (id : Nat) : (s.setPeerIq j p).lookup id = s.lookup id := rfl
@[simp] theorem State.setPeerIq_get_readByte (s : State) (j : Nat) (p : PeerIq) (a : Addr) : (s.setPeerIq j p).readByte a = s.readByte a := rfl
@[simp] theorem State.setPeerIq_get_src (s : State) (j : Nat) (p : PeerIq) (k : Nat) : (s.setPeerIq j p).src k = s.src k := rfl
@[simp] theorem State.setPeerIq_get_peerFlOf (s : State) (j : Nat) (p : PeerIq) (k : Nat) : (s.setPeerIq j p).peerFlOf k = s.peerFlOf k := rfl
@[simp] theorem State.setPeerIq_get_peerEqOf (s : State) (j : Nat) (p : PeerIq) (k : Nat) : (s.setPeerIq j p).peerEqOf k = s.peerEqOf k := rfl

/-! ### `setPeerFl` -/

@[simp] theorem State.setPeerFl_fault (s : State) (j : Nat) (p : PeerFl) : (s.setPeerFl j p).fault = s.fault := rfl
@[simp] theorem State.setPeerFl_res (s : State) (j : Nat) (p : PeerFl) : (s.setPeerFl j p).res = s.res := rfl
@[simp] theorem State.setPeerFl_qmap (s : State) (j : Nat) (p : PeerFl) : (s.setPeerFl j p).qmap = s.qmap := rfl
@[simp] theorem State.setPeerFl_iqs (s : State) (j : Nat) (p : PeerFl) : (s.setPeerFl j p).iqs = s.iqs := rfl
@[simp] theorem State.setPeerFl_fls (s : State) (j : Nat) (p : PeerFl) : (s.setPeerFl j p).fls = s.fls := rfl
@[simp] theorem State.setPeerFl_eqs (s : State) (j : Nat) (p : PeerFl) : (s.setPeerFl j p).eqs = s.eqs := rfl
@[simp] theorem State.setPeerFl_mem (s : State) (j : Nat) (p : PeerFl) : (s.setPeerFl j p).mem = s.mem := rfl
@[simp] theorem State.setPeerFl_peerIq (s : State) (j : Nat) (p : PeerFl) : (s.setPeerFl j p).peerIq = s.peerIq := rfl
@[simp] theorem State.setPeerFl_peerFl (s : State) (j : Nat) (p : PeerFl) : (s.setPeerFl j p).peerFl = Tab.put s.peerFl j p := rfl
@[simp] theorem State.setPeerFl_peerEq (s : State) (j : Nat) (p : PeerFl) : (s.setPeerFl j p).peerEq = s.peerEq := rfl
@[simp] theorem State.setPeerFl_cfg (s : State) (j : Nat) (p : PeerFl) : (s.setPeerFl j p).cfg = s.cfg := rfl
@[simp] theorem State.setPeerFl_host (s : State) (j : Nat) (p : PeerFl) : (s.setPeerFl j p).host = s.host := rfl
@[simp] theorem State.setPeerFl_out (s : State) (j : Nat) (p : PeerFl) : (s.setPeerFl j p).out = s.out := rfl
@[simp] theorem State.setPeerFl_inbox (s : State) (j : Nat) (p : PeerFl) : (s.setPeerFl j p).inbox = s.inbox := rfl
@[simp] theorem State.setPeerFl_draws (s : State) (j : Nat) (p : PeerFl) : (s.setPeerFl j p).draws = s.draws := rfl
@[simp] theorem State.setPeerFl_get_iq (s : State) (j : Nat) (p : PeerFl) (k : Nat) : (s.setPeerFl j p).iq k = s.iq k := rfl
@[simp] theorem State.setPeerFl_get_fl (s : State) (j : Nat) (p : PeerFl) (k : Nat) : (s.setPeerFl j p).fl k = s.fl k := rfl
@[simp] theorem State.setPeerFl_get_eq (s : State) (j : Nat) (p : PeerFl) (k : Nat) : (s.setPeerFl j p).eq k = s.eq k := rfl
@[simp] theorem State.setPeerFl_get_lookup (s : State) (j : Nat) (p : PeerFl) (id : Nat) : (s.setPeerFl j p).lookup id = s.lookup id := rfl
@[simp] theorem State.setPeerFl_get_readByte (s : State) (j : Nat) (p : PeerFl) (a : Addr) : (s.setPeerFl j p).readByte a = s.readByte a := rfl
@[simp] theorem State.setPeerFl_get_src (s : State) (j : Nat) (p : PeerFl) (k : Nat) : (s.setPeerFl j p).src k = s.src k := rfl
@[simp] theorem State.setPeerFl_get_peerIqOf (s : State) (j : Nat) (p : PeerFl) (k : Nat) : (s.setPeerFl j p).peerIqOf k = s.peerIqOf k := rfl
@[simp] theorem State.setPeerFl_get_peerEqOf (s : State) (j : Nat) (p : PeerFl) (k : Nat) : (s.setPeerFl j p).peerEqOf k = s.peerEqOf k := rfl

/-! ### `setPeerEq` -/

@[simp] theorem State.setPeerEq_fault (s : State) (j : Nat) (p : PeerEq) : (s.setPeerEq j p).fault = s.fault := rfl
@[simp] theorem State.setPeerEq_res (s : State) (j : Nat) (p : PeerEq) : (s.setPeerEq j p).res = s.res := rfl
@[simp] theorem State.setPeerEq_qmap (s : State) (j : Nat) (p : PeerEq) : (s.setPeerEq j p).qmap = s.qmap := rfl
@[simp] theorem State.setPeerEq_iqs (s : State) (j : Nat) (p : PeerEq) : (s.setPeerEq j p).iqs = s.iqs := rfl
@[simp] theorem State.setPeerEq_fls (s : State) (j : Nat) (p : PeerEq) : (s.setPeerEq j p).fls = s.fls := rfl
@[simp] theorem State.setPeerEq_eqs (s : State) (j : Nat) (p : PeerEq) : (s.setPeerEq j p).eqs = s.eqs := rfl
@[simp] theorem State.setPeerEq_mem (s : State) (j : Nat) (p : PeerEq) : (s.setPeerEq j p).mem = s.mem := rfl
@[simp] theorem State.setPeerEq_peerIq (s : State) (j : Nat) (p : PeerEq) : (s.setPeerEq j p).peerIq = s.peerIq := rfl
@[simp] theorem State.setPeerEq_peerFl (s : State) (j : Nat) (p : PeerEq) : (s.setPeerEq j p).peerFl = s.peerFl := rfl
@[simp] theorem State.setPeerEq_peerEq (s : State) (j : Nat) (p : PeerEq) : (s.setPeerEq j p).peerEq = Tab.put s.peerEq j p := rfl
@[simp] theorem State.setPeerEq_cfg (s : State) (j : Nat) (p : PeerEq) : (s.setPeerEq j p).cfg = s.cfg := rfl
@[simp] theorem State.setPeerEq_host (s : State) (j : Nat) (p : PeerEq) : (s.setPeerEq j p).host = s.host := rfl
@[simp] theorem State.setPeerEq_out (s : State) (j : Nat) (p : PeerEq) : (s.setPeerEq j p).out = s.out := rfl
@[simp] theorem State.setPeerEq_inbox (s : State) (j : Nat) (p : PeerEq) : (s.setPeerEq j p).inbox = s.inbox := rfl
@[simp] theorem State.setPeerEq_draws (s : State) (j : Nat) (p : PeerEq) : (s.setPeerEq j p).draws = s.draws := rfl
@[simp] theorem State.setPeerEq_get_iq (s : State) (j : Nat) (p : PeerEq) (k : Nat) : (s.setPeerEq j p).iq k = s.iq k := rfl
@[simp] theorem State.setPeerEq_get_fl (s : State) (j : Nat) (p : PeerEq) (k : Nat) : (s.setPeerEq j p).fl k = s.fl k := rfl
@[simp] theorem State.setPeerEq_get_eq (s : State) (j : Nat) (p : PeerEq) (k : Nat) : (s.setPeerEq j p).eq k = s.eq k := rfl
@[simp] theorem State.setPeerEq_get_lookup (s : State) (j : Nat) (p : PeerEq) (id : Nat) : (s.setPeerEq j p).lookup id = s.lookup id := rfl
@[simp] theorem State.setPeerEq_get_readByte (s : State) (j : Nat) (p : PeerEq) (a : Addr) : (s.setPeerEq j p).readByte a = s.readByte a := rfl
@[simp] theorem State.setPeerEq_get_src (s : State) (j : Nat) (p : PeerEq) (k : Nat) : (s.setPeerEq j p).src k = s.src k := rfl
@[simp] theorem State.setPeerEq_get_peerIqOf (s : State) (j : Nat) (p : PeerEq) (k : Nat) : (s.setPeerEq j p).peerIqOf k = s.peerIqOf k := rfl
@[simp] theorem State.setPeerEq_get_peerFlOf (s : State) (j : Nat) (p : PeerEq) (k : Nat) : (s.setPeerEq j p).peerFlOf k = s.peerFlOf k := rfl

/-! ### `emit` -/

@[simp] theorem State.emit_fault (s : State) (e : Effect) : (s.emit e).fault = s.fault := rfl
@[simp] theorem State.emit_res (s : State) (e : Effect) : (s.emit e).res = s.res := rfl
@[simp] theorem State.emit_qmap (s : State) (e : Effect) : (s.emit e).qmap = s.qmap := rfl
@[simp] theorem State.emit_iqs (s : State) (e : Effect) : (s.emit e).iqs = s.iqs := rfl
@[simp] theorem State.emit_fls (s : State) (e : Effect) : (s.emit e).fls = s.fls := rfl
@[simp] theorem State.emit_eqs (s : State) (e : Effect) : (s.emit e).eqs = s.eqs := rfl
@[simp] theorem State.emit_mem (s : State) (e : Effect) : (s.emit e).mem = s.mem := rfl
@[simp] theorem State.emit_peerIq (s : State) (e : Effect) : (s.emit e).peerIq = s.peerIq := rfl
@[simp] theorem State.emit_peerFl (s : State) (e : Effect) : (s.emit e).peerFl = s.peerFl := rfl
@[simp] theorem State.emit_peerEq (s : State) (e : Effect) : (s.emit e).peerEq = s.peerEq := rfl
@[simp] theorem State.emit_cfg (s : State) (e : Effect) : (s.emit e).cfg = s.cfg := rfl
@[simp] theorem State.emit_host (s : State) (e : Effect) : (s.emit e).host = s.host := rfl
@[simp] theorem State.emit_out (s : State) (e : Effect) : (s.emit e).out = s.out ++ [e] := rfl
@[simp] theorem State.emit_inbox (s : State) (e : Effect) : (s.emit e).inbox = s.inbox := rfl
@[simp] theorem State.emit_draws (s : State) (e : Effect) : (s.emit e).draws = s.draws := rfl
@[simp] theorem State.emit_get_iq (s : State) (e : Effect) (k : Nat) : (s.emit e).iq k = s.iq k := rfl
@[simp] theorem State.emit_get_fl (s : State) (e : Effect) (k : Nat) : (s.emit e).fl k = s.fl k := rfl
@[simp] theorem State.emit_get_eq (s : State) (e : Effect) (k : Nat) : (s.emit e).eq k = s.eq k := rfl
@[simp] theorem State.emit_get_lookup (s : State) (e : Effect) (id : Nat) : (s.emit e).lookup id = s.lookup id := rfl
@[simp] theorem State.emit_get_readByte (s : State) (e : Effect) (a : Addr) : (s.emit e).readByte a = s.readByte a := rfl
@[simp] theorem State.emit_get_src (s : State) (e : Effect) (k : Nat) : (s.emit e).src k = s.src k := rfl
@[simp] theorem State.emit_get_peerIqOf (s : State) (e : Effect) (k : Nat) : (s.emit e).peerIqOf k = s.peerIqOf k := rfl
@[simp] theorem State.emit_get_peerFlOf (s : State) (e : Effect) (k : Nat) : (s.emit e).peerFlOf k = s.peerFlOf k := rfl
@[simp] theorem State.emit_get_peerEqOf (s : State) (e : Effect) (k : Nat) : (s.emit e).peerEqOf k = s.peerEqOf k := rfl

/-! ### `setSrc` -/

@[simp] theorem State.setSrc_fault (s : State) (j : Nat) (l : List SrcItem) : (s.setSrc j l).fault = s.fault := rfl
@[simp] theorem State.setSrc_res (s : State) (j : Nat) (l : List SrcItem) : (s.setSrc j l).res = s.res := rfl
@[simp] theorem State.setSrc_qmap (s : State) (j : Nat) (l : List SrcItem) : (s.setSrc j l).qmap = s.qmap := rfl
@[simp] theorem State.setSrc_iqs (s : State) (j : Nat) (l : List SrcItem) : (s.setSrc j l).iqs = s.iqs := rfl
@[simp] theorem State.setSrc_fls (s : State) (j : Nat) (l : List SrcItem) : (s.setSrc j l).fls = s.fls := rfl
@[simp] theorem State.setSrc_eqs (s : State) (j : Nat) (l : List SrcItem) : (s.setSrc j l).eqs = s.eqs := rfl
@[simp] theorem State.setSrc_mem (s : State) (j : Nat) (l : List SrcItem) : (s.setSrc j l).mem = s.mem := rfl
@[simp] theorem State.setSrc_peerIq (s : State) (j : Nat) (l : List SrcItem) : (s.setSrc j l).peerIq = s.peerIq := rfl
@[simp] theorem State.setSrc_peerFl (s : State) (j : Nat) (l : List SrcItem) : (s.setSrc j l).peerFl = s.peerFl := rfl
@[simp] theorem State.setSrc_peerEq (s : State) (j : Nat) (l : List SrcItem) : (s.setSrc j l).peerEq = s.peerEq := rfl
@[simp] theorem State.setSrc_cfg (s : State) (j : Nat) (l : List SrcItem) : (s.setSrc j l).cfg = s.cfg := rfl
@[simp] theorem State.setSrc_host (s : State) (j : Nat) (l : List SrcItem) : (s.setSrc j l).host = { s.host with src := Tab.put s.host.src j l } := rfl
@[simp] theorem State.setSrc_out (s : State) (j : Nat) (l : List SrcItem) : (s.setSrc j l).out = s.out := rfl
@[simp] theorem State.setSrc_inbox (s : State) (j : Nat) (l : List SrcItem) : (s.setSrc j l).inbox = s.inbox := rfl
@[simp] theorem State.setSrc_draws (s : State) (j : Nat) (l : List SrcItem) : (s.setSrc j l).draws = s.draws := rfl
@[simp] theorem State.setSrc_get_iq (s : State) (j : Nat) (l : List SrcItem) (k : Nat) : (s.setSrc j l).iq k = s.iq k := rfl
@[simp] theorem State.setSrc_get_fl (s : State) (j : Nat) (l : List SrcItem) (k : Nat) : (s.setSrc j l).fl k = s.fl k := rfl
@[simp] theorem State.setSrc_get_eq (s : State) (j : Nat) (l : List SrcItem) (k : Nat) : (s.setSrc j l).eq k = s.eq k := rfl
@[simp] theorem State.setSrc_get_lookup (s : State) (j : Nat) (l : List SrcItem) (id : Nat) : (s.setSrc j l).lookup id = s.lookup id := rfl
@[simp] theorem State.setSrc_get_readByte (s : State) (j : Nat) (l : List SrcItem) (a : Addr) : (s.setSrc j l).readByte a = s.readByte a := rfl
@[simp] theorem State.setSrc_get_peerIqOf (s : State) (j : Nat) (l : List SrcItem) (k : Nat) : (s.setSrc j l).peerIqOf k = s.peerIqOf k := rfl
@[simp] theorem State.setSrc_get_peerFlOf (s : State) (j : Nat) (l : List SrcItem) (k : Nat) : (s.setSrc j l).peerFlOf k = s.peerFlOf k := rfl
@[simp] theorem State.setSrc_get_peerEqOf (s : State) (j : Nat) (l : List SrcItem) (k : Nat) : (s.setSrc j l).peerEqOf k = s.peerEqOf k := rfl

/-! ### `setInbox` -/

@[simp] theorem State.setInbox_fault (s : State) (l : List Event) : (s.setInbox l).fault = s.fault := rfl
@[simp] theorem State.setInbox_res (s : State) (l : List Event) : (s.setInbox l).res = s.res := rfl
@[simp] theorem State.setInbox_qmap (s : State) (l : List Event) : (s.setInbox l).qmap = s.qmap := rfl
@[simp] theorem State.setInbox_iqs (s : State) (l : List Event) : (s.setInbox l).iqs = s.iqs := rfl
@[simp] theorem State.setInbox_fls (s : State) (l : List Event) : (s.setInbox l).fls = s.fls := rfl
@[simp] theorem State.setInbox_eqs (s : State) (l : List Event) : (s.setInbox l).eqs = s.eqs := rfl
@[simp] theorem State.setInbox_mem (s : State) (l : List Event) : (s.setInbox l).mem = s.mem := rfl
@[simp] theorem State.setInbox_peerIq (s : State) (l : List Event) : (s.setInbox l).peerIq = s.peerIq := rfl
@[simp] theorem State.setInbox_peerFl (s : State) (l : List Event) : (s.setInbox l).peerFl = s.peerFl := rfl
@[simp] theorem State.setInbox_peerEq (s : State) (l : List Event) : (s.setInbox l).peerEq = s.peerEq := rfl
@[simp] theorem State.setInbox_cfg (s : State) (l : List Event) : (s.setInbox l).cfg = s.cfg := rfl
@[simp] theorem State.setInbox_host (s : State) (l : List Event) : (s.setInbox l).host = s.host := rfl
@[simp] theorem State.setInbox_out (s : State) (l : List Event) : (s.setInbox l).out = s.out := rfl
@[simp] theorem State.setInbox_inbox (s : State) (l : List Event) : (s.setInbox l).inbox = l := rfl
@[simp] theorem State.setInbox_draws (s : State) (l : List Event) : (s.setInbox l).draws = s.draws := rfl
@[simp] theorem State.setInbox_get_iq (s : State) (l : List Event) (k : Nat) : (s.setInbox l).iq k = s.iq k := rfl
@[simp] theorem State.setInbox_get_fl (s : State) (l : List Event) (k : Nat) : (s.setInbox l).fl k = s.fl k := rfl
@[simp] theorem State.setInbox_get_eq (s : State) (l : List Event) (k : Nat) : (s.setInbox l).eq k = s.eq k := rfl
@[simp] theorem State.setInbox_get_lookup (s : State) (l : List Event) (id : Nat) : (s.setInbox l).lookup id = s.lookup id := rfl
@[simp] theorem State.setInbox_get_readByte (s : State) (l : List Event) (a : Addr) : (s.setInbox l).readByte a = s.readByte a := rfl
@[simp] theorem State.setInbox_get_src (s : State) (l : List Event) (k : Nat) : (s.setInbox l).src k = s.src k := rfl
@[simp] theorem State.setInbox_get_peerIqOf (s : State) (l : List Event) (k : Nat) : (s.setInbox l).peerIqOf k = s.peerIqOf k := rfl
@[simp] theorem State.setInbox_get_peerFlOf (s : State) (l : List Event) (k : Nat) : (s.setInbox l).peerFlOf k = s.peerFlOf k := rfl
@[simp] theorem State.setInbox_get_peerEqOf (s : State) (l : List Event) (k : Nat) : (s.setInbox l).peerEqOf k = s.peerEqOf k := rfl

/-! ### `finish` -/

@[simp] theorem State.finish_fault (s : State) (rc : RC) (v : Nat) : (s.finish rc v).fault = s.fault := rfl
@[simp] theorem State.finish_res (s : State) (rc : RC) (v : Nat) : (s.finish rc v).res = { rc := rc, value := BitVec.ofNat 32 v } := rfl
@[simp] theorem State.finish_qmap (s : State) (rc : RC) (v : Nat) : (s.finish rc v).qmap = s.qmap := rfl
@[simp] theorem State.finish_iqs (s : State) (rc : RC) (v : Nat) : (s.finish rc v).iqs = s.iqs := rfl
@[simp] theorem State.finish_fls (s : State) (rc : RC) (v : Nat) : (s.finish rc v).fls = s.fls := rfl
@[simp] theorem State.finish_eqs (s : State) (rc : RC) (v : Nat) : (s.finish rc v).eqs = s.eqs := rfl
@[simp] theorem State.finish_mem (s : State) (rc : RC) (v : Nat) : (s.finish rc v).mem = s.mem := rfl
@[simp] theorem State.finish_peerIq (s : State) (rc : RC) (v : Nat) : (s.finish rc v).peerIq = s.peerIq := rfl
@[simp] theorem State.finish_peerFl (s : State) (rc : RC) (v : Nat) : (s.finish rc v).peerFl = s.peerFl := rfl
@[simp] theorem State.finish_peerEq (s : State) (rc : RC) (v : Nat) : (s.finish rc v).peerEq = s.peerEq := rfl
@[simp] theorem State.finish_cfg (s : State) (rc : RC) (v : Nat) : (s.finish rc v).cfg = s.cfg := rfl
@[simp] theorem State.finish_host (s : State) (rc : RC) (v : Nat) : (s.finish rc v).host = s.host := rfl
@[simp] theorem State.finish_out (s : State) (rc : RC) (v : Nat) : (s.finish rc v).out = s.out := rfl
@[simp] theorem State.finish_inbox (s : State) (rc : RC) (v : Nat) : (s.finish rc v).inbox = s.inbox := rfl
@[simp] theorem State.finish_draws (s : State) (rc : RC) (v : Nat) : (s.finish rc v).draws = s.draws := rfl
@[simp] theorem State.finish_get_iq (s : State) (rc : RC) (v : Nat) (k : Nat) : (s.finish rc v).iq k = s.iq k := rfl
@[simp] theorem State.finish_get_fl (s : State) (rc : RC) (v : Nat) (k : Nat) : (s.finish rc v).fl k = s.fl k := rfl
@[simp] theorem State.finish_get_eq (s : State) (rc : RC) (v : Nat) (k : Nat) : (s.finish rc v).eq k = s.eq k := rfl
@[simp] theorem State.finish_get_lookup (s : State) (rc : RC) (v : Nat) (id : Nat) : (s.finish rc v).lookup id = s.lookup id := rfl
@[simp] theorem State.finish_get_readByte (s : State) (rc : RC) (v : Nat) (a : Addr) : (s.finish rc v).readByte a = s.readByte a := rfl
@[simp] theorem State.finish_get_src (s : State) (rc : RC) (v : Nat) (k : Nat) : (s.finish rc v).src k = s.src k := rfl
@[simp] theorem State.finish_get_peerIqOf (s : State) (rc : RC) (v : Nat) (k : Nat) : (s.finish rc v).peerIqOf k = s.peerIqOf k := rfl
@[simp] theorem State.finish_get_peerFlOf (s : State) (rc : RC) (v : Nat) (k : Nat) : (s.finish rc v).peerFlOf k = s.peerFlOf k := rfl
@[simp] theorem State.finish_get_peerEqOf (s : State) (rc : RC) (v : Nat) (k : Nat) : (s.finish rc v).peerEqOf k = s.peerEqOf k := rfl

/-! ### `raiseFault` -/

@[simp] theorem State.raiseFault_fault (s : State) (c : FaultCode) (q : Sel) : (s.raiseFault c q).fault = faultWord c q := rfl
@[simp] theorem State.raiseFault_res (s : State) (c : FaultCode) (q : Sel) : (s.raiseFault c q).res = s.res := rfl
@[simp] theorem State.raiseFault_qmap (s : State) (c : FaultCode) (q : Sel) : (s.raiseFault c q).qmap = s.qmap := rfl
@[simp] theorem State.raiseFault_iqs (s : State) (c : FaultCode) (q : Sel) : (s.raiseFault c q).iqs = s.iqs := rfl
@[simp] theorem State.raiseFault_fls (s : State) (c : FaultCode) (q : Sel) : (s.raiseFault c q).fls = s.fls := rfl
@[simp] theorem State.raiseFault_eqs (s : State) (c : FaultCode) (q : Sel) : (s.raiseFault c q).eqs = s.eqs := rfl
@[simp] theorem State.raiseFault_mem (s : State) (c : FaultCode) (q : Sel) : (s.raiseFault c q).mem = s.mem := rfl
@[simp] theorem State.raiseFault_peerIq (s : State) (c : FaultCode) (q : Sel) : (s.raiseFault c q).peerIq = s.peerIq := rfl
@[simp] theorem State.raiseFault_peerFl (s : State) (c : FaultCode) (q : Sel) : (s.raiseFault c q).peerFl = s.peerFl := rfl
@[simp] theorem State.raiseFault_peerEq (s : State) (c : FaultCode) (q : Sel) : (s.raiseFault c q).peerEq = s.peerEq := rfl
@[simp] theorem State.raiseFault_cfg (s : State) (c : FaultCode) (q : Sel) : (s.raiseFault c q).cfg = s.cfg := rfl
@[simp] theorem State.raiseFault_host (s : State) (c : FaultCode) (q : Sel) : (s.raiseFault c q).host = s.host := rfl
@[simp] theorem State.raiseFault_out (s : State) (c : FaultCode) (q : Sel) : (s.raiseFault c q).out = s.out := rfl
@[simp] theorem State.raiseFault_inbox (s : State) (c : FaultCode) (q : Sel) : (s.raiseFault c q).inbox = s.inbox := rfl
@[simp] theorem State.raiseFault_draws (s : State) (c : FaultCode) (q : Sel) : (s.raiseFault c q).draws = s.draws := rfl
@[simp] theorem State.raiseFault_get_iq (s : State) (c : FaultCode) (q : Sel) (k : Nat) : (s.raiseFault c q).iq k = s.iq k := rfl
@[simp] theorem State.raiseFault_get_fl (s : State) (c : FaultCode) (q : Sel) (k : Nat) : (s.raiseFault c q).fl k = s.fl k := rfl
@[simp] theorem State.raiseFault_get_eq (s : State) (c : FaultCode) (q : Sel) (k : Nat) : (s.raiseFault c q).eq k = s.eq k := rfl
@[simp] theorem State.raiseFault_get_lookup (s : State) (c : FaultCode) (q : Sel) (id : Nat) : (s.raiseFault c q).lookup id = s.lookup id := rfl
@[simp] theorem State.raiseFault_get_readByte (s : State) (c : FaultCode) (q : Sel) (a : Addr) : (s.raiseFault c q).readByte a = s.readByte a := rfl
@[simp] theorem State.raiseFault_get_src (s : State) (c : FaultCode) (q : Sel) (k : Nat) : (s.raiseFault c q).src k = s.src k := rfl
@[simp] theorem State.raiseFault_get_peerIqOf (s : State) (c : FaultCode) (q : Sel) (k : Nat) : (s.raiseFault c q).peerIqOf k = s.peerIqOf k := rfl
@[simp] theorem State.raiseFault_get_peerFlOf (s : State) (c : FaultCode) (q : Sel) (k : Nat) : (s.raiseFault c q).peerFlOf k = s.peerFlOf k := rfl
@[simp] theorem State.raiseFault_get_peerEqOf (s : State) (c : FaultCode) (q : Sel) (k : Nat) : (s.raiseFault c q).peerEqOf k = s.peerEqOf k := rfl

/-! ### `drew` -/

@[simp] theorem State.drew_fault (s : State) (h : HostIn) (n : Nat) (e : Effect) : (s.drew h n e).fault = s.fault := rfl
@[simp] theorem State.drew_res (s : State) (h : HostIn) (n : Nat) (e : Effect) : (s.drew h n e).res = s.res := rfl
@[simp] theorem State.drew_qmap (s : State) (h : HostIn) (n : Nat) (e : Effect) : (s.drew h n e).qmap = s.qmap := rfl
@[simp] theorem State.drew_iqs (s : State) (h : HostIn) (n : Nat) (e : Effect) : (s.drew h n e).iqs = s.iqs := rfl
@[simp] theorem State.drew_fls (s : State) (h : HostIn) (n : Nat) (e : Effect) : (s.drew h n e).fls = s.fls := rfl
@[simp] theorem State.drew_eqs (s : State) (h : HostIn) (n : Nat) (e : Effect) : (s.drew h n e).eqs = s.eqs := rfl
@[simp] theorem State.drew_mem (s : State) (h : HostIn) (n : Nat) (e : Effect) : (s.drew h n e).mem = s.mem := rfl
@[simp] theorem State.drew_peerIq (s : State) (h : HostIn) (n : Nat) (e : Effect) : (s.drew h n e).peerIq = s.peerIq := rfl
@[simp] theorem State.drew_peerFl (s : State) (h : HostIn) (n : Nat) (e : Effect) : (s.drew h n e).peerFl = s.peerFl := rfl
@[simp] theorem State.drew_peerEq (s : State) (h : HostIn) (n : Nat) (e : Effect) : (s.drew h n e).peerEq = s.peerEq := rfl
@[simp] theorem State.drew_cfg (s : State) (h : HostIn) (n : Nat) (e : Effect) : (s.drew h n e).cfg = s.cfg := rfl
@[simp] theorem State.drew_host (s : State) (h : HostIn) (n : Nat) (e : Effect) : (s.drew h n e).host = h := rfl
@[simp] theorem State.drew_out (s : State) (h : HostIn) (n : Nat) (e : Effect) : (s.drew h n e).out = s.out ++ [e] := rfl
@[simp] theorem State.drew_inbox (s : State) (h : HostIn) (n : Nat) (e : Effect) : (s.drew h n e).inbox = s.inbox := rfl
@[simp] theorem State.drew_draws (s : State) (h : HostIn) (n : Nat) (e : Effect) : (s.drew h n e).draws = n := rfl
@[simp] theorem State.drew_get_iq (s : State) (h : HostIn) (n : Nat) (e : Effect) (k : Nat) : (s.drew h n e).iq k = s.iq k := rfl
@[simp] theorem State.drew_get_fl (s : State) (h : HostIn) (n : Nat) (e : Effect) (k : Nat) : (s.drew h n e).fl k = s.fl k := rfl
@[simp] theorem State.drew_get_eq (s : State) (h : HostIn) (n : Nat) (e : Effect) (k : Nat) : (s.drew h n e).eq k = s.eq k := rfl
@[simp] theorem State.drew_get_lookup (s : State) (h : HostIn) (n : Nat) (e : Effect) (id : Nat) : (s.drew h n e).lookup id = s.lookup id := rfl
@[simp] theorem State.drew_get_readByte (s : State) (h : HostIn) (n : Nat) (e : Effect) (a : Addr) : (s.drew h n e).readByte a = s.readByte a := rfl
@[simp] theorem State.drew_get_peerIqOf (s : State) (h : HostIn) (n : Nat) (e : Effect) (k : Nat) : (s.drew h n e).peerIqOf k = s.peerIqOf k := rfl
@[simp] theorem State.drew_get_peerFlOf (s : State) (h : HostIn) (n : Nat) (e : Effect) (k : Nat) : (s.drew h n e).peerFlOf k = s.peerFlOf k := rfl
@[simp] theorem State.drew_get_peerEqOf (s : State) (h : HostIn) (n : Nat) (e : Effect) (k : Nat) : (s.drew h n e).peerEqOf k = s.peerEqOf k := rfl

/-! ### `blockReset` -/

@[simp] theorem State.blockReset_fault (s : State) : s.blockReset.fault = 0 := rfl
@[simp] theorem State.blockReset_res (s : State) : s.blockReset.res = { rc := .ok, value := 0 } := rfl
@[simp] theorem State.blockReset_qmap (s : State) : s.blockReset.qmap = [] := rfl
@[simp] theorem State.blockReset_iqs (s : State) : s.blockReset.iqs = [] := rfl
@[simp] theorem State.blockReset_fls (s : State) : s.blockReset.fls = [] := rfl
@[simp] theorem State.blockReset_eqs (s : State) : s.blockReset.eqs = [] := rfl
@[simp] theorem State.blockReset_mem (s : State) : s.blockReset.mem = s.mem := rfl
@[simp] theorem State.blockReset_peerIq (s : State) : s.blockReset.peerIq = s.peerIq := rfl
@[simp] theorem State.blockReset_peerFl (s : State) : s.blockReset.peerFl = s.peerFl := rfl
@[simp] theorem State.blockReset_peerEq (s : State) : s.blockReset.peerEq = s.peerEq := rfl
@[simp] theorem State.blockReset_cfg (s : State) : s.blockReset.cfg = s.cfg := rfl
@[simp] theorem State.blockReset_host (s : State) : s.blockReset.host = s.host := rfl
@[simp] theorem State.blockReset_out (s : State) : s.blockReset.out = s.out := rfl
@[simp] theorem State.blockReset_inbox (s : State) : s.blockReset.inbox = s.inbox := rfl
@[simp] theorem State.blockReset_draws (s : State) : s.blockReset.draws = s.draws := rfl
@[simp] theorem State.blockReset_get_iq (s : State) (k : Nat) : s.blockReset.iq k = IQ.reset := rfl
@[simp] theorem State.blockReset_get_fl (s : State) (k : Nat) : s.blockReset.fl k = FL.reset := rfl
@[simp] theorem State.blockReset_get_eq (s : State) (k : Nat) : s.blockReset.eq k = EQ.reset := rfl

/-! ### The state after reset -/

@[simp] theorem State.reset_get_iq (k : Nat) : State.reset.iq k = IQ.reset := rfl
@[simp] theorem State.reset_get_fl (k : Nat) : State.reset.fl k = FL.reset := rfl
@[simp] theorem State.reset_get_eq (k : Nat) : State.reset.eq k = EQ.reset := rfl

end Sys2Proof.Machine
end

