-- ==== Sys2Proof/Laws/Tables.lean ====
section
/-! SUPPORT. Sparse tables, bus memory and the queue records: what a read after a write gives, and that every memory
operation keeps the canonical form. -/

namespace Sys2Proof

/-! ### Tables -/

@[simp] theorem Tab.get_nil {β : Type} (d : β) (k : Nat) : Tab.get d ([] : Tab β) k = d := rfl

theorem Tab.get_put {β : Type} (d : β) (t : Tab β) (k l : Nat) (v : β) :
    Tab.get d (Tab.put t k v) l = if k = l then v else Tab.get d t l := by
  induction t with
  | nil => simp [Tab.put, Tab.get]
  | cons c t ih =>
    obtain ⟨a, b⟩ := c
    by_cases h1 : k < a
    · simp [Tab.put, Tab.get, h1]
    · by_cases h2 : k = a
      · subst h2; simp only [Tab.put, h1, if_false, if_true, Tab.get]; by_cases h3 : k = l <;> simp [h3]
      · simp only [Tab.put, h1, h2, if_false, Tab.get, ih]
        by_cases h3 : a = l
        · subst h3; simp [h2]
        · simp [h3]

@[simp] theorem Tab.get_put_same {β : Type} (d : β) (t : Tab β) (k : Nat) (v : β) : Tab.get d (Tab.put t k v) k = v := by
  simp [Tab.get_put]

/-- The later of two values put at a key stays. -/
theorem Tab.put_put {β : Type} (t : Tab β) (k : Nat) (v w : β) : Tab.put (Tab.put t k v) k w = Tab.put t k w := by
  induction t with
  | nil => simp [Tab.put]
  | cons c t ih =>
    obtain ⟨a, b⟩ := c
    simp only [Tab.put]
    split
    · simp [Tab.put]
    · split
      · simp [Tab.put]
      · rename_i h1 h2
        simp only [Tab.put, if_neg h1, if_neg h2, ih]

theorem Tab.get_put_ne {β : Type} (d : β) (t : Tab β) {k l : Nat} (v : β) (h : k ≠ l) :
    Tab.get d (Tab.put t k v) l = Tab.get d t l := by
  simp [Tab.get_put, h]

theorem Tab.find_put {β : Type} (t : Tab β) (k l : Nat) (v : β) :
    Tab.find (Tab.put t k v) l = if k = l then some v else Tab.find t l := by
  induction t with
  | nil => simp [Tab.put, Tab.find]
  | cons c t ih =>
    obtain ⟨a, b⟩ := c
    by_cases h1 : k < a
    · simp [Tab.put, Tab.find, h1]
    · by_cases h2 : k = a
      · subst h2; simp only [Tab.put, h1, if_false, if_true, Tab.find]; by_cases h3 : k = l <;> simp [h3]
      · simp only [Tab.put, h1, h2, if_false, Tab.find, ih]
        by_cases h3 : a = l
        · subst h3; simp [h2]
        · simp [h3]

theorem Tab.get_filter {β : Type} (d : β) (t : Tab β) (p : Nat → Bool) (l : Nat) :
    Tab.get d (t.filter (fun c => p c.1)) l = if p l then Tab.get d t l else d := by
  induction t with
  | nil => simp [Tab.get]
  | cons c t ih =>
    obtain ⟨a, b⟩ := c
    by_cases h : p a = true <;> by_cases h2 : a = l
    · subst h2; simp [h, Tab.get]
    · simp [h, Tab.get, h2, ih]
    · subst h2; simp [h, ih]
    · simp [h, Tab.get, h2, ih]

theorem Tab.find_filter {β : Type} (t : Tab β) (p : Nat → Bool) (l : Nat) :
    Tab.find (t.filter (fun c => p c.1)) l = if p l then Tab.find t l else none := by
  induction t with
  | nil => simp [Tab.find]
  | cons c t ih =>
    obtain ⟨a, b⟩ := c
    by_cases h : p a = true <;> by_cases h2 : a = l
    · subst h2; simp [h, Tab.find]
    · simp [h, Tab.find, h2, ih]
    · subst h2; simp [h, ih]
    · simp [h, Tab.find, h2, ih]

theorem Tab.get_del {β : Type} (d : β) (t : Tab β) (k l : Nat) :
    Tab.get d (Tab.del t k) l = if l = k then d else Tab.get d t l := by
  have := Tab.get_filter d t (fun a => a != k) l
  by_cases h : l = k <;> simp_all [Tab.del]

theorem Tab.find_del {β : Type} (t : Tab β) (k l : Nat) :
    Tab.find (Tab.del t k) l = if l = k then none else Tab.find t l := by
  have := Tab.find_filter t (fun a => a != k) l
  by_cases h : l = k <;> simp_all [Tab.del]

theorem Tab.find_some_mem {β : Type} {t : Tab β} {k : Nat} {v : β} (h : Tab.find t k = some v) : (k, v) ∈ t := by
  induction t with
  | nil => simp [Tab.find] at h
  | cons c t ih =>
    obtain ⟨a, b⟩ := c
    by_cases h2 : a = k
    · subst h2; simp only [Tab.find, if_true, Option.some.injEq] at h; simp [h]
    · simp only [Tab.find, h2, if_false] at h; exact List.mem_cons_of_mem _ (ih h)

theorem Tab.find_of_mem {β : Type} {t : Tab β} (hs : Tab.sorted t) {k : Nat} {v : β} (h : (k, v) ∈ t) :
    Tab.find t k = some v := by
  induction t with
  | nil => simp at h
  | cons c t ih =>
    obtain ⟨a, b⟩ := c
    obtain ⟨h1, h2⟩ := List.pairwise_cons.mp hs
    rcases List.mem_cons.mp h with h3 | h3
    · cases h3; simp [Tab.find]
    · have := h1 _ h3
      have h4 : a ≠ k := by simp at this; omega
      simp only [Tab.find, h4, if_false]; exact ih h2 h3

theorem Tab.mem_put {β : Type} {t : Tab β} {k : Nat} {v : β} {c : Nat × β} (h : c ∈ Tab.put t k v) :
    c = (k, v) ∨ c ∈ t := by
  induction t with
  | nil => simp [Tab.put] at h; exact .inl h
  | cons x t ih =>
    obtain ⟨a, b⟩ := x
    simp only [Tab.put] at h
    split at h
    · rcases List.mem_cons.mp h with h | h
      · exact .inl h
      · exact .inr h
    · split at h
      · rcases List.mem_cons.mp h with h | h
        · exact .inl h
        · exact .inr (List.mem_cons_of_mem _ h)
      · rcases List.mem_cons.mp h with h | h
        · exact .inr (h ▸ List.mem_cons_self)
        · rcases ih h with h | h
          · exact .inl h
          · exact .inr (List.mem_cons_of_mem _ h)

theorem Tab.sorted_put {β : Type} {t : Tab β} (hs : Tab.sorted t) (k : Nat) (v : β) : Tab.sorted (Tab.put t k v) := by
  induction t with
  | nil => simp [Tab.put, Tab.sorted]
  | cons c t ih =>
    obtain ⟨a, b⟩ := c
    obtain ⟨h1, h2⟩ := List.pairwise_cons.mp hs
    simp only [Tab.put]
    split
    · rename_i h
      refine List.pairwise_cons.mpr ⟨fun x hx => ?_, hs⟩
      rcases List.mem_cons.mp hx with hx | hx
      · simpa [hx] using h
      · have := h1 x hx; simp at this ⊢; omega
    · split
      · rename_i h
        exact List.pairwise_cons.mpr ⟨fun x hx => by have := h1 x hx; simp at this ⊢; omega, h2⟩
      · rename_i h h'
        refine List.pairwise_cons.mpr ⟨fun x hx => ?_, ih h2⟩
        rcases Tab.mem_put hx with hx | hx
        · simp [hx]; omega
        · exact h1 x hx

theorem Tab.sorted_del {β : Type} {t : Tab β} (hs : Tab.sorted t) (k : Nat) : Tab.sorted (Tab.del t k) :=
  List.Pairwise.filter _ hs

end Sys2Proof

namespace Sys2Proof.Machine

/-! ### Queue records -/

theorem State.setIq_get (s : State) (j : Nat) (q : IQ) (k : Nat) : (s.setIq j q).iq k = if j = k then q else s.iq k :=
  Tab.get_put _ _ _ _ _
theorem State.setFl_get (s : State) (j : Nat) (f : FL) (k : Nat) : (s.setFl j f).fl k = if j = k then f else s.fl k :=
  Tab.get_put _ _ _ _ _
theorem State.setEq_get (s : State) (j : Nat) (e : EQ) (k : Nat) : (s.setEq j e).eq k = if j = k then e else s.eq k :=
  Tab.get_put _ _ _ _ _

@[simp] theorem State.setIq_same (s : State) (j : Nat) (q : IQ) : (s.setIq j q).iq j = q := by simp [State.setIq_get]
@[simp] theorem State.setFl_same (s : State) (j : Nat) (f : FL) : (s.setFl j f).fl j = f := by simp [State.setFl_get]
@[simp] theorem State.setEq_same (s : State) (j : Nat) (e : EQ) : (s.setEq j e).eq j = e := by simp [State.setEq_get]

theorem State.setIq_ne (s : State) {j k : Nat} (q : IQ) (h : k ≠ j) : (s.setIq j q).iq k = s.iq k := by
  simp [State.setIq_get, Ne.symm h]
theorem State.setFl_ne (s : State) {j k : Nat} (f : FL) (h : k ≠ j) : (s.setFl j f).fl k = s.fl k := by
  simp [State.setFl_get, Ne.symm h]
theorem State.setEq_ne (s : State) {j k : Nat} (e : EQ) (h : k ≠ j) : (s.setEq j e).eq k = s.eq k := by
  simp [State.setEq_get, Ne.symm h]

theorem FL.setSlot_slot (f : FL) (j : Nat) (x : FlSlot) (k : Nat) : (f.setSlot j x).slot k = if j = k then x else f.slot k :=
  Tab.get_put _ _ _ _ _

theorem State.setSrc_get (s : State) (j : Nat) (l : List SrcItem) (k : Nat) :
    (s.setSrc j l).src k = if j = k then l else s.src k := Tab.get_put _ _ _ _ _

theorem State.setPeerIq_get (s : State) (j : Nat) (p : PeerIq) (k : Nat) :
    (s.setPeerIq j p).peerIqOf k = if j = k then p else s.peerIqOf k := Tab.get_put _ _ _ _ _
theorem State.setPeerFl_get (s : State) (j : Nat) (p : PeerFl) (k : Nat) :
    (s.setPeerFl j p).peerFlOf k = if j = k then p else s.peerFlOf k := Tab.get_put _ _ _ _ _
theorem State.setPeerEq_get (s : State) (j : Nat) (p : PeerEq) (k : Nat) :
    (s.setPeerEq j p).peerEqOf k = if j = k then p else s.peerEqOf k := Tab.get_put _ _ _ _ _

/-! ### Bus memory -/

theorem Memory.get_set (m : List Host.Cell) (a : Nat) (b : Byte) (l : Nat) :
    Memory.get (Memory.set m a b) l = if l = a then b else Memory.get m l := by
  unfold Memory.get Memory.set
  by_cases hb : b = unlistedByte
  · rw [if_pos hb, Tab.get_del]; by_cases h : l = a <;> simp [h, hb]
  · rw [if_neg hb, Tab.get_put]; by_cases h : a = l
    · simp [h]
    · simp [h, Ne.symm h]

theorem Memory.get_zero (m : List Host.Cell) (a n l : Nat) :
    Memory.get (Memory.zero m a n) l = if a ≤ l ∧ l < a + n then unlistedByte else Memory.get m l := by
  have h := Tab.get_filter unlistedByte m (fun k => !(decide (a ≤ k) && decide (k < a + n))) l
  unfold Memory.get Memory.zero
  rw [h]
  by_cases h1 : a ≤ l <;> by_cases h2 : l < a + n <;> simp [h1, h2]

/-- A byte outside the written addresses reads as before. -/
theorem Memory.get_setBytes_of_ne (m : List Host.Cell) (a : Addr) (l : List Byte) (x : Nat)
    (h : ∀ k, k < l.length → x ≠ (a + BitVec.ofNat 64 k).toNat) :
    Memory.get (Memory.setBytes m a l) x = Memory.get m x := by
  induction l generalizing m a with
  | nil => rfl
  | cons b t ih =>
    have h0 : x ≠ a.toNat := by have := h 0 (by simp); simpa using this
    rw [Memory.setBytes, ih]
    · rw [Memory.get_set, if_neg h0]
    · intro k hk
      have := h (k + 1) (by simpa using hk)
      have he : a + 1 + BitVec.ofNat 64 k = a + BitVec.ofNat 64 (k + 1) := by
        rw [BitVec.add_assoc]; congr 1; apply BitVec.eq_of_toNat_eq; simp [Nat.add_comm]
      rwa [he]

theorem Memory.set_wf {m : List Host.Cell} (h : Memory.wf m) {a : Nat} (ha : a < 2 ^ 64) (b : Byte) :
    Memory.wf (Memory.set m a b) := by
  unfold Memory.set
  split
  · exact ⟨Tab.sorted_del h.1 a, fun c hc => h.2 c (List.mem_of_mem_filter hc)⟩
  · rename_i hb
    refine ⟨Tab.sorted_put h.1 a b, fun c hc => ?_⟩
    rcases Tab.mem_put hc with hc | hc
    · rw [hc]; exact ⟨ha, hb⟩
    · exact h.2 c hc

theorem Memory.zero_wf {m : List Host.Cell} (h : Memory.wf m) (a n : Nat) : Memory.wf (Memory.zero m a n) :=
  ⟨List.Pairwise.filter _ h.1, fun c hc => h.2 c (List.mem_of_mem_filter hc)⟩

theorem Memory.setBytes_wf {m : List Host.Cell} (h : Memory.wf m) (a : Addr) (l : List Byte) :
    Memory.wf (Memory.setBytes m a l) := by
  induction l generalizing m a with
  | nil => exact h
  | cons b t ih => exact ih (Memory.set_wf h a.isLt b) (a + 1)

theorem State.writeFlit_wf {s : State} (h : Memory.wf s.mem) (a : Addr) (v : Flit) : Memory.wf (s.writeFlit a v).mem :=
  Memory.setBytes_wf h a _

theorem State.zeroFill_wf {s : State} (h : Memory.wf s.mem) (a : Addr) (n : Nat) : Memory.wf (s.zeroFill a n).mem :=
  Memory.zero_wf h _ n

theorem Memory.reset_wf : Memory.wf State.reset.mem := ⟨List.Pairwise.nil, fun _ h => nomatch h⟩

/-- Two memories in canonical form that read alike are equal. -/
theorem Memory.ext_of_get {m m' : List Host.Cell} (h : Memory.wf m) (h' : Memory.wf m')
    (he : ∀ a, Memory.get m a = Memory.get m' a) : m = m' := by
  induction m generalizing m' with
  | nil =>
    cases m' with
    | nil => rfl
    | cons c t =>
      exfalso
      have := he c.1
      simp [Memory.get, Tab.get] at this
      exact (h'.2 c List.mem_cons_self).2 this.symm
  | cons c t ih =>
    obtain ⟨a, b⟩ := c
    have hc := h.2 (a, b) List.mem_cons_self
    have hp := List.pairwise_cons.mp h.1
    have low : ∀ {m : List Host.Cell} {x : Nat}, (∀ c ∈ m, x < c.1) → Memory.get m x = unlistedByte := by
      intro m x hx
      induction m with
      | nil => rfl
      | cons d r ihr =>
        obtain ⟨p, q⟩ := d
        have h1 := hx (p, q) List.mem_cons_self
        have h2 : p ≠ x := by simp at h1; omega
        simp only [Memory.get, Tab.get, h2, if_false]
        exact ihr (fun c hc => hx c (List.mem_cons_of_mem _ hc))
    cases m' with
    | nil =>
      exfalso
      have := he a
      simp [Memory.get, Tab.get] at this
      exact hc.2 this
    | cons c' t' =>
      obtain ⟨a', b'⟩ := c'
      have hc' := h'.2 (a', b') List.mem_cons_self
      have hp' := List.pairwise_cons.mp h'.1
      have hlt : ∀ {x : Nat}, x < a → Memory.get ((a, b) :: t) x = unlistedByte := fun hx => low (fun c hc => by
        rcases List.mem_cons.mp hc with rfl | hc
        · exact hx
        · exact Nat.lt_trans hx (hp.1 c hc))
      have hlt' : ∀ {x : Nat}, x < a' → Memory.get ((a', b') :: t') x = unlistedByte := fun hx => low (fun c hc => by
        rcases List.mem_cons.mp hc with rfl | hc
        · exact hx
        · exact Nat.lt_trans hx (hp'.1 c hc))
      have e1 : a = a' := by
        rcases Nat.lt_trichotomy a a' with hlt0 | heq | hgt
        · exfalso
          have := he a
          rw [hlt' hlt0] at this
          simp [Memory.get, Tab.get] at this
          exact hc.2 this
        · exact heq
        · exfalso
          have := he a'
          rw [hlt hgt] at this
          simp [Memory.get, Tab.get] at this
          exact hc'.2 this.symm
      subst e1
      have e2 : b = b' := by have := he a; simpa [Memory.get, Tab.get] using this
      subst e2
      congr 1
      refine ih ⟨hp.2, fun c hc => h.2 c (List.mem_cons_of_mem _ hc)⟩
        ⟨hp'.2, fun c hc => h'.2 c (List.mem_cons_of_mem _ hc)⟩ (fun x => ?_)
      by_cases hx : a = x
      · subst hx
        rw [low hp.1, low hp'.1]
      · have := he x
        simpa [Memory.get, Tab.get, hx] using this

end Sys2Proof.Machine
end

