-- ==== Sys2Proof/Laws/Closed.lean ====
section
/-! SUPPORT. What a command can do at all, said once: every command is a chain of a few primitive updates, so a property
that those keep is kept by the command. The properties are closed under the updates of one EQ (`ClosedEq`), of one free list
(`ClosedFl`), of one IQ (`ClosedIq`), or under all of them (`Closed`). -/

namespace Sys2Proof.Machine

/-- Kept by the recorded actions, the memory writes, the draws. -/
structure ClosedOut (P : State → Prop) : Prop where
  emit      : ∀ s e, P s → P (s.emit e)
  writeFlit : ∀ s a v, P s → P (s.writeFlit a v)
  drew      : ∀ s h n e, h.src = s.host.src → P s → P (s.drew h n e)
  draws     : ∀ (s : State) n, P s → P { s with draws := n }

/-- The fields of an ingress record that only the lifecycle commands write. -/
def IQ.fixed (q : IQ) : QState × BitVec 16 × Addr × Nat × Nat × Role × BitVec 3 × BitVec 3 × Nat × Option Nat × Bool × Qid :=
  (q.st, q.cntxtId, q.base, q.cap, q.esize, q.role, q.tmrIdx, q.pktcIdx, q.creditBatch, q.fl, q.fwd, q.tgt)

/-- The fields of a free-list record that only the lifecycle commands write. -/
def FL.fixed (f : FL) : QState × BitVec 16 × Addr × Nat × Nat := (f.st, f.cntxtId, f.base, f.cap, f.owner)

/-- The fields of an egress record that only the lifecycle commands write. -/
def EQ.fixed (e : EQ) : QState × BitVec 17 × Addr × Nat × Addr × Nat × Nat :=
  (e.st, e.cntxtId, e.base, e.cap, e.statAddr, e.iq, e.txMaps)

/-- Kept by what a command of EQ `j` may do to it. -/
structure ClosedEq (j : Nat) (P : State → Prop) : Prop extends ClosedOut P where
  setEq     : ∀ s e, e.fixed = (s.eq j).fixed → P s → P (s.setEq j e)
  setSrc    : ∀ s l, P s → P (s.setSrc j l)
  setPeerEq : ∀ s p, P s → P (s.setPeerEq j p)

/-- Kept by what a command of free list `j` may do to it. -/
structure ClosedFl (j : Nat) (P : State → Prop) : Prop extends ClosedOut P where
  setFl     : ∀ s f, f.fixed = (s.fl j).fixed → P s → P (s.setFl j f)
  setPeerFl : ∀ s p, P s → P (s.setPeerFl j p)

/-- Kept by what a command of IQ `j` may do to it. -/
structure ClosedIq (j : Nat) (P : State → Prop) : Prop extends ClosedOut P where
  setIq     : ∀ s q, q.fixed = (s.iq j).fixed → P s → P (s.setIq j q)
  setPeerIq : ∀ s p, P s → P (s.setPeerIq j p)

/-- A body that ends in a state with `P`, or raises a fault from one. -/
def Ran.Holds {α : Type} (P : State → Prop) (r : Ran α) : Prop :=
  match r with
  | .done _ s => P s
  | .raised s => ∃ u c q, P u ∧ s = u.raiseFault c q

theorem Ran.holds_done {α : Type} {P : State → Prop} {a : α} {s : State} (h : P s) : (Ran.done a s).Holds P := h

theorem Ran.holds_raise {α : Type} {P : State → Prop} {s : State} (c : FaultCode) (q : Sel) (h : P s) :
    (Ran.raise (α := α) s c q).Holds P := ⟨s, c, q, h, rfl⟩

theorem Ran.holds_bind {α β : Type} {P : State → Prop} {r : Ran α} {f : α → State → Ran β} (h : r.Holds P)
    (hf : ∀ a s, P s → (f a s).Holds P) : (r.bind f).Holds P := by
  cases r with
  | done a s => exact hf a s h
  | raised s => exact h

/-! ### Draws -/

section out
variable {P : State → Prop} (h : ClosedOut P) {s : State} (hs : P s)
include h hs

theorem ClosedOut.mapLoad (p : Packet) : P (s.mapLoad p).2 := h.drew _ _ _ _ rfl hs
theorem ClosedOut.freshCur : P s.freshCur.2 := h.draws _ _ hs
theorem ClosedOut.compact (p : Packet) : P (s.compact p).2 := h.drew _ _ _ _ rfl hs
theorem ClosedOut.mapCreate (c : Nat) : P (s.mapCreate c).2 := h.drew _ _ _ _ rfl hs
theorem ClosedOut.bufAlloc (c : Nat) : P (s.bufAlloc c).2 := h.drew _ _ _ _ rfl hs
theorem ClosedOut.bufMap (n : Nat) : P (s.bufMap n).2 := h.drew _ _ _ _ rfl hs
theorem ClosedOut.dmaAlloc (n e : Nat) : P (s.dmaAlloc n e).2 := h.drew _ _ _ _ rfl hs
theorem ClosedOut.peerCmd (r : PeerReq) : P (s.peerCmd r).2 := h.drew _ _ _ _ rfl hs

theorem ClosedOut.handshake (t : QType) (j : Nat) (r : PeerReq) : P (handshake t j r s).2 := by
  have := h.peerCmd hs r
  unfold Machine.handshake
  dsimp only
  split
  · exact this
  · exact h.emit _ _ this

theorem ClosedOut.releaseBufs (t : Tab FlSlot) : P (releaseBufs t s) := by
  induction t generalizing s with
  | nil => exact hs
  | cons c t ih =>
    unfold Machine.releaseBufs
    split
    · exact ih hs
    · exact ih (h.emit _ _ (h.emit _ _ hs))
    · exact ih (h.emit _ _ (h.emit _ _ hs))

theorem ClosedOut.releaseMaps (t : Tab Packet) : P (releaseMaps t s) := by
  induction t generalizing s with
  | nil => exact hs
  | cons c t ih => exact ih (h.emit _ _ (h.emit _ _ hs))

end out

/-! ### Free list -/

section fl
variable {P : State → Prop} {j : Nat} (h : ClosedFl j P) {s : State} (hs : P s)
include h hs

theorem ClosedFl.flPublish (k : Nat) (b : RxBuf) : P (flPublish j k b s) := h.setFl _ _ (by rfl) (h.writeFlit _ _ _ hs)
theorem ClosedFl.flMapFailed : P (flMapFailed j s) := h.setFl _ _ (by rfl) hs
theorem ClosedFl.flAllocFailed : P (flAllocFailed j s) := h.setFl _ _ (by rfl) hs

theorem ClosedFl.flRemap (k : Nat) : P (flRemap j k s).2 := by
  have := h.mapCreate hs (s.fl j).cls
  unfold Machine.flRemap
  dsimp only
  split
  · exact hs
  · split
    · exact h.setFl _ _ (by rfl) this
    · exact h.flMapFailed this

theorem ClosedFl.flFillFresh (k : Nat) : P (flFillFresh j k s).2 := by
  have h1 := h.flRemap hs k
  have h2 := h.bufAlloc h1 ((Machine.flRemap j k s).2.fl j).cls
  unfold Machine.flFillFresh
  dsimp only
  split
  · split
    · exact h.flAllocFailed h2
    · rename_i b _
      have h3 := h.bufMap h2 b
      split
      · exact h.flMapFailed (h.emit _ _ h3)
      · exact h.flPublish h3 _ _
  · exact h1

theorem ClosedFl.flDropRetained (k : Nat) (b : RxBuf) : P (flDropRetained j k b s) :=
  h.setFl _ _ (by rfl) (h.emit _ _ (h.emit _ _ hs))

theorem ClosedFl.fillSlot : P (fillSlot j s).2 := by
  unfold Machine.fillSlot
  dsimp only
  split
  · split
    · exact h.flPublish hs _ _
    · exact h.flFillFresh (h.flDropRetained hs _ _) _
  · exact h.flFillFresh hs _
  · exact h.flFillFresh hs _

theorem ClosedFl.flRefillLoop (k n : Nat) : P (flRefillLoop j k n s).2 := by
  induction k generalizing n s with
  | zero => exact hs
  | succ k ih =>
    unfold Machine.flRefillLoop
    dsimp only
    split
    · exact ih (h.setFl _ _ (by rfl) (h.fillSlot hs)) _
    · exact h.fillSlot hs

theorem ClosedFl.kdbFl (n : Nat) : P (s.kdbFl j n) := h.setPeerFl _ _ (h.emit _ _ hs)

theorem ClosedFl.flRing (n : Nat) : P (flRing j n s) := by
  induction n generalizing s with
  | zero => exact hs
  | succ n ih =>
    unfold Machine.flRing
    dsimp only
    split
    · exact hs
    · exact ih (h.setFl _ _ (by rfl) (h.kdbFl hs _))

theorem ClosedFl.flDoorbell (force : Bool) : P (flDoorbell j force s).2 := by
  unfold Machine.flDoorbell
  dsimp only
  split
  · exact hs
  · exact h.flRing (h.emit _ _ hs) _

theorem ClosedFl.flRefill (n : Nat) : P (flRefill j n s).2 := h.flDoorbell (h.flRefillLoop hs _ _) _

theorem ClosedFl.flTakeLoop (len n rem : Nat) (f : Frame) (taken : Nat) : (flTakeLoop j len n rem f taken s).Holds P := by
  induction n generalizing rem f taken s with
  | zero =>
    unfold Machine.flTakeLoop
    split
    · exact hs
    · exact Ran.holds_raise _ _ hs
  | succ n ih =>
    unfold Machine.flTakeLoop
    split
    · exact hs
    · split
      · dsimp only
        split
        · exact ih (h.setFl _ _ (by rfl) hs) _ _ _
        · exact ih (h.setFl _ _ (by rfl) (h.emit _ _ hs)) _ _ _
      · exact Ran.holds_raise _ _ hs
      · exact Ran.holds_raise _ _ hs

theorem ClosedFl.flTake (len : Nat) : (flTake j len s).Holds P := h.flTakeLoop hs _ _ _ _ _

end fl

/-! ### Egress -/

section eq
variable {P : State → Prop} {j : Nat} (h : ClosedEq j P) {s : State} (hs : P s)
include h hs

theorem ClosedEq.dequeue : P (s.dequeue j).2 := h.setSrc _ _ hs
theorem ClosedEq.peek : P (s.peek j).2 := h.setSrc _ _ hs

theorem ClosedEq.takePacket : P (takePacket j s).2 := by
  unfold Machine.takePacket
  split
  · exact h.setEq _ _ (by rfl) hs
  · exact h.dequeue hs

theorem ClosedEq.wflits (f : Nat) (l : List Flit) : P (wflits j f l s) := by
  induction l generalizing f s with
  | nil => exact hs
  | cons v t ih => exact ih (h.writeFlit _ _ _ hs) _

theorem ClosedEq.eqCommit (n m : Nat) : P (eqCommit j n m s) := h.setEq _ _ (by rfl) hs
theorem ClosedEq.eqMapCommit : P (eqMapCommit j s) := h.setEq _ _ (by rfl) hs
theorem ClosedEq.eqStats (f : EqStats → EqStats) : P (eqStats j f s) := h.setEq _ _ (by rfl) hs
theorem ClosedEq.sglConsume : P (sglConsume j s) := h.setEq _ _ (by rfl) hs
theorem ClosedEq.sglHold : P (sglHold j s) := h.setEq _ _ (by rfl) hs

theorem ClosedEq.eqHold (p : Option Packet) : P (eqHold j p s) := h.setEq _ _ (by rfl) hs
theorem ClosedEq.eqDrop (p : Packet) : P (eqDrop j p s) := h.eqStats (h.emit _ _ hs) _

theorem ClosedEq.sglRelease : P (sglRelease j s) := by
  unfold Machine.sglRelease
  dsimp only
  split
  · exact h.setEq _ _ (by rfl) (h.emit _ _ hs)
  · exact h.setEq _ _ (by rfl) hs

theorem ClosedEq.kdbEq (n : Nat) : P (s.kdbEq j n) := h.setPeerEq _ _ (h.emit _ _ hs)

theorem ClosedEq.eqDoorbell (force : Bool) : P (eqDoorbell j force s).2 := by
  unfold Machine.eqDoorbell
  dsimp only
  split
  · exact hs
  · exact h.setEq _ _ (by rfl) (h.kdbEq (h.emit _ _ hs) _)

theorem ClosedEq.writeFlush : P (writeFlush j s).2 := by
  unfold Machine.writeFlush
  dsimp only
  split
  · exact hs
  · exact h.setEq _ _ (by rfl) (h.eqCommit (h.wflits hs _ _) _ _)

theorem ClosedEq.stallFlush (b : Bool) : P (stallFlush j b s) := by
  have key : ∀ u, P u →
      P (if (u.eq j).flushOut = false ∧ 1 ≤ (u.eq j).avail then (Machine.writeFlush j u).2 else u) := fun u hu => by
    split
    · exact h.writeFlush hu
    · exact hu
  exact key _ (h.eqStats (h.setEq _ _ (by rfl) hs) _)

theorem ClosedEq.eqProgress : P (eqProgress j s) := by
  have h1 := h.setEq _ { s.eq j with flushOut := false } rfl hs
  unfold Machine.eqProgress
  dsimp only
  split
  · exact h.emit _ _ (h.setEq _ _ (by rfl) h1)
  · exact h1

theorem ClosedEq.sglRetry (p : Packet) : P (sglRetry j p s).s := by
  have h1 := h.mapLoad hs p
  unfold Machine.sglRetry
  dsimp only
  split
  · exact h.setEq _ _ (by rfl) h1
  · exact h.eqDrop h1 _
  · exact h1

theorem ClosedEq.sglBuildPkt (p : Packet) : P (sglBuildPkt j p s).s := by
  have h1 := h.mapLoad hs p
  unfold Machine.sglBuildPkt
  split
  · exact hs
  · dsimp only
    split
    · exact h.setEq _ _ (by rfl) h1
    · exact h1
    · have h2 := h.compact (h.eqStats h1 (fun c => { c with defrags := c.defrags + 1 })) p
      split
      · exact h.eqDrop h2 _
      · exact h.sglRetry h2 _

theorem ClosedEq.batchClear : P (batchClear j s) := h.draws _ _ (h.setEq s _ (by rfl) hs)

theorem ClosedEq.txpktsJoin : P (txpktsJoin j s) :=
  h.sglConsume (h.eqStats (h.setEq _ _ (by rfl) (h.eqMapCommit (h.wflits hs _ _))) _)

theorem ClosedEq.txpktsAdd : P (txpktsAdd j s).2 := by
  unfold Machine.txpktsAdd
  split
  · exact h.txpktsJoin hs
  · exact hs

theorem ClosedEq.txpktsFlush : P (txpktsFlush j s).2 := by
  unfold Machine.txpktsFlush
  dsimp only
  split
  · exact h.batchClear (h.eqStats (h.eqCommit (h.wflits hs _ _) _ _) _)
  · exact hs

omit h in
theorem reclaimable_holds : (reclaimable j s).Holds P := by
  unfold Machine.reclaimable
  dsimp only
  split
  · exact Ran.holds_raise _ _ hs
  · split
    · exact Ran.holds_raise _ _ hs
    · exact hs

theorem ClosedEq.mapReturn : P (mapReturn j s) := by
  unfold Machine.mapReturn
  dsimp only
  split
  · exact h.setEq _ _ (by rfl) hs
  · exact h.setEq _ _ (by rfl) (h.emit _ _ (h.emit _ _ hs))

theorem ClosedEq.mapReturns (k : Nat) : P (mapReturns j k s) := by
  induction k generalizing s with
  | zero => exact hs
  | succ k ih => exact ih (h.mapReturn hs)

theorem ClosedEq.reclaimOne : P (reclaimOne j s) := h.setEq _ _ (by rfl) (h.mapReturns hs _)

theorem ClosedEq.reclaimLoop (r m n got : Nat) : P (reclaimLoop j r m n got s).2 := by
  induction n generalizing got s with
  | zero => exact hs
  | succ n ih =>
    unfold Machine.reclaimLoop
    dsimp only
    split
    · exact ih (h.reclaimOne hs) _
    · exact hs

theorem ClosedEq.reclaim (a m : Nat) : (reclaim j a m s).Holds P := by
  refine Ran.holds_bind (reclaimable_holds hs) fun r s hs => ?_
  split
  · exact hs
  · split
    · exact h.reclaimLoop hs _ _ _ _
    · exact Ran.holds_raise _ _ hs

theorem ClosedEq.sendSgl (l : List Flit) (n : Nat) (f : EqStats → EqStats) : P (sendSgl j l n f s) :=
  h.sglConsume (h.eqStats (h.eqCommit (h.eqMapCommit (h.wflits hs _ _)) _ _) _)

theorem ClosedEq.writePkt : P (writePkt j s).2 := by
  unfold Machine.writePkt
  dsimp only
  split
  · exact hs
  · exact h.sendSgl hs _ _ _

theorem ClosedEq.writeLso (l : Lso) : P (writeLso j l s).2 := by
  unfold Machine.writeLso
  dsimp only
  split
  · exact hs
  · exact h.sendSgl hs _ _ _

theorem ClosedEq.writeOne : P (writeOne j s).2 := by
  unfold Machine.writeOne
  split
  · exact h.writePkt hs
  · exact h.writeLso hs _

theorem ClosedEq.writeImm (p : Packet) : P (writeImm j p s).2 := by
  unfold Machine.writeImm
  dsimp only
  split
  · exact hs
  · dsimp only
    exact h.eqStats (h.emit _ _ (h.eqCommit (h.wflits hs _ _) _ _)) _

/-- The state a packet's turn of the transmit loop ends in. -/
def TxStep.state : TxStep → State
  | .dropped s | .coalesced s | .sent s | .stalled _ _ s => s

theorem ClosedEq.flushFirst : P (flushFirst j s) := by
  unfold Machine.flushFirst
  split
  · exact h.eqDoorbell (h.txpktsFlush hs) _
  · exact hs

theorem ClosedEq.txSingle (p : Packet) : P (txSingle j p s).state := by
  have h1 := h.writeOne (h.flushFirst hs)
  unfold Machine.txSingle
  dsimp only
  split
  · exact h1
  · exact h1

theorem ClosedEq.txBuilt (c : Bool) (p : Packet) : P (txBuilt j c p s).state := by
  unfold Machine.txBuilt
  dsimp only
  split
  · have h2 := h.txpktsAdd hs
    split
    · exact h2
    · exact h.txSingle h2 _
  · exact h.txSingle hs _

theorem ClosedEq.txSgl (c : Bool) (p : Packet) : P (txSgl j c p s).state := by
  have h1 := h.sglBuildPkt hs p
  unfold Machine.txSgl
  dsimp only
  split
  · exact h.txBuilt h1 _ _
  · split
    · exact h1
    · exact h1

theorem ClosedEq.txOne (p : Packet) : P (txOne j p s).state := by
  have h1 := h.writeImm (h.peek hs) p
  unfold Machine.txOne
  dsimp only
  split
  · split
    · split
      · exact h1
      · exact h1
    · exact h.txSgl (h.peek hs) _ _
  · exact h.eqDrop hs _

theorem ClosedEq.txLoop (limit n : Nat) (p : Option Packet) (k : Nat) : P (txLoop j limit n p k s).s := by
  induction n generalizing p k s with
  | zero =>
    cases p with
    | none => exact hs
    | some p => exact h.eqHold hs _
  | succ n ih =>
    cases p with
    | none => exact hs
    | some p =>
      have h1 := h.txOne hs p
      unfold Machine.txLoop
      split
      · split
        · rename_i e; rw [e] at h1; exact ih (h.dequeue h1) _ _
        · rename_i e; rw [e] at h1; exact ih (h.dequeue h1) _ _
        · rename_i e; rw [e] at h1; exact ih (h.dequeue (h.eqDoorbell h1 _)) _ _
        · rename_i e; rw [e] at h1; exact h.eqHold (h.sglRelease h1) _
      · exact h.eqHold hs _

theorem ClosedEq.txEnd (b : Option Bool) : P (txEnd j b s) := by
  have h1 := h.txpktsFlush hs
  unfold Machine.txEnd
  dsimp only
  split
  · exact h.eqDoorbell (h.stallFlush h1 _) _
  · exact h.eqDoorbell (h.setEq _ _ (by rfl) h1) _

theorem ClosedEq.txKeep (p : Packet) : P (txKeep j p s) := by
  unfold Machine.txKeep
  split
  · exact h.eqHold (h.sglRelease hs) _
  · exact hs

theorem ClosedEq.txFirst : P (txFirst j s).s := by
  have h1 := h.txBuilt (h.peek hs) (coalescing j s) (s.eq j).sgl.pkt
  unfold Machine.txFirst
  dsimp only
  split
  · split
    · split
      · rename_i e; rw [e] at h1; exact h1
      · rename_i e; rw [e] at h1; exact h1
      · rename_i e; rw [e] at h1; exact h.eqDoorbell h1 _
      · rename_i e; rw [e] at h1; exact h.txKeep h1 _
    · exact h.eqDrop (h.sglRelease hs) _
  · exact hs

omit hs in
theorem ClosedEq.txPackets (limit : Nat) {e : TxEnd} (he : P e.s) : P (txPackets j limit e).s := by
  unfold Machine.txPackets
  split
  · exact he
  · exact h.txLoop (h.takePacket he) _ _ _ _

theorem ClosedEq.txRun (limit : Nat) : P (txRun j limit s).2 := h.txEnd (h.txPackets limit (h.txFirst hs)) _

theorem ClosedEq.txReclaim : (txReclaim j s).Holds P := by
  unfold Machine.txReclaim
  split
  · exact Ran.holds_bind (h.reclaim hs _ _) fun _ _ h => h
  · exact hs

theorem ClosedEq.discardMap : P (discardMap j s) := by
  unfold Machine.discardMap
  dsimp only
  split
  · exact h.setEq _ _ (by rfl) hs
  · exact h.setEq _ _ (by rfl) (h.emit _ _ (h.emit _ _ hs))

theorem ClosedEq.discardMaps (k : Nat) : P (discardMaps j k s) := by
  induction k generalizing s with
  | zero => exact hs
  | succ k ih => exact ih (h.discardMap hs)

theorem ClosedEq.discardBatch : P (discardBatch j s) := h.setEq _ _ (by rfl) (h.discardMaps hs _)

theorem ClosedEq.discardSgl : P (discardSgl j s) := by
  unfold Machine.discardSgl
  split
  · exact h.emit _ _ (h.sglRelease hs)
  · exact hs

theorem ClosedEq.discardHeld : P (discardHeld j s) := by
  unfold Machine.discardHeld
  split
  · exact hs
  · exact h.eqHold (h.emit _ _ hs) _

theorem ClosedEq.discardTx : P (discardTx j s) :=
  h.setEq _ _ (by rfl) (h.discardHeld (h.discardSgl (h.discardBatch hs)))

end eq

/-! ### Ingress -/

/-- Kept by everything the commands beside the lifecycle may do. -/
structure ClosedData (P : State → Prop) : Prop extends ClosedOut P where
  eq : ∀ j, ClosedEq j P
  fl : ∀ j, ClosedFl j P
  iq : ∀ j, ClosedIq j P

/-- Kept by everything a command may do. -/
structure Closed (P : State → Prop) : Prop extends ClosedData P where
  anyEq    : ∀ j s e, P s → P (s.setEq j e)
  anyFl    : ∀ j s f, P s → P (s.setFl j f)
  anyIq    : ∀ j s q, P s → P (s.setIq j q)
  setQmap  : ∀ s m, P s → P (s.setQmap m)
  zeroFill : ∀ s a n, P s → P (s.zeroFill a n)

section iq
variable {P : State → Prop} {j : Nat} (h : ClosedIq j P) {s : State} (hs : P s)
include h hs

theorem ClosedIq.gts : P (s.gts j) := h.setPeerIq _ _ (h.emit _ _ hs)
theorem ClosedIq.creditReturn : P (creditReturn j s) := h.setIq _ _ (by rfl) (h.gts hs)

theorem ClosedIq.consumed : P (consumed j s) := by
  have h1 := h.setIq _ { advance (s.iq j) with ncons := (advance (s.iq j)).ncons + 1 } (by unfold advance; split <;> rfl) hs
  unfold Machine.consumed
  dsimp only
  split
  · exact h.creditReturn h1
  · exact h1

end iq

/-- Kept by what the ingress commands call: the property may speak of records, as the laws do. -/
structure ClosedIngress (P : State → Prop) : Prop where
  emit     : ∀ s e, P s → P (s.emit e)
  progress : ∀ j s, P s → P (eqProgress j s)
  take     : ∀ j n s, P s → (flTake j n s).Holds P
  refill   : ∀ j n s, P s → P (flRefill j n s).2
  doorbell : ∀ j b s, P s → P (flDoorbell j b s).2
  svc      : ∀ j b s, P s → P (s.setIq j { s.iq j with svcReq := b })
  count    : ∀ j md s, P s → P (s.setIq j (rxCount md (s.iq j)))
  consume  : ∀ j s, P s → P (consumed j s)
  credit   : ∀ j s, P s → P (creditReturn j s)

theorem ClosedData.ingress {P : State → Prop} (h : ClosedData P) : ClosedIngress P where
  emit := h.emit
  progress j _ hs := (h.eq j).eqProgress hs
  take j n _ hs := (h.fl j).flTake hs n
  refill j n _ hs := (h.fl j).flRefill hs n
  doorbell j b _ hs := (h.fl j).flDoorbell hs b
  svc j _ _ hs := (h.iq j).setIq _ _ (by rfl) hs
  count j _ _ hs := (h.iq j).setIq _ _ (by rfl) hs
  consume j _ hs := (h.iq j).consumed hs
  credit j _ hs := (h.iq j).creditReturn hs

section ingress
variable {P : State → Prop} (h : ClosedIngress P) {s : State} (hs : P s)
include h hs

theorem ClosedIngress.egressProgress (j id : Nat) : (egressProgress j id s).Holds P := by
  unfold Machine.egressProgress
  split
  · exact Ran.holds_raise _ _ hs
  · split
    · exact h.progress _ _ hs
    · exact Ran.holds_raise _ _ hs

theorem ClosedIngress.rxFrame (j len : Nat) : (rxFrame j len s).Holds P := by
  unfold Machine.rxFrame
  split
  · exact Ran.holds_raise _ _ hs
  · exact Ran.holds_bind (h.take _ _ _ hs) fun r s hs => h.count _ _ _ (h.emit _ _ hs)

theorem ClosedIngress.dispatch (j : Nat) : (dispatch j s).Holds P := by
  unfold Machine.dispatch
  split
  · unfold dispatchRx
    dsimp only
    split
    · split
      · exact Ran.holds_raise _ _ hs
      · exact h.rxFrame hs _ _
    · split
      · split
        · exact h.egressProgress hs _ _
        · exact Ran.holds_raise _ _ hs
      · exact Ran.holds_raise _ _ hs
  · unfold dispatchFw
    split
    · exact Ran.holds_raise _ _ hs
    · split
      · exact h.emit _ _ hs
      · split
        · exact h.egressProgress hs _ _
        · exact Ran.holds_raise _ _ hs
  · unfold dispatchFwd
    split
    · exact Ran.holds_raise _ _ hs
    · split
      · exact Ran.holds_raise _ _ hs
      · split
        · exact h.svc _ _ _ hs
        · exact Ran.holds_raise _ _ hs

theorem ClosedIngress.consumeOne (j : Nat) : (consumeOne j s).Holds P :=
  Ran.holds_bind (h.dispatch hs j) fun _ _ hs => h.consume _ _ hs

theorem ClosedIngress.serviceLoop (j b n k : Nat) : (serviceLoop j b n k s).Holds P := by
  induction n generalizing k s with
  | zero => exact hs
  | succ n ih =>
    unfold Machine.serviceLoop
    split
    · exact hs
    · split
      · exact Ran.holds_bind (h.consumeOne hs j) fun _ _ hs => ih hs _
      · exact hs

theorem ClosedIngress.serviceEnd (j : Nat) (b : Bool) : P (serviceEnd j b s) := by
  have h1 := h.credit j _ hs
  have h2 : P (serviceRefill j (Machine.creditReturn j s)) := by
    unfold serviceRefill
    split
    · exact h.doorbell _ _ _ (h.refill _ _ _ h1)
    · exact h1
  unfold Machine.serviceEnd
  dsimp only
  split
  · exact h.svc _ _ _ h2
  · exact h2

end ingress

section all
variable {P : State → Prop} (h : Closed P) {s : State} (hs : P s)
include h hs

/-! ### Lifecycle -/

theorem Closed.setSt (t : QType) (j : Nat) (st : QState) : P (s.setSt t j st) := by
  cases t
  · exact h.anyIq j _ _ hs
  · exact h.anyFl j _ _ hs
  · exact h.anyEq j _ _ hs

theorem Closed.register (t : QType) (j : Nat) (id : BitVec 17) : P (register t j id s) := by
  have h1 := h.setQmap _ (Tab.put s.qmap id.toNat { type := t, index := j }) hs
  cases t
  · exact (h.iq j).setPeerIq _ _ (h.anyIq j _ _ h1)
  · exact (h.fl j).setPeerFl _ _ (h.anyFl j _ _ h1)
  · exact (h.eq j).setPeerEq _ _ (h.anyEq j _ _ h1)

theorem Closed.started (t : QType) (j : Nat) : P (started t j s).2 := by
  cases t
  · exact (h.iq j).creditReturn hs
  · exact (h.fl j).flDoorbell ((h.fl j).flRefill hs _) _
  · exact hs

theorem Closed.discardFor (t : QType) (j : Nat) : P (discardFor t j s) := by
  cases t
  · exact hs
  · exact hs
  · exact (h.eq j).discardTx hs

theorem Closed.disable (t : QType) (j : Nat) : P (disable t j s).2 := by
  unfold Machine.disable
  dsimp only
  have h1 : P (if s.qst t j = .run then Machine.discardFor t j
      (if s.qst t j = .run then Machine.handshake t j (.stop t (s.ctxId t j)) s else (.ok 0, s)).2
      else (if s.qst t j = .run then Machine.handshake t j (.stop t (s.ctxId t j)) s else (.ok 0, s)).2) := by
    by_cases hr : s.qst t j = .run
    · rw [if_pos hr, if_pos hr]; exact h.discardFor (h.handshake hs _ _ _) _ _
    · rw [if_neg hr, if_neg hr]; exact hs
  by_cases hr : (s.qst t j).registered = true
  · simp only [hr, if_true]; exact h.setQmap _ _ (h.handshake h1 _ _ _)
  · simp only [hr]; exact h1

theorem Closed.releaseAll (t : QType) (j : Nat) : P (releaseAll t j s) := by
  cases t
  · exact hs
  · exact h.anyIq _ _ _ (h.releaseBufs hs _)
  · show P (Machine.releaseMaps _ _)
    refine h.releaseMaps ?_ _
    split
    · exact (h.eq j).discardTx hs
    · exact hs

theorem Closed.forget (t : QType) (j : Nat) : P (forget t j s) := by
  have h1 := h.draws s (s.draws + 1) hs
  cases t
  · exact h.anyIq j _ _ h1
  · exact h.anyFl j _ _ h1
  · exact h.anyEq j _ _ h1

theorem Closed.teardown (t : QType) (j : Nat) : P (teardown t j s).2 :=
  h.forget (h.emit _ _ (h.releaseAll (h.disable hs t j) t j)) t j

end all

/-! ### A whole command -/

/-- A command that ran from a state with `P`: it ended with a result or with a fault. -/
def Ends (P : State → Prop) (t : State) : Prop :=
  (∃ u rc v, P u ∧ t = u.finish rc v) ∨ ∃ u c q, P u ∧ t = u.raiseFault c q

theorem ends_finish {P : State → Prop} {s : State} (rc : RC) (v : Nat) (h : P s) : Ends P (s.finish rc v) :=
  .inl ⟨s, rc, v, h, rfl⟩

theorem Ran.Holds.ends {α : Type} {P : State → Prop} {r : Ran α} (hr : r.Holds P) (f : α → RC × Nat) : Ends P (r.finish f) := by
  cases r with
  | done a s => exact ends_finish _ _ hr
  | raised s => exact .inr hr

theorem Closed.allocEnd {P : State → Prop} (h : Closed P) (t : QType) (j : Nat) (r : PeerReq) {s : State} (hs : P s) :
    Ends P (allocEnd t j r s) := by
  have h1 := h.handshake hs t j r
  unfold Machine.allocEnd
  dsimp only
  split
  · exact ends_finish _ _ h1
  · split
    · exact ends_finish _ _ (h.emit _ _ h1)
    · exact ends_finish _ _ (h.register h1 _ _ _)

/-- The commands on an EQ beside the lifecycle. -/
def Instr.isEgress : Instr → Bool
  | .iqCheck _ => false
  | .iqConsume _ => false
  | .iqCredit _ => false
  | .iqService _ _ => false
  | .flSelect _ _ => false
  | .flRefill _ _ => false
  | .flTake _ _ => false
  | .flDoorbell _ _ => false
  | .eqTx _ _ => true
  | .eqWrPkt _ => true
  | .eqWrLso _ => true
  | .eqWrImm _ => true
  | .eqWrFlush _ => true
  | .eqDoorbell _ _ => true
  | .eqReclaimable _ => true
  | .eqReclaim _ _ _ => true
  | .sglBuild _ => true
  | .sglWrite _ _ => true
  | .txpktsAdd _ => true
  | .txpktsFlush _ => true
  | .qAllocIq _ _ _ _ _ _ _ _ => false
  | .qAllocFl _ _ _ => false
  | .qAllocEq _ _ _ => false
  | .qStart _ _ => false
  | .qStop _ _ => false
  | .qFree _ _ => false
  | .qTeardown _ _ => false

/-- The commands on a free list beside the lifecycle. -/
def Instr.isFreeList : Instr → Bool
  | .iqCheck _ => false
  | .iqConsume _ => false
  | .iqCredit _ => false
  | .iqService _ _ => false
  | .flSelect _ _ => true
  | .flRefill _ _ => true
  | .flTake _ _ => true
  | .flDoorbell _ _ => true
  | .eqTx _ _ => false
  | .eqWrPkt _ => false
  | .eqWrLso _ => false
  | .eqWrImm _ => false
  | .eqWrFlush _ => false
  | .eqDoorbell _ _ => false
  | .eqReclaimable _ => false
  | .eqReclaim _ _ _ => false
  | .sglBuild _ => false
  | .sglWrite _ _ => false
  | .txpktsAdd _ => false
  | .txpktsFlush _ => false
  | .qAllocIq _ _ _ _ _ _ _ _ => false
  | .qAllocFl _ _ _ => false
  | .qAllocEq _ _ _ => false
  | .qStart _ _ => false
  | .qStop _ _ => false
  | .qFree _ _ => false
  | .qTeardown _ _ => false

/-- EQ_WR_IMM with the packet of the SGL register ends in a state `P` holds of, up to `RES`. -/
theorem ClosedEq.immHeld {P : State → Prop} {j : Nat} (h : ClosedEq j P) {s : State} (hs : P s) : Ends P (immHeld j s) := by
  unfold Machine.immHeld
  dsimp only
  split
  · split
    · exact ends_finish _ _ hs
    · exact ends_finish _ _ (h.writeImm (h.sglRelease hs) _)
  · exact ends_finish _ _ hs

/-- A command on an EQ does nothing but update that EQ, its source and PEER's view of it, write memory and call HOST. -/
theorem exec_ends_eq {P : State → Prop} {i : Instr} (hi : Instr.isEgress i = true) (h : ClosedEq i.qid.toNat P) {s : State}
    (hs : P s) : ∃ t, exec i s = .next t ∧ Ends P t := by
  have bad : Ends P s.badCmd := ends_finish _ _ hs
  cases i with
  | iqCheck q => cases hi
  | iqConsume q => cases hi
  | iqCredit q => cases hi
  | iqService q b => cases hi
  | flSelect q m => cases hi
  | flRefill q n => cases hi
  | flTake q n => cases hi
  | flDoorbell q b => cases hi
  | eqTx q l =>
    refine ⟨_, rfl, ?_⟩
    split
    · exact Ran.Holds.ends (Ran.holds_bind (h.txReclaim (h.setEq _ _ (by rfl) hs))
        fun r s hs => Ran.holds_done (h.txRun hs _)) _
    · exact bad
  | eqWrPkt q =>
    refine ⟨_, rfl, ?_⟩
    have h1 := h.writePkt hs
    split
    · unfold wrResult
      split
      · exact ends_finish _ _ (h.sglHold h1)
      · exact ends_finish _ _ h1
    · exact bad
  | eqWrLso q =>
    refine ⟨_, rfl, ?_⟩
    split
    · exact bad
    · rename_i l _
      have h1 := h.writeLso hs l
      split
      · unfold wrResult
        split
        · exact ends_finish _ _ (h.sglHold h1)
        · exact ends_finish _ _ h1
      · exact bad
  | eqWrImm q =>
    refine ⟨_, rfl, ?_⟩
    have h1 := h.takePacket hs
    split
    · split
      · exact h.immHeld hs
      dsimp only
      split
      · exact ends_finish _ _ h1
      · rename_i p _
        have h2 := h.writeImm h1 p
        split
        · split
          · exact ends_finish _ _ (h.eqHold h2 _)
          · exact ends_finish _ _ h2
        · exact ends_finish _ _ (h.eqHold h1 _)
    · exact bad
  | eqWrFlush q =>
    refine ⟨_, rfl, ?_⟩
    have h1 := h.writeFlush hs
    split
    · dsimp only
      split
      · exact ends_finish _ _ h1
      · exact ends_finish _ _ h1
    · exact bad
  | eqDoorbell q b =>
    refine ⟨_, rfl, ?_⟩
    split
    · exact ends_finish _ _ (h.eqDoorbell hs _)
    · exact bad
  | eqReclaimable q =>
    refine ⟨_, rfl, ?_⟩
    split
    · exact Ran.Holds.ends (reclaimable_holds hs) _
    · exact bad
  | eqReclaim q a b =>
    refine ⟨_, rfl, ?_⟩
    split
    · exact Ran.Holds.ends (h.reclaim hs _ _) _
    · exact bad
  | sglBuild q =>
    refine ⟨_, rfl, ?_⟩
    have h1 := h.takePacket hs
    split
    · dsimp only
      split
      · exact ends_finish _ _ h1
      · rename_i p _
        have h2 := h.sglBuildPkt h1 p
        split
        · exact ends_finish _ _ h2
        · split
          · exact ends_finish _ _ (h.eqHold h2 _)
          · exact ends_finish _ _ h2
    · exact bad
  | sglWrite q f =>
    refine ⟨_, rfl, ?_⟩
    split
    · exact ends_finish _ _ (h.wflits hs _ _)
    · exact bad
  | txpktsAdd q =>
    refine ⟨_, rfl, ?_⟩
    have h1 := h.txpktsAdd hs
    split
    · dsimp only
      split
      · exact ends_finish _ _ h1
      · exact ends_finish _ _ h1
    · exact bad
  | txpktsFlush q =>
    refine ⟨_, rfl, ?_⟩
    split
    · exact ends_finish _ _ (h.txpktsFlush hs)
    · exact bad
  | qAllocIq q role tmr pktc esize fwd capM1 tgt => cases hi
  | qAllocFl q capM1 iq => cases hi
  | qAllocEq q capM1 iq => cases hi
  | qStart q t => cases hi
  | qStop q t => cases hi
  | qFree q t => cases hi
  | qTeardown q t => cases hi

/-- A command on a free list does nothing but update that list and PEER's view of it, write memory and call HOST. -/
theorem exec_ends_fl {P : State → Prop} {i : Instr} (hi : Instr.isFreeList i = true) (h : ClosedFl i.qid.toNat P) {s : State}
    (hs : P s) : ∃ t, exec i s = .next t ∧ Ends P t := by
  have bad : Ends P s.badCmd := ends_finish _ _ hs
  cases i with
  | iqCheck q => cases hi
  | iqConsume q => cases hi
  | iqCredit q => cases hi
  | iqService q b => cases hi
  | flSelect q m =>
    refine ⟨_, rfl, ?_⟩
    split
    · exact bad
    · exact ends_finish _ _ (h.setFl _ _ (by rfl) hs)
  | flRefill q n =>
    refine ⟨_, rfl, ?_⟩
    split
    · exact ends_finish _ _ (h.flRefill hs _)
    · exact bad
  | flTake q n =>
    refine ⟨_, rfl, ?_⟩
    split
    · exact Ran.Holds.ends (Ran.holds_bind (h.flTake hs _) fun r s hs => Ran.holds_done (h.emit _ _ hs)) _
    · exact bad
  | flDoorbell q b =>
    refine ⟨_, rfl, ?_⟩
    split
    · exact ends_finish _ _ (h.flDoorbell hs _)
    · exact bad
  | eqTx q l => cases hi
  | eqWrPkt q => cases hi
  | eqWrLso q => cases hi
  | eqWrImm q => cases hi
  | eqWrFlush q => cases hi
  | eqDoorbell q b => cases hi
  | eqReclaimable q => cases hi
  | eqReclaim q a b => cases hi
  | sglBuild q => cases hi
  | sglWrite q f => cases hi
  | txpktsAdd q => cases hi
  | txpktsFlush q => cases hi
  | qAllocIq q role tmr pktc esize fwd capM1 tgt => cases hi
  | qAllocFl q capM1 iq => cases hi
  | qAllocEq q capM1 iq => cases hi
  | qStart q t => cases hi
  | qStop q t => cases hi
  | qFree q t => cases hi
  | qTeardown q t => cases hi

/-- The lifecycle commands. -/
def Instr.isLifecycle : Instr → Bool
  | .iqCheck _ => false
  | .iqConsume _ => false
  | .iqCredit _ => false
  | .iqService _ _ => false
  | .flSelect _ _ => false
  | .flRefill _ _ => false
  | .flTake _ _ => false
  | .flDoorbell _ _ => false
  | .eqTx _ _ => false
  | .eqWrPkt _ => false
  | .eqWrLso _ => false
  | .eqWrImm _ => false
  | .eqWrFlush _ => false
  | .eqDoorbell _ _ => false
  | .eqReclaimable _ => false
  | .eqReclaim _ _ _ => false
  | .sglBuild _ => false
  | .sglWrite _ _ => false
  | .txpktsAdd _ => false
  | .txpktsFlush _ => false
  | .qAllocIq _ _ _ _ _ _ _ _ => true
  | .qAllocFl _ _ _ => true
  | .qAllocEq _ _ _ => true
  | .qStart _ _ => true
  | .qStop _ _ => true
  | .qFree _ _ => true
  | .qTeardown _ _ => true

/-- The two commands that consume entries do nothing but what they call. -/
theorem iqConsume_ends {P : State → Prop} (h : ClosedIngress P) (q : Qid) {s : State} (hs : P s) :
    ∃ t, exec (.iqConsume q) s = .next t ∧ Ends P t := by
  refine ⟨_, rfl, ?_⟩
  split
  · split
    · exact Ran.Holds.ends (h.consumeOne hs _) _
    · exact ends_finish _ _ hs
  · exact ends_finish _ _ hs

theorem iqService_ends {P : State → Prop} (h : ClosedIngress P) (q : Qid) (b : BitVec 32) {s : State} (hs : P s) :
    ∃ t, exec (.iqService q b) s = .next t ∧ Ends P t := by
  refine ⟨_, rfl, ?_⟩
  split
  · exact Ran.Holds.ends (Ran.holds_bind (h.serviceLoop hs _ _ _ _) fun r s hs => Ran.holds_done (h.serviceEnd hs _ _)) _
  · exact ends_finish _ _ hs

/-- A command beside the lifecycle writes no field of a record that the lifecycle commands write, and not `QMAP`. -/
theorem exec_ends_data {P : State → Prop} {i : Instr} (hi : Instr.isLifecycle i = false) (h : ClosedData P) {s : State}
    (hs : P s) : ∃ t, exec i s = .next t ∧ Ends P t := by
  have bad : Ends P s.badCmd := ends_finish _ _ hs
  cases i with
  | iqCheck q =>
    refine ⟨_, rfl, ?_⟩
    split
    · split
      · exact ends_finish _ _ hs
      · exact ends_finish _ _ hs
    · exact bad
  | iqConsume q => exact iqConsume_ends h.ingress q hs
  | iqCredit q =>
    refine ⟨_, rfl, ?_⟩
    split
    · exact ends_finish _ _ ((h.iq _).creditReturn hs)
    · exact bad
  | iqService q b => exact iqService_ends h.ingress q b hs
  | flSelect q m => exact exec_ends_fl rfl (h.fl _) hs
  | flRefill q n => exact exec_ends_fl rfl (h.fl _) hs
  | flTake q n => exact exec_ends_fl rfl (h.fl _) hs
  | flDoorbell q b => exact exec_ends_fl rfl (h.fl _) hs
  | eqTx q l => exact exec_ends_eq rfl (h.eq _) hs
  | eqWrPkt q => exact exec_ends_eq rfl (h.eq _) hs
  | eqWrLso q => exact exec_ends_eq rfl (h.eq _) hs
  | eqWrImm q => exact exec_ends_eq rfl (h.eq _) hs
  | eqWrFlush q => exact exec_ends_eq rfl (h.eq _) hs
  | eqDoorbell q b => exact exec_ends_eq rfl (h.eq _) hs
  | eqReclaimable q => exact exec_ends_eq rfl (h.eq _) hs
  | eqReclaim q a b => exact exec_ends_eq rfl (h.eq _) hs
  | sglBuild q => exact exec_ends_eq rfl (h.eq _) hs
  | sglWrite q f => exact exec_ends_eq rfl (h.eq _) hs
  | txpktsAdd q => exact exec_ends_eq rfl (h.eq _) hs
  | txpktsFlush q => exact exec_ends_eq rfl (h.eq _) hs
  | qAllocIq q role tmr pktc esize fwd capM1 tgt => cases hi
  | qAllocFl q capM1 iq => cases hi
  | qAllocEq q capM1 iq => cases hi
  | qStart q t => cases hi
  | qStop q t => cases hi
  | qFree q t => cases hi
  | qTeardown q t => cases hi

/-- Every command answers a next state, and is a chain of primitive updates that ends with one result or one fault (R44,
R500). -/
theorem exec_ends {P : State → Prop} (h : Closed P) (i : Instr) {s : State} (hs : P s) :
    ∃ t, exec i s = .next t ∧ Ends P t := by
  have bad : Ends P s.badCmd := ends_finish _ _ hs
  cases i with
  | iqCheck q => exact exec_ends_data rfl h.toClosedData hs
  | iqConsume q => exact exec_ends_data rfl h.toClosedData hs
  | iqCredit q => exact exec_ends_data rfl h.toClosedData hs
  | iqService q b => exact exec_ends_data rfl h.toClosedData hs
  | flSelect q m => exact exec_ends_data rfl h.toClosedData hs
  | flRefill q n => exact exec_ends_data rfl h.toClosedData hs
  | flTake q n => exact exec_ends_data rfl h.toClosedData hs
  | flDoorbell q b => exact exec_ends_data rfl h.toClosedData hs
  | eqTx q l => exact exec_ends_data rfl h.toClosedData hs
  | eqWrPkt q => exact exec_ends_data rfl h.toClosedData hs
  | eqWrLso q => exact exec_ends_data rfl h.toClosedData hs
  | eqWrImm q => exact exec_ends_data rfl h.toClosedData hs
  | eqWrFlush q => exact exec_ends_data rfl h.toClosedData hs
  | eqDoorbell q b => exact exec_ends_data rfl h.toClosedData hs
  | eqReclaimable q => exact exec_ends_data rfl h.toClosedData hs
  | eqReclaim q a b => exact exec_ends_data rfl h.toClosedData hs
  | sglBuild q => exact exec_ends_data rfl h.toClosedData hs
  | sglWrite q f => exact exec_ends_data rfl h.toClosedData hs
  | txpktsAdd q => exact exec_ends_data rfl h.toClosedData hs
  | txpktsFlush q => exact exec_ends_data rfl h.toClosedData hs
  | qAllocIq q role tmr pktc esize fwd capM1 tgt =>
    refine ⟨_, rfl, ?_⟩
    have h1 := h.dmaAlloc hs ((capM1.toNat + 1) * esize.bytes) esize.bytes
    split
    · dsimp only
      split
      · exact ends_finish _ _ h1
      · exact h.allocEnd _ _ _ (h.anyIq _ _ _ (h.zeroFill _ _ _ h1))
    · exact bad
  | qAllocFl q capM1 iq =>
    refine ⟨_, rfl, ?_⟩
    have h1 := h.dmaAlloc hs ((capM1.toNat + 1) * Config.flEsize) Config.flEsize
    split
    · dsimp only
      split
      · exact ends_finish _ _ h1
      · exact h.allocEnd _ _ _ (h.anyIq _ _ _ (h.anyFl _ _ _ (h.zeroFill _ _ _ h1)))
    · exact bad
  | qAllocEq q capM1 iq =>
    refine ⟨_, rfl, ?_⟩
    have h1 := h.dmaAlloc hs ((capM1.toNat + 1) * Config.eqEsize + Config.statusBytes) Config.eqEsize
    split
    · dsimp only
      split
      · exact ends_finish _ _ h1
      · exact h.allocEnd _ _ _ (h.anyEq _ _ _ (h.zeroFill _ _ _ (h.toClosedOut.freshCur h1)))
    · exact bad
  | qStart q t =>
    refine ⟨_, rfl, ?_⟩
    have h1 := h.handshake hs t q.toNat (.start t (s.ctxId t q.toNat))
    split
    · dsimp only
      split
      · exact ends_finish _ _ h1
      · exact ends_finish _ _ (h.started (h.setSt h1 _ _ _) _ _)
    · exact bad
  | qStop q t =>
    refine ⟨_, rfl, ?_⟩
    have h1 := h.handshake hs t q.toNat (.stop t (s.ctxId t q.toNat))
    split
    · dsimp only
      split
      · exact ends_finish _ _ h1
      · exact ends_finish _ _ (h.discardFor (h.setSt h1 _ _ _) _ _)
    · exact bad
  | qFree q t =>
    refine ⟨_, rfl, ?_⟩
    have h1 := h.handshake hs t q.toNat (.free t (s.ctxId t q.toNat))
    split
    · dsimp only
      split
      · exact ends_finish _ _ h1
      · exact ends_finish _ _ (h.setSt (h.setQmap _ _ h1) _ _ _)
    · exact bad
  | qTeardown q t =>
    refine ⟨_, rfl, ?_⟩
    split
    · exact ends_finish _ _ hs
    · split
      · exact ends_finish _ _ (h.teardown hs _ _)
      · exact bad

/-- A property that every primitive update keeps, the writing of a result and the raising of a fault among them. -/
structure ClosedCmd (P : State → Prop) : Prop extends Closed P where
  finish : ∀ s rc v, P s → P (s.finish rc v)
  raise  : ∀ s c q, P s → P (s.raiseFault c q)

/-- What one command keeps: every property its primitive updates keep. -/
theorem exec_keeps {P : State → Prop} (h : ClosedCmd P) (i : Instr) {s : State} (hs : P s) :
    ∃ t, exec i s = .next t ∧ P t := by
  obtain ⟨t, e, ⟨u, rc, v, hu, rfl⟩ | ⟨u, c, q, hu, rfl⟩⟩ := exec_ends h.toClosed i hs
  · exact ⟨_, e, h.finish _ _ _ hu⟩
  · exact ⟨_, e, h.raise _ _ _ hu⟩

/-- The step of a command word keeps what every command keeps. -/
theorem runCommand_keeps {P : State → Prop} (h : ClosedCmd P) (w : CmdWord) {s : State} (hs : P s) :
    ∃ t, runCommand w s = .next t ∧ P t := by
  unfold runCommand
  split
  · exact ⟨_, rfl, h.finish _ _ _ hs⟩
  · split
    · exact ⟨_, rfl, h.finish _ _ _ hs⟩
    · exact exec_keeps h _ hs

end Sys2Proof.Machine
end

