-- ==== Sys2Proof/Laws/Frames.lean ====
section
/-! SUPPORT. Frames: what the updates of one queue leave alone, as properties closed under them. -/

namespace Sys2Proof.Machine

theorem Untouched.refl (ty : QType) (j : Nat) (s : State) : Untouched ty j s s :=
  ⟨rfl, fun _ _ => rfl, fun _ _ => rfl, fun _ _ => rfl, fun _ _ => rfl, fun _ _ => rfl, fun _ _ => rfl, fun _ _ => rfl,
    rfl, rfl⟩

theorem Untouched.trans {ty : QType} {j : Nat} {s t u : State} (h : Untouched ty j s t) (h' : Untouched ty j t u) :
    Untouched ty j s u where
  fault := h'.fault.trans h.fault
  iqs k hk := (h'.iqs k hk).trans (h.iqs k hk)
  fls k hk := (h'.fls k hk).trans (h.fls k hk)
  eqs k hk := (h'.eqs k hk).trans (h.eqs k hk)
  peerIq k hk := (h'.peerIq k hk).trans (h.peerIq k hk)
  peerFl k hk := (h'.peerFl k hk).trans (h.peerFl k hk)
  peerEq k hk := (h'.peerEq k hk).trans (h.peerEq k hk)
  src k hk := (h'.src k hk).trans (h.src k hk)
  cfg := h'.cfg.trans h.cfg
  inbox := h'.inbox.trans h.inbox

theorem Untouched.finish {ty : QType} {j : Nat} {s t : State} (h : Untouched ty j s t) (rc : RC) (v : Nat) :
    Untouched ty j s (t.finish rc v) := ⟨h.fault, h.iqs, h.fls, h.eqs, h.peerIq, h.peerFl, h.peerEq, h.src, h.cfg, h.inbox⟩

/-- Updates that touch no record, no PEER view and no source keep the frame. -/
theorem untouched_out (ty : QType) (j : Nat) (s : State) : ClosedOut (Untouched ty j s) where
  emit _ _ h := h.trans ⟨rfl, fun _ _ => rfl, fun _ _ => rfl, fun _ _ => rfl, fun _ _ => rfl, fun _ _ => rfl,
    fun _ _ => rfl, fun _ _ => rfl, rfl, rfl⟩
  writeFlit _ _ _ h := h.trans ⟨rfl, fun _ _ => rfl, fun _ _ => rfl, fun _ _ => rfl, fun _ _ => rfl, fun _ _ => rfl,
    fun _ _ => rfl, fun _ _ => rfl, rfl, rfl⟩
  drew _ _ _ _ he h := h.trans ⟨rfl, fun _ _ => rfl, fun _ _ => rfl, fun _ _ => rfl, fun _ _ => rfl, fun _ _ => rfl,
    fun _ _ => rfl, fun k _ => congrArg (fun t => Tab.get [] t k) he, rfl, rfl⟩
  draws _ _ h := h.trans ⟨rfl, fun _ _ => rfl, fun _ _ => rfl, fun _ _ => rfl, fun _ _ => rfl, fun _ _ => rfl,
    fun _ _ => rfl, fun _ _ => rfl, rfl, rfl⟩

theorem untouched_eq (j : Nat) (s : State) : ClosedEq j (Untouched .eq j s) where
  toClosedOut := untouched_out .eq j s
  setEq _ e _ h := h.trans ⟨rfl, fun _ _ => rfl, fun _ _ => rfl, fun _ hk => State.setEq_ne _ e (hk.resolve_left (by simp)),
    fun _ _ => rfl, fun _ _ => rfl, fun _ _ => rfl, fun _ _ => rfl, rfl, rfl⟩
  setSrc _ l h := h.trans ⟨rfl, fun _ _ => rfl, fun _ _ => rfl, fun _ _ => rfl, fun _ _ => rfl, fun _ _ => rfl,
    fun _ _ => rfl, fun _ hk => by rw [State.setSrc_get, if_neg (Ne.symm (hk.resolve_left (by simp)))], rfl, rfl⟩
  setPeerEq _ p h := h.trans ⟨rfl, fun _ _ => rfl, fun _ _ => rfl, fun _ _ => rfl, fun _ _ => rfl, fun _ _ => rfl,
    fun _ hk => by rw [State.setPeerEq_get, if_neg (Ne.symm (hk.resolve_left (by simp)))], fun _ _ => rfl, rfl, rfl⟩

theorem untouched_fl (j : Nat) (s : State) : ClosedFl j (Untouched .fl j s) where
  toClosedOut := untouched_out .fl j s
  setFl _ e _ h := h.trans ⟨rfl, fun _ _ => rfl, fun _ hk => State.setFl_ne _ e (hk.resolve_left (by simp)), fun _ _ => rfl,
    fun _ _ => rfl, fun _ _ => rfl, fun _ _ => rfl, fun _ _ => rfl, rfl, rfl⟩
  setPeerFl _ p h := h.trans ⟨rfl, fun _ _ => rfl, fun _ _ => rfl, fun _ _ => rfl, fun _ _ => rfl,
    fun _ hk => by rw [State.setPeerFl_get, if_neg (Ne.symm (hk.resolve_left (by simp)))], fun _ _ => rfl, fun _ _ => rfl,
    rfl, rfl⟩

theorem untouched_iq (j : Nat) (s : State) : ClosedIq j (Untouched .iq j s) where
  toClosedOut := untouched_out .iq j s
  setIq _ e _ h := h.trans ⟨rfl, fun _ hk => State.setIq_ne _ e (hk.resolve_left (by simp)), fun _ _ => rfl, fun _ _ => rfl,
    fun _ _ => rfl, fun _ _ => rfl, fun _ _ => rfl, fun _ _ => rfl, rfl, rfl⟩
  setPeerIq _ p h := h.trans ⟨rfl, fun _ _ => rfl, fun _ _ => rfl, fun _ _ => rfl,
    fun _ hk => by rw [State.setPeerIq_get, if_neg (Ne.symm (hk.resolve_left (by simp)))], fun _ _ => rfl, fun _ _ => rfl,
    fun _ _ => rfl, rfl, rfl⟩

/-- A field of the state that no update of one queue writes keeps its value: `QMAP` and `RES`. -/
theorem keptEq {α : Type} (f : State → α) (v : α) (j : Nat)
    (h1 : ∀ s e, f (s.emit e) = f s) (h2 : ∀ s a w, f (s.writeFlit a w) = f s) (h3 : ∀ s h n e, f (s.drew h n e) = f s)
    (h4 : ∀ (s : State) n, f { s with draws := n } = f s) (h5 : ∀ s e, f (s.setEq j e) = f s)
    (h6 : ∀ s l, f (s.setSrc j l) = f s) (h7 : ∀ s p, f (s.setPeerEq j p) = f s) : ClosedEq j (fun t => f t = v) where
  emit _ _ h := (h1 _ _).trans h
  writeFlit _ _ _ h := (h2 _ _ _).trans h
  drew _ _ _ _ _ h := (h3 _ _ _ _).trans h
  draws _ _ h := (h4 _ _).trans h
  setEq _ _ _ h := (h5 _ _).trans h
  setSrc _ _ h := (h6 _ _).trans h
  setPeerEq _ _ h := (h7 _ _).trans h

theorem qmap_eq (j : Nat) (m : Tab Sel) : ClosedEq j (fun t => t.qmap = m) :=
  keptEq State.qmap m j (fun _ _ => rfl) (fun _ _ _ => rfl) (fun _ _ _ _ => rfl) (fun _ _ => rfl) (fun _ _ => rfl)
    (fun _ _ => rfl) (fun _ _ => rfl)

theorem res_eq (j : Nat) (r : Res) : ClosedEq j (fun t => t.res = r) :=
  keptEq State.res r j (fun _ _ => rfl) (fun _ _ _ => rfl) (fun _ _ _ _ => rfl) (fun _ _ => rfl) (fun _ _ => rfl)
    (fun _ _ => rfl) (fun _ _ => rfl)

theorem qmap_fl (j : Nat) (m : Tab Sel) : ClosedFl j (fun t => t.qmap = m) where
  emit _ _ h := h
  writeFlit _ _ _ h := h
  drew _ _ _ _ _ h := h
  draws _ _ h := h
  setFl _ _ _ h := h
  setPeerFl _ _ h := h

theorem res_fl (j : Nat) (r : Res) : ClosedFl j (fun t => t.res = r) where
  emit _ _ h := h
  writeFlit _ _ _ h := h
  drew _ _ _ _ _ h := h
  draws _ _ h := h
  setFl _ _ _ h := h
  setPeerFl _ _ h := h

theorem qmap_iq (j : Nat) (m : Tab Sel) : ClosedIq j (fun t => t.qmap = m) where
  emit _ _ h := h
  writeFlit _ _ _ h := h
  drew _ _ _ _ _ h := h
  draws _ _ h := h
  setIq _ _ _ h := h
  setPeerIq _ _ h := h

/-- Two closed properties together. -/
theorem ClosedOut.and {P Q : State → Prop} (h : ClosedOut P) (h' : ClosedOut Q) : ClosedOut (fun s => P s ∧ Q s) where
  emit _ _ hs := ⟨h.emit _ _ hs.1, h'.emit _ _ hs.2⟩
  writeFlit _ _ _ hs := ⟨h.writeFlit _ _ _ hs.1, h'.writeFlit _ _ _ hs.2⟩
  drew _ _ _ _ he hs := ⟨h.drew _ _ _ _ he hs.1, h'.drew _ _ _ _ he hs.2⟩
  draws _ _ hs := ⟨h.draws _ _ hs.1, h'.draws _ _ hs.2⟩

theorem ClosedEq.and {P Q : State → Prop} {j : Nat} (h : ClosedEq j P) (h' : ClosedEq j Q) :
    ClosedEq j (fun s => P s ∧ Q s) where
  toClosedOut := h.toClosedOut.and h'.toClosedOut
  setEq _ _ e hs := ⟨h.setEq _ _ e hs.1, h'.setEq _ _ e hs.2⟩
  setSrc _ _ hs := ⟨h.setSrc _ _ hs.1, h'.setSrc _ _ hs.2⟩
  setPeerEq _ _ hs := ⟨h.setPeerEq _ _ hs.1, h'.setPeerEq _ _ hs.2⟩

theorem ClosedFl.and {P Q : State → Prop} {j : Nat} (h : ClosedFl j P) (h' : ClosedFl j Q) :
    ClosedFl j (fun s => P s ∧ Q s) where
  toClosedOut := h.toClosedOut.and h'.toClosedOut
  setFl _ _ e hs := ⟨h.setFl _ _ e hs.1, h'.setFl _ _ e hs.2⟩
  setPeerFl _ _ hs := ⟨h.setPeerFl _ _ hs.1, h'.setPeerFl _ _ hs.2⟩

theorem ClosedIq.and {P Q : State → Prop} {j : Nat} (h : ClosedIq j P) (h' : ClosedIq j Q) :
    ClosedIq j (fun s => P s ∧ Q s) where
  toClosedOut := h.toClosedOut.and h'.toClosedOut
  setIq _ _ e hs := ⟨h.setIq _ _ e hs.1, h'.setIq _ _ e hs.2⟩
  setPeerIq _ _ hs := ⟨h.setPeerIq _ _ hs.1, h'.setPeerIq _ _ hs.2⟩

/-- The memory stays canonical under every update of a command. -/
theorem mem_wf_out : ClosedOut (fun s => Memory.wf s.mem) where
  emit _ _ h := h
  writeFlit _ a v h := State.writeFlit_wf h a v
  drew _ _ _ _ _ h := h
  draws _ _ h := h

theorem mem_wf_closed : ClosedCmd (fun s => Memory.wf s.mem) where
  toClosedOut := mem_wf_out
  eq _ := { toClosedOut := mem_wf_out, setEq := fun _ _ _ h => h, setSrc := fun _ _ h => h, setPeerEq := fun _ _ h => h }
  fl _ := { toClosedOut := mem_wf_out, setFl := fun _ _ _ h => h, setPeerFl := fun _ _ h => h }
  iq _ := { toClosedOut := mem_wf_out, setIq := fun _ _ _ h => h, setPeerIq := fun _ _ h => h }
  anyEq _ _ _ h := h
  anyFl _ _ _ h := h
  anyIq _ _ _ h := h
  setQmap _ _ h := h
  zeroFill _ a n h := State.zeroFill_wf h a n
  finish _ _ _ h := h
  raise _ _ _ h := h

/-- A property that only looks at memory, `FAULT`, `RES`, the parameters or the events is kept by every update of a record. -/
theorem ClosedOut.noRecords {P : State → Prop} (h : ClosedOut P)
    (hr : ∀ (s : State) q f e m pq pf pe hs, P s → P { s with
      iqs := q, fls := f, eqs := e, qmap := m, peerIq := pq, peerFl := pf, peerEq := pe, host := hs })
    (hz : ∀ s a n, P s → P (s.zeroFill a n)) : Closed P where
  toClosedOut := h
  eq _ := { h with
    setEq := fun s _ _ hs => hr s s.iqs s.fls _ s.qmap s.peerIq s.peerFl s.peerEq s.host hs
    setSrc := fun s _ hs => hr s s.iqs s.fls s.eqs s.qmap s.peerIq s.peerFl s.peerEq _ hs
    setPeerEq := fun s _ hs => hr s s.iqs s.fls s.eqs s.qmap s.peerIq s.peerFl _ s.host hs }
  fl _ := { h with
    setFl := fun s _ _ hs => hr s s.iqs _ s.eqs s.qmap s.peerIq s.peerFl s.peerEq s.host hs
    setPeerFl := fun s _ hs => hr s s.iqs s.fls s.eqs s.qmap s.peerIq _ s.peerEq s.host hs }
  iq _ := { h with
    setIq := fun s _ _ hs => hr s _ s.fls s.eqs s.qmap s.peerIq s.peerFl s.peerEq s.host hs
    setPeerIq := fun s _ hs => hr s s.iqs s.fls s.eqs s.qmap _ s.peerFl s.peerEq s.host hs }
  anyEq _ s _ hs := hr s s.iqs s.fls _ s.qmap s.peerIq s.peerFl s.peerEq s.host hs
  anyFl _ s _ hs := hr s s.iqs _ s.eqs s.qmap s.peerIq s.peerFl s.peerEq s.host hs
  anyIq _ s _ hs := hr s _ s.fls s.eqs s.qmap s.peerIq s.peerFl s.peerEq s.host hs
  setQmap s _ hs := hr s s.iqs s.fls s.eqs _ s.peerIq s.peerFl s.peerEq s.host hs
  zeroFill := hz

/-- What the commands beside the lifecycle leave alone in every queue: the fields only the lifecycle writes, `QMAP`, the
parameters and the pending events. -/
structure SameFixed (s t : State) : Prop where
  iq    : ∀ k, (t.iq k).fixed = (s.iq k).fixed
  fl    : ∀ k, (t.fl k).fixed = (s.fl k).fixed
  eq    : ∀ k, (t.eq k).fixed = (s.eq k).fixed
  qmap  : t.qmap = s.qmap
  cfg   : t.cfg = s.cfg
  inbox : t.inbox = s.inbox

theorem SameFixed.refl (s : State) : SameFixed s s := ⟨fun _ => rfl, fun _ => rfl, fun _ => rfl, rfl, rfl, rfl⟩

theorem sameFixed_closed (s : State) : ClosedData (SameFixed s) := by
  have o : ClosedOut (SameFixed s) := ⟨fun _ _ h => ⟨h.iq, h.fl, h.eq, h.qmap, h.cfg, h.inbox⟩,
    fun _ _ _ h => ⟨h.iq, h.fl, h.eq, h.qmap, h.cfg, h.inbox⟩, fun _ _ _ _ _ h => ⟨h.iq, h.fl, h.eq, h.qmap, h.cfg, h.inbox⟩,
    fun _ _ h => ⟨h.iq, h.fl, h.eq, h.qmap, h.cfg, h.inbox⟩⟩
  refine { toClosedOut := o, eq := fun j => ⟨o, ?_, ?_, ?_⟩, fl := fun j => ⟨o, ?_, ?_⟩, iq := fun j => ⟨o, ?_, ?_⟩ }
  · intro t e he h
    refine ⟨h.iq, h.fl, fun k => ?_, h.qmap, h.cfg, h.inbox⟩
    rw [State.setEq_get]
    split
    · rename_i hk; rw [he, hk]; exact h.eq k
    · exact h.eq k
  · exact fun t _ h => ⟨h.iq, h.fl, h.eq, h.qmap, h.cfg, h.inbox⟩
  · exact fun t _ h => ⟨h.iq, h.fl, h.eq, h.qmap, h.cfg, h.inbox⟩
  · intro t e he h
    refine ⟨h.iq, fun k => ?_, h.eq, h.qmap, h.cfg, h.inbox⟩
    rw [State.setFl_get]
    split
    · rename_i hk; rw [he, hk]; exact h.fl k
    · exact h.fl k
  · exact fun t _ h => ⟨h.iq, h.fl, h.eq, h.qmap, h.cfg, h.inbox⟩
  · intro t e he h
    refine ⟨fun k => ?_, h.fl, h.eq, h.qmap, h.cfg, h.inbox⟩
    rw [State.setIq_get]
    split
    · rename_i hk; rw [he, hk]; exact h.iq k
    · exact h.iq k
  · exact fun t _ h => ⟨h.iq, h.fl, h.eq, h.qmap, h.cfg, h.inbox⟩

/-- The commands beside the lifecycle keep those fields. -/
theorem exec_sameFixed {i : Instr} (hi : Instr.isLifecycle i = false) (s : State) :
    ∃ t, exec i s = .next t ∧ SameFixed s t := by
  obtain ⟨t, e, ⟨u, rc, v, h, rfl⟩ | ⟨u, c, q, h, rfl⟩⟩ := exec_ends_data hi (sameFixed_closed s) (SameFixed.refl s)
  · exact ⟨_, e, h.iq, h.fl, h.eq, h.qmap, h.cfg, h.inbox⟩
  · exact ⟨_, e, h.iq, h.fl, h.eq, h.qmap, h.cfg, h.inbox⟩

/-- Calls of HOST and PEER, and recorded actions, leave every record, memory, the events and the registers. -/
structure OnlyCalls (s t : State) : Prop where
  eq : ∃ h n o, t = { s with host := h, draws := n, out := s.out ++ o }

theorem OnlyCalls.refl (s : State) : OnlyCalls s s := ⟨s.host, s.draws, [], by simp⟩

theorem OnlyCalls.trans {s t u : State} (h : OnlyCalls s t) (h' : OnlyCalls t u) : OnlyCalls s u := by
  obtain ⟨h1, n1, o1, rfl⟩ := h.eq
  obtain ⟨h2, n2, o2, rfl⟩ := h'.eq
  exact ⟨h2, n2, o1 ++ o2, by simp⟩

theorem OnlyCalls.emit (s : State) (e : Effect) : OnlyCalls s (s.emit e) := ⟨s.host, s.draws, [e], rfl⟩
theorem OnlyCalls.drew (s : State) (h : HostIn) (n : Nat) (e : Effect) : OnlyCalls s (s.drew h n e) := ⟨h, n, [e], rfl⟩

section
variable {s t : State} (h : OnlyCalls s t)
include h

theorem OnlyCalls.iq (k : Nat) : t.iq k = s.iq k := by obtain ⟨_, _, _, rfl⟩ := h.eq; rfl
theorem OnlyCalls.fl (k : Nat) : t.fl k = s.fl k := by obtain ⟨_, _, _, rfl⟩ := h.eq; rfl
theorem OnlyCalls.eqr (k : Nat) : t.eq k = s.eq k := by obtain ⟨_, _, _, rfl⟩ := h.eq; rfl
theorem OnlyCalls.iqs : t.iqs = s.iqs := by obtain ⟨_, _, _, rfl⟩ := h.eq; rfl
theorem OnlyCalls.fls : t.fls = s.fls := by obtain ⟨_, _, _, rfl⟩ := h.eq; rfl
theorem OnlyCalls.eqs : t.eqs = s.eqs := by obtain ⟨_, _, _, rfl⟩ := h.eq; rfl
theorem OnlyCalls.qmap : t.qmap = s.qmap := by obtain ⟨_, _, _, rfl⟩ := h.eq; rfl
theorem OnlyCalls.mem : t.mem = s.mem := by obtain ⟨_, _, _, rfl⟩ := h.eq; rfl
theorem OnlyCalls.cfg : t.cfg = s.cfg := by obtain ⟨_, _, _, rfl⟩ := h.eq; rfl
theorem OnlyCalls.fault : t.fault = s.fault := by obtain ⟨_, _, _, rfl⟩ := h.eq; rfl
theorem OnlyCalls.res : t.res = s.res := by obtain ⟨_, _, _, rfl⟩ := h.eq; rfl
theorem OnlyCalls.inbox : t.inbox = s.inbox := by obtain ⟨_, _, _, rfl⟩ := h.eq; rfl
theorem OnlyCalls.peerIq : t.peerIq = s.peerIq := by obtain ⟨_, _, _, rfl⟩ := h.eq; rfl
theorem OnlyCalls.peerFl : t.peerFl = s.peerFl := by obtain ⟨_, _, _, rfl⟩ := h.eq; rfl
theorem OnlyCalls.peerEq : t.peerEq = s.peerEq := by obtain ⟨_, _, _, rfl⟩ := h.eq; rfl

end

theorem peerCmd_calls (s : State) (r : PeerReq) : OnlyCalls s (s.peerCmd r).2 := OnlyCalls.drew _ _ _ _
theorem dmaAlloc_calls (s : State) (n e : Nat) : OnlyCalls s (s.dmaAlloc n e).2 := OnlyCalls.drew _ _ _ _
theorem freshCur_calls (s : State) : OnlyCalls s s.freshCur.2 := ⟨s.host, s.draws + 1, [], by simp [State.freshCur]⟩
theorem mapLoad_calls (s : State) (p : Packet) : OnlyCalls s (s.mapLoad p).2 := OnlyCalls.drew _ _ _ _
theorem compact_calls (s : State) (p : Packet) : OnlyCalls s (s.compact p).2 := OnlyCalls.drew _ _ _ _

theorem handshake_calls (t : QType) (j : Nat) (r : PeerReq) (s : State) : OnlyCalls s (handshake t j r s).2 := by
  unfold handshake
  dsimp only
  split
  · exact peerCmd_calls s r
  · exact (peerCmd_calls s r).trans (OnlyCalls.emit _ _)

theorem releaseBufs_calls (l : Tab FlSlot) (s : State) : OnlyCalls s (releaseBufs l s) := by
  induction l generalizing s with
  | nil => exact OnlyCalls.refl s
  | cons c t ih =>
    unfold releaseBufs
    split
    · exact ih s
    · exact ((OnlyCalls.emit _ _).trans (OnlyCalls.emit _ _)).trans (ih _)
    · exact ((OnlyCalls.emit _ _).trans (OnlyCalls.emit _ _)).trans (ih _)

theorem releaseMaps_calls (l : Tab Packet) (s : State) : OnlyCalls s (releaseMaps l s) := by
  induction l generalizing s with
  | nil => exact OnlyCalls.refl s
  | cons c t ih => exact ((OnlyCalls.emit _ _).trans (OnlyCalls.emit _ _)).trans (ih _)

/-- A memory event of PEER keeps the canonical form. -/
theorem peerWriteBytes_wf (l : List Byte) (a : Addr) {s : State} (h : Memory.wf s.mem) :
    Memory.wf (peerWriteBytes a l s).mem := by
  induction l generalizing a s with
  | nil => exact h
  | cons b t ih =>
    unfold peerWriteBytes
    split
    · dsimp only
      split
      · exact ih _ (Memory.set_wf h a.isLt b)
      · exact ih _ h
    · exact ih _ (Memory.set_wf h a.isLt b)

/-- What `peerWriteBytes` leaves alone: everything but memory and the counter. -/
theorem peerWriteBytes_frame (l : List Byte) (a : Addr) (s : State) :
    ∃ m n, peerWriteBytes a l s = { s with mem := m, draws := n } := by
  induction l generalizing a s with
  | nil => exact ⟨s.mem, s.draws, rfl⟩
  | cons b t ih =>
    unfold peerWriteBytes
    split
    · dsimp only
      obtain ⟨m, n, e⟩ := ih (a + 1)
        { (if Config.freeRace s.draws then s.setMem (Memory.set s.mem a.toNat b) else s) with
          draws := (if Config.freeRace s.draws then s.setMem (Memory.set s.mem a.toNat b) else s).draws + 1 }
      refine ⟨m, n, e.trans ?_⟩
      split <;> rfl
    · obtain ⟨m, n, e⟩ := ih (a + 1) (s.setMem (Memory.set s.mem a.toNat b))
      exact ⟨m, n, e.trans rfl⟩

end Sys2Proof.Machine
end

