-- ==== Sys2Proof/Laws/Steps.lean ====
section
/-! SUPPORT. What a step can be: nothing, a command word, a block reset, or an action of HOST or PEER, and what the last
leaves alone. -/

namespace Sys2Proof.Machine

/-- What an action of HOST or PEER between two commands leaves alone; it keeps the memory canonical. -/
structure EnvStep (s t : State) : Prop where
  fault  : t.fault = s.fault
  res    : t.res = s.res
  qmap   : t.qmap = s.qmap
  iq     : ∀ k, ∃ b, t.iq k = { s.iq k with svcReq := b }
  fl     : ∀ k, t.fl k = s.fl k
  eq     : ∀ k, t.eq k = s.eq k
  cfg    : t.cfg = s.cfg
  out    : t.out = s.out
  memwf  : Memory.wf s.mem → Memory.wf t.mem

theorem EnvStep.refl (s : State) : EnvStep s s := ⟨rfl, rfl, rfl, fun _ => ⟨_, rfl⟩, fun _ => rfl, fun _ => rfl, rfl, rfl, id⟩

theorem EnvStep.trans {s t u : State} (h : EnvStep s t) (g : EnvStep t u) : EnvStep s u :=
  ⟨g.fault.trans h.fault, g.res.trans h.res, g.qmap.trans h.qmap,
    fun k => by obtain ⟨b, hb⟩ := h.iq k; obtain ⟨c, hc⟩ := g.iq k; exact ⟨c, by rw [hc, hb]⟩,
    fun k => (g.fl k).trans (h.fl k), fun k => (g.eq k).trans (h.eq k), g.cfg.trans h.cfg, g.out.trans h.out,
    fun hw => g.memwf (h.memwf hw)⟩

theorem EnvStep.setMem (s : State) {m : List Host.Cell} (hm : Memory.wf s.mem → Memory.wf m) : EnvStep s (s.setMem m) :=
  ⟨rfl, rfl, rfl, fun _ => ⟨_, rfl⟩, fun _ => rfl, fun _ => rfl, rfl, rfl, hm⟩

theorem EnvStep.setPeerIq (s : State) (j : Nat) (p : PeerIq) : EnvStep s (s.setPeerIq j p) :=
  ⟨rfl, rfl, rfl, fun _ => ⟨_, rfl⟩, fun _ => rfl, fun _ => rfl, rfl, rfl, id⟩

theorem EnvStep.setPeerFl (s : State) (j : Nat) (p : PeerFl) : EnvStep s (s.setPeerFl j p) :=
  ⟨rfl, rfl, rfl, fun _ => ⟨_, rfl⟩, fun _ => rfl, fun _ => rfl, rfl, rfl, id⟩

theorem EnvStep.setPeerEq (s : State) (j : Nat) (p : PeerEq) : EnvStep s (s.setPeerEq j p) :=
  ⟨rfl, rfl, rfl, fun _ => ⟨_, rfl⟩, fun _ => rfl, fun _ => rfl, rfl, rfl, id⟩

theorem EnvStep.svcReq (s : State) (j : Nat) (b : Bool) : EnvStep s (s.setIq j { s.iq j with svcReq := b }) := by
  refine ⟨rfl, rfl, rfl, fun k => ?_, fun _ => rfl, fun _ => rfl, rfl, rfl, id⟩
  by_cases h : k = j
  · subst h; exact ⟨b, by simp⟩
  · exact ⟨(s.iq k).svcReq, by simp [State.setIq_ne _ _ h]⟩

theorem raiseLine_env (j : Nat) (s : State) : EnvStep s (raiseLine j s) := by
  unfold raiseLine
  split
  · exact (EnvStep.svcReq s j true).trans (EnvStep.setPeerIq _ _ _)
  · exact EnvStep.refl s

theorem peerWriteEntry_env (j : Nat) (l : List Byte) (s : State) : EnvStep s (peerWriteEntry j l s) := by
  unfold peerWriteEntry
  dsimp only
  split
  · exact (EnvStep.setMem s fun hw => Memory.setBytes_wf hw _ _).trans (EnvStep.setPeerIq _ _ _)
  · exact EnvStep.refl s

theorem peerInterrupt_env (j : Nat) (l : List Byte) (s : State) : EnvStep s (peerInterrupt j l s) := by
  unfold peerInterrupt
  dsimp only
  split
  · split
    · split
      · exact ((EnvStep.setPeerIq s _ _).trans (peerWriteEntry_env _ _ _)).trans (raiseLine_env _ _)
      · exact EnvStep.refl s
    · exact raiseLine_env j s
  · exact EnvStep.refl s

theorem peerWriteStatus_env (j : Nat) (c : BitVec 16) (s : State) : EnvStep s (peerWriteStatus j c s) := by
  unfold peerWriteStatus
  split
  · exact EnvStep.setMem s fun hw => Memory.setBytes_wf hw _ _
  · exact EnvStep.refl s

theorem peerFinish_env (j : Nat) (b : Bool) (s : State) : EnvStep s (peerFinish j b s) := by
  unfold peerFinish
  dsimp only
  split
  · split
    · exact (EnvStep.setPeerEq s _ _).trans (peerWriteStatus_env _ _ _)
    · exact EnvStep.setPeerEq s _ _
  · exact EnvStep.refl s

theorem peerNotify_env (j : Nat) (l : List Byte) (s : State) : EnvStep s (peerNotify j l s) := by
  unfold peerNotify
  dsimp only
  split
  · exact (EnvStep.setPeerEq s _ _).trans (peerWriteEntry_env _ _ _)
  · exact EnvStep.refl s

theorem peerUseBufs_env (j n : Nat) (s : State) : EnvStep s (peerUseBufs j n s) := by
  unfold peerUseBufs
  dsimp only
  split
  · exact EnvStep.setPeerFl s _ _
  · exact EnvStep.refl s

theorem peerWriteBytes_env (a : Addr) (l : List Byte) (s : State) : EnvStep s (peerWriteBytes a l s) := by
  have hw := fun h => peerWriteBytes_wf (s := s) l a h
  obtain ⟨m, n, e⟩ := peerWriteBytes_frame l a s
  rw [e] at hw ⊢
  exact ⟨rfl, rfl, rfl, fun k => ⟨_, rfl⟩, fun _ => rfl, fun _ => rfl, rfl, rfl, hw⟩

theorem peerPlace_env (f n : Nat) (l : List Byte) (s u : State) (h : peerPlace f n l s = some u) : EnvStep s u := by
  induction n generalizing l s with
  | zero =>
    cases l with
    | nil => cases h; exact EnvStep.refl _
    | cons b l => cases h
  | succ n ih =>
    cases l with
    | nil => cases h; exact EnvStep.refl _
    | cons b l => exact ((peerWriteBytes_env _ _ s).trans (EnvStep.setPeerFl _ _ _)).trans (ih _ _ h)

theorem peerFrame_env (j : Nat) (frame l : List Byte) (s : State) : EnvStep s (peerFrame j frame l s) := by
  unfold peerFrame
  split
  · exact EnvStep.refl s
  · split
    · split
      · exact EnvStep.refl s
      · rename_i h; exact (peerPlace_env _ _ _ _ _ h).trans (peerWriteEntry_env _ _ _)
    · exact EnvStep.refl s

/-- Every action of HOST or PEER between two commands. -/
theorem handleEvent_env {e : Event} {s t : State} (h : handleEvent e s = .next t) (hc : ∀ w, e ≠ .command w) (hr : e ≠ .reset) :
    EnvStep s t := by
  cases e with
  | command w => exact absurd rfl (hc w)
  | reset => exact absurd rfl hr
  | submit j i => cases h; exact ⟨rfl, rfl, rfl, fun k => ⟨_, rfl⟩, fun _ => rfl, fun _ => rfl, rfl, rfl, id⟩
  | answer a => cases h; exact ⟨rfl, rfl, rfl, fun k => ⟨_, rfl⟩, fun _ => rfl, fun _ => rfl, rfl, rfl, id⟩
  | interrupt j l => cases h; exact peerInterrupt_env _ _ _
  | peerEntry j l => cases h; exact peerWriteEntry_env _ _ _
  | peerFinish j b => cases h; exact peerFinish_env _ _ _
  | peerNotify j l => cases h; exact peerNotify_env _ _ _
  | peerStatus j c => cases h; exact peerWriteStatus_env _ _ _
  | peerFrame j f l => cases h; exact peerFrame_env _ _ _ _
  | peerUse j n => cases h; exact peerUseBufs_env _ _ _
  | peerStore a l => cases h; exact peerWriteBytes_env _ _ _

/-- No command stops the model: the spec's faults are a register (R500). -/
theorem exec_total (i : Instr) (s : State) : ∃ t, exec i s = .next t := by cases i <;> exact ⟨_, rfl⟩

/-- Every step answers a next state. -/
theorem step_total (s : State) : ∃ t, step s = .next t := by
  unfold step
  cases s.inbox with
  | nil => exact ⟨_, rfl⟩
  | cons e rest =>
    cases e with
    | command w =>
      simp only [handleEvent, runCommand]
      split
      · exact ⟨_, rfl⟩
      · split
        · exact ⟨_, rfl⟩
        · exact exec_total _ _
    | _ => exact ⟨_, rfl⟩

/-- Every way a step can go. -/
theorem step_cases {s t : State} (h : step s = .next t) :
    (s.inbox = [] ∧ t = s) ∨
    (∃ w rest, s.inbox = .command w :: rest ∧ runCommand w (s.setInbox rest) = .next t) ∨
    (∃ rest, s.inbox = .reset :: rest ∧ t = (s.setInbox rest).blockReset) ∨
    (∃ e rest, s.inbox = e :: rest ∧ EnvStep (s.setInbox rest) t ∧ (Memory.wf s.mem → Memory.wf t.mem)) := by
  unfold step at h
  split at h
  · rename_i e
    cases h
    exact .inl ⟨e, rfl⟩
  · rename_i e rest hin
    cases e with
    | command w => exact .inr (.inl ⟨w, rest, hin, h⟩)
    | reset => cases h; exact .inr (.inr (.inl ⟨rest, hin, rfl⟩))
    | _ =>
      have he := handleEvent_env h (by simp) (by simp)
      exact .inr (.inr (.inr ⟨_, rest, hin, he, he.memwf⟩))

/-- A command word that is not refused runs a command. -/
theorem runCommand_cases {w : CmdWord} {s t : State} (h : runCommand w s = .next t) :
    (∃ rc, t = s.finish rc 0) ∨ (faultValid s.fault = false ∧ ∃ i, decode s.cfg w = .instr i ∧ exec i s = .next t) := by
  unfold runCommand at h
  split at h
  · cases h; exact .inl ⟨_, rfl⟩
  · rename_i hf
    split at h
    · cases h; exact .inl ⟨_, rfl⟩
    · rename_i i hi
      exact .inr ⟨by simpa using hf, i, hi, h⟩

/-- A decoded command is well formed (R146). -/
theorem decode_wf {c : Config} {w : CmdWord} {i : Instr} (h : decode c w = .instr i) : i.wf c = true := by
  unfold decode at h
  split at h
  · cases h
  · split at h
    · rename_i hq
      split at h
      · rename_i ho
        cases h
        simp [Instr.wf, hq, ho]
      · cases h
    · cases h

/-- A record after an action of HOST or PEER, as far as the laws read it. -/
theorem EnvStep.qst {s t : State} (h : EnvStep s t) (ty : QType) (j : Nat) : t.qst ty j = s.qst ty j := by
  obtain ⟨b, hb⟩ := h.iq j
  cases ty
  · simp [State.qst, hb]
  · simp [State.qst, h.fl]
  · simp [State.qst, h.eq]

theorem EnvStep.ctxId {s t : State} (h : EnvStep s t) (ty : QType) (j : Nat) : t.ctxId ty j = s.ctxId ty j := by
  obtain ⟨b, hb⟩ := h.iq j
  cases ty
  · simp [State.ctxId, hb]
  · simp [State.ctxId, h.fl]
  · simp [State.ctxId, h.eq]

/-- An invariant of single records: it holds after a step when every command keeps it, when it holds of records after reset
and does not read `svc_req`, the event list, the answers or the memory. -/
theorem step_keeps {P : State → Prop} (hcmd : ∀ i u t, i.wf u.cfg = true → P u → faultValid u.fault = false → exec i u = .next t → P t)
    (hfin : ∀ u rc, P u → P (u.finish rc 0)) (hin : ∀ u l, P u → P (u.setInbox l)) (hreset : ∀ u : State, P u → P u.blockReset)
    (henv : ∀ u t, EnvStep u t → P u → P t) {s t : State} (hs : P s) (h : step s = .next t) : P t := by
  rcases step_cases h with ⟨_, rfl⟩ | ⟨w, rest, _, hr⟩ | ⟨rest, _, rfl⟩ | ⟨e, rest, _, he, _⟩
  · exact hs
  · rcases runCommand_cases hr with ⟨rc, rfl⟩ | ⟨hf, i, hd, hi⟩
    · exact hfin _ _ (hin _ _ hs)
    · exact hcmd i _ _ (decode_wf hd) (hin _ _ hs) hf hi
  · exact hreset _ (hin _ _ hs)
  · exact henv _ _ he (hin _ _ hs)

end Sys2Proof.Machine
end

