-- ==== Sys2Proof/Laws/Lifecycle.lean ====
section
/-! SUPPORT. The lifecycle commands, each with everything it can do, as equations on the state after its calls. -/

namespace Sys2Proof.Machine

/-! ### The parts -/

theorem setSt_qst (s : State) (t : QType) (j : Nat) (st : QState) (t' : QType) (k : Nat) :
    (s.setSt t j st).qst t' k = if t = t' ∧ j = k then st else s.qst t' k := by
  cases t <;> cases t' <;> simp [State.setSt, State.qst, State.setIq_get, State.setFl_get, State.setEq_get] <;>
    split <;> rfl

theorem setSt_ctxId (s : State) (t : QType) (j : Nat) (st : QState) (t' : QType) (k : Nat) :
    (s.setSt t j st).ctxId t' k = s.ctxId t' k := by
  cases t <;> cases t' <;> simp [State.setSt, State.ctxId, State.setIq_get, State.setFl_get, State.setEq_get] <;>
    (split <;> simp_all)

theorem lookup_setQmap_put (s : State) (id : Nat) (q : Sel) (x : Nat) :
    (s.setQmap (Tab.put s.qmap id q)).lookup x = if id = x then some q else s.lookup x := Tab.find_put _ _ _ _

theorem lookup_setQmap_del (s : State) (id x : Nat) :
    (s.setQmap (Tab.del s.qmap id)).lookup x = if x = id then none else s.lookup x := Tab.find_del _ _ _

/-- The records and `QMAP` of a registered queue. -/
theorem register_iq (j : Nat) (id : BitVec 17) (s : State) (k : Nat) :
    (register .iq j id s).iq k = if j = k then { s.iq j with cntxtId := id.setWidth 16, st := .reg } else s.iq k :=
  State.setIq_get _ _ _ _
theorem register_fl (j : Nat) (id : BitVec 17) (s : State) (k : Nat) :
    (register .fl j id s).fl k = if j = k then { s.fl j with cntxtId := id.setWidth 16, st := .reg } else s.fl k :=
  State.setFl_get _ _ _ _
theorem register_eq (j : Nat) (id : BitVec 17) (s : State) (k : Nat) :
    (register .eq j id s).eq k = if j = k then { s.eq j with cntxtId := id, st := .reg } else s.eq k :=
  State.setEq_get _ _ _ _

theorem register_lookup (t : QType) (j : Nat) (id : BitVec 17) (s : State) (x : Nat) :
    (register t j id s).lookup x = if id.toNat = x then some { type := t, index := j } else s.lookup x := by
  cases t <;> exact Tab.find_put _ _ _ _

/-- What a registration leaves alone. -/
theorem register_frame (t : QType) (j : Nat) (id : BitVec 17) (s : State) : Untouched t j s (register t j id s) := by
  cases t with
  | iq =>
    exact ⟨rfl, fun k hk => State.setIq_ne _ _ (hk.resolve_left (by simp)), fun _ _ => rfl, fun _ _ => rfl,
      fun k hk => by
        refine (State.setPeerIq_get _ _ _ _).trans ?_
        rw [if_neg (Ne.symm (hk.resolve_left (by simp)))]; rfl,
      fun _ _ => rfl, fun _ _ => rfl, fun _ _ => rfl, rfl, rfl⟩
  | fl =>
    exact ⟨rfl, fun _ _ => rfl, fun k hk => State.setFl_ne _ _ (hk.resolve_left (by simp)), fun _ _ => rfl, fun _ _ => rfl,
      fun k hk => by
        refine (State.setPeerFl_get _ _ _ _).trans ?_
        rw [if_neg (Ne.symm (hk.resolve_left (by simp)))]; rfl,
      fun _ _ => rfl, fun _ _ => rfl, rfl, rfl⟩
  | eq =>
    exact ⟨rfl, fun _ _ => rfl, fun _ _ => rfl, fun k hk => State.setEq_ne _ _ (hk.resolve_left (by simp)), fun _ _ => rfl,
      fun _ _ => rfl,
      fun k hk => by
        refine (State.setPeerEq_get _ _ _ _).trans ?_
        rw [if_neg (Ne.symm (hk.resolve_left (by simp)))]; rfl,
      fun _ _ => rfl, rfl, rfl⟩

/-! ### Allocation -/

theorem Tab.get_default_of_not_mem {β : Type} {d : β} {t : Tab β} {k : Nat} (h : ∀ c ∈ t, c.1 ≠ k) : Tab.get d t k = d := by
  induction t with
  | nil => rfl
  | cons c t ih =>
    obtain ⟨a, b⟩ := c
    have h1 := h (a, b) List.mem_cons_self
    simp only [Tab.get, h1, if_false]
    exact ih fun c hc => h c (List.mem_cons_of_mem _ hc)

/-- `State.apart` over the listed records says it of every queue: a queue that is not listed is `UNINIT`. -/
theorem blockClear_iff (s : State) (a n : Nat) : s.blockClear a n = true ↔ ∀ t j, s.qst t j ≠ .uninit →
    a + n ≤ (s.baseOf t j).toNat ∨ (s.baseOf t j).toNat + s.blockBytes t j ≤ a := by
  have key : ∀ {β : Type} (l : Tab β) (t : QType), (∀ j, (∀ c ∈ l, c.1 ≠ j) → s.qst t j = .uninit) →
      (l.all (fun c => s.apart a n t c.1) = true ↔ ∀ j, s.qst t j ≠ .uninit →
        a + n ≤ (s.baseOf t j).toNat ∨ (s.baseOf t j).toNat + s.blockBytes t j ≤ a) := by
    intro β l t hl
    simp only [List.all_eq_true, State.apart, decide_eq_true_eq]
    constructor
    · intro h j hj
      by_cases hm : ∃ c ∈ l, c.1 = j
      · obtain ⟨c, hc, rfl⟩ := hm
        exact (h c hc).resolve_left hj
      · exact absurd (hl j fun c hc e => hm ⟨c, hc, e⟩) hj
    · intro h c _
      by_cases hu : s.qst t c.1 = .uninit
      · exact .inl hu
      · exact .inr (h _ hu)
  have hi := key s.iqs .iq fun j hj => congrArg IQ.st (Tab.get_default_of_not_mem (d := IQ.reset) hj)
  have hf := key s.fls .fl fun j hj => congrArg FL.st (Tab.get_default_of_not_mem (d := FL.reset) hj)
  have he := key s.eqs .eq fun j hj => congrArg EQ.st (Tab.get_default_of_not_mem (d := EQ.reset) hj)
  simp only [State.blockClear, Bool.and_eq_true, hi, hf, he]
  exact ⟨fun h t => by cases t; exacts [h.1.1, h.1.2, h.2], fun h => ⟨⟨h .iq, h .fl⟩, h .eq⟩⟩

/-- A block that HOST gives is placed as R101, R102 and R104 ask. -/
theorem dmaAlloc_placed {s : State} {n e : Nat} {base : Addr} (h : (s.dmaAlloc n e).1 = some base) : RingPlaced s base n e := by
  unfold State.dmaAlloc ringBase at h
  dsimp only at h
  split at h
  · cases h
  · split at h
    · rename_i hb; cases h
      exact ⟨hb.1, hb.2.1, hb.2.2.1, (blockClear_iff _ _ _).1 hb.2.2.2⟩
    · cases h

/-- How an allocation ends: refused or with a used id, only calls were made; or the queue is registered under a fresh id. -/
theorem allocEnd_cases (t : QType) (j : Nat) (r : PeerReq) (s : State) :
    ∃ u, OnlyCalls s u ∧ ((∃ v, allocEnd t j r s = u.finish .cmdFail v) ∨
      ∃ id0, u.lookup (ctxIdFor t id0).toNat = none ∧
        allocEnd t j r s = (register t j (ctxIdFor t id0) u).finish .ok (ctxIdFor t id0).toNat) := by
  have hc := handshake_calls t j r s
  unfold allocEnd
  dsimp only
  split
  · exact ⟨_, hc, .inl ⟨_, rfl⟩⟩
  · rename_i id0 _
    split
    · exact ⟨_, hc.trans (OnlyCalls.emit _ _), .inl ⟨_, rfl⟩⟩
    · rename_i hn
      exact ⟨_, hc, .inr ⟨id0, by simpa using hn, rfl⟩⟩

/-- Everything `Q_ALLOC_IQ` can do. -/
theorem execQAllocIq_cases {q : Qid} {role : Role} {tmr pktc : BitVec 3} {esize : ESize} {fwd : Bool} {capM1 : BitVec 16}
    {tgt : Qid} {s t : State} (h : exec (.qAllocIq q role tmr pktc esize fwd capM1 tgt) s = .next t) :
    t = s.badCmd ∨ ((s.iq q.toNat).st = .uninit ∧ fwdOk fwd tgt s = true ∧
      ((∃ u, OnlyCalls s u ∧ t = u.finish .noBuf 0) ∨
       ∃ base u v r, RingPlaced s base ((capM1.toNat + 1) * esize.bytes) esize.bytes ∧ OnlyCalls s u ∧
        v = (u.zeroFill base ((capM1.toNat + 1) * esize.bytes)).setIq q.toNat
          (freshIq s.cfg (s.iq q.toNat) base (capM1.toNat + 1) esize.bytes role tmr pktc fwd tgt) ∧
        t = allocEnd .iq q.toNat r v)) := by
  cases h
  split
  · rename_i hg
    refine .inr ⟨hg.1, hg.2, ?_⟩
    dsimp only
    split
    · exact .inl ⟨_, dmaAlloc_calls _ _ _, rfl⟩
    · exact .inr ⟨_, _, _, _, dmaAlloc_placed ‹_›, dmaAlloc_calls _ _ _, rfl, rfl⟩
  · exact .inl rfl

/-- Everything `Q_ALLOC_FL` can do. -/
theorem execQAllocFl_cases {q : Qid} {capM1 : BitVec 16} {iq : Qid} {s t : State}
    (h : exec (.qAllocFl q capM1 iq) s = .next t) :
    t = s.badCmd ∨ ((s.fl q.toNat).st = .uninit ∧ ownerOk iq.toNat s = true ∧
      ((∃ u, OnlyCalls s u ∧ t = u.finish .noBuf 0) ∨
       ∃ base u v r, RingPlaced s base ((capM1.toNat + 1) * 8) 8 ∧ OnlyCalls s u ∧
        v = ((u.zeroFill base ((capM1.toNat + 1) * 8)).setFl q.toNat
          (freshFl (s.fl q.toNat) base (capM1.toNat + 1) iq.toNat)).setIq iq.toNat { s.iq iq.toNat with fl := some q.toNat } ∧
        t = allocEnd .fl q.toNat r v)) := by
  cases h
  split
  · rename_i hg
    refine .inr ⟨hg.1, hg.2, ?_⟩
    dsimp only
    split
    · exact .inl ⟨_, dmaAlloc_calls _ _ _, rfl⟩
    · exact .inr ⟨_, _, _, _, dmaAlloc_placed ‹_›, dmaAlloc_calls _ _ _, rfl, rfl⟩
  · exact .inl rfl

/-- Everything `Q_ALLOC_EQ` can do. -/
theorem execQAllocEq_cases {q : Qid} {capM1 : BitVec 16} {iq : Qid} {s t : State}
    (h : exec (.qAllocEq q capM1 iq) s = .next t) :
    t = s.badCmd ∨ ((s.eq q.toNat).st = .uninit ∧ notifyOk iq.toNat s = true ∧
      ((∃ u, OnlyCalls s u ∧ t = u.finish .noBuf 0) ∨
       ∃ base cur u v r, RingPlaced s base ((capM1.toNat + 1) * 64 + 64) 64 ∧ OnlyCalls s u ∧
        v = (u.zeroFill base ((capM1.toNat + 1) * 64 + 64)).setEq q.toNat
          (freshEq (s.eq q.toNat) base (capM1.toNat + 1) iq.toNat (txMapsFor s.cfg q.toNat (capM1.toNat + 1)) cur) ∧
        t = allocEnd .eq q.toNat r v)) := by
  cases h
  split
  · rename_i hg
    refine .inr ⟨hg.1, hg.2, ?_⟩
    dsimp only
    split
    · exact .inl ⟨_, dmaAlloc_calls _ _ _, rfl⟩
    · exact .inr ⟨_, _, _, _, _, dmaAlloc_placed ‹_›, (dmaAlloc_calls _ _ _).trans (freshCur_calls _), rfl, rfl⟩
  · exact .inl rfl

/-! ### Start, stop, free -/

/-- Everything `Q_START` can do. -/
theorem execQStart_cases {q : Qid} {ty : QType} {s t : State} (h : exec (.qStart q ty) s = .next t) :
    t = s.badCmd ∨ (s.qst ty q.toNat = .reg ∧ canStart ty q.toNat s = true ∧ ∃ u, OnlyCalls s u ∧
      ((∃ v, t = u.finish .cmdFail v) ∨
       t = (started ty q.toNat (u.setSt ty q.toNat .run)).2.finish .ok (started ty q.toNat (u.setSt ty q.toNat .run)).1)) := by
  cases h
  split
  · rename_i hg
    refine .inr ⟨hg.1, hg.2, _, handshake_calls ty q.toNat (.start ty (s.ctxId ty q.toNat)) s, ?_⟩
    dsimp only
    split
    · exact .inl ⟨_, rfl⟩
    · exact .inr rfl
  · exact .inl rfl

/-- Everything `Q_STOP` can do. -/
theorem execQStop_cases {q : Qid} {ty : QType} {s t : State} (h : exec (.qStop q ty) s = .next t) :
    t = s.badCmd ∨ (s.qst ty q.toNat = .run ∧ canStop ty q.toNat s = true ∧ ∃ u, OnlyCalls s u ∧
      ((∃ v, t = u.finish .cmdFail v) ∨ t = (discardFor ty q.toNat (u.setSt ty q.toNat .reg)).finish .ok 0)) := by
  cases h
  split
  · rename_i hg
    refine .inr ⟨hg.1, hg.2, _, handshake_calls ty q.toNat (.stop ty (s.ctxId ty q.toNat)) s, ?_⟩
    dsimp only
    split
    · exact .inl ⟨_, rfl⟩
    · exact .inr rfl
  · exact .inl rfl

/-- Everything `Q_FREE` can do. -/
theorem execQFree_cases {q : Qid} {ty : QType} {s t : State} (h : exec (.qFree q ty) s = .next t) :
    t = s.badCmd ∨ (s.qst ty q.toNat = .reg ∧ canFree ty q.toNat s = true ∧ ∃ u, OnlyCalls s u ∧
      ((∃ v, t = u.finish .cmdFail v) ∨
       t = ((u.setQmap (Tab.del u.qmap (s.ctxId ty q.toNat).toNat)).setSt ty q.toNat .mem).finish .ok 0)) := by
  cases h
  split
  · rename_i hg
    refine .inr ⟨hg.1, hg.2, _, handshake_calls ty q.toNat (.free ty (s.ctxId ty q.toNat)) s, ?_⟩
    dsimp only
    split
    · exact .inl ⟨_, rfl⟩
    · exact .inr rfl
  · exact .inl rfl

/-! ### Teardown -/

/-- What a stop discards touches nothing but the EQ's record, its counters included. -/
theorem discardTx_frame (j : Nat) (s : State) :
    Untouched .eq j s (discardTx j s) ∧ (discardTx j s).qmap = s.qmap ∧ (discardTx j s).res = s.res :=
  ⟨(untouched_eq j s).discardTx (Untouched.refl _ _ _), (qmap_eq j s.qmap).discardTx rfl, (res_eq j s.res).discardTx rfl⟩

theorem discardFor_frame (t : QType) (j : Nat) (s : State) :
    Untouched t j s (discardFor t j s) ∧ (discardFor t j s).qmap = s.qmap := by
  cases t with
  | iq => exact ⟨Untouched.refl _ _ _, rfl⟩
  | fl => exact ⟨Untouched.refl _ _ _, rfl⟩
  | eq => exact ⟨(discardTx_frame j s).1, (discardTx_frame j s).2.1⟩

theorem OnlyCalls.untouched {s t : State} (h : OnlyCalls s t) (hs : t.host.src = s.host.src) (ty : QType) (j : Nat) :
    Untouched ty j s t := by
  obtain ⟨_, _, _, rfl⟩ := h.eq
  exact ⟨rfl, fun _ _ => rfl, fun _ _ => rfl, fun _ _ => rfl, fun _ _ => rfl, fun _ _ => rfl, fun _ _ => rfl,
    fun k _ => congrArg (fun t => Tab.get [] t k) hs, rfl, rfl⟩

theorem handshake_untouched (t : QType) (j : Nat) (r : PeerReq) (s : State) (ty : QType) (k : Nat) :
    Untouched ty k s (handshake t j r s).2 := (untouched_out ty k s).handshake (Untouched.refl _ _ _) t j r

/-- The disable requests touch the queue's own record and `QMAP`, and take the queue's id out of it. -/
theorem disable_frame (t : QType) (j : Nat) (s : State) :
    Untouched t j s (disable t j s).2 ∧
    (disable t j s).2.qmap = if (s.qst t j).registered then Tab.del s.qmap (s.ctxId t j).toNat else s.qmap := by
  have step1 : Untouched t j s (if s.qst t j = .run then discardFor t j
      (if s.qst t j = .run then handshake t j (.stop t (s.ctxId t j)) s else (.ok 0, s)).2
      else (if s.qst t j = .run then handshake t j (.stop t (s.ctxId t j)) s else (.ok 0, s)).2) ∧
      (if s.qst t j = .run then discardFor t j
      (if s.qst t j = .run then handshake t j (.stop t (s.ctxId t j)) s else (.ok 0, s)).2
      else (if s.qst t j = .run then handshake t j (.stop t (s.ctxId t j)) s else (.ok 0, s)).2).qmap = s.qmap := by
    by_cases hr : s.qst t j = .run
    · rw [if_pos hr, if_pos hr]
      exact ⟨(handshake_untouched t j _ s t j).trans (discardFor_frame t j _).1,
        (discardFor_frame t j _).2.trans (handshake_calls t j _ s).qmap⟩
    · rw [if_neg hr, if_neg hr]; exact ⟨Untouched.refl _ _ _, rfl⟩
  unfold disable
  dsimp only
  generalize (if s.qst t j = .run then discardFor t j
      (if s.qst t j = .run then handshake t j (.stop t (s.ctxId t j)) s else (.ok 0, s)).2
      else (if s.qst t j = .run then handshake t j (.stop t (s.ctxId t j)) s else (.ok 0, s)).2) = u at step1
  by_cases hr : (s.qst t j).registered = true
  · simp only [hr, if_true]
    have h := handshake_untouched t j (.free t (s.ctxId t j)) u t j
    refine ⟨(step1.1.trans h).trans ⟨rfl, fun _ _ => rfl, fun _ _ => rfl, fun _ _ => rfl, fun _ _ => rfl, fun _ _ => rfl,
      fun _ _ => rfl, fun _ _ => rfl, rfl, rfl⟩, ?_⟩
    show Tab.del (handshake t j _ u).2.qmap _ = _
    rw [(handshake_calls t j _ u).qmap, step1.2]
  · simp only [hr]; exact step1

/-- A torn-down queue is `UNINIT` with its statistics; nothing else but the counter `draws` changes. -/
theorem forget_iq (j : Nat) (s : State) (k : Nat) : (forget .iq j s).iq k = if j = k then
    { Config.freeIq s.draws with
      st := .uninit, rxcsum := (s.iq j).rxcsum, vlanExtraction := (s.iq j).vlanExtraction, rxPkts := (s.iq j).rxPkts }
    else s.iq k := State.setIq_get _ _ _ _
theorem forget_fl (j : Nat) (s : State) (k : Nat) : (forget .fl j s).fl k = if j = k then
    { Config.freeFl s.draws with st := .uninit, allocFail := (s.fl j).allocFail, mapFail := (s.fl j).mapFail }
    else s.fl k := State.setFl_get _ _ _ _
theorem forget_eq (j : Nat) (s : State) (k : Nat) : (forget .eq j s).eq k = if j = k then
    { Config.freeEq s.draws with
      st := .uninit, stats := (s.eq j).stats, batch := Batch.empty (Config.freeEq s.draws).batch.cur }
    else s.eq k := State.setEq_get _ _ _ _

theorem forget_qst (t : QType) (j : Nat) (s : State) : (forget t j s).qst t j = .uninit := by
  cases t
  · show ((forget .iq j s).iq j).st = _; rw [forget_iq, if_pos rfl]
  · show ((forget .fl j s).fl j).st = _; rw [forget_fl, if_pos rfl]
  · show ((forget .eq j s).eq j).st = _; rw [forget_eq, if_pos rfl]

theorem forget_frame (t : QType) (j : Nat) (s : State) : Untouched t j s (forget t j s) ∧ (forget t j s).qmap = s.qmap := by
  cases t
  · exact ⟨⟨rfl, fun k hk => State.setIq_ne _ _ (hk.resolve_left (by simp)), fun _ _ => rfl, fun _ _ => rfl, fun _ _ => rfl,
      fun _ _ => rfl, fun _ _ => rfl, fun _ _ => rfl, rfl, rfl⟩, rfl⟩
  · exact ⟨⟨rfl, fun _ _ => rfl, fun k hk => State.setFl_ne _ _ (hk.resolve_left (by simp)), fun _ _ => rfl, fun _ _ => rfl,
      fun _ _ => rfl, fun _ _ => rfl, fun _ _ => rfl, rfl, rfl⟩, rfl⟩
  · exact ⟨⟨rfl, fun _ _ => rfl, fun _ _ => rfl, fun k hk => State.setEq_ne _ _ (hk.resolve_left (by simp)), fun _ _ => rfl,
      fun _ _ => rfl, fun _ _ => rfl, fun _ _ => rfl, rfl, rfl⟩, rfl⟩

/-- What a teardown does to the records and `QMAP`: its own queue is `UNINIT`, the owner of a free list loses it, the id is
gone, and nothing else changes. -/
structure TornDown (t : QType) (j : Nat) (s u : State) : Prop where
  gone  : u.qst t j = .uninit
  qmap  : u.qmap = if (s.qst t j).registered then Tab.del s.qmap (s.ctxId t j).toNat else s.qmap
  iqs   : ∀ k, (t ≠ .iq ∨ k ≠ j) → u.iq k = if t = .fl ∧ (s.fl j).owner = k then { s.iq k with fl := none } else s.iq k
  fls   : ∀ k, (t ≠ .fl ∨ k ≠ j) → u.fl k = s.fl k
  eqs   : ∀ k, (t ≠ .eq ∨ k ≠ j) → u.eq k = s.eq k
  fault : u.fault = s.fault
  cfg   : u.cfg = s.cfg
  inbox : u.inbox = s.inbox

theorem disable_fl_record (j : Nat) (s : State) : (disable .fl j s).2.fl j = s.fl j := by
  have h1 : ((if s.qst .fl j = .run then discardFor .fl j
      (if s.qst .fl j = .run then handshake .fl j (.stop .fl (s.ctxId .fl j)) s else (.ok 0, s)).2
      else (if s.qst .fl j = .run then handshake .fl j (.stop .fl (s.ctxId .fl j)) s else (.ok 0, s)).2).fl j) = s.fl j := by
    by_cases hr : s.qst .fl j = .run
    · rw [if_pos hr, if_pos hr]; exact (handshake_calls .fl j _ s).fl j
    · rw [if_neg hr, if_neg hr]
  unfold disable
  dsimp only
  generalize (if s.qst .fl j = .run then discardFor .fl j
      (if s.qst .fl j = .run then handshake .fl j (.stop .fl (s.ctxId .fl j)) s else (.ok 0, s)).2
      else (if s.qst .fl j = .run then handshake .fl j (.stop .fl (s.ctxId .fl j)) s else (.ok 0, s)).2) = u at h1
  by_cases hr : (s.qst .fl j).registered = true
  · simp only [hr, if_true]
    exact ((handshake_calls .fl j _ u).fl j).trans h1
  · simp only [hr]; exact h1

/-- What giving the buffers back does to the records. -/
structure Released (t : QType) (j : Nat) (s u : State) : Prop where
  qmap  : u.qmap = s.qmap
  iqs   : ∀ k, u.iq k = if t = .fl ∧ (s.fl j).owner = k then { s.iq k with fl := none } else s.iq k
  fls   : ∀ k, u.fl k = s.fl k
  eqs   : ∀ k, (t ≠ .eq ∨ k ≠ j) → u.eq k = s.eq k
  fault : u.fault = s.fault
  cfg   : u.cfg = s.cfg
  inbox : u.inbox = s.inbox

theorem releaseAll_released (t : QType) (j : Nat) (s : State) : Released t j s (releaseAll t j s) := by
  cases t with
  | iq => exact ⟨rfl, fun k => by rw [if_neg (by simp)]; rfl, fun _ => rfl, fun _ _ => rfl, rfl, rfl, rfl⟩
  | fl =>
    have hc := releaseBufs_calls (s.fl j).sd s
    refine ⟨hc.qmap, fun k => ?_, hc.fl, fun k _ => hc.eqr k, hc.fault, hc.cfg, hc.inbox⟩
    show (State.setIq _ (s.fl j).owner _).iq k = _
    rw [State.setIq_get]
    simp only [hc.iq]
    by_cases ho : (s.fl j).owner = k
    · subst ho; simp
    · simp [ho]
  | eq =>
    have key : ∀ u, Untouched .eq j s u → u.qmap = s.qmap → Released .eq j s (releaseMaps (u.eq j).maps u) := fun u h1 h2 => by
      have hc := releaseMaps_calls (u.eq j).maps u
      refine ⟨hc.qmap.trans h2, fun k => ?_, fun k => (hc.fl k).trans (h1.fls k (.inl (by simp))),
        fun k hk => (hc.eqr k).trans (h1.eqs k hk), hc.fault.trans h1.fault, hc.cfg.trans h1.cfg, hc.inbox.trans h1.inbox⟩
      rw [if_neg (by simp), hc.iq k, h1.iqs k (.inl (by simp))]
    show Released .eq j s (releaseMaps _ (if (s.eq j).st = .mem then discardTx j s else s))
    by_cases hm : (s.eq j).st = .mem
    · simp only [hm, if_true]; exact key _ (discardTx_frame j s).1 (discardTx_frame j s).2.1
    · simp only [hm, if_false]; exact key _ (Untouched.refl _ _ _) rfl

theorem teardown_spec (t : QType) (j : Nat) (s : State) : TornDown t j s (teardown t j s).2 := by
  obtain ⟨d1, d2⟩ := disable_frame t j s
  have hr : t = .fl → (disable t j s).2.fl j = s.fl j := fun h => by subst h; exact disable_fl_record j s
  unfold teardown
  dsimp only
  generalize (disable t j s).2 = u at d1 d2 hr
  have r := releaseAll_released t j u
  generalize releaseAll t j u = v at r
  obtain ⟨f1, f2⟩ := forget_frame t j (v.emit (.dmaFree (v.baseOf t j)))
  have f3 := forget_qst t j (v.emit (.dmaFree (v.baseOf t j)))
  generalize forget t j (v.emit (.dmaFree (v.baseOf t j))) = w at f1 f2 f3
  refine ⟨f3, f2.trans (r.qmap.trans d2), fun k hk => ?_, fun k hk => (f1.fls k hk).trans ((r.fls k).trans (d1.fls k hk)),
    fun k hk => (f1.eqs k hk).trans ((r.eqs k hk).trans (d1.eqs k hk)), f1.fault.trans (r.fault.trans d1.fault),
    f1.cfg.trans (r.cfg.trans d1.cfg), f1.inbox.trans (r.inbox.trans d1.inbox)⟩
  refine (f1.iqs k hk).trans ((r.iqs k).trans ?_)
  rw [d1.iqs k hk]
  by_cases ht : t = .fl
  · rw [hr ht]
  · simp [ht]

/-- Everything `Q_TEARDOWN` can do. -/
theorem execQTeardown_cases {q : Qid} {ty : QType} {s t : State} (h : exec (.qTeardown q ty) s = .next t) :
    t = s.badCmd ∨ (s.qst ty q.toNat = .uninit ∧ t = s.finish .ok 0) ∨
    (s.qst ty q.toNat ≠ .uninit ∧ canStop ty q.toNat s = true ∧ canFree ty q.toNat s = true ∧
      ∃ u n, TornDown ty q.toNat s u ∧ t = u.finish .ok n) := by
  cases h
  split
  · exact .inr (.inl ⟨‹_›, rfl⟩)
  · split
    · rename_i h1 h2
      exact .inr (.inr ⟨h1, h2.1, h2.2, _, _, teardown_spec _ _ _, rfl⟩)
    · exact .inl rfl

/-! ### The dependency checks (R422) -/

theorem noFlDepends_iff (j : Nat) (s : State) :
    noFlDepends j s = true ↔ ∀ f, (s.fl f).st ≠ .uninit → (s.fl f).owner ≠ j := by
  unfold noFlDepends
  simp only [List.all_eq_true, Bool.or_eq_true, decide_eq_true_eq]
  constructor
  · intro h f hf ho
    by_cases hm : ∃ c ∈ s.fls, c.1 = f
    · obtain ⟨c, hc, rfl⟩ := hm
      rcases h c hc with h | h
      · exact hf h
      · exact h ho
    · have : s.fl f = FL.reset := Tab.get_default_of_not_mem fun c hc e => hm ⟨c, hc, e⟩
      rw [this] at hf; exact hf rfl
  · intro h c _
    by_cases hu : (s.fl c.1).st = .uninit
    · exact .inl hu
    · exact .inr (h _ hu)

theorem noEqDepends_iff (j : Nat) (s : State) :
    noEqDepends j s = true ↔ ∀ e, (s.eq e).st ≠ .uninit → (s.eq e).iq ≠ j := by
  unfold noEqDepends
  simp only [List.all_eq_true, Bool.or_eq_true, decide_eq_true_eq]
  constructor
  · intro h f hf ho
    by_cases hm : ∃ c ∈ s.eqs, c.1 = f
    · obtain ⟨c, hc, rfl⟩ := hm
      rcases h c hc with h | h
      · exact hf h
      · exact h ho
    · have : s.eq f = EQ.reset := Tab.get_default_of_not_mem fun c hc e => hm ⟨c, hc, e⟩
      rw [this] at hf; exact hf rfl
  · intro h c _
    by_cases hu : (s.eq c.1).st = .uninit
    · exact .inl hu
    · exact .inr (h _ hu)

theorem noIqDepends_iff (j : Nat) (s : State) :
    noIqDepends j s = true ↔ ∀ i, (s.iq i).st ≠ .uninit → (s.iq i).fwd = true → (s.iq i).tgt.toNat ≠ j := by
  unfold noIqDepends
  simp only [List.all_eq_true, Bool.or_eq_true, decide_eq_true_eq]
  constructor
  · intro h f hf hw ho
    by_cases hm : ∃ c ∈ s.iqs, c.1 = f
    · obtain ⟨c, hc, rfl⟩ := hm
      rcases h c hc with (h | h) | h
      · exact hf h
      · simp [hw] at h
      · exact h ho
    · have : s.iq f = IQ.reset := Tab.get_default_of_not_mem fun c hc e => hm ⟨c, hc, e⟩
      rw [this] at hf; exact hf rfl
  · intro h c _
    by_cases hu : (s.iq c.1).st = .uninit
    · exact .inl (.inl hu)
    · by_cases hw : (s.iq c.1).fwd = true
      · exact .inr (h _ hu hw)
      · exact .inl (.inr (by simpa using hw))

theorem registered_iff (st : QState) : st.registered = true ↔ st = .reg ∨ st = .run := by simp [QState.registered]

end Sys2Proof.Machine
end

