-- ==== Sys2Proof/Laws/LifecycleInv.lean ====
section
/-! SUPPORT. The queue map, the dependencies and the lifecycle states, from command to command (R431, R422, R61). -/

namespace Sys2Proof.Machine

/-! ### Views of the records -/

theorem SameFixed.qst {s t : State} (h : SameFixed s t) (ty : QType) (k : Nat) : t.qst ty k = s.qst ty k := by
  cases ty
  · exact congrArg (fun x => x.1) (h.iq k)
  · exact congrArg (fun x => x.1) (h.fl k)
  · exact congrArg (fun x => x.1) (h.eq k)

theorem SameFixed.ctxId {s t : State} (h : SameFixed s t) (ty : QType) (k : Nat) : t.ctxId ty k = s.ctxId ty k := by
  cases ty
  · exact congrArg (fun x => x.2.1.setWidth 17) (h.iq k)
  · exact congrArg (fun x => x.2.1.setWidth 17) (h.fl k)
  · exact congrArg (fun x => x.2.1) (h.eq k)

/-- The fields the dependencies read. -/
structure SameLinks (s t : State) : Prop where
  iq : ∀ k, (t.iq k).role = (s.iq k).role ∧ (t.iq k).fl = (s.iq k).fl ∧ (t.iq k).fwd = (s.iq k).fwd ∧ (t.iq k).tgt = (s.iq k).tgt
  fl : ∀ k, (t.fl k).owner = (s.fl k).owner
  eq : ∀ k, (t.eq k).iq = (s.eq k).iq

theorem SameFixed.links {s t : State} (h : SameFixed s t) : SameLinks s t where
  iq k := by
    have := h.iq k
    simp only [IQ.fixed, Prod.mk.injEq] at this
    exact ⟨this.2.2.2.2.2.1, this.2.2.2.2.2.2.2.2.2.1, this.2.2.2.2.2.2.2.2.2.2.1, this.2.2.2.2.2.2.2.2.2.2.2⟩
  fl k := by have := h.fl k; simp only [FL.fixed, Prod.mk.injEq] at this; exact this.2.2.2.2
  eq k := by have := h.eq k; simp only [EQ.fixed, Prod.mk.injEq] at this; exact this.2.2.2.2.2.1

theorem setSt_links (s : State) (t : QType) (j : Nat) (st : QState) : SameLinks s (s.setSt t j st) := by
  cases t
  · refine ⟨fun k => ?_, fun _ => rfl, fun _ => rfl⟩
    show ((s.setIq j _).iq k).role = _ ∧ ((s.setIq j _).iq k).fl = _ ∧ ((s.setIq j _).iq k).fwd = _ ∧ ((s.setIq j _).iq k).tgt = _
    rw [State.setIq_get]; by_cases h : j = k <;> simp [h]
  · refine ⟨fun _ => ⟨rfl, rfl, rfl, rfl⟩, fun k => ?_, fun _ => rfl⟩
    show ((s.setFl j _).fl k).owner = _
    rw [State.setFl_get]; by_cases h : j = k <;> simp [h]
  · refine ⟨fun _ => ⟨rfl, rfl, rfl, rfl⟩, fun _ => rfl, fun k => ?_⟩
    show ((s.setEq j _).eq k).iq = _
    rw [State.setEq_get]; by_cases h : j = k <;> simp [h]

theorem SameLinks.trans {s t u : State} (h : SameLinks s t) (h' : SameLinks t u) : SameLinks s u where
  iq k := by
    obtain ⟨a, b, c, d⟩ := h.iq k
    obtain ⟨a', b', c', d'⟩ := h'.iq k
    exact ⟨a'.trans a, b'.trans b, c'.trans c, d'.trans d⟩
  fl k := (h'.fl k).trans (h.fl k)
  eq k := (h'.eq k).trans (h.eq k)

theorem OnlyCalls.sameFixed {s t : State} (h : OnlyCalls s t) : SameFixed s t :=
  ⟨fun k => by rw [h.iq], fun k => by rw [h.fl], fun k => by rw [h.eqr], h.qmap, h.cfg, h.inbox⟩

theorem SameFixed.trans {s t u : State} (h : SameFixed s t) (h' : SameFixed t u) : SameFixed s u :=
  ⟨fun k => (h'.iq k).trans (h.iq k), fun k => (h'.fl k).trans (h.fl k), fun k => (h'.eq k).trans (h.eq k),
    h'.qmap.trans h.qmap, h'.cfg.trans h.cfg, h'.inbox.trans h.inbox⟩

/-- What `Q_START` does after the change of state is data work. -/
theorem started_sameFixed (t : QType) (j : Nat) (s : State) : SameFixed s (started t j s).2 := by
  have h := sameFixed_closed s
  cases t with
  | iq => exact (h.iq j).creditReturn (SameFixed.refl s)
  | fl => exact (h.fl j).flDoorbell ((h.fl j).flRefill (SameFixed.refl s) _) _
  | eq => exact SameFixed.refl s

/-- And so is what `Q_STOP` discards. -/
theorem discardFor_sameFixed (t : QType) (j : Nat) (s : State) : SameFixed s (discardFor t j s) := by
  cases t with
  | iq => exact SameFixed.refl s
  | fl => exact SameFixed.refl s
  | eq => exact ((sameFixed_closed s).eq j).discardTx (SameFixed.refl s)

/-! ### The queue map (R431) -/

theorem QmapInv.congr {s t : State} (h : QmapInv s) (hl : ∀ x, t.lookup x = s.lookup x)
    (hq : ∀ ty k, (t.qst ty k).registered = (s.qst ty k).registered)
    (hc : ∀ ty k, (s.qst ty k).registered = true → t.ctxId ty k = s.ctxId ty k) : QmapInv t := by
  intro id ty k
  rw [hl, h id ty k, hq]
  constructor
  · rintro ⟨a, b⟩; exact ⟨a, by rw [hc ty k a]; exact b⟩
  · rintro ⟨a, b⟩; exact ⟨a, by rw [← hc ty k a]; exact b⟩

theorem SameFixed.qmapInv {s t : State} (h : SameFixed s t) (hs : QmapInv s) : QmapInv t :=
  hs.congr (fun x => congrArg (fun m => Tab.find m x) h.qmap) (fun ty k => by rw [h.qst]) fun ty k _ => h.ctxId ty k

/-- A queue that is not registered takes a fresh id. -/
theorem QmapInv.register {s : State} (h : QmapInv s) {t : QType} {j : Nat} {id0 : BitVec 17}
    (hn : (s.qst t j).registered = false) (hf : s.lookup (ctxIdFor t id0).toNat = none) :
    QmapInv (register t j (ctxIdFor t id0) s) := by
  have hq : ∀ ty k, (Machine.register t j (ctxIdFor t id0) s).qst ty k = if t = ty ∧ j = k then .reg else s.qst ty k := by
    intro ty k
    cases t <;> cases ty <;> simp [State.qst, Machine.register, State.setIq_get, State.setFl_get, State.setEq_get] <;>
      split <;> rfl
  have hc : ∀ ty k, (Machine.register t j (ctxIdFor t id0) s).ctxId ty k =
      if t = ty ∧ j = k then ctxIdFor t id0 else s.ctxId ty k := by
    intro ty k
    cases t <;> cases ty <;> simp [State.ctxId, Machine.register, State.setIq_get, State.setFl_get, State.setEq_get, ctxIdFor] <;>
      split <;> simp
  intro x ty k
  rw [register_lookup, hq, hc]
  by_cases hk : t = ty ∧ j = k
  · obtain ⟨rfl, rfl⟩ := hk
    simp only [and_self, if_true]
    by_cases hx : (ctxIdFor t id0).toNat = x
    · simp [hx, QState.registered]
    · simp only [hx, if_false]
      constructor
      · intro e; have := ((h x t j).1 e).1; rw [hn] at this; cases this
      · rintro ⟨_, e⟩; exact absurd e.symm hx
  · rw [if_neg hk, if_neg hk]
    by_cases hx : (ctxIdFor t id0).toNat = x
    · subst hx
      simp only [if_true]
      constructor
      · intro e
        simp only [Option.some.injEq, Sel.mk.injEq] at e
        exact absurd e hk
      · intro e
        have := (h _ ty k).2 e
        rw [hf] at this; cases this
    · rw [if_neg hx]; exact h x ty k

/-- A registered queue goes out of the map with its id. -/
theorem QmapInv.remove {s t : State} (h : QmapInv s) {ty : QType} {j : Nat} (hr : (s.qst ty j).registered = true)
    (hg : (t.qst ty j).registered = false) (hl : ∀ x, t.lookup x = if x = (s.ctxId ty j).toNat then none else s.lookup x)
    (hq : ∀ ty' k, ¬ (ty = ty' ∧ j = k) → t.qst ty' k = s.qst ty' k ∧ t.ctxId ty' k = s.ctxId ty' k) : QmapInv t := by
  intro x ty' k
  rw [hl]
  by_cases hk : ty = ty' ∧ j = k
  · obtain ⟨rfl, rfl⟩ := hk
    rw [hg]
    simp only [Bool.false_eq_true, false_and, iff_false]
    split
    · simp
    · rename_i hx
      intro e
      exact hx ((h x ty j).1 e).2
  · obtain ⟨e1, e2⟩ := hq ty' k hk
    rw [e1, e2, ← h x ty' k]
    split
    · rename_i hx
      constructor
      · intro e; cases e
      · intro e
        have := (h _ ty j).2 ⟨hr, rfl⟩
        rw [← hx, e] at this
        simp only [Option.some.injEq, Sel.mk.injEq] at this
        exact absurd ⟨this.1.symm, this.2.symm⟩ hk
    · exact Iff.rfl

theorem allocEnd_qmapInv {s : State} (h : QmapInv s) (t : QType) (j : Nat) (r : PeerReq)
    (hn : (s.qst t j).registered = false) : QmapInv (allocEnd t j r s) := by
  obtain ⟨u, hc, ⟨v, e⟩ | ⟨id0, hf, e⟩⟩ := allocEnd_cases t j r s
  · rw [e]; exact hc.sameFixed.qmapInv h
  · rw [e]
    have hu := hc.sameFixed.qmapInv h
    exact hu.register (t := t) (j := j) (id0 := id0) (by rw [hc.sameFixed.qst]; exact hn) hf

/-- A change of state between `REG` and `RUN` keeps the map. -/
theorem setSt_qmapInv {s : State} (h : QmapInv s) (t : QType) (j : Nat) (st : QState)
    (hr : (s.qst t j).registered = st.registered) : QmapInv (s.setSt t j st) := by
  refine h.congr (fun x => by cases t <;> rfl) (fun ty k => ?_) fun ty k _ => setSt_ctxId _ _ _ _ _ _
  rw [setSt_qst]
  split
  · rename_i e; obtain ⟨rfl, rfl⟩ := e; exact hr.symm
  · rfl

theorem Untouched.others {ty : QType} {j : Nat} {s t : State} (h : Untouched ty j s t) (ty' : QType) (k : Nat)
    (hk : ¬ (ty = ty' ∧ j = k)) : t.qst ty' k = s.qst ty' k ∧ t.ctxId ty' k = s.ctxId ty' k := by
  have hk' : ty ≠ ty' ∨ k ≠ j := by
    by_cases h1 : ty = ty'
    · exact .inr fun e => hk ⟨h1, e.symm⟩
    · exact .inl h1
  cases ty'
  · simp only [State.qst, State.ctxId, h.iqs k hk', and_self]
  · simp only [State.qst, State.ctxId, h.fls k hk', and_self]
  · simp only [State.qst, State.ctxId, h.eqs k hk', and_self]

/-- The other queues of a torn-down one keep their states and ids. -/
theorem TornDown.others {ty : QType} {j : Nat} {s t : State} (h : TornDown ty j s t) (ty' : QType) (k : Nat)
    (hk : ¬ (ty = ty' ∧ j = k)) : t.qst ty' k = s.qst ty' k ∧ t.ctxId ty' k = s.ctxId ty' k := by
  have hk' : ty ≠ ty' ∨ k ≠ j := by
    by_cases h1 : ty = ty'
    · exact .inr fun e => hk ⟨h1, e.symm⟩
    · exact .inl h1
  cases ty'
  · have := h.iqs k hk'
    simp only [State.qst, State.ctxId, this]
    split <;> exact ⟨rfl, rfl⟩
  · simp only [State.qst, State.ctxId, h.fls k hk', and_self]
  · simp only [State.qst, State.ctxId, h.eqs k hk', and_self]

/-- Writing the record of a queue that is not registered, into a state that is not, keeps the map. -/
theorem QmapInv.fresh {s t : State} (h : QmapInv s) (ty : QType) (j : Nat) (hm : t.qmap = s.qmap)
    (hs : s.qst ty j = .uninit) (ht : t.qst ty j = .mem)
    (ho : ∀ ty' k, ¬ (ty = ty' ∧ j = k) → t.qst ty' k = s.qst ty' k ∧ t.ctxId ty' k = s.ctxId ty' k) : QmapInv t := by
  refine h.congr (fun x => congrArg (fun m => Tab.find m x) hm) (fun ty' k => ?_) fun ty' k hr => ?_
  · by_cases hk : ty = ty' ∧ j = k
    · obtain ⟨rfl, rfl⟩ := hk; rw [hs, ht]; rfl
    · rw [(ho ty' k hk).1]
  · by_cases hk : ty = ty' ∧ j = k
    · obtain ⟨rfl, rfl⟩ := hk; rw [hs] at hr; cases hr
    · exact (ho ty' k hk).2

theorem setIq_others (s : State) (j : Nat) (q : IQ) (ty' : QType) (k : Nat) (hk : ¬ (QType.iq = ty' ∧ j = k)) :
    (s.setIq j q).qst ty' k = s.qst ty' k ∧ (s.setIq j q).ctxId ty' k = s.ctxId ty' k := by
  cases ty'
  · have : j ≠ k := fun e => hk ⟨rfl, e⟩
    simp [State.qst, State.ctxId, State.setIq_get, this]
  · exact ⟨rfl, rfl⟩
  · exact ⟨rfl, rfl⟩

theorem setFl_others (s : State) (j : Nat) (q : FL) (ty' : QType) (k : Nat) (hk : ¬ (QType.fl = ty' ∧ j = k)) :
    (s.setFl j q).qst ty' k = s.qst ty' k ∧ (s.setFl j q).ctxId ty' k = s.ctxId ty' k := by
  cases ty'
  · exact ⟨rfl, rfl⟩
  · have : j ≠ k := fun e => hk ⟨rfl, e⟩
    simp [State.qst, State.ctxId, State.setFl_get, this]
  · exact ⟨rfl, rfl⟩

theorem setEq_others (s : State) (j : Nat) (q : EQ) (ty' : QType) (k : Nat) (hk : ¬ (QType.eq = ty' ∧ j = k)) :
    (s.setEq j q).qst ty' k = s.qst ty' k ∧ (s.setEq j q).ctxId ty' k = s.ctxId ty' k := by
  cases ty'
  · exact ⟨rfl, rfl⟩
  · exact ⟨rfl, rfl⟩
  · have : j ≠ k := fun e => hk ⟨rfl, e⟩
    simp [State.qst, State.ctxId, State.setEq_get, this]

/-- The owner's `fl` field is neither a state nor an id. -/
theorem setIq_fl_same (s : State) (o : Nat) (x : Option Nat) (ty : QType) (k : Nat) :
    (s.setIq o { s.iq o with fl := x }).qst ty k = s.qst ty k ∧
    (s.setIq o { s.iq o with fl := x }).ctxId ty k = s.ctxId ty k := by
  cases ty
  · simp only [State.qst, State.ctxId, State.setIq_get]
    split
    · rename_i e; subst e; exact ⟨rfl, rfl⟩
    · exact ⟨rfl, rfl⟩
  · exact ⟨rfl, rfl⟩
  · exact ⟨rfl, rfl⟩

/-- Every command keeps the queue map. -/
theorem exec_qmapInv {i : Instr} {s t : State} (h : QmapInv s) (he : exec i s = .next t) : QmapInv t := by
  by_cases hl : Instr.isLifecycle i = false
  · obtain ⟨t', e, hf⟩ := exec_sameFixed hl s
    rw [he] at e; cases e
    exact hf.qmapInv h
  cases i with
  | qAllocIq q role tmr pktc esize fwd capM1 tgt =>
    rcases execQAllocIq_cases he with rfl | ⟨hu, _, ⟨u, hc, rfl⟩ | ⟨base, u, v, r, -, hc, rfl, rfl⟩⟩
    · exact h
    · exact hc.sameFixed.qmapInv h
    · have hm : ((u.zeroFill base ((capM1.toNat + 1) * esize.bytes)).setIq q.toNat (freshIq s.cfg (s.iq q.toNat) base
          (capM1.toNat + 1) esize.bytes role tmr pktc fwd tgt)).qst .iq q.toNat = .mem := by
        simp [State.qst, freshIq]
      refine allocEnd_qmapInv ?_ _ _ _ (by rw [hm]; rfl)
      exact (hc.sameFixed.qmapInv h).fresh .iq q.toNat rfl (by rw [hc.sameFixed.qst]; exact hu) hm
        fun ty' k hk => setIq_others (u.zeroFill _ _) _ _ ty' k hk
  | qAllocFl q capM1 iq =>
    rcases execQAllocFl_cases he with rfl | ⟨hu, _, ⟨u, hc, rfl⟩ | ⟨base, u, v, r, -, hc, rfl, rfl⟩⟩
    · exact h
    · exact hc.sameFixed.qmapInv h
    · have e : s.iq iq.toNat = ((u.zeroFill base ((capM1.toNat + 1) * 8)).setFl q.toNat
          (freshFl (s.fl q.toNat) base (capM1.toNat + 1) iq.toNat)).iq iq.toNat := (hc.iq _).symm
      rw [e]
      have hv : ((u.zeroFill base ((capM1.toNat + 1) * 8)).setFl q.toNat
          (freshFl (s.fl q.toNat) base (capM1.toNat + 1) iq.toNat)).qst .fl q.toNat = .mem := by simp [State.qst, freshFl]
      have ho := fun ty' k hk => setFl_others (u.zeroFill base ((capM1.toNat + 1) * 8)) q.toNat
        (freshFl (s.fl q.toNat) base (capM1.toNat + 1) iq.toNat) ty' k hk
      have hmap : ((u.zeroFill base ((capM1.toNat + 1) * 8)).setFl q.toNat
          (freshFl (s.fl q.toNat) base (capM1.toNat + 1) iq.toNat)).qmap = u.qmap := rfl
      generalize (u.zeroFill base ((capM1.toNat + 1) * 8)).setFl q.toNat
          (freshFl (s.fl q.toNat) base (capM1.toNat + 1) iq.toNat) = w at hv ho hmap ⊢
      have hw := setIq_fl_same w iq.toNat (some q.toNat)
      refine allocEnd_qmapInv ?_ _ _ _ (by rw [(hw _ _).1, hv]; rfl)
      refine (hc.sameFixed.qmapInv h).fresh .fl q.toNat hmap (by rw [hc.sameFixed.qst]; exact hu) ((hw _ _).1.trans hv) ?_
      exact fun ty' k hk => ⟨(hw _ _).1.trans (ho ty' k hk).1, (hw _ _).2.trans (ho ty' k hk).2⟩
  | qAllocEq q capM1 iq =>
    rcases execQAllocEq_cases he with rfl | ⟨hu, _, ⟨u, hc, rfl⟩ | ⟨base, cur, u, v, r, -, hc, rfl, rfl⟩⟩
    · exact h
    · exact hc.sameFixed.qmapInv h
    · have hm : ((u.zeroFill base ((capM1.toNat + 1) * 64 + 64)).setEq q.toNat (freshEq (s.eq q.toNat) base
          (capM1.toNat + 1) iq.toNat (txMapsFor s.cfg q.toNat (capM1.toNat + 1)) cur)).qst .eq q.toNat = .mem := by
        simp [State.qst, freshEq]
      refine allocEnd_qmapInv ?_ _ _ _ (by rw [hm]; rfl)
      exact (hc.sameFixed.qmapInv h).fresh .eq q.toNat rfl (by rw [hc.sameFixed.qst]; exact hu) hm
        fun ty' k hk => setEq_others (u.zeroFill _ _) _ _ ty' k hk
  | qStart q ty =>
    rcases execQStart_cases he with rfl | ⟨hst, _, u, hc, ⟨v, rfl⟩ | rfl⟩
    · exact h
    · exact hc.sameFixed.qmapInv h
    · refine (started_sameFixed ty q.toNat _).qmapInv (setSt_qmapInv (hc.sameFixed.qmapInv h) ty q.toNat .run ?_)
      rw [hc.sameFixed.qst, hst]; rfl
  | qStop q ty =>
    rcases execQStop_cases he with rfl | ⟨hst, _, u, hc, ⟨v, rfl⟩ | rfl⟩
    · exact h
    · exact hc.sameFixed.qmapInv h
    · refine (discardFor_sameFixed ty q.toNat _).qmapInv (setSt_qmapInv (hc.sameFixed.qmapInv h) ty q.toNat .reg ?_)
      rw [hc.sameFixed.qst, hst]; rfl
  | qFree q ty =>
    rcases execQFree_cases he with rfl | ⟨hst, _, u, hc, ⟨v, rfl⟩ | rfl⟩
    · exact h
    · exact hc.sameFixed.qmapInv h
    · have hu := hc.sameFixed.qmapInv h
      refine hu.remove (t := ((u.setQmap (Tab.del u.qmap (s.ctxId ty q.toNat).toNat)).setSt ty q.toNat .mem).finish .ok 0)
        (ty := ty) (j := q.toNat) (by rw [hc.sameFixed.qst, hst]; rfl) ?_ (fun x => ?_) fun ty' k hk => ?_
      · show (State.qst (State.setSt _ _ _ _) _ _).registered = _
        rw [setSt_qst]; simp [QState.registered]
      · show (State.setSt _ _ _ _).lookup x = _
        have : ((u.setQmap (Tab.del u.qmap (s.ctxId ty q.toNat).toNat)).setSt ty q.toNat .mem).lookup x =
          (u.setQmap (Tab.del u.qmap (s.ctxId ty q.toNat).toNat)).lookup x := by cases ty <;> rfl
        rw [this, lookup_setQmap_del, hc.sameFixed.ctxId]
      · constructor
        · show (State.setSt _ _ _ _).qst ty' k = _
          rw [setSt_qst, if_neg hk]; rfl
        · show (State.setSt _ _ _ _).ctxId ty' k = _
          rw [setSt_ctxId]; rfl
  | qTeardown q ty =>
    rcases execQTeardown_cases he with rfl | ⟨_, rfl⟩ | ⟨_, _, _, u, n, hd, rfl⟩
    · exact h
    · exact h
    · show QmapInv u
      by_cases hr : (s.qst ty q.toNat).registered = true
      · refine h.remove hr (by rw [hd.gone]; rfl) (fun x => ?_) hd.others
        show Tab.find u.qmap x = _
        rw [hd.qmap, if_pos hr, Tab.find_del]; rfl
      · refine h.congr (fun x => ?_) (fun ty' k => ?_) fun ty' k hk => ?_
        · show Tab.find u.qmap x = _
          rw [hd.qmap, if_neg hr]; rfl
        · by_cases hk : ty = ty' ∧ q.toNat = k
          · obtain ⟨rfl, rfl⟩ := hk; rw [hd.gone]; simp only [Bool.not_eq_true] at hr; rw [hr]; rfl
          · rw [(hd.others ty' k hk).1]
        · by_cases hk' : ty = ty' ∧ q.toNat = k
          · obtain ⟨rfl, rfl⟩ := hk'; exact absurd hk hr
          · exact (hd.others ty' k hk').2
  | _ => exact absurd rfl hl

/-! ### The transitions (R431) -/

/-- An allocation leaves its queue in `MEM` or `REG`, and the other queues in their states. -/
theorem allocEnd_qst (t : QType) (j : Nat) (r : PeerReq) (s : State) (ty : QType) (k : Nat) :
    (allocEnd t j r s).qst ty k = s.qst ty k ∨ (t = ty ∧ j = k ∧ (allocEnd t j r s).qst ty k = .reg) := by
  obtain ⟨u, hc, ⟨v, e⟩ | ⟨id0, _, e⟩⟩ := allocEnd_cases t j r s
  · rw [e]; exact .inl (hc.sameFixed.qst ty k)
  · rw [e]
    by_cases hk : t = ty ∧ j = k
    · obtain ⟨rfl, rfl⟩ := hk
      refine .inr ⟨rfl, rfl, ?_⟩
      cases t <;> simp [State.qst, Machine.register, State.setIq_get, State.setFl_get, State.setEq_get]
    · exact .inl (((register_frame t j _ u).others ty k hk).1.trans (hc.sameFixed.qst ty k))

/-- What a command makes of the states of the queues. -/
theorem exec_moves {i : Instr} {s t : State} (he : exec i s = .next t) (ty : QType) (j : Nat) :
    t.qst ty j = s.qst ty j ∨ (i.qtype = ty ∧ i.qid.toNat = j ∧ lifecycleMove i (s.qst ty j) (t.qst ty j)) := by
  by_cases hl : Instr.isLifecycle i = false
  · obtain ⟨t', e, hf⟩ := exec_sameFixed hl s
    rw [he] at e; cases e
    exact .inl (hf.qst ty j)
  -- an allocation, from the state `v` it hands to its end
  have alloc : ∀ (ty0 : QType) (j0 : Nat) (r : PeerReq) (v : State), s.qst ty0 j0 = .uninit → v.qst ty0 j0 = .mem →
      (∀ ty' k, ¬ (ty0 = ty' ∧ j0 = k) → v.qst ty' k = s.qst ty' k) →
      (allocEnd ty0 j0 r v).qst ty j = s.qst ty j ∨ (ty0 = ty ∧ j0 = j ∧ s.qst ty j = .uninit ∧
        ((allocEnd ty0 j0 r v).qst ty j = .mem ∨ (allocEnd ty0 j0 r v).qst ty j = .reg)) := by
    intro ty0 j0 r v hu hm ho
    by_cases hk : ty0 = ty ∧ j0 = j
    · obtain ⟨rfl, rfl⟩ := hk
      refine .inr ⟨rfl, rfl, hu, ?_⟩
      rcases allocEnd_qst ty0 j0 r v ty0 j0 with e | ⟨_, _, e⟩
      · exact .inl (e.trans hm)
      · exact .inr e
    · rcases allocEnd_qst ty0 j0 r v ty j with e | ⟨e1, e2, _⟩
      · exact .inl (e.trans (ho ty j hk))
      · exact absurd ⟨e1, e2⟩ hk
  have move : ∀ (ty0 : QType) (j0 : Nat) (st st' : QState) (u v : State), OnlyCalls s u → s.qst ty0 j0 = st →
      (∀ ty k, v.qst ty k = (u.setSt ty0 j0 st').qst ty k) →
      v.qst ty j = s.qst ty j ∨ (ty0 = ty ∧ j0 = j ∧ s.qst ty j = st ∧ v.qst ty j = st') := by
    intro ty0 j0 st st' u v hc hs hv
    rw [hv, setSt_qst]
    by_cases hk : ty0 = ty ∧ j0 = j
    · obtain ⟨rfl, rfl⟩ := hk
      exact .inr ⟨rfl, rfl, hs, by simp⟩
    · rw [if_neg hk]; exact .inl (hc.sameFixed.qst ty j)
  cases i with
  | qAllocIq q role tmr pktc esize fwd capM1 tgt =>
    rcases execQAllocIq_cases he with rfl | ⟨hu, _, ⟨u, hc, rfl⟩ | ⟨base, u, v, r, -, hc, rfl, rfl⟩⟩
    · exact .inl rfl
    · exact .inl (hc.sameFixed.qst ty j)
    · exact alloc .iq q.toNat r _ hu (by simp [State.qst, freshIq]) fun ty' k hk =>
        (setIq_others (u.zeroFill _ _) _ _ ty' k hk).1.trans (hc.sameFixed.qst ty' k)
  | qAllocFl q capM1 iq =>
    rcases execQAllocFl_cases he with rfl | ⟨hu, _, ⟨u, hc, rfl⟩ | ⟨base, u, v, r, -, hc, rfl, rfl⟩⟩
    · exact .inl rfl
    · exact .inl (hc.sameFixed.qst ty j)
    · have e : s.iq iq.toNat = ((u.zeroFill base ((capM1.toNat + 1) * 8)).setFl q.toNat
          (freshFl (s.fl q.toNat) base (capM1.toNat + 1) iq.toNat)).iq iq.toNat := (hc.iq _).symm
      rw [e]
      refine alloc .fl q.toNat r _ hu ?_ fun ty' k hk => ?_
      · rw [(setIq_fl_same _ _ _ _ _).1]; simp [State.qst, freshFl]
      · rw [(setIq_fl_same _ _ _ _ _).1]
        exact (setFl_others (u.zeroFill _ _) _ _ ty' k hk).1.trans (hc.sameFixed.qst ty' k)
  | qAllocEq q capM1 iq =>
    rcases execQAllocEq_cases he with rfl | ⟨hu, _, ⟨u, hc, rfl⟩ | ⟨base, cur, u, v, r, -, hc, rfl, rfl⟩⟩
    · exact .inl rfl
    · exact .inl (hc.sameFixed.qst ty j)
    · exact alloc .eq q.toNat r _ hu (by simp [State.qst, freshEq]) fun ty' k hk =>
        (setEq_others (u.zeroFill _ _) _ _ ty' k hk).1.trans (hc.sameFixed.qst ty' k)
  | qStart q ty0 =>
    rcases execQStart_cases he with rfl | ⟨hst, _, u, hc, ⟨v, rfl⟩ | rfl⟩
    · exact .inl rfl
    · exact .inl (hc.sameFixed.qst ty j)
    · exact move ty0 q.toNat .reg .run u _ hc hst (started_sameFixed ty0 q.toNat _).qst
  | qStop q ty0 =>
    rcases execQStop_cases he with rfl | ⟨hst, _, u, hc, ⟨v, rfl⟩ | rfl⟩
    · exact .inl rfl
    · exact .inl (hc.sameFixed.qst ty j)
    · exact move ty0 q.toNat .run .reg u _ hc hst (discardFor_sameFixed ty0 q.toNat _).qst
  | qFree q ty0 =>
    rcases execQFree_cases he with rfl | ⟨hst, _, u, hc, ⟨v, rfl⟩ | rfl⟩
    · exact .inl rfl
    · exact .inl (hc.sameFixed.qst ty j)
    · refine move ty0 q.toNat .reg .mem u _ hc hst fun ty k => ?_
      show (State.setSt _ _ _ _).qst ty k = _
      rw [setSt_qst, setSt_qst]; rfl
  | qTeardown q ty0 =>
    rcases execQTeardown_cases he with rfl | ⟨_, rfl⟩ | ⟨_, _, _, u, n, hd, rfl⟩
    · exact .inl rfl
    · exact .inl rfl
    · by_cases hk : ty0 = ty ∧ q.toNat = j
      · obtain ⟨rfl, rfl⟩ := hk
        exact .inr ⟨rfl, rfl, hd.gone⟩
      · exact .inl (hd.others ty j hk).1
  | _ => exact absurd rfl hl

/-! ### The dependencies (R422) -/

/-- Changes of states keep the dependencies when no queue loses its memory, every queue that others need stays registered, and
the free list of a running RX queue runs. -/
theorem DepInv.moves {s t : State} (h : DepInv s) (hl : SameLinks s t)
    (hu : ∀ ty k, (t.qst ty k = .uninit ↔ s.qst ty k = .uninit))
    (hreg : ∀ k, (s.iq k).st.registered = true → (t.iq k).st.registered = true ∨
      ((∀ e, (s.eq e).st ≠ .uninit → (s.eq e).iq ≠ k) ∧
       ∀ i, (s.iq i).st ≠ .uninit → (s.iq i).fwd = true → (s.iq i).tgt.toNat ≠ k))
    (hrun : ∀ i, (t.iq i).st = .run → (s.iq i).role = .rx → ∃ f, (s.iq i).fl = some f ∧ (t.fl f).st = .run) : DepInv t where
  fl_owner f hf := by
    have hf' : (s.fl f).st ≠ .uninit := fun e => hf ((hu .fl f).2 e)
    obtain ⟨a, b, c⟩ := h.fl_owner f hf'
    rw [hl.fl f]
    exact ⟨fun e => a ((hu .iq _).1 e), (hl.iq _).1.trans b, (hl.iq _).2.1.trans c⟩
  iq_fl i f hi he := by
    have hi' : (s.iq i).st ≠ .uninit := fun e => hi ((hu .iq i).2 e)
    obtain ⟨a, b⟩ := h.iq_fl i f hi' ((hl.iq i).2.1.symm.trans he)
    exact ⟨fun e => a ((hu .fl f).1 e), (hl.fl f).trans b⟩
  rx_run i hi hr := by
    obtain ⟨f, a, b⟩ := hrun i hi ((hl.iq i).1.symm.trans hr)
    exact ⟨f, (hl.iq i).2.1.trans a, b⟩
  eq_iq e he := by
    have he' : (s.eq e).st ≠ .uninit := fun x => he ((hu .eq e).2 x)
    rw [hl.eq e]
    exact (hreg _ (h.eq_iq e he')).resolve_right fun x => x.1 e he' rfl
  iq_fwd i hi hf := by
    have hi' : (s.iq i).st ≠ .uninit := fun x => hi ((hu .iq i).2 x)
    have hf' := (hl.iq i).2.2.1.symm.trans hf
    obtain ⟨a, b⟩ := h.iq_fwd i hi' hf'
    rw [(hl.iq i).2.2.2]
    exact ⟨(hl.iq _).1.trans a, (hreg _ b).resolve_right fun x => x.2 i hi' hf' rfl⟩

theorem SameFixed.depInv {s t : State} (h : SameFixed s t) (hs : DepInv s) : DepInv t := by
  have hi : ∀ k, (t.iq k).st = (s.iq k).st := fun k => h.qst .iq k
  have hf : ∀ k, (t.fl k).st = (s.fl k).st := fun k => h.qst .fl k
  refine hs.moves h.links (fun ty k => by rw [h.qst]) (fun k hk => .inl (by rw [hi]; exact hk)) fun i hr hx => ?_
  rw [hi] at hr
  obtain ⟨f, a, b⟩ := hs.rx_run i hr hx
  exact ⟨f, a, by rw [hf]; exact b⟩

theorem register_links (t : QType) (j : Nat) (id : BitVec 17) (s : State) : SameLinks s (register t j id s) := by
  cases t
  · refine ⟨fun k => ?_, fun _ => rfl, fun _ => rfl⟩
    rw [register_iq]; by_cases h : j = k <;> simp [h]
  · refine ⟨fun _ => ⟨rfl, rfl, rfl, rfl⟩, fun k => ?_, fun _ => rfl⟩
    rw [register_fl]; by_cases h : j = k <;> simp [h]
  · refine ⟨fun _ => ⟨rfl, rfl, rfl, rfl⟩, fun _ => rfl, fun k => ?_⟩
    rw [register_eq]; by_cases h : j = k <;> simp [h]

theorem register_qst (t : QType) (j : Nat) (id : BitVec 17) (s : State) (ty : QType) (k : Nat) :
    (register t j id s).qst ty k = if t = ty ∧ j = k then .reg else s.qst ty k := by
  cases t <;> cases ty <;> simp [State.qst, Machine.register, State.setIq_get, State.setFl_get, State.setEq_get] <;>
    split <;> rfl

theorem DepInv.finish {s : State} (h : DepInv s) (rc : RC) (v : Nat) : DepInv (s.finish rc v) :=
  ⟨h.fl_owner, h.iq_fl, h.rx_run, h.eq_iq, h.iq_fwd⟩

/-- The end of an allocation keeps the dependencies. -/
theorem allocEnd_depInv {s : State} (h : DepInv s) (t : QType) (j : Nat) (r : PeerReq) (hm : s.qst t j = .mem) :
    DepInv (allocEnd t j r s) := by
  obtain ⟨u, hc, ⟨v, e⟩ | ⟨id0, _, e⟩⟩ := allocEnd_cases t j r s
  · rw [e]; exact (hc.sameFixed.depInv h).finish _ _
  · rw [e]
    have hu := hc.sameFixed.depInv h
    have hm' : u.qst t j = .mem := (hc.sameFixed.qst t j).trans hm
    have hq := register_qst t j (ctxIdFor t id0) u
    refine (DepInv.moves (t := register t j (ctxIdFor t id0) u) hu (register_links _ _ _ _) (fun ty k => ?_)
      (fun k hk => .inl ?_) fun i hi hr => ?_).finish _ _
    · rw [hq]; split
      · rename_i x; obtain ⟨rfl, rfl⟩ := x; rw [hm']; simp
      · exact Iff.rfl
    · have := hq .iq k
      show ((register t j _ u).qst .iq k).registered = true
      rw [this]; split
      · rfl
      · exact hk
    · have hi' : (register t j (ctxIdFor t id0) u).qst .iq i = .run := hi
      rw [hq] at hi'
      split at hi'
      · cases hi'
      · obtain ⟨f, a, b⟩ := hu.rx_run i hi' hr
        refine ⟨f, a, ?_⟩
        show (register t j _ u).qst .fl f = .run
        rw [hq]; split
        · rename_i x; obtain ⟨rfl, rfl⟩ := x
          have : u.qst .fl j = .run := b
          rw [hm'] at this; cases this
        · exact b

/-- Changing the state of one queue between states with memory. -/
theorem setSt_depInv {s : State} (h : DepInv s) (ty : QType) (j : Nat) (st : QState) (hm : s.qst ty j ≠ .uninit)
    (hst : st ≠ .uninit)
    (hreg : ty = .iq → st.registered = true ∨ ((∀ e, (s.eq e).st ≠ .uninit → (s.eq e).iq ≠ j) ∧
       ∀ i, (s.iq i).st ≠ .uninit → (s.iq i).fwd = true → (s.iq i).tgt.toNat ≠ j))
    (hrun : ty = .iq → st = .run → (s.iq j).role = .rx → ∃ f, (s.iq j).fl = some f ∧ (s.fl f).st = .run)
    (hfl : ty = .fl → st = .run ∨ (s.iq (s.fl j).owner).st ≠ .run) : DepInv (s.setSt ty j st) := by
  have hq := setSt_qst s ty j st
  refine h.moves (setSt_links s ty j st) (fun ty' k => ?_) (fun k hk => ?_) fun i hi hr => ?_
  · rw [hq]; split
    · rename_i x; obtain ⟨rfl, rfl⟩ := x; exact ⟨fun e => absurd e hst, fun e => absurd e hm⟩
    · exact Iff.rfl
  · have hk' : ((s.setSt ty j st).iq k).st = if ty = .iq ∧ j = k then st else s.qst .iq k := hq .iq k
    by_cases hx : ty = .iq ∧ j = k
    · obtain ⟨rfl, rfl⟩ := hx
      rw [hk', if_pos ⟨rfl, rfl⟩]
      exact hreg rfl
    · rw [hk', if_neg hx]; exact .inl hk
  · have hi' : (s.setSt ty j st).qst .iq i = .run := hi
    rw [hq] at hi'
    have key : ∃ f, (s.iq i).fl = some f ∧ (s.fl f).st = .run := by
      split at hi'
      · rename_i x; obtain ⟨rfl, rfl⟩ := x; exact hrun rfl hi' hr
      · exact h.rx_run i hi' hr
    obtain ⟨f, a, b⟩ := key
    refine ⟨f, a, ?_⟩
    show (s.setSt ty j st).qst .fl f = .run
    rw [hq]
    split
    · rename_i x
      obtain ⟨rfl, rfl⟩ := x
      rcases hfl rfl with e | e
      · exact e
      · have hi2 : (s.iq i).st = .run := by simpa [State.qst] using hi'
        have := (h.iq_fl i j (by rw [hi2]; simp) a).2
        rw [this] at e
        exact absurd hi2 e
    · exact b

theorem freshIq_depInv {s : State} (h : DepInv s) {q : IQ} {j : Nat} (hu : (s.iq j).st = .uninit) (hm : q.st = .mem)
    (hf : q.fl = none) (hw : q.fwd = true → (s.iq q.tgt.toNat).role = .intrFwd ∧ (s.iq q.tgt.toNat).st.registered = true) :
    DepInv (s.setIq j q) := by
  have ne : ∀ k, (s.iq k).st ≠ .uninit → (s.setIq j q).iq k = s.iq k := fun k hk =>
    State.setIq_ne _ _ fun e => hk (e ▸ hu)
  have reg : ∀ k, (s.iq k).st.registered = true → (s.setIq j q).iq k = s.iq k := fun k hk =>
    ne k fun e => by rw [e] at hk; cases hk
  have old : ∀ i, (s.setIq j q).iq i = q ∨ ((s.setIq j q).iq i = s.iq i ∧ i ≠ j) := fun i => by
    rw [State.setIq_get]
    split
    · exact .inl rfl
    · rename_i e; exact .inr ⟨rfl, fun x => e x.symm⟩
  refine ⟨fun f hfl => ?_, fun i f hi he => ?_, fun i hi hr => ?_, fun e he => ?_, fun i hi he => ?_⟩
  · obtain ⟨a, b, c⟩ := h.fl_owner f hfl
    have := ne _ a
    show ((s.setIq j q).iq (s.fl f).owner).st ≠ _ ∧ _
    exact ⟨by rw [this]; exact a, (congrArg IQ.role this).trans b, (congrArg IQ.fl this).trans c⟩
  · rcases old i with e | ⟨e, _⟩
    · rw [e, hf] at he; cases he
    · rw [e] at hi he; exact h.iq_fl i f hi he
  · rcases old i with e | ⟨e, _⟩
    · rw [e, hm] at hi; cases hi
    · rw [e] at hi hr ⊢; exact h.rx_run i hi hr
  · have := h.eq_iq e he
    show ((s.setIq j q).iq (s.eq e).iq).st.registered = true
    rw [reg _ this]; exact this
  · rcases old i with e | ⟨e, _⟩
    · rw [e] at he ⊢
      obtain ⟨a, b⟩ := hw he
      rw [reg _ b]; exact ⟨a, b⟩
    · rw [e] at hi he ⊢
      obtain ⟨a, b⟩ := h.iq_fwd i hi he
      rw [reg _ b]; exact ⟨a, b⟩

theorem freshFl_depInv {s : State} (h : DepInv s) {f : FL} {j o : Nat} (hu : (s.fl j).st = .uninit) (hm : f.st = .mem)
    (ho : f.owner = o) (hr : (s.iq o).role = .rx) (hs : (s.iq o).st = .mem ∨ (s.iq o).st = .reg) (hn : (s.iq o).fl = none) :
    DepInv ((s.setFl j f).setIq o { s.iq o with fl := some j }) := by
  have hou : (s.iq o).st ≠ .uninit := by rcases hs with e | e <;> rw [e] <;> simp
  have hiq : ∀ i, ((s.setFl j f).setIq o { s.iq o with fl := some j }).iq i =
      if o = i then { s.iq o with fl := some j } else s.iq i := fun i => State.setIq_get _ _ _ _
  have hfl : ∀ i, ((s.setFl j f).setIq o { s.iq o with fl := some j }).fl i = if j = i then f else s.fl i :=
    fun i => State.setFl_get _ _ _ _
  have st : ∀ i, (((s.setFl j f).setIq o { s.iq o with fl := some j }).iq i).st = (s.iq i).st ∧
      (((s.setFl j f).setIq o { s.iq o with fl := some j }).iq i).role = (s.iq i).role ∧
      (((s.setFl j f).setIq o { s.iq o with fl := some j }).iq i).fwd = (s.iq i).fwd ∧
      (((s.setFl j f).setIq o { s.iq o with fl := some j }).iq i).tgt = (s.iq i).tgt := fun i => by
    rw [hiq]; split
    · rename_i e; subst e; exact ⟨rfl, rfl, rfl, rfl⟩
    · exact ⟨rfl, rfl, rfl, rfl⟩
  refine ⟨fun k hk => ?_, fun i k hi he => ?_, fun i hi hx => ?_, fun e he => ?_, fun i hi he => ?_⟩
  · rw [hfl] at hk ⊢
    by_cases e : j = k
    · subst e
      simp only [if_true, ho] at hk ⊢
      rw [hiq, if_pos rfl]
      exact ⟨hou, hr, rfl⟩
    · rw [if_neg e] at hk ⊢
      obtain ⟨a, b, c⟩ := h.fl_owner k hk
      refine ⟨by rw [(st _).1]; exact a, (st _).2.1.trans b, ?_⟩
      rw [hiq, if_neg]
      · exact c
      · intro x; rw [← x, hn] at c; cases c
  · rw [(st i).1] at hi
    rw [hiq] at he
    rw [hfl]
    by_cases e : o = i
    · subst e
      simp only [if_true, Option.some.injEq] at he
      subst he
      rw [if_pos rfl]
      exact ⟨by rw [hm]; simp, ho⟩
    · rw [if_neg e] at he
      obtain ⟨a, b⟩ := h.iq_fl i k hi he
      rw [if_neg]
      · exact ⟨a, b⟩
      · intro x; rw [← x] at a; exact a hu
  · rw [(st i).1] at hi
    rw [(st i).2.1] at hx
    obtain ⟨k, a, b⟩ := h.rx_run i hi hx
    have e : o ≠ i := by rintro rfl; rw [hn] at a; cases a
    refine ⟨k, by rw [hiq, if_neg e]; exact a, ?_⟩
    rw [hfl, if_neg]
    · exact b
    · intro x; rw [← x, hu] at b; cases b
  · have := h.eq_iq e he
    show (((s.setFl j f).setIq o { s.iq o with fl := some j }).iq (s.eq e).iq).st.registered = true
    rw [(st _).1]; exact this
  · rw [(st i).1] at hi
    rw [(st i).2.2.1] at he
    rw [(st i).2.2.2]
    obtain ⟨a, b⟩ := h.iq_fwd i hi he
    exact ⟨(st _).2.1.trans a, by rw [(st _).1]; exact b⟩

theorem freshEq_depInv {s : State} (h : DepInv s) {e : EQ} {j : Nat} (hr : (s.iq e.iq).st.registered = true) :
    DepInv (s.setEq j e) := by
  refine ⟨h.fl_owner, h.iq_fl, h.rx_run, fun k hk => ?_, h.iq_fwd⟩
  rw [State.setEq_get] at hk ⊢
  split
  · exact hr
  · rename_i x; rw [if_neg x] at hk; exact h.eq_iq k hk

theorem torn_depInv {s u : State} (h : DepInv s) {ty : QType} {j : Nat} (ht : TornDown ty j s u) (hm : s.qst ty j ≠ .uninit)
    (hs : canStop ty j s = true) (hf : canFree ty j s = true) : DepInv u := by
  have hiq : ∀ k, (ty ≠ .iq ∨ k ≠ j) → (u.iq k).st = (s.iq k).st ∧ (u.iq k).role = (s.iq k).role ∧
      (u.iq k).fwd = (s.iq k).fwd ∧ (u.iq k).tgt = (s.iq k).tgt := fun k hk => by
    rw [ht.iqs k hk]; split <;> exact ⟨rfl, rfl, rfl, rfl⟩
  have gone : ∀ k, ty = .iq → (u.iq k).st ≠ .uninit → k ≠ j := by
    rintro k rfl hk rfl
    exact hk ht.gone
  have alive : ∀ k, (u.iq k).st ≠ .uninit → ty ≠ .iq ∨ k ≠ j := fun k hk => by
    by_cases e : ty = .iq
    · exact .inr (gone k e hk)
    · exact .inl e
  have flAlive : ∀ k, (u.fl k).st ≠ .uninit → ty ≠ .fl ∨ k ≠ j := fun k hk => by
    by_cases e : ty = .fl
    · refine .inr ?_
      rintro rfl
      subst e
      exact hk ht.gone
    · exact .inl e
  have eqAlive : ∀ k, (u.eq k).st ≠ .uninit → ty ≠ .eq ∨ k ≠ j := fun k hk => by
    by_cases e : ty = .eq
    · refine .inr ?_
      rintro rfl
      subst e
      exact hk ht.gone
    · exact .inl e
  have free : ty = .iq → (∀ f, (s.fl f).st ≠ .uninit → (s.fl f).owner ≠ j) ∧ (∀ e, (s.eq e).st ≠ .uninit → (s.eq e).iq ≠ j) ∧
      ∀ i, (s.iq i).st ≠ .uninit → (s.iq i).fwd = true → (s.iq i).tgt.toNat ≠ j := by
    rintro rfl
    simp only [canFree, Bool.and_eq_true] at hf
    exact ⟨(noFlDepends_iff j s).1 hf.1.1, (noEqDepends_iff j s).1 hf.1.2, (noIqDepends_iff j s).1 hf.2⟩
  have need : ∀ k, (ty = .iq → k ≠ j) → ty ≠ .iq ∨ k ≠ j := fun k hk => by
    by_cases e : ty = .iq
    · exact .inr (hk e)
    · exact .inl e
  refine ⟨fun f hfl => ?_, fun i f hi he => ?_, fun i hi hr => ?_, fun e he => ?_, fun i hi he => ?_⟩
  · have ha := flAlive f hfl
    rw [ht.fls f ha] at hfl ⊢
    obtain ⟨a, b, c⟩ := h.fl_owner f hfl
    have ho := need (s.fl f).owner fun e => (free e).1 f hfl
    refine ⟨by rw [(hiq _ ho).1]; exact a, (hiq _ ho).2.1.trans b, ?_⟩
    rw [ht.iqs _ ho, if_neg]
    · exact c
    · rintro ⟨rfl, e⟩
      have hjf : (s.iq (s.fl f).owner).fl = some f := c
      have := (h.fl_owner j hm).2.2
      rw [e, c] at this
      exact (ha.resolve_left (by simp)) (Option.some.inj this)
  · have ha := alive i hi
    rw [(hiq i ha).1] at hi
    rw [ht.iqs i ha] at he
    split at he
    · cases he
    · rename_i hx
      obtain ⟨a, b⟩ := h.iq_fl i f hi he
      have hfa : ty ≠ .fl ∨ f ≠ j := by
        by_cases e : ty = .fl
        · refine .inr ?_
          rintro rfl
          exact hx ⟨e, b⟩
        · exact .inl e
      rw [ht.fls f hfa]
      exact ⟨a, b⟩
  · have ha := alive i (by rw [hi]; simp)
    rw [(hiq i ha).1] at hi
    rw [(hiq i ha).2.1] at hr
    obtain ⟨f, a, b⟩ := h.rx_run i hi hr
    have hfa : ty ≠ .fl ∨ f ≠ j := by
      by_cases e : ty = .fl
      · refine .inr ?_
        rintro rfl
        subst e
        have hb := (h.iq_fl i f (by rw [hi]; simp) a).2
        simp only [canStop, decide_eq_true_eq] at hs
        rw [hb] at hs
        exact hs hi
      · exact .inl e
    refine ⟨f, ?_, by rw [ht.fls f hfa]; exact b⟩
    rw [ht.iqs i ha, if_neg]
    · exact a
    · rintro ⟨rfl, e⟩
      simp only [canStop, decide_eq_true_eq] at hs
      rw [e] at hs
      exact hs hi
  · have ha := eqAlive e he
    rw [ht.eqs e ha] at he ⊢
    have ho := need (s.eq e).iq fun x => (free x).2.1 e he
    rw [(hiq _ ho).1]
    exact h.eq_iq e he
  · have ha := alive i hi
    rw [(hiq i ha).1] at hi
    rw [(hiq i ha).2.2.1] at he
    rw [(hiq i ha).2.2.2]
    have ho := need (s.iq i).tgt.toNat fun x => (free x).2.2 i hi he
    obtain ⟨a, b⟩ := h.iq_fwd i hi he
    exact ⟨(hiq _ ho).2.1.trans a, by rw [(hiq _ ho).1]; exact b⟩

/-- Every command keeps the dependencies. -/
theorem exec_depInv {i : Instr} {s t : State} (h : DepInv s) (he : exec i s = .next t) : DepInv t := by
  by_cases hl : Instr.isLifecycle i = false
  · obtain ⟨t', e, hf⟩ := exec_sameFixed hl s
    rw [he] at e; cases e
    exact hf.depInv h
  cases i with
  | qAllocIq q role tmr pktc esize fwd capM1 tgt =>
    rcases execQAllocIq_cases he with rfl | ⟨hu, hw, ⟨u, hc, rfl⟩ | ⟨base, u, v, r, -, hc, rfl, rfl⟩⟩
    · exact h.finish _ _
    · exact (hc.sameFixed.depInv h).finish _ _
    · have hz : DepInv (u.zeroFill base ((capM1.toNat + 1) * esize.bytes)) := by
        have := hc.sameFixed.depInv h
        exact ⟨this.fl_owner, this.iq_fl, this.rx_run, this.eq_iq, this.iq_fwd⟩
      refine allocEnd_depInv (freshIq_depInv hz ?_ rfl rfl fun hf => ?_) _ _ _ (by simp [State.qst, freshIq])
      · show (u.iq q.toNat).st = _; rw [hc.iq]; exact hu
      · show (u.iq tgt.toNat).role = _ ∧ (u.iq tgt.toNat).st.registered = true
        rw [hc.iq]
        have hf' : fwd = true := hf
        simpa [fwdOk, hf'] using hw
  | qAllocFl q capM1 iq =>
    rcases execQAllocFl_cases he with rfl | ⟨hu, hw, ⟨u, hc, rfl⟩ | ⟨base, u, v, r, -, hc, rfl, rfl⟩⟩
    · exact h.finish _ _
    · exact (hc.sameFixed.depInv h).finish _ _
    · have hz : DepInv (u.zeroFill base ((capM1.toNat + 1) * 8)) := by
        have := hc.sameFixed.depInv h
        exact ⟨this.fl_owner, this.iq_fl, this.rx_run, this.eq_iq, this.iq_fwd⟩
      have e : s.iq iq.toNat = (u.zeroFill base ((capM1.toNat + 1) * 8)).iq iq.toNat := (hc.iq _).symm
      have ef : s.fl q.toNat = (u.zeroFill base ((capM1.toNat + 1) * 8)).fl q.toNat := (hc.fl _).symm
      simp only [ownerOk, Bool.and_eq_true, decide_eq_true_eq, Option.isNone_iff_eq_none] at hw
      rw [e] at hw ⊢
      rw [ef] at hu
      exact allocEnd_depInv (freshFl_depInv (o := iq.toNat) hz hu rfl rfl hw.1.1 hw.1.2 hw.2) _ _ _ (by
        show ((State.setFl _ _ _).fl q.toNat).st = .mem
        rw [State.setFl_same]; rfl)
  | qAllocEq q capM1 iq =>
    rcases execQAllocEq_cases he with rfl | ⟨hu, hw, ⟨u, hc, rfl⟩ | ⟨base, cur, u, v, r, -, hc, rfl, rfl⟩⟩
    · exact h.finish _ _
    · exact (hc.sameFixed.depInv h).finish _ _
    · have hz : DepInv (u.zeroFill base ((capM1.toNat + 1) * 64 + 64)) := by
        have := hc.sameFixed.depInv h
        exact ⟨this.fl_owner, this.iq_fl, this.rx_run, this.eq_iq, this.iq_fwd⟩
      refine allocEnd_depInv (freshEq_depInv hz ?_) _ _ _ (by simp [State.qst, freshEq])
      show (u.iq iq.toNat).st.registered = true
      rw [hc.iq]
      simp only [notifyOk, Bool.and_eq_true] at hw
      exact hw.2
  | qStart q ty =>
    rcases execQStart_cases he with rfl | ⟨hst, hs, u, hc, ⟨v, rfl⟩ | rfl⟩
    · exact h.finish _ _
    · exact (hc.sameFixed.depInv h).finish _ _
    · refine ((started_sameFixed ty q.toNat _).depInv (setSt_depInv (hc.sameFixed.depInv h) ty q.toNat .run ?_ (by simp)
        (fun _ => .inl rfl) ?_ fun _ => .inl rfl)).finish _ _
      · rw [hc.sameFixed.qst, hst]; simp
      · rintro rfl _ hr
        rw [hc.iq] at hr ⊢
        cases hf : (s.iq q.toNat).fl with
        | none => simp [canStart, hr, hf] at hs
        | some f => exact ⟨f, rfl, by rw [hc.fl]; simpa [canStart, hr, hf] using hs⟩
  | qStop q ty =>
    rcases execQStop_cases he with rfl | ⟨hst, hs, u, hc, ⟨v, rfl⟩ | rfl⟩
    · exact h.finish _ _
    · exact (hc.sameFixed.depInv h).finish _ _
    · refine ((discardFor_sameFixed ty q.toNat _).depInv (setSt_depInv (hc.sameFixed.depInv h) ty q.toNat .reg ?_ (by simp)
        (fun _ => .inl rfl) (fun _ e => by cases e) ?_)).finish _ _
      · rw [hc.sameFixed.qst, hst]; simp
      · rintro rfl
        refine .inr ?_
        rw [hc.fl, hc.iq]
        simpa [canStop] using hs
  | qFree q ty =>
    rcases execQFree_cases he with rfl | ⟨hst, hs, u, hc, ⟨v, rfl⟩ | rfl⟩
    · exact h.finish _ _
    · exact (hc.sameFixed.depInv h).finish _ _
    · have hu := hc.sameFixed.depInv h
      have hz : DepInv (u.setQmap (Tab.del u.qmap (s.ctxId ty q.toNat).toNat)) :=
        ⟨hu.fl_owner, hu.iq_fl, hu.rx_run, hu.eq_iq, hu.iq_fwd⟩
      refine (setSt_depInv hz ty q.toNat .mem ?_ (by simp) ?_ (fun _ e => by cases e) ?_).finish _ _
      · show u.qst ty q.toNat ≠ _
        rw [hc.sameFixed.qst, hst]; simp
      · rintro rfl
        refine .inr ?_
        simp only [canFree, Bool.and_eq_true] at hs
        have h1 := (noEqDepends_iff _ _).1 hs.1.2
        have h2 := (noIqDepends_iff _ _).1 hs.2
        refine ⟨fun e he' => ?_, fun i hi' hf => ?_⟩
        · have he2 : (u.eq e).st ≠ .uninit := he'
          show (u.eq e).iq ≠ _
          rw [hc.eqr] at he2 ⊢
          exact h1 e he2
        · have hi2 : (u.iq i).st ≠ .uninit := hi'
          have hf2 : (u.iq i).fwd = true := hf
          show (u.iq i).tgt.toNat ≠ _
          rw [hc.iq] at hi2 hf2 ⊢
          exact h2 i hi2 hf2
      · rintro rfl
        refine .inr ?_
        show (u.iq (u.fl q.toNat).owner).st ≠ _
        rw [hc.fl, hc.iq]
        simpa [canFree] using hs
  | qTeardown q ty =>
    rcases execQTeardown_cases he with rfl | ⟨_, rfl⟩ | ⟨hm, hs, hf, u, n, hd, rfl⟩
    · exact h.finish _ _
    · exact h.finish _ _
    · exact (torn_depInv h hd hm hs hf).finish _ _
  | _ => exact absurd rfl hl

end Sys2Proof.Machine
end

