-- ==== Sys2Proof/Laws/Blocks.lean ====
section
/-! SUPPORT. No two queues share ring memory (R102), from command to command: only an allocation gives a queue memory, and HOST
gives it apart from the memory of every other. -/

namespace Sys2Proof.Machine

/-- Every queue's memory stands where it stood. -/
structure SameBlocks (s t : State) : Prop where
  base  : ∀ ty k, t.baseOf ty k = s.baseOf ty k
  bytes : ∀ ty k, t.blockBytes ty k = s.blockBytes ty k

theorem SameBlocks.trans {s t u : State} (h : SameBlocks s t) (h' : SameBlocks t u) : SameBlocks s u :=
  ⟨fun ty k => (h'.base ty k).trans (h.base ty k), fun ty k => (h'.bytes ty k).trans (h.bytes ty k)⟩

theorem SameFixed.blocks {s t : State} (h : SameFixed s t) : SameBlocks s t := by
  have hi := fun k => h.iq k
  have hf := fun k => h.fl k
  have he := fun k => h.eq k
  simp only [IQ.fixed, FL.fixed, EQ.fixed, Prod.mk.injEq] at hi hf he
  constructor <;> intro ty k <;> cases ty <;> simp only [State.baseOf, State.blockBytes, hi, hf, he]

theorem OnlyCalls.blocks {s t : State} (h : OnlyCalls s t) : SameBlocks s t := h.sameFixed.blocks

theorem setSt_blocks (s : State) (t : QType) (j : Nat) (st : QState) : SameBlocks s (s.setSt t j st) := by
  constructor <;> intro ty k <;> cases t <;> cases ty <;>
    simp only [State.baseOf, State.blockBytes, State.setSt, State.setIq_get, State.setFl_get, State.setEq_get,
      State.setIq_get_fl, State.setIq_get_eq, State.setFl_get_iq, State.setFl_get_eq, State.setEq_get_iq, State.setEq_get_fl] <;>
    split <;> simp_all

theorem register_blocks (t : QType) (j : Nat) (id : BitVec 17) (s : State) : SameBlocks s (register t j id s) := by
  constructor <;> intro ty k <;> cases t <;> cases ty <;>
    simp only [register, State.baseOf, State.blockBytes, State.setPeerIq_get_iq, State.setPeerIq_get_fl, State.setPeerIq_get_eq,
      State.setPeerFl_get_iq, State.setPeerFl_get_fl, State.setPeerFl_get_eq, State.setPeerEq_get_iq, State.setPeerEq_get_fl,
      State.setPeerEq_get_eq, State.setIq_get, State.setFl_get, State.setEq_get,
      State.setIq_get_fl, State.setIq_get_eq, State.setFl_get_iq, State.setFl_get_eq, State.setEq_get_iq, State.setEq_get_fl] <;>
    first | rfl | (split <;> simp_all)

/-- Queues that keep their memory, or give it up, keep it apart. -/
theorem BlocksApart.keep {s t : State} (h : BlocksApart s) (hk : ∀ ty k, t.qst ty k ≠ .uninit →
    s.qst ty k ≠ .uninit ∧ t.baseOf ty k = s.baseOf ty k ∧ t.blockBytes ty k = s.blockBytes ty k) : BlocksApart t := by
  intro ty j ty' j' hne hu hu'
  obtain ⟨h1, h2, h3⟩ := hk ty j hu
  obtain ⟨h1', h2', h3'⟩ := hk ty' j' hu'
  rw [h2, h3, h2', h3']
  exact h ty j ty' j' hne h1 h1'

theorem BlocksApart.same {s t : State} (h : BlocksApart s) (hb : SameBlocks s t)
    (hq : ∀ ty k, t.qst ty k ≠ .uninit → s.qst ty k ≠ .uninit) : BlocksApart t :=
  h.keep fun ty k hu => ⟨hq ty k hu, hb.base ty k, hb.bytes ty k⟩

theorem SameFixed.apart {s t : State} (h : SameFixed s t) (hs : BlocksApart s) : BlocksApart t :=
  hs.same h.blocks fun ty k hu => by rwa [h.qst] at hu

theorem setSt_apart {s : State} (h : BlocksApart s) (t : QType) (j : Nat) (st : QState) (hm : s.qst t j ≠ .uninit) :
    BlocksApart (s.setSt t j st) := by
  refine h.same (setSt_blocks s t j st) fun ty k hu => ?_
  rw [setSt_qst] at hu
  split at hu
  · rename_i e; obtain ⟨rfl, rfl⟩ := e; exact hm
  · exact hu

/-- A queue that gets a block HOST gave is apart from the others. -/
theorem BlocksApart.fresh {s t : State} (h : BlocksApart s) {ty : QType} {j n e : Nat} {base : Addr} (hp : RingPlaced s base n e)
    (hb : t.baseOf ty j = base) (hn : t.blockBytes ty j = n)
    (ho : ∀ ty' k, ¬ (ty = ty' ∧ j = k) → t.qst ty' k = s.qst ty' k ∧ t.baseOf ty' k = s.baseOf ty' k ∧
      t.blockBytes ty' k = s.blockBytes ty' k) : BlocksApart t := by
  intro ty1 j1 ty2 j2 hne h1 h2
  by_cases e1 : ty = ty1 ∧ j = j1
  · obtain ⟨rfl, rfl⟩ := e1
    obtain ⟨a, b, c⟩ := ho ty2 j2 fun e => by obtain ⟨rfl, rfl⟩ := e; simp at hne
    rw [hb, hn, b, c]
    exact hp.2.2.2 ty2 j2 (a ▸ h2)
  · obtain ⟨a, b, c⟩ := ho ty1 j1 e1
    by_cases e2 : ty = ty2 ∧ j = j2
    · obtain ⟨rfl, rfl⟩ := e2
      rw [hb, hn, b, c]
      exact (hp.2.2.2 ty1 j1 (a ▸ h1)).symm
    · obtain ⟨a', b', c'⟩ := ho ty2 j2 e2
      rw [b, c, b', c']
      exact h ty1 j1 ty2 j2 hne (a ▸ h1) (a' ▸ h2)

/-- A state whose queues and parameters are those of another. -/
theorem RingPlaced.congr {s t : State} {base : Addr} {n e : Nat} (h : RingPlaced s base n e) (hc : t.cfg = s.cfg)
    (hb : SameBlocks s t) (hq : ∀ ty k, t.qst ty k = s.qst ty k) : RingPlaced t base n e := by
  refine ⟨hc ▸ h.1, h.2.1, h.2.2.1, fun ty k hk => ?_⟩
  rw [hb.base, hb.bytes]
  exact h.2.2.2 ty k (hq ty k ▸ hk)

theorem setIq_apart {s : State} (h : BlocksApart s) {j n e : Nat} {base : Addr} (hp : RingPlaced s base n e)
    (q : IQ) (hb : q.base = base) (hn : q.cap * q.esize = n) : BlocksApart (s.setIq j q) := by
  refine h.fresh (ty := .iq) (j := j) hp ?_ ?_ fun ty' k hk => ?_
  · show ((s.setIq j q).iq j).base = _; rw [State.setIq_same, hb]
  · show ((s.setIq j q).iq j).cap * ((s.setIq j q).iq j).esize = _; rw [State.setIq_same, hn]
  · cases ty'
    · have hk' : k ≠ j := fun e => hk ⟨rfl, e.symm⟩
      simp only [State.qst, State.baseOf, State.blockBytes, State.setIq_ne _ _ hk', and_self]
    · exact ⟨rfl, rfl, rfl⟩
    · exact ⟨rfl, rfl, rfl⟩

theorem setFl_apart {s : State} (h : BlocksApart s) {j n e : Nat} {base : Addr} (hp : RingPlaced s base n e)
    (f : FL) (hb : f.base = base) (hn : f.cap * Config.flEsize = n) : BlocksApart (s.setFl j f) := by
  refine h.fresh (ty := .fl) (j := j) hp ?_ ?_ fun ty' k hk => ?_
  · show ((s.setFl j f).fl j).base = _; rw [State.setFl_same, hb]
  · show ((s.setFl j f).fl j).cap * Config.flEsize = _; rw [State.setFl_same, hn]
  · cases ty'
    · exact ⟨rfl, rfl, rfl⟩
    · have hk' : k ≠ j := fun e => hk ⟨rfl, e.symm⟩
      simp only [State.qst, State.baseOf, State.blockBytes, State.setFl_ne _ _ hk', and_self]
    · exact ⟨rfl, rfl, rfl⟩

theorem setEq_apart {s : State} (h : BlocksApart s) {j n e : Nat} {base : Addr} (hp : RingPlaced s base n e)
    (q : EQ) (hb : q.base = base) (hn : q.cap * Config.eqEsize + Config.statusBytes = n) :
    BlocksApart (s.setEq j q) := by
  refine h.fresh (ty := .eq) (j := j) hp ?_ ?_ fun ty' k hk => ?_
  · show ((s.setEq j q).eq j).base = _; rw [State.setEq_same, hb]
  · show ((s.setEq j q).eq j).cap * Config.eqEsize + Config.statusBytes = _; rw [State.setEq_same, hn]
  · cases ty'
    · exact ⟨rfl, rfl, rfl⟩
    · exact ⟨rfl, rfl, rfl⟩
    · have hk' : k ≠ j := fun e => hk ⟨rfl, e.symm⟩
      simp only [State.qst, State.baseOf, State.blockBytes, State.setEq_ne _ _ hk', and_self]

/-- An owner that gets its free list keeps its memory. -/
theorem setIq_fl_apart {s : State} (h : BlocksApart s) (o : Nat) (x : Option Nat) :
    BlocksApart (s.setIq o { s.iq o with fl := x }) := by
  refine h.keep fun ty k hk => ?_
  rw [(setIq_fl_same s o x ty k).1] at hk
  refine ⟨hk, ?_⟩
  cases ty
  · simp only [State.baseOf, State.blockBytes, State.setIq_get]
    split
    · rename_i e; subst e; exact ⟨rfl, rfl⟩
    · exact ⟨rfl, rfl⟩
  · exact ⟨rfl, rfl⟩
  · exact ⟨rfl, rfl⟩

/-- The end of an allocation moves no memory, and gives none to a queue without. -/
theorem allocEnd_apart {s : State} (h : BlocksApart s) (t : QType) (j : Nat) (r : PeerReq) (hm : s.qst t j ≠ .uninit) :
    BlocksApart (allocEnd t j r s) := by
  obtain ⟨u, hu, ⟨v, e⟩ | ⟨id0, _, e⟩⟩ := allocEnd_cases t j r s
  · rw [e]; exact hu.sameFixed.apart h
  · rw [e]
    refine (hu.sameFixed.apart h).same (t := (register _ _ _ u).finish _ _) ?_ fun ty k hk => ?_
    · have := register_blocks t j (ctxIdFor t id0) u
      exact ⟨this.base, this.bytes⟩
    · have hk' : (register t j (ctxIdFor t id0) u).qst ty k ≠ .uninit := hk
      rw [register_qst] at hk'
      split at hk'
      · rename_i e; obtain ⟨rfl, rfl⟩ := e; rw [hu.sameFixed.qst]; exact hm
      · exact hk'

/-- Every command keeps the queues' memory apart. -/
theorem exec_apart {i : Instr} {s t : State} (h : BlocksApart s) (he : exec i s = .next t) : BlocksApart t := by
  by_cases hl : Instr.isLifecycle i = false
  · obtain ⟨t', e, hf⟩ := exec_sameFixed hl s
    rw [he] at e; cases e
    exact hf.apart h
  cases i with
  | qAllocIq q role tmr pktc esize fwd capM1 tgt =>
    rcases execQAllocIq_cases he with rfl | ⟨_, _, ⟨u, hc, rfl⟩ | ⟨base, u, v, r, hp, hc, rfl, rfl⟩⟩
    · exact h
    · exact hc.sameFixed.apart h
    · have hz : SameFixed s (u.zeroFill base ((capM1.toNat + 1) * esize.bytes)) :=
        hc.sameFixed.trans ⟨fun _ => rfl, fun _ => rfl, fun _ => rfl, rfl, rfl, rfl⟩
      refine allocEnd_apart ?_ _ _ _ (by simp [State.qst, freshIq])
      exact setIq_apart (hz.apart h) (hp.congr hz.cfg hz.blocks hz.qst) _ rfl rfl
  | qAllocFl q capM1 iq =>
    rcases execQAllocFl_cases he with rfl | ⟨_, _, ⟨u, hc, rfl⟩ | ⟨base, u, v, r, hp, hc, rfl, rfl⟩⟩
    · exact h
    · exact hc.sameFixed.apart h
    · have hz : SameFixed s (u.zeroFill base ((capM1.toNat + 1) * 8)) :=
        hc.sameFixed.trans ⟨fun _ => rfl, fun _ => rfl, fun _ => rfl, rfl, rfl, rfl⟩
      have e : s.iq iq.toNat = ((u.zeroFill base ((capM1.toNat + 1) * 8)).setFl q.toNat
          (freshFl (s.fl q.toNat) base (capM1.toNat + 1) iq.toNat)).iq iq.toNat := (hc.iq _).symm
      rw [e]
      refine allocEnd_apart (setIq_fl_apart ?_ _ _) _ _ _ (by
        show ((State.setFl _ _ _).fl q.toNat).st ≠ _
        rw [State.setFl_same]; simp [freshFl])
      exact setFl_apart (hz.apart h) (hp.congr hz.cfg hz.blocks hz.qst) _ rfl rfl
  | qAllocEq q capM1 iq =>
    rcases execQAllocEq_cases he with rfl | ⟨_, _, ⟨u, hc, rfl⟩ | ⟨base, cur, u, v, r, hp, hc, rfl, rfl⟩⟩
    · exact h
    · exact hc.sameFixed.apart h
    · have hz : SameFixed s (u.zeroFill base ((capM1.toNat + 1) * 64 + 64)) :=
        hc.sameFixed.trans ⟨fun _ => rfl, fun _ => rfl, fun _ => rfl, rfl, rfl, rfl⟩
      refine allocEnd_apart ?_ _ _ _ (by simp [State.qst, freshEq])
      exact setEq_apart (hz.apart h) (hp.congr hz.cfg hz.blocks hz.qst) _ rfl rfl
  | qStart q ty =>
    rcases execQStart_cases he with rfl | ⟨hst, _, u, hc, ⟨v, rfl⟩ | rfl⟩
    · exact h
    · exact hc.sameFixed.apart h
    · refine (started_sameFixed ty q.toNat _).apart (setSt_apart (hc.sameFixed.apart h) ty q.toNat .run ?_)
      rw [hc.sameFixed.qst, hst]; simp
  | qStop q ty =>
    rcases execQStop_cases he with rfl | ⟨hst, _, u, hc, ⟨v, rfl⟩ | rfl⟩
    · exact h
    · exact hc.sameFixed.apart h
    · refine (discardFor_sameFixed ty q.toNat _).apart (setSt_apart (hc.sameFixed.apart h) ty q.toNat .reg ?_)
      rw [hc.sameFixed.qst, hst]; simp
  | qFree q ty =>
    rcases execQFree_cases he with rfl | ⟨hst, _, u, hc, ⟨v, rfl⟩ | rfl⟩
    · exact h
    · exact hc.sameFixed.apart h
    · have hu : BlocksApart (u.setQmap (Tab.del u.qmap (s.ctxId ty q.toNat).toNat)) := hc.sameFixed.apart h
      refine setSt_apart hu ty q.toNat .mem ?_
      show u.qst ty q.toNat ≠ _
      rw [hc.sameFixed.qst, hst]; simp
  | qTeardown q ty =>
    rcases execQTeardown_cases he with rfl | ⟨_, rfl⟩ | ⟨_, _, _, u, n, hd, rfl⟩
    · exact h
    · exact h
    · refine h.keep (t := u) fun ty' k hk => ?_
      have hne : ¬ (ty = ty' ∧ q.toNat = k) := fun e => by obtain ⟨rfl, rfl⟩ := e; exact hk hd.gone
      rw [(hd.others ty' k hne).1] at hk
      refine ⟨hk, ?_⟩
      have hk' : ty ≠ ty' ∨ k ≠ q.toNat := by
        by_cases h1 : ty = ty'
        · exact .inr fun e => hne ⟨h1, e.symm⟩
        · exact .inl h1
      cases ty'
      · simp only [State.baseOf, State.blockBytes, hd.iqs k hk']
        split <;> exact ⟨rfl, rfl⟩
      · simp only [State.baseOf, State.blockBytes, hd.fls k hk', and_self]
      · simp only [State.baseOf, State.blockBytes, hd.eqs k hk', and_self]
  | _ => exact absurd rfl hl

/-- An action of HOST or PEER moves no memory of a queue. -/
theorem EnvStep.apart {s t : State} (h : EnvStep s t) (hs : BlocksApart s) : BlocksApart t := by
  refine hs.keep fun ty k hk => ?_
  rw [h.qst] at hk
  refine ⟨hk, ?_⟩
  obtain ⟨b, hb⟩ := h.iq k
  cases ty
  · simp [State.baseOf, State.blockBytes, hb]
  · simp [State.baseOf, State.blockBytes, h.fl]
  · simp [State.baseOf, State.blockBytes, h.eq]

end Sys2Proof.Machine
end

