-- ==== Sys2Proof/Laws/Ingress.lean ====
section
/-! SUPPORT. The ingress queue: one credit return, one consumed entry, the dispatch of one entry, and the bounds from command
to command (R201 to R213, R45). -/

namespace Sys2Proof.Machine

/-! ### Credit (R210) -/

theorem creditReturn_iq (j : Nat) (s : State) (k : Nat) :
    (creditReturn j s).iq k = if j = k then { s.iq j with ncons := 0 } else s.iq k := State.setIq_get _ _ _ _

@[simp] theorem creditReturn_iq_same (j : Nat) (s : State) : (creditReturn j s).iq j = { s.iq j with ncons := 0 } := by
  rw [creditReturn_iq, if_pos rfl]

theorem creditReturn_out (j : Nat) (s : State) : (creditReturn j s).out =
    s.out ++ [.regWrite .gts (gtsWord (s.iq j).cntxtId (s.iq j).tmrIdx (s.iq j).pktcIdx (s.iq j).ncons)] := rfl

theorem creditReturn_peer (j : Nat) (s : State) : (creditReturn j s).peerIqOf j =
    { s.peerIqOf j with cred := (s.peerIqOf j).cred + (s.iq j).ncons, armed := true } := by
  refine (State.setPeerIq_get _ _ _ _).trans ?_
  rw [if_pos rfl]

theorem creditReturn_frame (j : Nat) (s : State) : Untouched .iq j s (creditReturn j s) :=
  (untouched_iq j s).creditReturn (Untouched.refl _ _ _)

@[simp] theorem creditReturn_qmap (j : Nat) (s : State) : (creditReturn j s).qmap = s.qmap := rfl
@[simp] theorem creditReturn_mem (j : Nat) (s : State) : (creditReturn j s).mem = s.mem := rfl
@[simp] theorem creditReturn_res (j : Nat) (s : State) : (creditReturn j s).res = s.res := rfl
@[simp] theorem creditReturn_fault (j : Nat) (s : State) : (creditReturn j s).fault = s.fault := rfl
@[simp] theorem creditReturn_cfg (j : Nat) (s : State) : (creditReturn j s).cfg = s.cfg := rfl
@[simp] theorem creditReturn_fl (j : Nat) (s : State) (k : Nat) : (creditReturn j s).fl k = s.fl k := rfl
@[simp] theorem creditReturn_eq (j : Nat) (s : State) (k : Nat) : (creditReturn j s).eq k = s.eq k := rfl

/-! ### One consumed entry (R203) -/

/-- `advance` with the test of R201. -/
theorem advance_eq {q : IQ} (h : q.cidx < q.cap) : advance q = { q with
    cidx := if q.cidx = q.cap - 1 then 0 else q.cidx + 1, gen := if q.cidx = q.cap - 1 then !q.gen else q.gen } := by
  unfold advance
  by_cases hc : q.cidx + 1 < q.cap
  · have : q.cidx ≠ q.cap - 1 := by omega
    simp [hc, this]
  · have : q.cidx = q.cap - 1 := by omega
    rw [if_neg hc, if_pos this, if_pos this]

/-- The record after one entry, the writes, and the frame. -/
theorem consumed_spec {j : Nat} {s : State} (h : (s.iq j).cidx < (s.iq j).cap) :
    (consumed j s).iq j = afterEntry (s.iq j) ∧ (consumed j s).out = s.out ++ creditWrite (s.iq j) ∧
    Untouched .iq j s (consumed j s) ∧ (consumed j s).qmap = s.qmap ∧ (consumed j s).mem = s.mem ∧
    (consumed j s).res = s.res := by
  have hf := (untouched_iq j s).consumed (Untouched.refl _ _ _)
  have ha := advance_eq h
  have hn : (advance (s.iq j)).ncons = (s.iq j).ncons := by rw [ha]
  have hb : (advance (s.iq j)).creditBatch = (s.iq j).creditBatch := by rw [ha]
  refine ⟨?_, ?_, hf, ?_, ?_, ?_⟩
  all_goals
    unfold consumed
    dsimp only
    rw [hn, hb]
    by_cases hc : (s.iq j).ncons + 1 = (s.iq j).creditBatch
    all_goals first
      | rw [if_pos hc]
      | rw [if_neg hc]
  · rw [creditReturn_iq_same, State.setIq_same, ha, afterEntry, if_pos hc]
  · rw [State.setIq_same, ha, afterEntry, if_neg hc]
  · rw [creditReturn_out, State.setIq_same, ha, creditWrite, if_pos hc]; rfl
  · rw [creditWrite, if_neg hc, List.append_nil]; rfl
  all_goals rfl

theorem afterEntry_law {q : IQ} (h : q.Law) : (afterEntry q).Law := by
  obtain ⟨h1, h2, h3, h4, h5, h6⟩ := h
  refine ⟨h1, h2, h3, ?_, h5, ?_⟩
  · show (if q.cidx = q.cap - 1 then 0 else q.cidx + 1) < q.cap
    split <;> omega
  · show (if q.ncons + 1 = q.creditBatch then 0 else q.ncons + 1) < q.creditBatch
    split <;> omega

/-! ### The bounds, from command to command (R45) -/

theorem IqInv.congr {s t : State} (h : IqInv s) (hq : ∀ k, t.iq k = s.iq k) : IqInv t := fun k hk => by
  rw [hq] at hk ⊢; exact h k hk

theorem IqInv.one {s t : State} (h : IqInv s) (j : Nat) (ho : ∀ k, k ≠ j → t.iq k = s.iq k)
    (hj : (t.iq j).st ≠ .uninit → (t.iq j).Law) : IqInv t := fun k hk => by
  by_cases e : k = j
  · subst e; exact hj hk
  · rw [ho k e] at hk ⊢; exact h k hk

/-- The fields the bounds read. -/
theorem IQ.Law.congr {q r : IQ} (h : q.Law) (h1 : r.cap = q.cap) (h2 : r.esize = q.esize) (h3 : r.cidx = q.cidx)
    (h4 : r.creditBatch = q.creditBatch) (h5 : r.ncons = q.ncons ∨ r.ncons = 0) : r.Law := by
  obtain ⟨a, b, c, d, e, f⟩ := h
  refine ⟨h1 ▸ a, h1 ▸ b, h2 ▸ c, by rw [h3, h1]; exact d, h4 ▸ e, ?_⟩
  rw [h4]
  rcases h5 with h | h
  · rw [h]; exact f
  · rw [h]; exact e.1

theorem iqInv_out : ClosedOut IqInv where
  emit _ _ h := h
  writeFlit _ _ _ h := h
  drew _ _ _ _ _ h := h
  draws _ _ h := h

theorem iqInv_eq (j : Nat) : ClosedEq j IqInv := { iqInv_out with setEq := fun _ _ _ h => h, setSrc := fun _ _ h => h, setPeerEq := fun _ _ h => h }
theorem iqInv_fl (j : Nat) : ClosedFl j IqInv := { iqInv_out with setFl := fun _ _ _ h => h, setPeerFl := fun _ _ h => h }

theorem iqInv_credit (j : Nat) {s : State} (h : IqInv s) : IqInv (creditReturn j s) := by
  refine h.one j (fun k hk => (creditReturn_frame j s).iqs k (.inr hk)) fun hj => ?_
  rw [creditReturn_iq_same] at hj ⊢
  exact (h j hj).congr rfl rfl rfl rfl (.inr rfl)

theorem iqInv_consumed (j : Nat) {s : State} (h : IqInv s) : IqInv (consumed j s) := by
  have hf := (untouched_iq j s).consumed (Untouched.refl _ _ _)
  have hst := ((sameFixed_closed s).iq j).consumed (SameFixed.refl s)
  refine h.one j (fun k hk => hf.iqs k (.inr hk)) fun hj => ?_
  have hs : (s.iq j).st ≠ .uninit := fun e => hj ((hst.qst .iq j).trans e)
  rw [(consumed_spec (h j hs).cidx_lt).1]
  exact afterEntry_law (h j hs)

theorem iqInv_set (j : Nat) {s : State} (h : IqInv s) {q : IQ} (h1 : q.st = (s.iq j).st) (h2 : q.cap = (s.iq j).cap)
    (h3 : q.esize = (s.iq j).esize) (h4 : q.cidx = (s.iq j).cidx) (h5 : q.creditBatch = (s.iq j).creditBatch)
    (h6 : q.ncons = (s.iq j).ncons) : IqInv (s.setIq j q) := by
  refine h.one j (fun k hk => State.setIq_ne _ _ hk) fun hj => ?_
  rw [State.setIq_same] at hj ⊢
  exact (h j (h1 ▸ hj)).congr h2 h3 h4 h5 (.inl h6)

theorem iqInv_ingress : ClosedIngress IqInv where
  emit _ _ h := h
  progress j _ h := (iqInv_eq j).eqProgress h
  take j n _ h := (iqInv_fl j).flTake h n
  refill j n _ h := (iqInv_fl j).flRefill h n
  doorbell j b _ h := (iqInv_fl j).flDoorbell h b
  svc j _ _ h := iqInv_set j h rfl rfl rfl rfl rfl rfl
  count j _ _ h := iqInv_set j h rfl rfl rfl rfl rfl rfl
  consume j _ h := iqInv_consumed j h
  credit j _ h := iqInv_credit j h

/-- The credit batch of a well-formed parameter set (R203). -/
theorem creditBatch_bounds {c : Config} (h : c.wf = true) (cap : Nat) : 1 ≤ creditBatch c cap ∧ creditBatch c cap ≤ 4095 := by
  simp only [Config.wf, Bool.and_eq_true, decide_eq_true_eq] at h
  obtain ⟨⟨⟨-, h1, h2, h3⟩, -⟩, -⟩ := h
  unfold creditBatch
  omega

theorem allocEnd_iqInv (t : QType) (j : Nat) (r : PeerReq) {s : State} (h : IqInv s) (hj : t = .iq → (s.iq j).Law) :
    IqInv (allocEnd t j r s) := by
  obtain ⟨u, hc, ⟨v, e⟩ | ⟨id0, _, e⟩⟩ := allocEnd_cases t j r s
  · rw [e]; exact h.congr hc.iq
  · rw [e]
    have hu : IqInv u := h.congr hc.iq
    have hf := register_frame t j (ctxIdFor t id0) u
    show IqInv (register t j _ u)
    by_cases ht : t = .iq
    · subst ht
      refine hu.one j (fun k hk => hf.iqs k (.inr hk)) fun _ => ?_
      rw [register_iq, if_pos rfl, hc.iq]
      exact (hj rfl).congr rfl rfl rfl rfl (.inl rfl)
    · exact hu.congr fun k => hf.iqs k (.inl ht)

theorem setSt_iqInv (t : QType) (j : Nat) (st : QState) {s : State} (h : IqInv s) (hj : t = .iq → (s.iq j).st ≠ .uninit) :
    IqInv (s.setSt t j st) := by
  cases t with
  | fl => exact h
  | eq => exact h
  | iq =>
    refine h.one j (fun k hk => State.setIq_ne _ _ hk) fun _ => ?_
    show IQ.Law ((s.setIq j _).iq j)
    rw [State.setIq_same]
    exact (h j (hj rfl)).congr rfl rfl rfl rfl (.inl rfl)

/-- Every command keeps the bounds of every IQ. -/
theorem exec_iqInv {i : Instr} {s t : State} (hcfg : s.cfg.wf = true) (hw : i.wf s.cfg = true) (h : IqInv s)
    (he : exec i s = .next t) : IqInv t := by
  have other : ∀ {i : Instr}, (∃ t, exec i s = .next t ∧ Ends IqInv t) → exec i s = .next t → IqInv t := by
    rintro i ⟨t', e, h⟩ he
    rw [e] at he
    cases he
    obtain ⟨u, rc, v, h, rfl⟩ | ⟨u, c, q, h, rfl⟩ := h <;> exact h
  by_cases hg : Instr.isEgress i = true
  · exact other (exec_ends_eq hg (iqInv_eq _) h) he
  by_cases hfl : Instr.isFreeList i = true
  · exact other (exec_ends_fl hfl (iqInv_fl _) h) he
  cases i with
  | iqCheck q => cases he; repeat' split
                 all_goals exact h
  | iqConsume q => exact other (iqConsume_ends iqInv_ingress q h) he
  | iqCredit q =>
    cases he
    split
    · exact iqInv_credit q.toNat h
    · exact h
  | iqService q b => exact other (iqService_ends iqInv_ingress q b h) he
  | qAllocIq q role tmr pktc esize fwd capM1 tgt =>
    rcases execQAllocIq_cases he with rfl | ⟨_, _, ⟨u, hu, rfl⟩ | ⟨base, u, v, r, -, hu, rfl, rfl⟩⟩
    · exact h
    · exact h.congr hu.iq
    · have hc : 1 ≤ capM1.toNat := by simp [Instr.wf, Instr.operandsOk] at hw; omega
      have hb := creditBatch_bounds hcfg (capM1.toNat + 1)
      have hl : (freshIq s.cfg (s.iq q.toNat) base (capM1.toNat + 1) esize.bytes role tmr pktc fwd tgt).Law :=
        ⟨by show 2 ≤ capM1.toNat + 1; omega, by have := capM1.isLt; show capM1.toNat + 1 ≤ 65536; omega,
          by cases esize <;> simp [freshIq, ESize.bytes], by show 0 < capM1.toNat + 1; omega, hb, hb.1⟩
      refine allocEnd_iqInv _ _ _ (IqInv.one (s := u) (h.congr hu.iq) q.toNat (fun k hk => State.setIq_ne _ _ hk) fun _ => ?_)
        fun _ => ?_
      · rw [State.setIq_same]; exact hl
      · rw [State.setIq_same]; exact hl
  | qAllocFl q capM1 iq =>
    rcases execQAllocFl_cases he with rfl | ⟨_, _, ⟨u, hu, rfl⟩ | ⟨base, u, v, r, -, hu, rfl, rfl⟩⟩
    · exact h
    · exact h.congr hu.iq
    · have e : s.iq iq.toNat = ((u.zeroFill base ((capM1.toNat + 1) * 8)).setFl q.toNat
          (freshFl (s.fl q.toNat) base (capM1.toNat + 1) iq.toNat)).iq iq.toNat := (hu.iq _).symm
      rw [e]
      have hv : IqInv ((u.zeroFill base ((capM1.toNat + 1) * 8)).setFl q.toNat
          (freshFl (s.fl q.toNat) base (capM1.toNat + 1) iq.toNat)) := h.congr hu.iq
      exact allocEnd_iqInv _ _ _ (iqInv_set iq.toNat hv rfl rfl rfl rfl rfl rfl) (by simp)
  | qAllocEq q capM1 iq =>
    rcases execQAllocEq_cases he with rfl | ⟨_, _, ⟨u, hu, rfl⟩ | ⟨base, cur, u, v, r, -, hu, rfl, rfl⟩⟩
    · exact h
    · exact h.congr hu.iq
    · exact allocEnd_iqInv _ _ _ (h.congr hu.iq) (by simp)
  | qStart q ty =>
    rcases execQStart_cases he with rfl | ⟨hst, _, u, hu, ⟨v, rfl⟩ | rfl⟩
    · exact h
    · exact h.congr hu.iq
    · have h2 := setSt_iqInv ty q.toNat .run (h.congr hu.iq) (by
        rintro rfl; rw [hu.iq]; intro e; rw [State.qst, e] at hst; cases hst)
      cases ty with
      | iq => exact iqInv_credit q.toNat h2
      | fl =>
        generalize u.setSt .fl q.toNat .run = v at h2
        show IqInv (flDoorbell q.toNat true (flRefill q.toNat _ v).2).2
        exact (iqInv_fl _).flDoorbell ((iqInv_fl _).flRefill h2 _) _
      | eq => exact h2
  | qStop q ty =>
    rcases execQStop_cases he with rfl | ⟨hst, _, u, hu, ⟨v, rfl⟩ | rfl⟩
    · exact h
    · exact h.congr hu.iq
    · have h2 := setSt_iqInv ty q.toNat .reg (h.congr hu.iq) (by
        rintro rfl; rw [hu.iq]; intro e; rw [State.qst, e] at hst; cases hst)
      cases ty with
      | iq => exact h2
      | fl => exact h2
      | eq =>
        generalize u.setSt .eq q.toNat .reg = v at h2
        show IqInv (discardTx q.toNat v)
        exact (iqInv_eq q.toNat).discardTx h2
  | qFree q ty =>
    rcases execQFree_cases he with rfl | ⟨hst, _, u, hu, ⟨v, rfl⟩ | rfl⟩
    · exact h
    · exact h.congr hu.iq
    · exact setSt_iqInv ty q.toNat .mem (s := u.setQmap _) (h.congr hu.iq) (by
        rintro rfl
        show (u.iq q.toNat).st ≠ _
        rw [hu.iq]; intro e; rw [State.qst, e] at hst; cases hst)
  | qTeardown q ty =>
    rcases execQTeardown_cases he with rfl | ⟨_, rfl⟩ | ⟨_, _, _, u, n, hd, rfl⟩
    · exact h
    · exact h
    · show IqInv u
      have key : ∀ k, (ty ≠ .iq ∨ k ≠ q.toNat) → (u.iq k).st ≠ .uninit → (u.iq k).Law := fun k hk hx => by
        have e := hd.iqs k hk
        rw [e] at hx ⊢
        split at hx
        · rename_i hc; rw [if_pos hc]; exact (h k hx).congr rfl rfl rfl rfl (.inl rfl)
        · rename_i hc; rw [if_neg hc]; exact h k hx
      intro k hk
      by_cases ht : ty = .iq
      · subst ht
        refine key k (.inr ?_) hk
        rintro rfl
        exact hk hd.gone
      · exact key k (.inl ht) hk
  | _ => first | exact absurd rfl hg | exact absurd rfl hfl

/-! ### The dispatch of one entry, case by case (R204 to R208) -/

/-- A firmware reply goes to HOST (R205). -/
theorem dispatch_reply {j : Nat} {s : State} (hr : (s.iq j).role = .fwEvt) (ht : (ctrlOf j s).type = typeCpl)
    (hp : payloadByte j 0 s = cplFw4Msg ∨ payloadByte j 0 s = cplFw6Msg) :
    dispatch j s = .done () (s.emit (.cmdReply (payload j s))) := by
  unfold dispatch dispatchFw
  rw [hr]
  simp only [ht, hp, ne_eq, not_true_eq_false, if_false, if_true]

/-- A progress notification goes to the EQ it names (R207). -/
theorem dispatch_progress {j : Nat} {s : State} (hr : (s.iq j).role = .fwEvt ∨ (s.iq j).role = .rx)
    (ht : (ctrlOf j s).type = typeCpl) (hp : payloadByte j 0 s = cplEgrUpdate) :
    dispatch j s = egressProgress j (egrQid j s) s := by
  have h1 : typeCpl ≠ typeFlbuf := by decide
  have h2 : ¬ (cplEgrUpdate = cplFw4Msg ∨ cplEgrUpdate = cplFw6Msg) := by decide
  unfold dispatch dispatchFw dispatchRx
  rcases hr with hr | hr <;> rw [hr]
  · simp only [ht, hp, h2, ne_eq, not_true_eq_false, if_false, if_true]
  · simp only [ht, hp, h1, if_false, if_true]

theorem egressProgress_done {j k id : Nat} {s : State} (hl : s.lookup id = some { type := .eq, index := k })
    (hst : (s.eq k).st = .reg ∨ (s.eq k).st = .run) : egressProgress j id s = .done () (eqProgress k s) := by
  have : (s.eq k).st.registered = true := by simpa [QState.registered] using hst
  simp [egressProgress, hl, this]

/-- A forwarded notification asks for service (R206). -/
theorem dispatch_forward {j k : Nat} {s : State} (hr : (s.iq j).role = .intrFwd) (ht : (ctrlOf j s).type = typeIntr)
    (hl : s.lookup (ctrlOf j s).qid = some { type := .iq, index := k }) (hst : (s.iq k).st = .run) :
    dispatch j s = .done () (s.setIq k { s.iq k with svcReq := true }) := by
  simp [dispatch, dispatchFwd, hr, ht, hl, hst]

/-- A received frame is taken from the free list (R204). -/
theorem dispatch_frame {j : Nat} {s : State} (hr : (s.iq j).role = .rx) (ht : (ctrlOf j s).type = typeFlbuf)
    (hp : payloadByte j 0 s = cplRxPkt) (hl : 1 ≤ (ctrlOf j s).len) : dispatch j s = rxFrame j (ctrlOf j s).len s := by
  have : (ctrlOf j s).len ≠ 0 := by omega
  simp [dispatch, dispatchRx, hr, ht, hp, this]

/-- `IQ_CONSUME` on a fresh entry. -/
theorem execIqConsume_new {q : Qid} {s : State} (hst : (s.iq q.toNat).st = .run) (hn : isNew q.toNat s = true) :
    exec (.iqConsume q) s = .next ((consumeOne q.toNat s).finish fun _ => (.ok, (ctrlOf q.toNat s).type.toNat)) := by
  show execIqConsume q s = _
  simp only [execIqConsume, hst, hn, if_true]

theorem consumeOne_done {j : Nat} {s u : State} (h : dispatch j s = .done () u) : consumeOne j s = .done () (consumed j u) := by
  unfold consumeOne; rw [h]; rfl

theorem consumeOne_raised {j : Nat} {s u : State} (h : dispatch j s = .raised u) : consumeOne j s = .raised u := by
  unfold consumeOne; rw [h]; rfl

/-- A frame that fits the published buffer at the consumer index takes it alone (R250). -/
theorem flTake_one {j n : Nat} {b : RxBuf} {s : State} (hn : 1 ≤ n) (hp : 1 ≤ (s.fl j).published)
    (ho : ((s.fl j).slot (s.fl j).cidx).own = .posted b) (hsz : n ≤ classSize s.cfg b.bcls) :
    flTake j n s = if n ≤ s.cfg.rxCopyThresh then .done (.copy (s.readBytes b.addr n), 1) (flTaken j (.retained b) s)
      else .done (.refs [(b.buf, n)], 1) (flTaken j .empty (s.emit (.unmap (.rx b.buf)))) := by
  obtain ⟨m, hm⟩ : ∃ m, (s.fl j).published = m + 1 := ⟨(s.fl j).published - 1, by omega⟩
  have hmin : min n (classSize s.cfg b.bcls) = n := Nat.min_eq_left hsz
  have z : ∀ (k : Nat) (fr : Frame) (x : Nat) (u : State), flTakeLoop j n k 0 fr x u = .done (fr, x) u := by
    intro k fr x u; cases k <;> rw [flTakeLoop, if_pos rfl]
  show flTakeLoop j n (s.fl j).published n (.refs []) 0 s = _
  rw [hm, flTakeLoop, if_neg (by omega)]
  simp only [ho]
  by_cases h : n ≤ s.cfg.rxCopyThresh
  · rw [if_pos ⟨trivial, h, hsz⟩, if_pos h, hmin, Nat.sub_self, z]
  · rw [if_neg (fun x => h x.2.1), if_neg h, hmin, Nat.sub_self, z]; rfl

/-- A taken slot is the free list's own affair. -/
theorem flTaken_frame (j : Nat) (own : Own) (s : State) : Untouched .fl j s (flTaken j own s) ∧
    (flTaken j own s).qmap = s.qmap ∧ (flTaken j own s).mem = s.mem ∧ (flTaken j own s).out = s.out ∧
    (flTaken j own s).res = s.res :=
  ⟨(untouched_fl j s).setFl _ _ rfl (Untouched.refl _ _ _), rfl, rfl, rfl, rfl⟩

end Sys2Proof.Machine
end

