-- ==== Sys2Proof/Laws/Credit.lean ====
section
/-! SUPPORT. Credit accounting: which actions write `GTS`, and what a consumed entry and a service loop write (R210, R213). -/

namespace Sys2Proof.Machine

theorem cidxIncs_append (l m : List Effect) : cidxIncs (l ++ m) = cidxIncs l + cidxIncs m := by
  induction l with
  | nil => simp [cidxIncs]
  | cons e l ih =>
    rw [List.cons_append]
    by_cases h : ∃ v, e = .regWrite .gts v
    · obtain ⟨v, rfl⟩ := h
      simp only [cidxIncs, ih]; omega
    · have h1 : ∀ l, cidxIncs (e :: l) = cidxIncs l := fun l => by
        cases e with
        | regWrite r v => cases r with
          | gts => exact absurd ⟨v, rfl⟩ h
          | kdb => rfl
        | _ => rfl
      rw [h1, h1, ih]

/-- From `s` to `t` nothing was written to `GTS`. -/
def NoCredit (s t : State) : Prop := ∃ l, t.out = s.out ++ l ∧ cidxIncs l = 0

theorem NoCredit.refl (s : State) : NoCredit s s := ⟨[], by simp, rfl⟩

theorem NoCredit.of_out {s t : State} (h : t.out = s.out) : NoCredit s t := ⟨[], by simp [h], rfl⟩

theorem NoCredit.trans {s t u : State} (h : NoCredit s t) (h' : NoCredit t u) : NoCredit s u := by
  obtain ⟨l, e, c⟩ := h
  obtain ⟨m, e', c'⟩ := h'
  exact ⟨l ++ m, by rw [e', e, List.append_assoc], by rw [cidxIncs_append, c, c']⟩

theorem NoCredit.one {s t : State} (e : Effect) (h : t.out = s.out ++ [e]) (he : cidxIncs [e] = 0) : NoCredit s t :=
  ⟨[e], h, he⟩

/-! ### The free list writes no credit -/

theorem flFillFresh_noCredit (j k : Nat) (s : State) : NoCredit s (flFillFresh j k s).2 := by
  have h1 : NoCredit s (flRemap j k s).2 := by
    unfold flRemap
    dsimp only
    split
    · exact NoCredit.refl s
    · split
      · exact NoCredit.one (.mapCreate _) rfl rfl
      · exact NoCredit.one (.mapCreate _) rfl rfl
  unfold flFillFresh
  dsimp only
  split
  · split
    · exact h1.trans (NoCredit.one (.bufAlloc _) rfl rfl)
    · rename_i b _
      have h2 : NoCredit s (((flRemap j k s).2.bufAlloc ((flRemap j k s).2.fl j).cls).2.bufMap b).2 :=
        (h1.trans (NoCredit.one (.bufAlloc _) rfl rfl)).trans (NoCredit.one (.bufMap _) rfl rfl)
      split
      · exact h2.trans (NoCredit.one (.release _) rfl rfl)
      · exact h2.trans (NoCredit.one (.memWrite _ _) rfl rfl)
  · exact h1

theorem fillSlot_noCredit (j : Nat) (s : State) : NoCredit s (fillSlot j s).2 := by
  unfold fillSlot
  dsimp only
  split
  · split
    · exact NoCredit.one (.memWrite _ _) rfl rfl
    · rename_i b _ _
      refine NoCredit.trans ?_ (flFillFresh_noCredit j _ _)
      exact ⟨[.unmap (.rx b.buf), .release (.rx b.buf)], by show (s.out ++ [_]) ++ [_] = _; simp, rfl⟩
  · exact flFillFresh_noCredit j _ _
  · exact flFillFresh_noCredit j _ _

theorem flRefillLoop_noCredit (j k n : Nat) (s : State) : NoCredit s (flRefillLoop j k n s).2 := by
  induction k generalizing n s with
  | zero => exact NoCredit.refl s
  | succ k ih =>
    have h := fillSlot_noCredit j s
    unfold flRefillLoop
    dsimp only
    split
    · exact (h.trans (NoCredit.of_out (t := flPosted j (fillSlot j s).2) rfl)).trans (ih _ _)
    · exact h

theorem flRing_noCredit (j n : Nat) (s : State) : NoCredit s (flRing j n s) := by
  induction n generalizing s with
  | zero => exact NoCredit.refl s
  | succ n ih =>
    unfold flRing
    dsimp only
    split
    · exact NoCredit.refl s
    · exact (NoCredit.one (.regWrite .kdb _) rfl rfl).trans (ih _)

theorem flDoorbell_noCredit (j : Nat) (b : Bool) (s : State) : NoCredit s (flDoorbell j b s).2 := by
  unfold flDoorbell
  dsimp only
  split
  · exact NoCredit.refl s
  · exact (NoCredit.one (t := s.emit .barrier) .barrier rfl rfl).trans (flRing_noCredit j _ _)

theorem flRefill_noCredit (j n : Nat) (s : State) : NoCredit s (flRefill j n s).2 :=
  (flRefillLoop_noCredit j _ _ s).trans (flDoorbell_noCredit j _ _)

theorem flTakeLoop_noCredit (j len n rem : Nat) (f : Frame) (taken : Nat) {s u : State} {a : Frame × Nat}
    (h : flTakeLoop j len n rem f taken s = .done a u) : NoCredit s u := by
  induction n generalizing rem f taken s with
  | zero =>
    unfold flTakeLoop at h
    split at h
    · cases h; exact NoCredit.refl _
    · cases h
  | succ n ih =>
    unfold flTakeLoop at h
    split at h
    · cases h; exact NoCredit.refl _
    · split at h
      · dsimp only at h
        split at h
        · exact NoCredit.trans (by exact NoCredit.of_out rfl) (ih _ _ _ h)
        · rename_i b _ _
          exact NoCredit.trans (by exact NoCredit.one (.unmap (.rx b.buf)) rfl rfl) (ih _ _ _ h)
      · cases h
      · cases h

/-! ### Dispatch writes no credit and leaves the cursor and the count -/

/-- What credit accounting and the loop of R212 read of an ingress record. -/
def IQ.credits (q : IQ) : Nat × Nat × Nat × Nat × QState × Bool := (q.cidx, q.cap, q.ncons, q.creditBatch, q.st, q.gen)

theorem dispatch_noCredit {j : Nat} {s u : State} (h : dispatch j s = .done () u) :
    NoCredit s u ∧ (u.iq j).credits = (s.iq j).credits := by
  have prog : ∀ {id u}, egressProgress j id s = .done () u → NoCredit s u ∧ (u.iq j).credits = (s.iq j).credits := by
    intro id u h
    unfold egressProgress at h
    split at h
    · cases h
    · split at h
      · rename_i t _ _
        cases h
        refine ⟨?_, by rw [((untouched_eq t.index s).eqProgress (Untouched.refl _ _ _)).iqs j (.inl (by simp))]⟩
        unfold eqProgress
        dsimp only
        split
        · exact NoCredit.one (.resume _) rfl rfl
        · exact NoCredit.of_out rfl
      · cases h
  unfold dispatch at h
  split at h
  · unfold dispatchRx at h
    dsimp only at h
    split at h
    · split at h
      · cases h
      · unfold rxFrame at h
        split at h
        · cases h
        · rename_i f _
          dsimp only at h
          cases ht : flTake f (ctrlOf j s).len s with
          | raised v => rw [ht] at h; cases h
          | done a v =>
            rw [ht] at h
            cases h
            have h1 := flTakeLoop_noCredit _ _ _ _ _ _ ht
            have h2 : Ran.Holds (Untouched .fl f s) (flTake f (ctrlOf j s).len s) :=
              (untouched_fl f s).flTake (Untouched.refl _ _ _) _
            rw [ht] at h2
            have h3 : v.iq j = s.iq j := Untouched.iqs (ty := .fl) (j := f) h2 j (.inl (by simp))
            refine ⟨h1.trans (NoCredit.one (.deliver _ _) rfl rfl), ?_⟩
            show ((State.setIq _ j _).iq j).credits = _
            rw [State.setIq_same]
            show (rxCount _ (v.iq j)).credits = _
            rw [h3]; rfl
    · split at h
      · split at h
        · exact prog h
        · cases h
      · cases h
  · unfold dispatchFw at h
    split at h
    · cases h
    · split at h
      · cases h
        exact ⟨NoCredit.one (.cmdReply _) rfl rfl, rfl⟩
      · split at h
        · exact prog h
        · cases h
  · unfold dispatchFwd at h
    split at h
    · cases h
    · split at h
      · cases h
      · split at h
        · rename_i t _ _
          cases h
          refine ⟨NoCredit.of_out rfl, ?_⟩
          rw [State.setIq_get]
          split
          · rename_i e; rw [← e]; rfl
          · rfl
        · cases h

/-! ### The account -/

/-- From `s` to `t` queue `j` consumed `n` entries, and the credit written and the count still held add up to them (R213). -/
def Accounts (j : Nat) (s : State) (n : Nat) (t : State) : Prop :=
  ∃ l, t.out = s.out ++ l ∧ cidxIncs l + (t.iq j).ncons = (s.iq j).ncons + n

theorem Accounts.trans {j n m : Nat} {s t u : State} (h : Accounts j s n t) (h' : Accounts j t m u) : Accounts j s (n + m) u := by
  obtain ⟨l, e, c⟩ := h
  obtain ⟨l', e', c'⟩ := h'
  exact ⟨l ++ l', by rw [e', e, List.append_assoc], by rw [cidxIncs_append]; omega⟩

theorem NoCredit.accounts {j : Nat} {s t : State} (h : NoCredit s t) (hn : (t.iq j).ncons = (s.iq j).ncons) : Accounts j s 0 t := by
  obtain ⟨l, e, c⟩ := h
  exact ⟨l, e, by rw [c, hn]; omega⟩

/-- The increment field of a `GTS` value that fits it. -/
theorem gtsWord_inc (q : IQ) {n : Nat} (h : n ≤ 4095) : cidxIncs [.regWrite .gts (gtsWord q.cntxtId q.tmrIdx q.pktcIdx n)] = n := by
  show ((gtsWord q.cntxtId q.tmrIdx q.pktcIdx n).extractLsb' 0 12).toNat + 0 = n
  rw [(gtsWord_fields q n).2.2.2]
  simp only [BitVec.toNat_ofNat, Nat.add_zero]
  exact Nat.mod_eq_of_lt (by omega)

theorem creditReturn_accounts {j : Nat} {s : State} (h : (s.iq j).ncons ≤ 4095) : Accounts j s 0 (creditReturn j s) := by
  refine ⟨_, creditReturn_out j s, ?_⟩
  rw [gtsWord_inc (s.iq j) h, creditReturn_iq_same]

theorem consumed_accounts {j : Nat} {s : State} (h : (s.iq j).Law) :
    Accounts j s 1 (consumed j s) ∧ ((consumed j s).iq j).Law ∧ ((consumed j s).iq j).cap = (s.iq j).cap := by
  have hc := consumed_spec h.cidx_lt
  refine ⟨⟨_, hc.2.1, ?_⟩, by rw [hc.1]; exact afterEntry_law h, by rw [hc.1]; rfl⟩
  rw [hc.1]
  have h1 := h.ncons_lt
  have h2 := h.credit.2
  show cidxIncs (creditWrite (s.iq j)) + (if (s.iq j).ncons + 1 = (s.iq j).creditBatch then 0 else (s.iq j).ncons + 1) = _
  unfold creditWrite
  by_cases e : (s.iq j).ncons + 1 = (s.iq j).creditBatch
  · rw [if_pos e, if_pos e, gtsWord_inc (s.iq j) (by omega)]
  · rw [if_neg e, if_neg e, cidxIncs]; omega

theorem consumeOne_accounts {j : Nat} {s u : State} (hl : (s.iq j).Law) (h : consumeOne j s = .done () u) :
    Accounts j s 1 u ∧ (u.iq j).Law ∧ (u.iq j).cap = (s.iq j).cap := by
  unfold consumeOne at h
  cases hd : dispatch j s with
  | raised v => rw [hd] at h; cases h
  | done a v =>
    rw [hd] at h
    cases h
    obtain ⟨h1, h2⟩ := dispatch_noCredit hd
    simp only [IQ.credits, Prod.mk.injEq] at h2
    have hi := h2
    have hlaw : (v.iq j).Law := by
      have hs : Ran.Holds (SameFixed s) (dispatch j s) := (sameFixed_closed s).ingress.dispatch (SameFixed.refl s) j
      rw [hd] at hs
      have hs' := SameFixed.iq (s := s) (t := v) hs j
      simp only [IQ.fixed, Prod.mk.injEq] at hs'
      exact hl.congr h2.2.1 hs'.2.2.2.2.1 h2.1 h2.2.2.2.1 (.inl h2.2.2.1)
    obtain ⟨a1, a2, a3⟩ := consumed_accounts hlaw
    refine ⟨?_, a2, a3.trans h2.2.1⟩
    have := (h1.accounts (j := j) h2.2.2.1).trans a1
    rwa [Nat.zero_add] at this

theorem serviceLoop_accounts {j budget : Nat} (fuel n : Nat) {s u : State} {r : Nat × Bool} (hl : (s.iq j).Law)
    (hb : budget ≠ 0 → n ≤ budget) (h : serviceLoop j budget fuel n s = .done r u) :
    ∃ k, r.1 = n + k ∧ k ≤ fuel ∧ Accounts j s k u ∧ (u.iq j).Law ∧ (budget ≠ 0 → r.1 ≤ budget) := by
  induction fuel generalizing n s with
  | zero =>
    cases h
    exact ⟨0, rfl, Nat.le_refl _, ⟨[], by simp, by simp [cidxIncs]⟩, hl, hb⟩
  | succ fuel ih =>
    unfold serviceLoop at h
    split at h
    · cases h
      exact ⟨0, rfl, Nat.zero_le _, ⟨[], by simp, by simp [cidxIncs]⟩, hl, hb⟩
    · rename_i hn
      split at h
      · cases hc : consumeOne j s with
        | raised v => rw [hc] at h; cases h
        | done a v =>
          rw [hc] at h
          obtain ⟨h1, h2, h3⟩ := consumeOne_accounts hl hc
          obtain ⟨k, e, hk, ha, hlaw, hbd⟩ := ih (n + 1) h2 (fun hb0 => by
            have := hb hb0
            have : n ≠ budget := fun e => hn ⟨hb0, e⟩
            omega) h
          exact ⟨1 + k, by omega, by omega, h1.trans ha, hlaw, hbd⟩
      · cases h
        exact ⟨0, rfl, Nat.zero_le _, ⟨[], by simp, by simp [cidxIncs]⟩, hl, hb⟩

theorem serviceEnd_accounts {j : Nat} (b : Bool) {s : State} (hl : (s.iq j).Law) : Accounts j s 0 (serviceEnd j b s) := by
  have h1 := creditReturn_accounts (j := j) (s := s) (by have := hl.ncons_lt; have := hl.credit.2; omega)
  have h2 : Accounts j (creditReturn j s) 0 (serviceRefill j (creditReturn j s)) := by
    unfold serviceRefill
    split
    · rename_i f _ _
      refine NoCredit.accounts ((flRefill_noCredit f _ _).trans (flDoorbell_noCredit f _ _)) ?_
      have hu := (untouched_fl f (creditReturn j s)).flDoorbell
        ((untouched_fl f (creditReturn j s)).flRefill (Untouched.refl _ _ _) ((creditReturn j s).fl f).needed) false
      rw [hu.iqs j (.inl (by simp))]
    · exact (NoCredit.refl _).accounts rfl
  have h3 := h1.trans h2
  unfold serviceEnd
  dsimp only
  split
  · obtain ⟨l, e, c⟩ := h3
    refine ⟨l, e, ?_⟩
    rw [State.setIq_same]; exact c
  · exact h3

end Sys2Proof.Machine
end

