-- ==== Sys2Proof/Laws/Egress.lean ====
section
/-! SUPPORT. The records of an egress queue: how work requests tile the slots in use (R55, R341), the credit and map laws
(R57, R343), and what each change of a record does to them. -/

namespace Sys2Proof.Machine

/-! ### Tiling -/

/-- The records from slot `k` on tile `l` slots and use `m` maps. -/
inductive Tiles (e : EQ) : Nat → Nat → Nat → Prop where
  | nil (k : Nat) : Tiles e k 0 0
  | cons (k l m : Nat) (hd : 1 ≤ (e.slot k).descUsed) (ht : Tiles e ((k + (e.slot k).descUsed) % e.cap) l m) :
      Tiles e k ((e.slot k).descUsed + l) (m + (e.slot k).mapsUsed)

theorem wrMaps_zero (e : EQ) (n k : Nat) : wrMaps e n k 0 = some 0 := by cases n <;> simp [wrMaps]

theorem Tiles.wrMaps {e : EQ} {k l m : Nat} (h : Tiles e k l m) {n : Nat} (hn : l ≤ n) : wrMaps e n k l = some m := by
  induction h generalizing n with
  | nil k => exact wrMaps_zero e n k
  | cons k l m hd _ ih =>
    cases n with
    | zero => omega
    | succ n =>
      rw [Machine.wrMaps, if_neg (by omega)]
      simp only
      rw [if_neg (by omega), Nat.add_sub_cancel_left, ih (by omega)]
      rfl

theorem tiles_of_wrMaps {e : EQ} {n k l m : Nat} (h : Machine.wrMaps e n k l = some m) : Tiles e k l m := by
  induction n generalizing k l m with
  | zero =>
    unfold Machine.wrMaps at h
    split at h
    · subst l; cases h; exact .nil k
    · cases h
  | succ n ih =>
    unfold Machine.wrMaps at h
    split at h
    · subst l; cases h; exact .nil k
    · simp only at h
      split at h
      · cases h
      · rename_i hd
        obtain ⟨m', hm, rfl⟩ := Option.map_eq_some_iff.1 h
        have hc := Tiles.cons (e := e) k _ m' (by omega) (ih hm)
        have e1 : (e.slot k).descUsed + (l - (e.slot k).descUsed) = l := by omega
        rw [e1] at hc
        exact hc

theorem tiles_iff {e : EQ} {k l m : Nat} : Machine.wrMaps e l k l = some m ↔ Tiles e k l m :=
  ⟨tiles_of_wrMaps, fun h => h.wrMaps (Nat.le_refl _)⟩

theorem Tiles.unique {e : EQ} {k l m m' : Nat} (h : Tiles e k l m) (h' : Tiles e k l m') : m = m' := by
  have a := h.wrMaps (Nat.le_refl _)
  rw [h'.wrMaps (Nat.le_refl _)] at a
  exact (Option.some.inj a).symm

/-- Only the records of the tiled slots count. -/
theorem Tiles.congr {e g : EQ} {k l m : Nat} (h : Tiles e k l m) (hc : g.cap = e.cap)
    (hs : ∀ i, i < l → g.slot ((k + i) % e.cap) = e.slot ((k + i) % e.cap)) (hk : k < e.cap) : Tiles g k l m := by
  induction h with
  | nil k => exact .nil k
  | cons k l m hd _ ih =>
    have h0 : g.slot k = e.slot k := by
      have := hs 0 (by omega)
      rwa [Nat.add_zero, Nat.mod_eq_of_lt hk] at this
    have hc' := Tiles.cons (e := g) k l m (by rw [h0]; exact hd) (by
      rw [h0, hc]
      refine ih (fun i hi => ?_) (Nat.mod_lt _ (by omega))
      rw [Nat.mod_add_mod, Nat.add_assoc]
      exact hs _ (by omega))
    rwa [h0] at hc'

/-- A record behind tiled slots extends the tiling. -/
theorem Tiles.snoc {e : EQ} {k l m : Nat} (h : Tiles e k l m) (hk : k < e.cap)
    (hd : 1 ≤ (e.slot ((k + l) % e.cap)).descUsed) :
    Tiles e k (l + (e.slot ((k + l) % e.cap)).descUsed) (m + (e.slot ((k + l) % e.cap)).mapsUsed) := by
  induction h with
  | nil k =>
    rw [Nat.add_zero, Nat.mod_eq_of_lt hk] at hd ⊢
    have := Tiles.cons (e := e) k 0 0 hd (.nil _)
    simpa [Nat.add_comm] using this
  | cons k l m hd' _ ih =>
    have e1 : (k + (e.slot k).descUsed) % e.cap + l = (k + (e.slot k).descUsed) % e.cap + l := rfl
    have e2 : ((k + (e.slot k).descUsed) % e.cap + l) % e.cap = (k + ((e.slot k).descUsed + l)) % e.cap := by
      rw [Nat.mod_add_mod, Nat.add_assoc]
    have := ih (Nat.mod_lt _ (by omega)) (by rw [e2]; exact hd)
    rw [e2] at this
    have hc := Tiles.cons (e := e) k _ _ hd' this
    have e3 : (e.slot k).descUsed + (l + (e.slot ((k + ((e.slot k).descUsed + l)) % e.cap)).descUsed)
        = (e.slot k).descUsed + l + (e.slot ((k + ((e.slot k).descUsed + l)) % e.cap)).descUsed := by omega
    have e4 : m + (e.slot ((k + ((e.slot k).descUsed + l)) % e.cap)).mapsUsed + (e.slot k).mapsUsed
        = m + (e.slot k).mapsUsed + (e.slot ((k + ((e.slot k).descUsed + l)) % e.cap)).mapsUsed := by omega
    rwa [e3, e4] at hc

/-- The first record of tiled slots. -/
theorem Tiles.head {e : EQ} {k l m : Nat} (h : Tiles e k l m) (hl : 1 ≤ l) :
    1 ≤ (e.slot k).descUsed ∧ (e.slot k).descUsed ≤ l ∧ (e.slot k).mapsUsed ≤ m ∧
      Tiles e ((k + (e.slot k).descUsed) % e.cap) (l - (e.slot k).descUsed) (m - (e.slot k).mapsUsed) := by
  cases h with
  | nil => omega
  | cons _ l m hd ht => exact ⟨hd, by omega, by omega, by simpa [Nat.add_sub_cancel_left, Nat.add_sub_cancel] using ht⟩

/-- The walk of `EQ_RECLAIM` tests exactly the tiling (R341). -/
theorem wrTiles_eq (e : EQ) (n k l : Nat) : wrTiles e n k l = (Machine.wrMaps e n k l).isSome := by
  induction n generalizing k l with
  | zero => unfold wrTiles Machine.wrMaps; split <;> simp [*]
  | succ n ih =>
    unfold wrTiles Machine.wrMaps
    split
    · rfl
    · simp only
      split
      · rfl
      · rw [ih]; simp

/-! ### The credit and map laws -/

/-- The law of an EQ without its batch and SGL register: `y` maps are taken and not yet in a record (R57, R343). -/
structure EQ.Core (e : EQ) (y : Nat) : Prop where
  cap_min   : 2 ≤ e.cap
  cap_max   : e.cap ≤ 16384
  cidx_lt   : e.cidx < e.cap
  avail_le  : e.avail ≤ e.cap - 1
  pidx_eq   : e.pidx = (e.cidx + e.inUse) % e.cap
  maps_gt   : e.cap < e.txMaps
  mcidx_lt  : e.mapCidx < e.txMaps
  mpidx_eq  : e.mapPidx = (e.mapCidx + (e.txMaps - e.mapAvail)) % e.txMaps
  tiled     : ∃ m, Tiles e e.cidx e.inUse m ∧ e.mapAvail + y + m = e.txMaps
  loaded    : ∀ k, (Tab.find e.maps k).isSome = true ↔ k < e.txMaps ∧ subMod k e.mapCidx e.txMaps < e.txMaps - e.mapAvail

theorem EQ.Core.mavail_le {e : EQ} {y : Nat} (h : e.Core y) : e.mapAvail ≤ e.txMaps := by
  obtain ⟨m, _, h⟩ := h.tiled; omega

theorem EQ.Core.pidx_lt {e : EQ} {y : Nat} (h : e.Core y) : e.pidx < e.cap := by
  rw [h.pidx_eq]; exact Nat.mod_lt _ (by have := h.cap_min; omega)

theorem EQ.law_iff (e : EQ) : e.Law ↔ e.Core e.batch.nmaps ∧ (e.sgl.valid = true → e.sgl.mapHeld = true ∧ 1 ≤ e.mapAvail) :=
  ⟨fun h => ⟨⟨h.1, h.2, h.3, h.4, h.5, h.6, h.7, h.9, let ⟨m, a, b⟩ := h.10; ⟨m, tiles_of_wrMaps a, b⟩, h.11⟩, h.12⟩,
    fun h => ⟨h.1.1, h.1.2, h.1.3, h.1.4, h.1.5, h.1.6, h.1.7, h.1.mavail_le, h.1.8,
      let ⟨m, a, b⟩ := h.1.9; ⟨m, tiles_iff.2 a, b⟩, h.1.10, h.2⟩⟩

/-- The law reads the ring and pool fields only. -/
theorem EQ.Core.congr {e g : EQ} {y : Nat} (h : e.Core y) (h1 : g.cap = e.cap) (h2 : g.cidx = e.cidx) (h3 : g.avail = e.avail)
    (h4 : g.pidx = e.pidx) (h5 : g.txMaps = e.txMaps) (h6 : g.mapCidx = e.mapCidx) (h7 : g.mapAvail = e.mapAvail)
    (h8 : g.mapPidx = e.mapPidx) (h9 : g.sd = e.sd) (h10 : g.maps = e.maps) : g.Core y := by
  have hu : g.inUse = e.inUse := by simp only [EQ.inUse, h1, h3]
  refine ⟨by rw [h1]; exact h.1, by rw [h1]; exact h.2, by rw [h1, h2]; exact h.3, by rw [h1, h3]; exact h.4, ?_,
    by rw [h1, h5]; exact h.6, by rw [h6, h5]; exact h.7, ?_, ?_, fun k => ?_⟩
  · rw [h4, h2, hu, h1]; exact h.5
  · rw [h8, h6, h5, h7]; exact h.8
  · obtain ⟨m, a, b⟩ := h.9
    refine ⟨m, ?_, by rw [h7, h5]; exact b⟩
    rw [h2, hu]
    exact a.congr h1 (fun i _ => by simp only [EQ.slot, h9]) h.3
  · rw [h10, h5, h6, h7]; exact h.10 k

/-- Taking the next map of the pool (R282). -/
theorem EQ.Core.takeMap {e : EQ} {y : Nat} (h : e.Core y) (hm : 1 ≤ e.mapAvail) (p : Packet) (g : SglReg) :
    EQ.Core { e with
      maps := Tab.put e.maps e.mapPidx p, mapPidx := (e.mapPidx + 1) % e.txMaps, mapAvail := e.mapAvail - 1, sgl := g } (y + 1) := by
  have hle := h.mavail_le
  refine ⟨h.1, h.2, h.3, h.4, h.5, h.6, h.7, ?_, ?_, fun k => ?_⟩
  · show (e.mapPidx + 1) % e.txMaps = (e.mapCidx + (e.txMaps - (e.mapAvail - 1))) % e.txMaps
    rw [h.8, Nat.mod_add_mod]
    congr 1
    omega
  · obtain ⟨m, a, b⟩ := h.9
    refine ⟨m, a.congr rfl (fun _ _ => rfl) h.3, ?_⟩
    show e.mapAvail - 1 + (y + 1) + m = e.txMaps
    omega
  · show (Tab.find (Tab.put e.maps e.mapPidx p) k).isSome = true ↔
      k < e.txMaps ∧ subMod k e.mapCidx e.txMaps < e.txMaps - (e.mapAvail - 1)
    rw [Tab.find_put]
    have hp := h.mpidx_eq
    have h7 := h.7
    split
    · rename_i hk
      subst hk
      have hlt : e.mapPidx < e.txMaps := by rw [hp]; exact Nat.mod_lt _ (by omega)
      have : subMod e.mapPidx e.mapCidx e.txMaps = (e.txMaps - e.mapAvail) := by
        rw [hp]; exact subMod_add h7 (by omega)
      simp only [Option.isSome_some, true_iff, this]
      exact ⟨hlt, by omega⟩
    · rename_i hne
      rw [h.10 k]
      constructor
      · rintro ⟨a, b⟩; exact ⟨a, by omega⟩
      · rintro ⟨a, b⟩
        refine ⟨a, ?_⟩
        rcases Nat.lt_or_ge (subMod k e.mapCidx e.txMaps) (e.txMaps - e.mapAvail) with c | c
        · exact c
        · have : subMod k e.mapCidx e.txMaps = e.txMaps - e.mapAvail := by omega
          have hk := add_subMod a h7
          rw [this, ← hp] at hk
          exact absurd hk hne

/-- Committing a work request of `n` slots and `u` maps at `pidx` (R281). -/
theorem EQ.Core.commit {e : EQ} {y u n : Nat} (h : e.Core (y + u)) (hn : 1 ≤ n) (ha : n ≤ e.avail) :
    EQ.Core { e with
      sd := Tab.put e.sd e.pidx { descUsed := n, mapsUsed := u }, pidx := (e.pidx + n) % e.cap, avail := e.avail - n
      pending := e.pending + n } y := by
  have h4 := h.4
  have hc := h.1
  refine ⟨h.1, h.2, h.3, ?_, ?_, h.6, h.7, h.8, ?_, h.10⟩
  · show e.avail - n ≤ e.cap - 1
    omega
  · show (e.pidx + n) % e.cap = (e.cidx + (e.cap - 1 - (e.avail - n))) % e.cap
    rw [h.5, Nat.mod_add_mod]
    congr 1
    simp only [EQ.inUse]
    omega
  · obtain ⟨m, a, b⟩ := h.9
    have hu : e.inUse = e.cap - 1 - e.avail := rfl
    let g : EQ := { e with
      sd := Tab.put e.sd e.pidx { descUsed := n, mapsUsed := u }, pidx := (e.pidx + n) % e.cap, avail := e.avail - n
      pending := e.pending + n }
    have hg : ∀ k, g.slot k = if e.pidx = k then { descUsed := n, mapsUsed := u } else e.slot k := fun k => by
      simp only [g, EQ.slot, Tab.get_put]
    have ha' : Tiles g e.cidx e.inUse m := a.congr rfl (fun i hi => by
      rw [hg, if_neg]
      rw [h.5]
      intro hh
      have := add_mod_inj h.3 (show e.inUse < e.cap by omega) (show i < e.cap by omega) hh
      omega) h.3
    have hp : g.slot ((e.cidx + e.inUse) % e.cap) = { descUsed := n, mapsUsed := u } := by
      rw [hg, ← h.5, if_pos rfl]
    have hs := ha'.snoc (e := g) h.3 (by show 1 ≤ (g.slot ((e.cidx + e.inUse) % e.cap)).descUsed; rw [hp]; exact hn)
    change Tiles g e.cidx (e.inUse + (g.slot ((e.cidx + e.inUse) % e.cap)).descUsed)
      (m + (g.slot ((e.cidx + e.inUse) % e.cap)).mapsUsed) at hs
    rw [hp] at hs
    refine ⟨m + u, ?_, ?_⟩
    · show Tiles g e.cidx (e.cap - 1 - (e.avail - n)) (m + u)
      have : e.cap - 1 - (e.avail - n) = e.inUse + n := by omega
      rw [this]
      exact hs
    · show e.mapAvail + y + (m + u) = e.txMaps
      omega

/-! ### Returning maps -/

/-- The maps table after `u` maps from `k` on left it, oldest first. -/
def delMaps (n : Nat) : Nat → Nat → Tab Packet → Tab Packet
  | 0, _, t => t
  | u + 1, k, t => delMaps n u ((k + 1) % n) (Tab.del t k)

theorem find_delMaps (n : Nat) {u k : Nat} (hk : k < n) (hu : u ≤ n) (t : Tab Packet) (x : Nat) :
    Tab.find (delMaps n u k t) x = if x < n ∧ subMod x k n < u then none else Tab.find t x := by
  induction u generalizing k t with
  | zero => simp [delMaps]
  | succ u ih =>
    rw [delMaps, ih (Nat.mod_lt _ (by omega)) (by omega), Tab.find_del]
    by_cases hx : x < n
    · by_cases he : x = k
      · subst he
        have h0 := subMod_self hk
        rw [if_pos rfl, if_pos (show x < n ∧ subMod x x n < u + 1 from ⟨hx, by omega⟩)]
        split <;> rfl
      · have := subMod_succ hx hk he
        by_cases h1 : subMod x k n < u + 1
        · rw [if_pos ⟨hx, by omega⟩, if_pos ⟨hx, h1⟩]
        · rw [if_neg (by omega), if_neg he, if_neg (by omega)]
    · have hne : x ≠ k := by omega
      simp [hx, hne]

/-- Returning the oldest record (R341): its slots and its maps. -/
theorem EQ.Core.reclaim {e : EQ} {y : Nat} (h : e.Core y) (hu : 1 ≤ e.inUse) :
    let r := e.slot e.cidx
    1 ≤ r.descUsed ∧ r.descUsed ≤ e.inUse ∧ r.mapsUsed ≤ e.txMaps - e.mapAvail ∧
    EQ.Core { e with
      maps := delMaps e.txMaps r.mapsUsed e.mapCidx e.maps, mapCidx := (e.mapCidx + r.mapsUsed) % e.txMaps
      mapAvail := e.mapAvail + r.mapsUsed, cidx := (e.cidx + r.descUsed) % e.cap, avail := e.avail + r.descUsed } y := by
  intro r
  obtain ⟨m, a, b⟩ := h.9
  obtain ⟨h1, h2, h3, h4⟩ := a.head hu
  have hc := h.1
  have hdef : e.inUse = e.cap - 1 - e.avail := rfl
  change r.mapsUsed ≤ m at h3
  change r.descUsed ≤ e.inUse at h2
  refine ⟨h1, h2, by omega, h.1, h.2, Nat.mod_lt _ (by omega), ?_, ?_, h.6, Nat.mod_lt _ (by have := h.6; omega), ?_, ?_, fun k => ?_⟩
  · show e.avail + r.descUsed ≤ e.cap - 1
    omega
  · show e.pidx = ((e.cidx + r.descUsed) % e.cap + (e.cap - 1 - (e.avail + r.descUsed))) % e.cap
    rw [h.5, Nat.mod_add_mod]
    congr 1
    omega
  · show e.mapPidx = ((e.mapCidx + r.mapsUsed) % e.txMaps + (e.txMaps - (e.mapAvail + r.mapsUsed))) % e.txMaps
    rw [h.8, Nat.mod_add_mod]
    congr 1
    omega
  · refine ⟨m - r.mapsUsed, ?_, ?_⟩
    · show Tiles _ ((e.cidx + r.descUsed) % e.cap) (e.cap - 1 - (e.avail + r.descUsed)) _
      have : e.cap - 1 - (e.avail + r.descUsed) = e.inUse - r.descUsed := by omega
      rw [this]
      exact h4.congr rfl (fun _ _ => rfl) (Nat.mod_lt _ (by omega))
    · show e.mapAvail + r.mapsUsed + y + (m - r.mapsUsed) = e.txMaps
      omega
  · show (Tab.find (delMaps e.txMaps r.mapsUsed e.mapCidx e.maps) k).isSome = true ↔
      k < e.txMaps ∧ subMod k ((e.mapCidx + r.mapsUsed) % e.txMaps) e.txMaps < e.txMaps - (e.mapAvail + r.mapsUsed)
    rw [find_delMaps _ h.7 (by omega)]
    split
    · rename_i hx
      simp only [Option.isSome_none, Bool.false_eq_true, false_iff, not_and, Nat.not_lt]
      intro hk
      have h7 := h.7
      have hq := hx.2
      rw [subMod_eq hk h7] at hq
      by_cases hall : r.mapsUsed = e.txMaps
      · omega
      · rw [subMod_eq hk (Nat.mod_lt _ (by omega)), add_mod_of_lt h7 (by omega)]
        have hma := h.mavail_le
        split at hq <;> split <;> split <;> omega
    · rename_i hx
      rw [h.10 k]
      constructor
      · rintro ⟨hk, hl⟩
        refine ⟨hk, ?_⟩
        rw [subMod_add_right hk h.7 (by omega)]
        omega
      · rintro ⟨hk, hl⟩
        refine ⟨hk, ?_⟩
        rw [subMod_add_right hk h.7 (by omega)] at hl
        omega

/-- The maps table after the `u` newest maps before `k` left it. -/
def undoMaps (n : Nat) : Nat → Nat → Tab Packet → Tab Packet
  | 0, _, t => t
  | u + 1, k, t => undoMaps n u ((k + n - 1) % n) (Tab.del t ((k + n - 1) % n))

theorem find_undoMaps (n : Nat) {u k : Nat} (hk : k < n) (hu : u ≤ n) (t : Tab Packet) (x : Nat) :
    Tab.find (undoMaps n u k t) x = if x < n ∧ n - u ≤ subMod x k n then none else Tab.find t x := by
  induction u generalizing k t with
  | zero =>
    rw [undoMaps, if_neg]
    rintro ⟨hx, h⟩
    have := subMod_lt (by omega : 0 < n) x k
    omega
  | succ u ih =>
    have hp : (k + n - 1) % n < n := Nat.mod_lt _ (by omega)
    have hpe : (k + n - 1) % n = if k = 0 then n - 1 else k - 1 := by
      split
      · subst k; rw [Nat.mod_eq_of_lt (by omega)]; omega
      · rw [Nat.mod_eq_sub_mod (by omega), Nat.mod_eq_of_lt (by omega)]; omega
    rw [undoMaps, ih hp (by omega), Tab.find_del]
    by_cases hx : x < n
    · have h1 := subMod_eq hx hk
      have h2 := subMod_eq hx hp
      by_cases he : x = (k + n - 1) % n
      · have : n - (u + 1) ≤ subMod x k n := by
          rw [h1]; rw [hpe] at he; split at he <;> split <;> omega
        rw [if_pos (show x < n ∧ n - (u + 1) ≤ subMod x k n from ⟨hx, this⟩)]
        simp [he]
      · have : n - u ≤ subMod x ((k + n - 1) % n) n ↔ n - (u + 1) ≤ subMod x k n := by
          rw [h1, h2]
          rw [hpe] at he ⊢
          split at he <;> (split <;> (try split) <;> (try split)) <;> omega
        simp only [hx, true_and, this, if_neg he]
    · have : x ≠ (k + n - 1) % n := by omega
      simp [hx, this]

/-- Giving the `u` newest maps back to the pool (R429). -/
theorem EQ.Core.undo {e : EQ} {y u : Nat} (h : e.Core (y + u)) (b : Batch) (mp : Nat)
    (hmp : mp = (e.mapPidx + (e.txMaps - u)) % e.txMaps) :
    EQ.Core { e with
      maps := undoMaps e.txMaps u e.mapPidx e.maps, mapPidx := mp, mapAvail := e.mapAvail + u, batch := b } y := by
  obtain ⟨m, a, hb⟩ := h.9
  have hle := h.mavail_le
  have h7 := h.7
  have hm := h.6
  refine ⟨h.1, h.2, h.3, h.4, h.5, h.6, h.7, ?_, ⟨m, a.congr rfl (fun _ _ => rfl) h.3, ?_⟩, fun k => ?_⟩
  · show mp = (e.mapCidx + (e.txMaps - (e.mapAvail + u))) % e.txMaps
    rw [hmp, h.8, Nat.mod_add_mod]
    have : e.mapCidx + (e.txMaps - e.mapAvail) + (e.txMaps - u) = e.mapCidx + (e.txMaps - (e.mapAvail + u)) + e.txMaps := by omega
    rw [this, Nat.add_mod_right]
  · show e.mapAvail + u + y + m = e.txMaps
    omega
  · show (Tab.find (undoMaps e.txMaps u e.mapPidx e.maps) k).isSome = true ↔
      k < e.txMaps ∧ subMod k e.mapCidx e.txMaps < e.txMaps - (e.mapAvail + u)
    have hpl : e.mapPidx < e.txMaps := by rw [h.8]; exact Nat.mod_lt _ (by omega)
    rw [find_undoMaps _ hpl (by omega)]
    by_cases hk : k < e.txMaps
    · have h10 := h.10 k
      have hp := h.8
      have e1 := subMod_eq hk hpl
      have e2 := subMod_eq hk h7
      by_cases hfull : e.mapAvail = 0
      · rw [hfull, Nat.sub_zero, Nat.add_mod_right, Nat.mod_eq_of_lt h7] at hp
        by_cases hx : e.txMaps - u ≤ subMod k e.mapPidx e.txMaps
        · rw [if_pos ⟨hk, hx⟩]
          rw [hp] at hx
          simp only [Option.isSome_none, Bool.false_eq_true, false_iff, not_and, Nat.not_lt]
          intro _; omega
        · rw [if_neg (by omega), h10]
          rw [hp] at hx
          constructor <;> rintro ⟨_, c⟩ <;> exact ⟨hk, by omega⟩
      · rw [add_mod_of_lt h7 (by omega)] at hp
        by_cases hx : e.txMaps - u ≤ subMod k e.mapPidx e.txMaps
        · rw [if_pos ⟨hk, hx⟩]
          simp only [Option.isSome_none, Bool.false_eq_true, false_iff, not_and, Nat.not_lt]
          intro _
          rw [e1] at hx
          rw [e2]
          split at hp <;> split at hx <;> split <;> omega
        · rw [if_neg (by omega), h10]
          rw [e1] at hx
          rw [e2]
          constructor <;> rintro ⟨_, c⟩ <;> refine ⟨hk, ?_⟩ <;> (split at hp <;> split at hx <;> split at c <;> split <;> omega)
    · have : (Tab.find e.maps k).isSome = false := by
        cases hf : (Tab.find e.maps k).isSome with
        | false => rfl
        | true => exact absurd ((h.10 k).1 hf).1 hk
      simp [hk, this]

end Sys2Proof.Machine
end

