-- ==== Sys2Proof/Laws/EgressLaw.lean ====
section
/-! SUPPORT. What each egress operation does to the record of its queue, and that it keeps the credit law, the map law and
the batch budgets (R57, R343, R395). -/

namespace Sys2Proof.Machine

/-- The record and the parameters of a queue obey the laws. -/
def EqOk (j : Nat) (s : State) : Prop := (s.eq j).Law ∧ BatchLaw s.cfg (s.eq j)

/-- The fields the laws read, the SGL register aside. -/
def EQ.ring (e : EQ) : Nat × Nat × Nat × Nat × Nat × Nat × Nat × Nat × Tab EqSlot × Tab Packet × Batch :=
  (e.cap, e.cidx, e.avail, e.pidx, e.txMaps, e.mapCidx, e.mapAvail, e.mapPidx, e.sd, e.maps, e.batch)

theorem EQ.Law.sgl {e : EQ} (h : e.Law) (hv : e.sgl.valid = true) : 1 ≤ e.mapAvail := (h.sg_map hv).2

theorem EQ.Law.same {e g : EQ} (h : e.Law) (hr : g.ring = e.ring)
    (hg : g.sgl.valid = true → g.sgl.mapHeld = true ∧ 1 ≤ g.mapAvail) : g.Law := by
  simp only [EQ.ring, Prod.mk.injEq] at hr
  obtain ⟨h1, h2, h3, h4, h5, h6, h7, h8, h9, h10, h11⟩ := hr
  refine (EQ.law_iff g).2 ⟨?_, hg⟩
  rw [h11]
  exact ((EQ.law_iff e).1 h).1.congr h1 h2 h3 h4 h5 h6 h7 h8 h9 h10

theorem BatchLaw.same {c : Config} {e g : EQ} (h : BatchLaw c e) (hb : g.batch = e.batch) (ha : e.avail ≤ g.avail)
    (hp : g.pidx = e.pidx) (hc : g.cap = e.cap) : BatchLaw c g := by
  refine ⟨fun h' => ?_, fun h' => ?_, fun h' => ?_, fun h' => ?_, fun h' => ?_⟩ <;> rw [hb] at h' ⊢
  · exact ⟨(h.flits h').1, Nat.le_trans (h.flits h').2 ha⟩
  · exact h.len h'
  · exact h.count h'
  · rw [hp, hc]; exact h.cur h'
  · exact h.empty h'

/-- With no batch open, only the emptiness of the accumulator matters. -/
theorem BatchLaw.closed {c : Config} {e g : EQ} (h : BatchLaw c e) (ha : e.batch.accepting = false) (hb : g.batch = e.batch) :
    BatchLaw c g := by
  refine ⟨fun h' => ?_, fun h' => ?_, fun h' => ?_, fun h' => ?_, fun h' => ?_⟩ <;> rw [hb] at h' ⊢
  · rw [ha] at h'; cases h'
  · rw [ha] at h'; cases h'
  · rw [ha] at h'; cases h'
  · rw [ha] at h'; cases h'
  · exact h.empty ha

theorem EqOk.same {j : Nat} {s t : State} (h : EqOk j s) (hc : t.cfg = s.cfg) (hr : (t.eq j).ring = (s.eq j).ring)
    (hg : (t.eq j).sgl.valid = true → (t.eq j).sgl.mapHeld = true ∧ 1 ≤ (t.eq j).mapAvail) : EqOk j t := by
  refine ⟨h.1.same hr hg, ?_⟩
  simp only [EQ.ring, Prod.mk.injEq] at hr
  obtain ⟨h1, h2, h3, h4, h5, h6, h7, h8, h9, h10, h11⟩ := hr
  rw [hc]
  exact h.2.same h11 (by omega) h4 h1

/-- An update that leaves the fields of the laws and the SGL register alone. -/
theorem EqOk.keep {j : Nat} {s t : State} (h : EqOk j s) (hc : t.cfg = s.cfg) (hr : (t.eq j).ring = (s.eq j).ring)
    (hg : (t.eq j).sgl = (s.eq j).sgl) : EqOk j t := by
  refine h.same hc hr fun hv => ?_
  have hm : (t.eq j).mapAvail = (s.eq j).mapAvail := congrArg (fun r => r.2.2.2.2.2.2.1) hr
  rw [hg] at hv ⊢
  rw [hm]
  exact h.1.sg_map hv

/-! ### The record after each operation -/

theorem wflit_eq (j f : Nat) (v : Flit) (s : State) (k : Nat) : (wflit j f v s).eq k = s.eq k := rfl

theorem wflits_keeps (j f : Nat) (l : List Flit) (s : State) :
    (∀ k, (wflits j f l s).eq k = s.eq k) ∧ (wflits j f l s).cfg = s.cfg ∧ (wflits j f l s).host = s.host ∧
      (wflits j f l s).res = s.res ∧ (wflits j f l s).draws = s.draws := by
  induction l generalizing f s with
  | nil => exact ⟨fun _ => rfl, rfl, rfl, rfl, rfl⟩
  | cons v t ih => exact ih (f + 1) (wflit j f v s)

theorem wflits_eq (j f : Nat) (l : List Flit) (s : State) (k : Nat) : (wflits j f l s).eq k = s.eq k := (wflits_keeps j f l s).1 k
theorem wflits_cfg (j f : Nat) (l : List Flit) (s : State) : (wflits j f l s).cfg = s.cfg := (wflits_keeps j f l s).2.1

/-- The record after a commit (R281). -/
def EQ.committed (e : EQ) (n u : Nat) : EQ :=
  { e with
    sd := Tab.put e.sd e.pidx { descUsed := n, mapsUsed := u }, pidx := (e.pidx + n) % e.cap, avail := e.avail - n
    pending := e.pending + n }

theorem eqCommit_eq (j n u : Nat) (s : State) : (eqCommit j n u s).eq j = (s.eq j).committed (ndesc n) u := State.setEq_same _ _ _

theorem eqCommit_cfg (j n u : Nat) (s : State) : (eqCommit j n u s).cfg = s.cfg := rfl
theorem eqCommit_draws (j n u : Nat) (s : State) : (eqCommit j n u s).draws = s.draws := rfl
theorem eqStats_cfg (j : Nat) (f : EqStats → EqStats) (s : State) : (eqStats j f s).cfg = s.cfg := rfl
theorem eqStats_draws (j : Nat) (f : EqStats → EqStats) (s : State) : (eqStats j f s).draws = s.draws := rfl
theorem wflits_draws (j f : Nat) (l : List Flit) (s : State) : (wflits j f l s).draws = s.draws := (wflits_keeps j f l s).2.2.2.2
theorem batchClear_eq (j : Nat) (s : State) :
    (batchClear j s).eq j = { s.eq j with batch := Batch.empty (Config.freeCur s.draws) } := Tab.get_put_same _ _ _ _
theorem batchClear_cfg (j : Nat) (s : State) : (batchClear j s).cfg = s.cfg := rfl

/-- The record after the map of the packet in the SGL register was taken (R282). -/
def EQ.mapTaken (e : EQ) : EQ :=
  { e with
    maps := Tab.put e.maps e.mapPidx e.sgl.pkt, mapPidx := (e.mapPidx + 1) % e.txMaps, mapAvail := e.mapAvail - 1
    sgl := { e.sgl with mapHeld := false } }

theorem eqMapCommit_eq (j : Nat) (s : State) : (eqMapCommit j s).eq j = (s.eq j).mapTaken := State.setEq_same _ _ _

theorem eqStats_eq (j : Nat) (f : EqStats → EqStats) (s : State) :
    (eqStats j f s).eq j = { s.eq j with stats := f (s.eq j).stats } := State.setEq_same _ _ _

theorem sglConsume_eq (j : Nat) (s : State) :
    (sglConsume j s).eq j = { s.eq j with sgl := { (s.eq j).sgl with valid := false } } := State.setEq_same _ _ _

theorem sendSgl_eq (j : Nat) (l : List Flit) (n : Nat) (c : EqStats → EqStats) (s : State) :
    (sendSgl j l n c s).eq j = { (s.eq j).mapTaken.committed (ndesc n) 1 with
      stats := countOffloads (s.eq j).sgl.pkt (c (s.eq j).stats)
      sgl := { (s.eq j).sgl with mapHeld := false, valid := false } } := by
  show ((sglConsume j _).eq j) = _
  rw [sglConsume_eq, eqStats_eq, eqCommit_eq, eqMapCommit_eq, wflits_eq]
  rfl

theorem sendSgl_cfg (j : Nat) (l : List Flit) (n : Nat) (c : EqStats → EqStats) (s : State) : (sendSgl j l n c s).cfg = s.cfg :=
  wflits_cfg _ _ _ _

theorem ndesc_pos {n : Nat} (h : 1 ≤ n) : 1 ≤ ndesc n := by
  have : ndesc n = (n + 7) / 8 := rfl
  rw [this]
  omega

/-- A committed work request of the packet in the SGL register keeps the laws. -/
theorem sendSgl_ok {j n : Nat} {s : State} (h : EqOk j s) (hb : (s.eq j).batch.accepting = false)
    (hv : (s.eq j).sgl.valid = true) (hn : 1 ≤ n) (ha : ndesc n ≤ (s.eq j).avail) (l : List Flit) (c : EqStats → EqStats) :
    EqOk j (sendSgl j l n c s) := by
  have h1 := ((EQ.law_iff _).1 h.1).1.takeMap (h.1.sgl hv) (s.eq j).sgl.pkt { (s.eq j).sgl with mapHeld := false }
  have h2 := EQ.Core.commit (u := 1) (n := ndesc n) h1 (ndesc_pos hn) ha
  refine ⟨?_, ?_⟩
  · rw [sendSgl_eq]
    refine (EQ.law_iff _).2 ⟨?_, fun hh => nomatch hh⟩
    exact h2.congr rfl rfl rfl rfl rfl rfl rfl rfl rfl rfl
  · rw [sendSgl_cfg, sendSgl_eq]
    exact h.2.closed hb rfl

/-- What a single work request leaves of the batch and of the credit. -/
theorem sendSgl_batch (j : Nat) (l : List Flit) (n : Nat) (c : EqStats → EqStats) (s : State) :
    ((sendSgl j l n c s).eq j).batch = (s.eq j).batch := by rw [sendSgl_eq]; rfl

theorem writePkt_ok {j : Nat} {s : State} (h : EqOk j s) (hb : (s.eq j).batch.accepting = false) (hv : (s.eq j).sgl.valid = true) :
    EqOk j (writePkt j s).2 ∧ ((writePkt j s).2.eq j).batch = (s.eq j).batch := by
  unfold writePkt
  dsimp only
  split
  · exact ⟨h, rfl⟩
  · exact ⟨sendSgl_ok h hb hv (by unfold pktWrFlits Config.txpktHdrFlits; omega) (by omega) _ _, sendSgl_batch _ _ _ _ _⟩

theorem writeLso_ok {j : Nat} {s : State} (h : EqOk j s) (hb : (s.eq j).batch.accepting = false) (hv : (s.eq j).sgl.valid = true)
    (l : Lso) : EqOk j (writeLso j l s).2 ∧ ((writeLso j l s).2.eq j).batch = (s.eq j).batch := by
  unfold writeLso
  dsimp only
  split
  · exact ⟨h, rfl⟩
  · exact ⟨sendSgl_ok h hb hv (by unfold lsoWrFlits Config.txpktLsoHdrFlits; omega) (by omega) _ _, sendSgl_batch _ _ _ _ _⟩

theorem writeOne_ok {j : Nat} {s : State} (h : EqOk j s) (hb : (s.eq j).batch.accepting = false) (hv : (s.eq j).sgl.valid = true) :
    EqOk j (writeOne j s).2 ∧ ((writeOne j s).2.eq j).batch = (s.eq j).batch := by
  unfold writeOne
  split
  · exact writePkt_ok h hb hv
  · exact writeLso_ok h hb hv _

/-- A commit without maps keeps the laws when no batch is open. -/
theorem commit_ok {j n : Nat} {s t : State} (h : EqOk j s) (hb : (s.eq j).batch.accepting = false) (hn : 1 ≤ n)
    (ha : n ≤ (s.eq j).avail) (hc : t.cfg = s.cfg) (hr : (t.eq j).ring = ((s.eq j).committed n 0).ring)
    (hg : (t.eq j).sgl = (s.eq j).sgl) : EqOk j t := by
  have hcore := EQ.Core.commit (u := 0) (n := n) (y := (s.eq j).batch.nmaps) ((EQ.law_iff _).1 h.1).1 hn ha
  have hl : ((s.eq j).committed n 0).Law := (EQ.law_iff _).2 ⟨hcore.congr rfl rfl rfl rfl rfl rfl rfl rfl rfl rfl, h.1.sg_map⟩
  have hm : (t.eq j).mapAvail = (s.eq j).mapAvail := congrArg (fun r => r.2.2.2.2.2.2.1) hr
  refine ⟨hl.same hr fun hv => ?_, ?_⟩
  · rw [hg] at hv ⊢
    rw [hm]
    exact h.1.sg_map hv
  · rw [hc]
    exact h.2.closed hb (congrArg (fun r => r.2.2.2.2.2.2.2.2.2.2) hr)

theorem writeImm_eq (j : Nat) (p : Packet) (s : State) (h : ¬ (s.eq j).avail < ndesc (immWrFlits p.len.toNat)) :
    (writeImm j p s).2.eq j = { (s.eq j).committed (ndesc (immWrFlits p.len.toNat)) 0 with
      stats := countOffloads p { (s.eq j).stats with immWrs := (s.eq j).stats.immWrs + 1 } } := by
  unfold writeImm
  rw [if_neg h]
  show (eqStats j _ (State.emit (eqCommit j _ 0 (wflits j _ _ s)) _)).eq j = _
  rw [eqStats_eq, State.emit_get_eq, eqCommit_eq, wflits_eq]
  rfl

theorem writeImm_cfg (j : Nat) (p : Packet) (s : State) : (writeImm j p s).2.cfg = s.cfg := by
  unfold writeImm
  dsimp only
  split
  · rfl
  · exact wflits_cfg _ _ _ _

theorem writeImm_ok {j : Nat} {s : State} (h : EqOk j s) (hb : (s.eq j).batch.accepting = false) (p : Packet) :
    EqOk j (writeImm j p s).2 ∧ ((writeImm j p s).2.eq j).batch = (s.eq j).batch := by
  by_cases ha : (s.eq j).avail < ndesc (immWrFlits p.len.toNat)
  · have : (writeImm j p s).2 = s := by unfold writeImm; rw [if_pos ha]
    rw [this]
    exact ⟨h, rfl⟩
  · have e := writeImm_eq j p s ha
    refine ⟨commit_ok h hb (ndesc_pos (n := immWrFlits p.len.toNat) (by unfold immWrFlits Config.txpktHdrFlits; omega)) (by omega)
      (writeImm_cfg j p s) ?_ ?_, ?_⟩ <;> rw [e] <;> rfl

theorem writeFlush_eq (j : Nat) (s : State) (h : 1 ≤ (s.eq j).avail) : (writeFlush j s).2.eq j =
    { (s.eq j).committed 1 0 with flushOut := true } := by
  unfold writeFlush
  rw [if_neg (by omega)]
  show ((State.setEq _ j _).eq j) = _
  rw [State.setEq_same, eqCommit_eq, wflits_eq]
  rfl

theorem writeFlush_ok {j : Nat} {s : State} (h : EqOk j s) (hb : (s.eq j).batch.accepting = false) :
    EqOk j (writeFlush j s).2 ∧ ((writeFlush j s).2.eq j).batch = (s.eq j).batch := by
  by_cases ha : (s.eq j).avail < 1
  · have : (writeFlush j s).2 = s := by unfold writeFlush; rw [if_pos ha]
    rw [this]
    exact ⟨h, rfl⟩
  · have e := writeFlush_eq j s (by omega)
    refine ⟨commit_ok (n := 1) h hb (Nat.le_refl _) (by omega) ?_ ?_ ?_, ?_⟩
    · unfold writeFlush
      rw [if_neg ha]
      show (State.setEq _ j _).cfg = _
      rw [State.setEq_cfg, eqCommit_cfg, wflits_cfg]
    · rw [e]; rfl
    · rw [e]; rfl
    · rw [e]; rfl

/-! ### The batch -/

theorem batchAccepts_iff (c : Config) (e : EQ) : batchAccepts c e = true ↔
    e.sgl.pkt.lso = none ∧ (batchBase e).nflits + partFlits e.sgl.segs ≤ c.maxWrFlits ∧
      ndesc ((batchBase e).nflits + partFlits e.sgl.segs) ≤ e.avail ∧
      (batchBase e).plen + e.sgl.pkt.len.toNat < c.coalPlenLimit := by
  simp only [batchAccepts, Bool.and_eq_true, decide_eq_true_eq, Option.isNone_iff_eq_none, and_assoc]

theorem txpktsJoin_eq (j : Nat) (s : State) : (txpktsJoin j s).eq j = { (s.eq j).mapTaken with
    batch := batchJoined (s.eq j), stats := countOffloads (s.eq j).sgl.pkt (s.eq j).stats
    sgl := { (s.eq j).sgl with mapHeld := false, valid := false } } := by
  show ((sglConsume j (eqStats j _ (State.setEq _ j _))).eq j) = _
  rw [sglConsume_eq, eqStats_eq, State.setEq_same, eqMapCommit_eq, wflits_eq]
  rfl

theorem txpktsJoin_cfg (j : Nat) (s : State) : (txpktsJoin j s).cfg = s.cfg := wflits_cfg _ _ _ _

theorem partFlits_even (l : List Segment) : partFlits l % 2 = 0 := by
  unfold partFlits Config.txpktsPktFlits
  generalize sglFlits l.length = n
  omega

/-- Where the parts of a batch start and that they are an even number of flits (R390). -/
theorem batchBase_cur {c : Config} {e : EQ} (h : BatchLaw c e) :
    (batchBase e).nflits % 2 = 0 ∧ (batchBase e).cur % (8 * e.cap) = (8 * e.pidx + (batchBase e).nflits) % (8 * e.cap) ∧
    (batchBase e).nmaps = (batchBase e).npkt ∧ (batchBase e).nmaps = e.batch.nmaps ∧ (batchBase e).npkt = e.batch.npkt := by
  unfold batchBase
  split
  · rename_i ha
    exact ⟨(h.cur ha).1, by rw [(h.cur ha).2, Nat.mod_mod], (h.count ha).2.1, rfl, rfl⟩
  · rename_i ha
    have := h.empty (by simpa using ha)
    exact ⟨(by decide : 2 % 2 = 0), rfl, this.2.2.2, rfl, this.1.symm⟩

theorem sglFlits_ge (n : Nat) : 2 ≤ sglFlits n := by unfold sglFlits; omega

theorem partFlits_ge (l : List Segment) : 6 ≤ partFlits l := by
  have := sglFlits_ge l.length
  unfold partFlits Config.txpktsPktFlits
  omega

/-- The accumulator after an accepted packet keeps the budgets (R395). -/
theorem batchJoined_law {c : Config} {e g : EQ} (h : BatchLaw c e) (ha : batchAccepts c e = true) (hb : g.batch = batchJoined e)
    (hp : g.pidx = e.pidx) (hc : g.cap = e.cap) (hv : g.avail = e.avail) : BatchLaw c g := by
  obtain ⟨_, h1, h2, h3⟩ := (batchAccepts_iff _ _).1 ha
  obtain ⟨b1, b2, b3, b4, b5⟩ := batchBase_cur h
  have hl : 2 + 6 * (batchBase e).npkt ≤ (batchBase e).nflits := by
    unfold batchBase
    split
    · exact (h.count ‹_›).2.2
    · exact Nat.le_refl _
  have hge := partFlits_ge e.sgl.segs
  have hev := partFlits_even e.sgl.segs
  have e1 : (batchJoined e).nflits = (batchBase e).nflits + partFlits e.sgl.segs := rfl
  have e2 : (batchJoined e).plen = (batchBase e).plen + e.sgl.pkt.len.toNat := rfl
  have e3 : (batchJoined e).npkt = (batchBase e).npkt + 1 := rfl
  have e4 : (batchJoined e).nmaps = (batchBase e).nmaps + 1 := rfl
  have e5 : (batchJoined e).cur = ((batchBase e).cur + partFlits e.sgl.segs) % (8 * e.cap) := rfl
  have e6 : (batchJoined e).accepting = true := rfl
  refine ⟨fun _ => ?_, fun _ => ?_, fun _ => ?_, fun _ => ?_, fun hh => ?_⟩ <;> rw [hb]
  · rw [e1, hv]; exact ⟨h1, h2⟩
  · rw [e2]; exact h3
  · rw [e1, e3, e4]; exact ⟨by omega, by omega, by omega⟩
  · rw [e1, e5, hp, hc]
    exact ⟨by omega, by rw [← Nat.add_assoc, ← Nat.mod_add_mod, b2, Nat.mod_add_mod]⟩
  · rw [hb, e6] at hh; cases hh

theorem txpktsJoin_ok {j : Nat} {s : State} (h : EqOk j s) (hv : (s.eq j).sgl.valid = true)
    (ha : batchAccepts s.cfg (s.eq j) = true) : EqOk j (txpktsJoin j s) := by
  have hc := ((EQ.law_iff _).1 h.1).1.takeMap (h.1.sgl hv) (s.eq j).sgl.pkt { (s.eq j).sgl with mapHeld := false }
  refine ⟨?_, ?_⟩
  · rw [txpktsJoin_eq]
    refine (EQ.law_iff _).2 ⟨?_, fun hh => nomatch hh⟩
    show EQ.Core _ ((batchBase (s.eq j)).nmaps + 1)
    rw [(batchBase_cur h.2).2.2.2.1]
    exact hc.congr rfl rfl rfl rfl rfl rfl rfl rfl rfl rfl
  · rw [txpktsJoin_cfg, txpktsJoin_eq]
    exact batchJoined_law h.2 ha rfl rfl rfl rfl

theorem txpktsAdd_ok {j : Nat} {s : State} (h : EqOk j s) (hv : (s.eq j).sgl.valid = true) : EqOk j (txpktsAdd j s).2 := by
  unfold txpktsAdd
  split
  · exact txpktsJoin_ok h hv ‹_›
  · exact h

theorem txpktsFlush_eq (j : Nat) (s : State) (h : (s.eq j).batch.accepting = true) : (txpktsFlush j s).2.eq j =
    { (s.eq j).committed (ndesc (s.eq j).batch.nflits) (s.eq j).batch.nmaps with
      batch := Batch.empty (Config.freeCur s.draws)
      stats := { (s.eq j).stats with
        txpktsWrs := (s.eq j).stats.txpktsWrs + 1
        txpktsPkts := (s.eq j).stats.txpktsPkts + BitVec.ofNat 64 (s.eq j).batch.npkt } } := by
  unfold txpktsFlush
  rw [if_pos h]
  show (batchClear j (eqStats j _ (eqCommit j _ _ (wflits j _ _ s)))).eq j = _
  rw [batchClear_eq, eqStats_eq, eqStats_draws, eqCommit_eq, eqCommit_draws, wflits_eq, wflits_draws]
  rfl

theorem txpktsFlush_cfg (j : Nat) (s : State) : (txpktsFlush j s).2.cfg = s.cfg := by
  unfold txpktsFlush
  dsimp only
  split
  · show (batchClear j (eqStats j _ (eqCommit j _ _ (wflits j _ _ s)))).cfg = _
    rw [batchClear_cfg, eqStats_cfg, eqCommit_cfg, wflits_cfg]
  · rfl

theorem batchLaw_empty (c : Config) (e : EQ) (k : Nat) (h : e.batch = Batch.empty k) : BatchLaw c e := by
  refine ⟨?_, ?_, ?_, ?_, fun _ => ?_⟩ <;> rw [h] <;> simp [Batch.empty]

theorem txpktsFlush_ok {j : Nat} {s : State} (h : EqOk j s) : EqOk j (txpktsFlush j s).2 ∧
    ((txpktsFlush j s).2.eq j).batch.accepting = false ∧ ((txpktsFlush j s).2.eq j).sgl = (s.eq j).sgl ∧
    ((txpktsFlush j s).2.eq j).mapAvail = (s.eq j).mapAvail := by
  by_cases ha : (s.eq j).batch.accepting = true
  · have e := txpktsFlush_eq j s ha
    have hf := h.2.flits ha
    have hn := h.2.count ha
    have hcore := EQ.Core.commit (y := 0) (u := (s.eq j).batch.nmaps) (n := ndesc (s.eq j).batch.nflits)
      (by rw [Nat.zero_add]; exact ((EQ.law_iff _).1 h.1).1) (ndesc_pos (by omega)) hf.2
    refine ⟨⟨?_, ?_⟩, by rw [e]; rfl, by rw [e]; rfl, by rw [e]; rfl⟩
    · rw [e]
      refine (EQ.law_iff _).2 ⟨?_, h.1.sg_map⟩
      show EQ.Core _ 0
      exact hcore.congr rfl rfl rfl rfl rfl rfl rfl rfl rfl rfl
    · rw [txpktsFlush_cfg, e]
      exact batchLaw_empty _ _ _ rfl
  · have e : (txpktsFlush j s).2 = s := by unfold txpktsFlush; rw [if_neg ha]
    rw [e]
    exact ⟨h, by simpa using ha, rfl, rfl⟩

/-! ### Doorbell, stall, packets -/

theorem eqDoorbell_eq (j : Nat) (force : Bool) (s : State) : (eqDoorbell j force s).2.eq j =
    if (s.eq j).pending = 0 ∨ (force = false ∧ (s.eq j).pending < backoff s.cfg ((s.eq j).cap - (s.eq j).avail)) then s.eq j
    else { s.eq j with pending := 0 } := by
  unfold eqDoorbell
  dsimp only
  split
  · rfl
  · exact State.setEq_same _ _ _

theorem eqDoorbell_cfg (j : Nat) (force : Bool) (s : State) : (eqDoorbell j force s).2.cfg = s.cfg := by
  unfold eqDoorbell
  dsimp only
  split <;> rfl

theorem eqDoorbell_ok {j : Nat} {s : State} (h : EqOk j s) (force : Bool) :
    EqOk j (eqDoorbell j force s).2 ∧ ((eqDoorbell j force s).2.eq j).batch = (s.eq j).batch ∧
      ((eqDoorbell j force s).2.eq j).sgl = (s.eq j).sgl := by
  refine ⟨h.keep (eqDoorbell_cfg _ _ _) ?_ ?_, ?_, ?_⟩ <;> rw [eqDoorbell_eq] <;> split <;> rfl

theorem stallFlush_ok {j : Nat} {s : State} (h : EqOk j s) (hb : (s.eq j).batch.accepting = false) (b : Bool) :
    EqOk j (stallFlush j b s) := by
  have key : ∀ u, EqOk j u → (u.eq j).batch.accepting = false →
      EqOk j (if (u.eq j).flushOut = false ∧ 1 ≤ (u.eq j).avail then (writeFlush j u).2 else u) := fun u hu hb => by
    split
    · exact (writeFlush_ok hu hb).1
    · exact hu
  have e : (eqStats j (fun c => if b then { c with noDmamap := c.noDmamap + 1 } else { c with noDesc := c.noDesc + 1 })
      (s.setEq j { s.eq j with stalled := true })).eq j = { s.eq j with
        stalled := true
        stats := if b then { (s.eq j).stats with noDmamap := (s.eq j).stats.noDmamap + 1 }
          else { (s.eq j).stats with noDesc := (s.eq j).stats.noDesc + 1 } } := by
    rw [eqStats_eq, State.setEq_same]
  refine key _ (h.keep rfl ?_ ?_) ?_ <;> rw [e]
  · rfl
  · exact hb

theorem sglHold_eq (j : Nat) (s : State) : (sglHold j s).eq j = { s.eq j with sgl := { (s.eq j).sgl with isHeld := true } } :=
  State.setEq_same _ _ _

/-- With an empty SGL register `eq.held` is the field `held`. -/
theorem EQ.heldPkt_of_empty {e : EQ} (h : e.sgl.valid = false) : e.heldPkt = e.held := by
  unfold EQ.heldPkt EQ.heldInSgl
  rw [h, Bool.and_false, Bool.false_and, if_neg Bool.false_ne_true]

/-- A packet of the field `held` is what `eq.held` names, whatever the register has. -/
theorem EQ.heldPkt_of_some {e : EQ} {p : Packet} (h : e.held = some p) : e.heldPkt = some p := by
  unfold EQ.heldPkt EQ.heldInSgl
  rw [h]; rfl

/-- R510: `sglHold` puts the packet of a full register in `eq.held`, where that was empty. -/
theorem heldPkt_sglHold {j : Nat} {s : State} (hv : (s.eq j).sgl.valid = true) (hh : (s.eq j).held = none) :
    ((sglHold j s).eq j).heldPkt = some (s.eq j).sgl.pkt := by
  rw [sglHold_eq]
  unfold EQ.heldPkt EQ.heldInSgl
  rw [hh, hv]; rfl

theorem sglHold_ok {j : Nat} {s : State} (h : EqOk j s) : EqOk j (sglHold j s) := by
  refine h.same rfl ?_ ?_ <;> rw [sglHold_eq]
  · rfl
  · exact h.1.sg_map

theorem eqHold_ok {j : Nat} {s : State} (h : EqOk j s) (p : Option Packet) : EqOk j (eqHold j p s) := by
  refine h.keep rfl ?_ ?_ <;> rw [show (eqHold j p s).eq j = { s.eq j with held := p } from State.setEq_same _ _ _] <;> rfl

theorem eqStats_ok {j : Nat} {s : State} (h : EqOk j s) (f : EqStats → EqStats) : EqOk j (eqStats j f s) := by
  refine h.keep rfl ?_ ?_ <;> rw [eqStats_eq] <;> rfl

theorem eqDrop_ok {j : Nat} {s : State} (h : EqOk j s) (p : Packet) : EqOk j (eqDrop j p s) := eqStats_ok (s := s.emit _) h _

theorem sglRelease_eq (j : Nat) (s : State) :
    (sglRelease j s).eq j = { s.eq j with sgl := { (s.eq j).sgl with mapHeld := false, valid := false } } := by
  unfold sglRelease
  exact State.setEq_same _ _ _

theorem sglRelease_cfg (j : Nat) (s : State) : (sglRelease j s).cfg = s.cfg := by
  unfold sglRelease
  dsimp only
  split <;> rfl

theorem sglRelease_ok {j : Nat} {s : State} (h : EqOk j s) : EqOk j (sglRelease j s) := by
  refine h.same (sglRelease_cfg _ _) ?_ ?_ <;> rw [sglRelease_eq]
  · rfl
  · exact fun hh => nomatch hh

theorem dequeue_eq (j : Nat) (s : State) (k : Nat) : (s.dequeue j).2.eq k = s.eq k := rfl
theorem peek_eq (j : Nat) (s : State) (k : Nat) : (s.peek j).2.eq k = s.eq k := rfl
theorem dequeue_ok {j : Nat} {s : State} (h : EqOk j s) : EqOk j (s.dequeue j).2 := h
theorem peek_ok {j : Nat} {s : State} (h : EqOk j s) : EqOk j (s.peek j).2 := h

/-- `dequeue` returns the packet the last `peek` returned (43_egress_tx.md). -/
theorem dequeue_of_peek {j : Nat} {s : State} {p : Packet} (h : (s.peek j).1 = some p) :
    ((s.peek j).2.dequeue j).1 = some p := by
  have key : ∀ l : List SrcItem, (peekSrc l).1 = some p → (dequeueSrc (peekSrc l).2).1 = some p := by
    intro l
    induction l with
    | nil => exact fun h => nomatch h
    | cons x l ih =>
      rcases x with q | q | _ | (_ | q) | q
      · exact id
      · exact fun h => nomatch h
      · exact fun h => nomatch h
      · exact fun h => nomatch h
      · exact id
      · exact ih
  show (dequeueSrc ((s.peek j).2.src j)).1 = some p
  rw [State.peek, State.setSrc_get, if_pos rfl]
  exact key _ h

/-- A `peek` leaves no more items, a packet taken leaves fewer. -/
theorem peekSrc_length (l : List SrcItem) : (peekSrc l).2.length ≤ l.length := by
  induction l with
  | nil => exact Nat.le_refl _
  | cons x l ih => rcases x with q | q | _ | (_ | q) | q <;> simp only [peekSrc, List.length_cons] <;> omega

theorem dequeueSrc_length {l : List SrcItem} (h : (dequeueSrc l).1 ≠ none) : (dequeueSrc l).2.length < l.length := by
  induction l with
  | nil => exact absurd rfl h
  | cons x l ih =>
    rcases x with q | q | _ | a | q <;> simp only [dequeueSrc, List.length_cons] at h ⊢ <;> first | omega | exact absurd rfl h | skip
    have := ih h
    omega

theorem takePacket_ok {j : Nat} {s : State} (h : EqOk j s) :
    EqOk j (takePacket j s).2 ∧ ((takePacket j s).2.eq j).batch = (s.eq j).batch ∧
      ((takePacket j s).2.eq j).sgl = (s.eq j).sgl := by
  unfold takePacket
  split
  · have e : (eqHold j none s).eq j = { s.eq j with held := none } := State.setEq_same _ _ _
    exact ⟨eqHold_ok h none, by rw [e], by rw [e]⟩
  · exact ⟨dequeue_ok h, rfl, rfl⟩

/-- A loaded map keeps the laws when the pool has a free one for it. -/
theorem sglLoad_ok {j : Nat} {s : State} (h : EqOk j s) (hm : 1 ≤ (s.eq j).mapAvail) (p : Packet) (l : List Segment) :
    EqOk j (sglLoad j p l s) ∧ ((sglLoad j p l s).eq j).batch = (s.eq j).batch ∧ ((sglLoad j p l s).eq j).sgl.valid = true := by
  have e : (sglLoad j p l s).eq j = { s.eq j with sgl := { valid := true, mapHeld := true, pkt := p, segs := l } } :=
    State.setEq_same _ _ _
  refine ⟨h.same rfl ?_ ?_, ?_, ?_⟩ <;> rw [e]
  · rfl
  · exact fun _ => ⟨rfl, hm⟩

theorem sglRetry_ok {j : Nat} {s : State} (h : EqOk j s) (hm : 1 ≤ (s.eq j).mapAvail) (p : Packet) :
    EqOk j (sglRetry j p s).s ∧ ((sglRetry j p s).s.eq j).batch = (s.eq j).batch ∧
      ((sglRetry j p s).rc = .ok → ((sglRetry j p s).s.eq j).sgl.valid = true) := by
  have h1 : EqOk j (s.mapLoad p).2 := h
  unfold sglRetry
  dsimp only
  split
  · have := sglLoad_ok h1 hm p (by assumption)
    exact ⟨this.1, this.2.1, fun _ => this.2.2⟩
  · refine ⟨eqDrop_ok h1 p, ?_, fun hh => by cases hh⟩
    show ((eqStats j _ _).eq j).batch = _
    rw [eqStats_eq]
    rfl
  · exact ⟨h1, rfl, fun hh => by cases hh⟩

theorem compact_eq (s : State) (p : Packet) (k : Nat) : (s.compact p).2.eq k = s.eq k := rfl
theorem compact_ok {j : Nat} {s : State} (h : EqOk j s) (p : Packet) : EqOk j (s.compact p).2 := h

theorem sglBuildPkt_ok {j : Nat} {s : State} (h : EqOk j s) (p : Packet) :
    EqOk j (sglBuildPkt j p s).s ∧ ((sglBuildPkt j p s).s.eq j).batch = (s.eq j).batch ∧
      ((sglBuildPkt j p s).rc = .ok → ((sglBuildPkt j p s).s.eq j).sgl.valid = true) := by
  have h1 : EqOk j (s.mapLoad p).2 := h
  unfold sglBuildPkt
  split
  · exact ⟨h, rfl, fun hh => by cases hh⟩
  · rename_i hm
    dsimp only
    split
    · have := sglLoad_ok h1 (by show 1 ≤ (s.eq j).mapAvail; omega) p (by assumption)
      exact ⟨this.1, this.2.1, fun _ => this.2.2⟩
    · exact ⟨h1, rfl, fun hh => by cases hh⟩
    · have h2 : EqOk j ((eqStats j (fun c => { c with defrags := c.defrags + 1 }) (s.mapLoad p).2).compact p).2 := compact_ok (eqStats_ok h1 _) p
      have e : (((eqStats j (fun c => { c with defrags := c.defrags + 1 }) (s.mapLoad p).2).compact p).2.eq j) =
          { s.eq j with stats := { (s.eq j).stats with defrags := (s.eq j).stats.defrags + 1 } } := by
        rw [compact_eq, eqStats_eq]
        rfl
      split
      · refine ⟨eqDrop_ok h2 p, ?_, fun hh => by cases hh⟩
        show ((eqStats j _ _).eq j).batch = _
        rw [eqStats_eq, State.emit_get_eq, e]
      · have := sglRetry_ok h2 (by rw [e]; show 1 ≤ (s.eq j).mapAvail; omega) (by assumption)
        rw [e] at this
        exact this

/-! ### The transmit loop -/

theorem flushFirst_ok {j : Nat} {s : State} (h : EqOk j s) : EqOk j (flushFirst j s) ∧
    ((flushFirst j s).eq j).batch.accepting = false ∧ ((flushFirst j s).eq j).sgl = (s.eq j).sgl := by
  unfold flushFirst
  split
  · have h1 := txpktsFlush_ok h
    have h2 := eqDoorbell_ok h1.1 false
    exact ⟨h2.1, by rw [h2.2.1]; exact h1.2.1, by rw [h2.2.2]; exact h1.2.2.1⟩
  · rename_i hb
    exact ⟨h, by simpa using hb, rfl⟩

theorem txSingle_ok {j : Nat} {s : State} (h : EqOk j s) (hv : (s.eq j).sgl.valid = true) (p : Packet) :
    EqOk j (txSingle j p s).state := by
  have h1 := flushFirst_ok h
  have h2 := writeOne_ok h1.1 h1.2.1 (by rw [h1.2.2]; exact hv)
  unfold txSingle
  dsimp only
  split
  · exact h2.1
  · exact h2.1

theorem txpktsAdd_false {j : Nat} {s : State} (h : (txpktsAdd j s).1 = false) : (txpktsAdd j s).2 = s := by
  unfold txpktsAdd at h ⊢
  split at h
  · cases h
  · rw [if_neg ‹_›]

theorem txBuilt_ok {j : Nat} {s : State} (h : EqOk j s) (hv : (s.eq j).sgl.valid = true) (c : Bool) (p : Packet) :
    EqOk j (txBuilt j c p s).state := by
  unfold txBuilt
  dsimp only
  split
  · split
    · exact txpktsAdd_ok h hv
    · rename_i hn
      rw [txpktsAdd_false (by simpa using hn)]
      exact txSingle_ok h hv _
  · exact txSingle_ok h hv _

theorem txSgl_ok {j : Nat} {s : State} (h : EqOk j s) (c : Bool) (p : Packet) : EqOk j (txSgl j c p s).state := by
  have h1 := sglBuildPkt_ok h p
  unfold txSgl
  dsimp only
  split
  · exact txBuilt_ok h1.1 (h1.2.2 ‹_›) c _
  · split
    · exact h1.1
    · exact h1.1

theorem txOne_ok {j : Nat} {s : State} (h : EqOk j s) (p : Packet) : EqOk j (txOne j p s).state := by
  unfold txOne
  dsimp only
  split
  · split
    · rename_i hc
      have hb : (s.eq j).batch.accepting = false := by
        simp only [coalescing, Bool.and_eq_true, Bool.not_eq_true', Bool.or_eq_false_iff] at hc
        exact hc.1.1
      have := (writeImm_ok (peek_ok h) hb p).1
      split
      · exact this
      · exact this
    · exact txSgl_ok (peek_ok h) _ _
  · exact eqDrop_ok h p

theorem txLoop_ok {j : Nat} {s : State} (h : EqOk j s) (limit n : Nat) (p : Option Packet) (k : Nat) :
    EqOk j (txLoop j limit n p k s).s := by
  induction n generalizing p k s with
  | zero =>
    cases p with
    | none => exact h
    | some p => exact eqHold_ok h _
  | succ n ih =>
    cases p with
    | none => exact h
    | some p =>
      have h1 := txOne_ok h p
      unfold txLoop
      split
      · split
        · rename_i e; rw [e] at h1; exact ih (dequeue_ok h1) _ _
        · rename_i e; rw [e] at h1; exact ih (dequeue_ok h1) _ _
        · rename_i e; rw [e] at h1; exact ih (dequeue_ok (eqDoorbell_ok h1 _).1) _ _
        · rename_i e; rw [e] at h1; exact eqHold_ok (sglRelease_ok h1) _
      · exact eqHold_ok h _

theorem txEnd_ok {j : Nat} {s : State} (h : EqOk j s) (b : Option Bool) : EqOk j (txEnd j b s) := by
  have h1 := txpktsFlush_ok h
  unfold txEnd
  dsimp only
  split
  · exact (eqDoorbell_ok (stallFlush_ok h1.1 h1.2.1 _) _).1
  · refine (eqDoorbell_ok (h1.1.keep (t := State.setEq _ j _) rfl ?_ ?_) _).1 <;> rw [State.setEq_same] <;> rfl

theorem txKeep_ok {j : Nat} {s : State} (h : EqOk j s) (p : Packet) : EqOk j (txKeep j p s) := by
  unfold txKeep
  split
  · exact eqHold_ok (sglRelease_ok h) _
  · exact h

theorem txFirst_ok {j : Nat} {s : State} (h : EqOk j s) : EqOk j (txFirst j s).s := by
  unfold txFirst
  dsimp only
  split
  · have hb := txBuilt_ok (peek_ok h) ‹_› (coalescing j s) (s.eq j).sgl.pkt
    split
    · split
      · rename_i e; rw [e] at hb; exact hb
      · rename_i e; rw [e] at hb; exact hb
      · rename_i e; rw [e] at hb; exact (eqDoorbell_ok hb _).1
      · rename_i e; rw [e] at hb; exact txKeep_ok hb _
    · exact eqDrop_ok (sglRelease_ok h) _
  · exact h

theorem txPackets_ok {j limit : Nat} {e : TxEnd} (h : EqOk j e.s) : EqOk j (txPackets j limit e).s := by
  unfold txPackets
  split
  · exact h
  · exact txLoop_ok (takePacket_ok h).1 _ _ _ _

theorem txRun_ok {j : Nat} {s : State} (h : EqOk j s) (limit : Nat) : EqOk j (txRun j limit s).2 :=
  txEnd_ok (txPackets_ok (txFirst_ok h)) _

/-! ### Reclaim and discard -/

theorem mapReturn_eq (j : Nat) (s : State) : (mapReturn j s).eq j = { s.eq j with
    maps := Tab.del (s.eq j).maps (s.eq j).mapCidx, mapCidx := ((s.eq j).mapCidx + 1) % (s.eq j).txMaps } := by
  unfold mapReturn
  dsimp only
  rw [State.setEq_same]
  split <;> rfl

theorem mapReturn_cfg (j : Nat) (s : State) : (mapReturn j s).cfg = s.cfg := by
  unfold mapReturn
  dsimp only
  split <;> rfl

theorem mapReturns_eq (j u : Nat) (s : State) (h : (s.eq j).mapCidx < (s.eq j).txMaps) : (mapReturns j u s).eq j =
    { s.eq j with
      maps := delMaps (s.eq j).txMaps u (s.eq j).mapCidx (s.eq j).maps
      mapCidx := ((s.eq j).mapCidx + u) % (s.eq j).txMaps } := by
  induction u generalizing s with
  | zero => rw [Nat.add_zero, Nat.mod_eq_of_lt h]; rfl
  | succ u ih =>
    show (mapReturns j u (mapReturn j s)).eq j = _
    rw [ih _ (by rw [mapReturn_eq]; exact Nat.mod_lt _ (by omega)), mapReturn_eq]
    simp only [Nat.mod_add_mod, Nat.add_assoc, Nat.add_comm 1 u, delMaps]

theorem mapReturns_cfg (j u : Nat) (s : State) : (mapReturns j u s).cfg = s.cfg := by
  induction u generalizing s with
  | zero => rfl
  | succ u ih => exact (ih _).trans (mapReturn_cfg j s)

/-- The record after its oldest work request was returned (R341). -/
def EQ.reclaimed (e : EQ) : EQ :=
  let r := e.slot e.cidx
  { e with
    maps := delMaps e.txMaps r.mapsUsed e.mapCidx e.maps, mapCidx := (e.mapCidx + r.mapsUsed) % e.txMaps
    mapAvail := e.mapAvail + r.mapsUsed, cidx := (e.cidx + r.descUsed) % e.cap, avail := e.avail + r.descUsed }

theorem reclaimOne_eq (j : Nat) (s : State) (h : (s.eq j).mapCidx < (s.eq j).txMaps) :
    (reclaimOne j s).eq j = (s.eq j).reclaimed := by
  unfold reclaimOne
  dsimp only
  rw [State.setEq_same, mapReturns_eq _ _ _ h]
  rfl

theorem reclaimOne_cfg (j : Nat) (s : State) : (reclaimOne j s).cfg = s.cfg := mapReturns_cfg _ _ _

theorem reclaimOne_ok {j : Nat} {s : State} (h : EqOk j s) (hu : 1 ≤ (s.eq j).inUse) : EqOk j (reclaimOne j s) := by
  have hc := (EQ.law_iff _).1 h.1
  have h7 := hc.1.mcidx_lt
  obtain ⟨r1, r2, r3, r4⟩ := hc.1.reclaim hu
  unfold EqOk
  rw [reclaimOne_cfg, reclaimOne_eq _ _ h7]
  refine ⟨(EQ.law_iff _).2 ⟨r4, fun hv => ?_⟩, h.2.same rfl (Nat.le_add_right _ _) rfl rfl⟩
  have := hc.2 hv
  exact ⟨this.1, Nat.le_trans this.2 (Nat.le_add_right _ _)⟩

theorem reclaimLoop_ok {j : Nat} {s : State} (h : EqOk j s) (r m n got : Nat) (hr : r ≤ got + (s.eq j).inUse) :
    EqOk j (reclaimLoop j r m n got s).2 := by
  induction n generalizing got s with
  | zero => exact h
  | succ n ih =>
    unfold reclaimLoop
    dsimp only
    split
    · rename_i hg
      have hu : 1 ≤ (s.eq j).inUse := by omega
      refine ih (reclaimOne_ok h hu) _ ?_
      have hc := (EQ.law_iff _).1 h.1
      obtain ⟨r1, r2, _, _⟩ := hc.1.reclaim hu
      rw [reclaimOne_eq _ _ hc.1.mcidx_lt]
      have e : (s.eq j).reclaimed.inUse = (s.eq j).cap - 1 - ((s.eq j).avail + ((s.eq j).slot (s.eq j).cidx).descUsed) := rfl
      have e2 : (s.eq j).inUse = (s.eq j).cap - 1 - (s.eq j).avail := rfl
      omega
    · exact h

theorem reclaimable_cases (j : Nat) (s : State) : (∃ c, reclaimable j s = .raised (s.raiseFault c (selEq j))) ∨
    ∃ r, reclaimable j s = .done r s ∧ r ≤ (s.eq j).inUse := by
  unfold reclaimable
  dsimp only
  split
  · exact .inl ⟨_, rfl⟩
  · split
    · exact .inl ⟨_, rfl⟩
    · exact .inr ⟨_, rfl, by unfold EQ.inUse; omega⟩

theorem reclaim_ok {j : Nat} {s : State} (h : EqOk j s) (a m : Nat) : (reclaim j a m s).Holds (EqOk j) := by
  unfold reclaim
  rcases reclaimable_cases j s with ⟨c, e⟩ | ⟨r, e, hr⟩
  · rw [e]
    exact ⟨s, c, _, h, rfl⟩
  · rw [e]
    show Ran.Holds _ (if _ then _ else _)
    split
    · exact h
    · split
      · exact reclaimLoop_ok h _ _ _ _ (by omega)
      · exact Ran.holds_raise _ _ h

theorem txReclaim_ok {j : Nat} {s : State} (h : EqOk j s) : (txReclaim j s).Holds (EqOk j) := by
  unfold txReclaim
  split
  · exact Ran.holds_bind (reclaim_ok h _ _) fun _ _ h => h
  · exact h

theorem discardMap_eq (j : Nat) (s : State) : (discardMap j s).eq j = { s.eq j with
    maps := Tab.del (s.eq j).maps (((s.eq j).mapPidx + (s.eq j).txMaps - 1) % (s.eq j).txMaps)
    mapPidx := ((s.eq j).mapPidx + (s.eq j).txMaps - 1) % (s.eq j).txMaps } := by
  unfold discardMap
  dsimp only
  rw [State.setEq_same]
  split <;> rfl

theorem discardMap_cfg (j : Nat) (s : State) : (discardMap j s).cfg = s.cfg := by
  unfold discardMap
  dsimp only
  split <;> rfl

theorem discardMaps_eq (j u : Nat) (s : State) (h : (s.eq j).mapPidx < (s.eq j).txMaps) (hu : u ≤ (s.eq j).txMaps) :
    (discardMaps j u s).eq j = { s.eq j with
      maps := undoMaps (s.eq j).txMaps u (s.eq j).mapPidx (s.eq j).maps
      mapPidx := ((s.eq j).mapPidx + ((s.eq j).txMaps - u)) % (s.eq j).txMaps } := by
  induction u generalizing s with
  | zero => rw [Nat.sub_zero, Nat.add_mod_right, Nat.mod_eq_of_lt h]; rfl
  | succ u ih =>
    show (discardMaps j u (discardMap j s)).eq j = _
    rw [ih _ (by rw [discardMap_eq]; exact Nat.mod_lt _ (by omega)) (by rw [discardMap_eq]; show u ≤ (s.eq j).txMaps; omega),
      discardMap_eq]
    have : (((s.eq j).mapPidx + (s.eq j).txMaps - 1) % (s.eq j).txMaps + ((s.eq j).txMaps - u)) % (s.eq j).txMaps
        = ((s.eq j).mapPidx + ((s.eq j).txMaps - (u + 1))) % (s.eq j).txMaps := by
      rw [Nat.mod_add_mod]
      have e : (s.eq j).mapPidx + (s.eq j).txMaps - 1 + ((s.eq j).txMaps - u)
          = (s.eq j).mapPidx + ((s.eq j).txMaps - (u + 1)) + (s.eq j).txMaps := by omega
      rw [e, Nat.add_mod_right]
    simp only [this, undoMaps]

theorem discardMaps_cfg (j u : Nat) (s : State) : (discardMaps j u s).cfg = s.cfg := by
  induction u generalizing s with
  | zero => rfl
  | succ u ih => exact (ih _).trans (discardMap_cfg j s)

theorem discardBatch_cfg (j : Nat) (s : State) : (discardBatch j s).cfg = s.cfg := discardMaps_cfg _ _ _

theorem EQ.Law.nmaps_le {e : EQ} (h : e.Law) : e.batch.nmaps ≤ e.txMaps := by
  obtain ⟨m, _, hm⟩ := h.tiled; omega

theorem EQ.Law.mpidx_lt {e : EQ} (h : e.Law) : e.mapPidx < e.txMaps := by
  rw [h.mpidx_eq]; exact Nat.mod_lt _ (by have := h.maps_gt; omega)

/-- The record after its open batch was discarded (R429). -/
theorem discardBatch_eq {j : Nat} {s : State} (h : (s.eq j).Law) : (discardBatch j s).eq j = { s.eq j with
    maps := undoMaps (s.eq j).txMaps (s.eq j).batch.nmaps (s.eq j).mapPidx (s.eq j).maps
    mapPidx := ((s.eq j).mapPidx + ((s.eq j).txMaps - (s.eq j).batch.nmaps)) % (s.eq j).txMaps
    mapAvail := (s.eq j).mapAvail + (s.eq j).batch.nmaps, batch := Batch.empty (s.eq j).batch.cur } := by
  unfold discardBatch
  dsimp only
  rw [State.setEq_same, discardMaps_eq _ _ _ h.mpidx_lt h.nmaps_le]

theorem discardBatch_law {j : Nat} {s : State} (h : (s.eq j).Law) : ((discardBatch j s).eq j).Law ∧
    BatchLaw (discardBatch j s).cfg ((discardBatch j s).eq j) := by
  have hc := (EQ.law_iff _).1 h
  refine ⟨?_, batchLaw_empty _ _ (s.eq j).batch.cur (by rw [discardBatch_eq h])⟩
  rw [discardBatch_eq h]
  refine (EQ.law_iff _).2 ⟨?_, fun hv => ?_⟩
  · exact EQ.Core.undo (y := 0) (u := (s.eq j).batch.nmaps) (by rw [Nat.zero_add]; exact hc.1)
      (Batch.empty (s.eq j).batch.cur) _ rfl
  · have := hc.2 hv
    exact ⟨this.1, Nat.le_trans this.2 (Nat.le_add_right _ _)⟩

theorem discardSgl_eq (j : Nat) (s : State) : (discardSgl j s).eq j =
    if (s.eq j).sgl.valid then { s.eq j with sgl := { (s.eq j).sgl with mapHeld := false, valid := false } } else s.eq j := by
  unfold discardSgl
  split
  · rw [State.emit_get_eq, sglRelease_eq]
  · rfl

theorem discardSgl_cfg (j : Nat) (s : State) : (discardSgl j s).cfg = s.cfg := by
  unfold discardSgl
  split
  · exact sglRelease_cfg j s
  · rfl

theorem discardHeld_eq (j : Nat) (s : State) : (discardHeld j s).eq j = { s.eq j with held := none } := by
  unfold discardHeld
  split
  · rename_i h; rw [← h]
  · exact State.setEq_same _ _ _

theorem discardHeld_cfg (j : Nat) (s : State) : (discardHeld j s).cfg = s.cfg := by
  unfold discardHeld
  split <;> rfl

/-- The record after `discard_tx` (R429). -/
theorem discardTx_eq {j : Nat} {s : State} (h : (s.eq j).Law) : (discardTx j s).eq j = { s.eq j with
    maps := undoMaps (s.eq j).txMaps (s.eq j).batch.nmaps (s.eq j).mapPidx (s.eq j).maps
    mapPidx := ((s.eq j).mapPidx + ((s.eq j).txMaps - (s.eq j).batch.nmaps)) % (s.eq j).txMaps
    mapAvail := (s.eq j).mapAvail + (s.eq j).batch.nmaps, batch := Batch.empty (s.eq j).batch.cur
    sgl := if (s.eq j).sgl.valid then { (s.eq j).sgl with mapHeld := false, valid := false } else (s.eq j).sgl
    held := none, stalled := false, flushOut := false, resumeReq := false } := by
  unfold discardTx
  dsimp only
  rw [State.setEq_same, discardHeld_eq, discardSgl_eq, discardBatch_eq h]
  cases (s.eq j).sgl.valid <;> rfl

theorem discardTx_cfg (j : Nat) (s : State) : (discardTx j s).cfg = s.cfg := by
  show (discardHeld j (discardSgl j (discardBatch j s))).cfg = _
  rw [discardHeld_cfg, discardSgl_cfg, discardBatch_cfg]

theorem discardTx_ok {j : Nat} {s : State} (h : (s.eq j).Law) : EqOk j (discardTx j s) := by
  have h1 := discardBatch_law h
  rw [discardBatch_eq h] at h1
  unfold EqOk
  rw [discardTx_eq h, discardTx_cfg]
  refine ⟨h1.1.same rfl fun hv => ?_, batchLaw_empty _ _ (s.eq j).batch.cur rfl⟩
  cases hs : (s.eq j).sgl.valid with
  | true => simp [hs] at hv
  | false => simp [hs] at hv

theorem eqProgress_ok {j : Nat} {s : State} (h : EqOk j s) : EqOk j (eqProgress j s) := by
  have key : ∀ u, EqOk j u →
      EqOk j (if (u.eq j).stalled then (u.setEq j { u.eq j with resumeReq := true }).emit (.resume j) else u) := fun u hu => by
    split
    · refine hu.keep rfl ?_ ?_ <;> rw [State.emit_get_eq, State.setEq_same] <;> rfl
    · exact hu
  refine key _ (h.keep rfl ?_ ?_) <;> rw [State.setEq_same] <;> rfl

end Sys2Proof.Machine
end

