-- ==== Sys2Proof/Laws/EgressInv.lean ====
section
/-! SUPPORT. The laws of every egress queue, from command to command (R57, R343, R395). -/

namespace Sys2Proof.Machine

/-- Every EQ with memory obeys its laws. -/
def EqAll (s : State) : Prop := ∀ j, (s.eq j).st ≠ .uninit → EqOk j s

theorem eqAll_iff (s : State) : EqAll s ↔ EqInv s ∧ BatchInv s :=
  ⟨fun h => ⟨fun j hj => (h j hj).1, fun j hj => (h j hj).2⟩, fun h j hj => ⟨h.1 j hj, h.2 j hj⟩⟩

theorem EqAll.congr {s t : State} (h : EqAll s) (he : ∀ k, t.eq k = s.eq k) (hc : t.cfg = s.cfg) : EqAll t := fun j hj => by
  unfold EqOk
  rw [he] at hj ⊢
  rw [hc]
  exact h j hj

theorem EqAll.one {s t : State} (h : EqAll s) (j : Nat) (he : ∀ k, k ≠ j → t.eq k = s.eq k) (hc : t.cfg = s.cfg)
    (hj : (t.eq j).st ≠ .uninit → EqOk j t) : EqAll t := fun k hk => by
  by_cases hkj : k = j
  · subst hkj; exact hj hk
  · unfold EqOk
    rw [he k hkj] at hk ⊢
    rw [hc]
    exact h k hk

/-- What an operation on EQ `j` leaves alone. -/
def OnlyEq (j : Nat) (s t : State) : Prop := Untouched .eq j s t ∧ SameFixed s t

theorem onlyEq_closed (j : Nat) (s : State) : ClosedEq j (OnlyEq j s) := (untouched_eq j s).and ((sameFixed_closed s).eq j)

theorem OnlyEq.refl (j : Nat) (s : State) : OnlyEq j s s := ⟨Untouched.refl _ _ _, SameFixed.refl _⟩

theorem OnlyEq.st {j : Nat} {s t : State} (h : OnlyEq j s t) : (t.eq j).st = (s.eq j).st := congrArg Prod.fst (h.2.eq j)

/-- The laws of every EQ after an operation on one of them that keeps its laws. -/
theorem EqAll.after {s t : State} {j : Nat} (h : EqAll s) (ho : OnlyEq j s t) (hl : EqOk j s → EqOk j t) : EqAll t :=
  h.one j (fun k hk => ho.1.eqs k (.inr hk)) ho.1.cfg fun hj => hl (h j (by rw [← ho.st]; exact hj))

theorem ends_eqAll {s t : State} {j : Nat} (h : EqAll s) (he : Ends (OnlyEq j s) t) (hl : EqOk j s → EqOk j t) : EqAll t := by
  obtain ⟨u, rc, v, hu, rfl⟩ | ⟨u, c, q, hu, rfl⟩ := he
  · exact EqAll.congr (EqAll.after h hu hl) (fun _ => rfl) rfl
  · exact EqAll.congr (s := u) (EqAll.after h hu hl) (fun _ => rfl) rfl

theorem eqOk_finish {j : Nat} {s : State} (rc : RC) (v : Nat) (h : EqOk j s) : EqOk j (s.finish rc v) := h

theorem eqOk_ran {α : Type} {j : Nat} {r : Ran α} (h : r.Holds (EqOk j)) (f : α → RC × Nat) : EqOk j (r.finish f) := by
  cases r with
  | done a s => exact h
  | raised s => obtain ⟨u, c, q, hu, rfl⟩ := h; exact hu

/-! ### The egress commands -/

theorem execEqTx_ok {j : Nat} {s : State} (h : EqOk j s) (q : Qid) (limit : BitVec 32) (hj : q.toNat = j) {t : State}
    (he : execEqTx q limit s = .next t) : EqOk j t := by
  subst hj
  cases he
  split
  · have h0 : EqOk q.toNat (s.setEq q.toNat { s.eq q.toNat with resumeReq := false }) := by
      refine h.keep rfl ?_ ?_ <;> rw [State.setEq_same] <;> rfl
    exact eqOk_ran (Ran.holds_bind (txReclaim_ok h0) fun _ u hu => Ran.holds_done (txRun_ok hu limit.toNat)) _
  · exact h

theorem wrResult_ok {j : Nat} {r : Option Nat × State} (h : EqOk j r.2) : EqOk j (wrResult j r) := by
  unfold wrResult
  split
  · exact sglHold_ok h
  · exact h

theorem immHeld_ok {j : Nat} {s : State} (h : EqOk j s) (hb : (s.eq j).batch.accepting = false) : EqOk j (immHeld j s) := by
  have h1 := sglRelease_ok h
  unfold immHeld
  dsimp only
  split
  · split
    · exact h
    · exact (writeImm_ok h1 (by rw [sglRelease_eq]; exact hb) _).1
  · exact h

/-- Every egress command keeps the laws of its queue. -/
theorem exec_eqOk {i : Instr} (hi : Instr.isEgress i = true) {s t : State} (h : EqOk i.qid.toNat s) (he : exec i s = .next t) :
    EqOk i.qid.toNat t := by
  cases i with
  | eqTx q l => exact execEqTx_ok h q l rfl he
  | eqWrPkt q =>
    cases he
    change EqOk q.toNat s at h
    split
    · rename_i hg; exact wrResult_ok (writePkt_ok h hg.2.1 hg.2.2.1).1
    · exact h
  | eqWrLso q =>
    cases he
    change EqOk q.toNat s at h
    split
    · exact h
    · split
      · rename_i hg; exact wrResult_ok (writeLso_ok h hg.2.1 hg.2.2 _).1
      · exact h
  | eqWrImm q =>
    cases he
    change EqOk q.toNat s at h
    split
    · rename_i hg
      have h1 := takePacket_ok h
      split
      · exact immHeld_ok h hg.2
      dsimp only
      split
      · exact h1.1
      · split
        · have h2 := (writeImm_ok h1.1 (by rw [h1.2.1]; exact hg.2) (by assumption)).1
          split
          · exact eqHold_ok h2 _
          · exact h2
        · exact eqHold_ok h1.1 _
    · exact h
  | eqWrFlush q =>
    cases he
    change EqOk q.toNat s at h
    split
    · rename_i hg
      have := (writeFlush_ok h hg.2).1
      dsimp only
      split <;> exact this
    · exact h
  | eqDoorbell q f =>
    cases he
    change EqOk q.toNat s at h
    split
    · exact (eqDoorbell_ok h f).1
    · exact h
  | eqReclaimable q =>
    cases he
    change EqOk q.toNat s at h
    split
    · exact eqOk_ran (reclaimable_holds h) _
    · exact h
  | eqReclaim q a m =>
    cases he
    change EqOk q.toNat s at h
    split
    · exact eqOk_ran (reclaim_ok h _ _) _
    · exact h
  | sglBuild q =>
    cases he
    change EqOk q.toNat s at h
    split
    · have h1 := takePacket_ok h
      dsimp only
      split
      · exact h1.1
      · have h2 := (sglBuildPkt_ok h1.1 (by assumption)).1
        split
        · exact h2
        · split
          · exact eqHold_ok h2 _
          · exact h2
    · exact h
  | sglWrite q f =>
    cases he
    change EqOk q.toNat s at h
    split
    · show EqOk _ (State.finish (wflits _ _ _ s) _ _)
      refine eqOk_finish _ _ ?_
      unfold EqOk
      rw [wflits_eq, wflits_cfg]
      exact h
    · exact h
  | txpktsAdd q =>
    cases he
    change EqOk q.toNat s at h
    split
    · rename_i hg
      have := txpktsAdd_ok h hg.2
      dsimp only
      split <;> exact this
    · exact h
  | txpktsFlush q =>
    cases he
    change EqOk q.toNat s at h
    split
    · exact (txpktsFlush_ok h).1
    · exact h
  | _ => cases hi

/-! ### Commands of other queues -/

theorem eqAll_fl (j : Nat) : ClosedFl j EqAll where
  emit _ _ h := h
  writeFlit _ _ _ h := h
  drew _ _ _ _ _ h := h
  draws _ _ h := h
  setFl _ _ _ h := h
  setPeerFl _ _ h := h

theorem eqAll_iq (j : Nat) : ClosedIq j EqAll where
  emit _ _ h := h
  writeFlit _ _ _ h := h
  drew _ _ _ _ _ h := h
  draws _ _ h := h
  setIq _ _ _ h := h
  setPeerIq _ _ h := h

theorem eqAll_ingress : ClosedIngress EqAll where
  emit _ _ h := h
  progress j s h := h.after ((onlyEq_closed j s).eqProgress (OnlyEq.refl j s)) eqProgress_ok
  take j n _ h := (eqAll_fl j).flTake h n
  refill j n _ h := (eqAll_fl j).flRefill h n
  doorbell j b _ h := (eqAll_fl j).flDoorbell h b
  svc _ _ _ h := h
  count _ _ _ h := h
  consume j _ h := (eqAll_iq j).consumed h
  credit j _ h := (eqAll_iq j).creditReturn h

theorem ends_eqAll' {t : State} (h : Ends EqAll t) : EqAll t := by
  obtain ⟨u, rc, v, h, rfl⟩ | ⟨u, c, q, h, rfl⟩ := h <;> exact h

/-! ### Lifecycle -/

theorem OnlyCalls.eqAll {s t : State} (h : OnlyCalls s t) (hs : EqAll s) : EqAll t := hs.congr h.eqr h.cfg

theorem txMapsFor_gt (c : Config) (j : Nat) {cap : Nat} (h : 1 ≤ cap) : cap < txMapsFor c j cap := by
  unfold txMapsFor
  split
  · split
    · omega
    · omega
  · omega

/-- A freshly allocated EQ obeys the laws (R426). -/
theorem freshEq_law (e : EQ) (base : Addr) {cap : Nat} (iq m cur : Nat) (h1 : 2 ≤ cap) (h2 : cap ≤ 16384) (hm : cap < m) :
    (freshEq e base cap iq m cur).Law := by
  refine (EQ.law_iff _).2 ⟨⟨h1, h2, by show 0 < cap; omega, Nat.le_refl _, ?_, hm, by show 0 < m; omega, ?_, ⟨0, ?_, ?_⟩, fun k => ?_⟩,
    fun hh => nomatch hh⟩
  · show 0 = (0 + (cap - 1 - (cap - 1))) % cap
    rw [Nat.sub_self]; exact (Nat.zero_mod cap).symm
  · show 0 = (0 + (m - m)) % m
    rw [Nat.sub_self]; exact (Nat.zero_mod m).symm
  · have : (freshEq e base cap iq m cur).inUse = 0 := by show cap - 1 - (cap - 1) = 0; omega
    rw [this]; exact .nil _
  · show m + 0 + 0 = m
    rfl
  · show false = true ↔ k < m ∧ subMod k 0 m < m - m
    simp

theorem allocEnd_eqAll (t : QType) (j : Nat) (r : PeerReq) {s : State} (h : EqAll s) (hj : t = .eq → EqOk j s) :
    EqAll (allocEnd t j r s) := by
  obtain ⟨u, hc, ⟨v, e⟩ | ⟨id0, _, e⟩⟩ := allocEnd_cases t j r s
  · rw [e]; exact hc.eqAll h
  · rw [e]
    have hu := hc.eqAll h
    have hf := register_frame t j (ctxIdFor t id0) u
    refine EqAll.congr (s := register t j (ctxIdFor t id0) u) ?_ (fun _ => rfl) rfl
    by_cases ht : t = .eq
    · subst ht
      refine hu.one j (fun k hk => hf.eqs k (.inr hk)) hf.cfg fun _ => ?_
      have hj' : EqOk j u := by
        unfold EqOk
        rw [hc.eqr, hc.cfg]
        exact hj rfl
      refine hj'.keep hf.cfg ?_ ?_ <;> rw [register_eq, if_pos rfl] <;> rfl
    · exact hu.congr (fun k => hf.eqs k (.inl ht)) hf.cfg

theorem setSt_eqAll (t : QType) (j : Nat) (st : QState) {s : State} (h : EqAll s) (hj : t = .eq → (s.eq j).st ≠ .uninit) :
    EqAll (s.setSt t j st) := by
  cases t with
  | iq => exact h
  | fl => exact h
  | eq =>
    refine h.one (t := s.setEq j _) j (fun k hk => State.setEq_ne _ _ hk) rfl fun _ => ?_
    refine (h j (hj rfl)).keep (t := s.setEq j _) rfl ?_ ?_ <;> rw [State.setEq_same] <;> rfl

theorem exec_qAllocIq_eqAll {q role tmr pktc esize fwd capM1 tgt} {s t : State} (h : EqAll s) (he : exec (.qAllocIq q role tmr pktc esize fwd capM1 tgt) s = .next t) :
    EqAll t := by
  rcases execQAllocIq_cases he with rfl | ⟨_, _, ⟨u, hu, rfl⟩ | ⟨base, u, v, r, -, hu, rfl, rfl⟩⟩
  · exact h
  · exact hu.eqAll h
  · exact allocEnd_eqAll _ _ _ (hu.eqAll h) (by simp)

theorem exec_qAllocFl_eqAll {q capM1 iq} {s t : State} (h : EqAll s) (he : exec (.qAllocFl q capM1 iq) s = .next t) :
    EqAll t := by
  rcases execQAllocFl_cases he with rfl | ⟨_, _, ⟨u, hu, rfl⟩ | ⟨base, u, v, r, -, hu, rfl, rfl⟩⟩
  · exact h
  · exact hu.eqAll h
  · exact allocEnd_eqAll _ _ _ (hu.eqAll h) (by simp)

theorem exec_qAllocEq_eqAll {q capM1 iq} {s t : State} (hw : (Instr.qAllocEq q capM1 iq).wf s.cfg = true) (h : EqAll s) (he : exec (.qAllocEq q capM1 iq) s = .next t) :
    EqAll t := by
  rcases execQAllocEq_cases he with rfl | ⟨_, _, ⟨u, hu, rfl⟩ | ⟨base, cur, u, v, r, -, hu, rfl, rfl⟩⟩
  · exact h
  · exact hu.eqAll h
  · have hc : 1 ≤ capM1.toNat ∧ capM1.toNat ≤ 16383 := by
      simp [Instr.wf, Instr.operandsOk] at hw; omega
    have hl := freshEq_law (s.eq q.toNat) base (cap := capM1.toNat + 1) iq.toNat
      (txMapsFor s.cfg q.toNat (capM1.toNat + 1)) cur (by omega) (by omega) (txMapsFor_gt _ _ (by omega))
    have hk : EqOk q.toNat ((u.zeroFill base ((capM1.toNat + 1) * 64 + 64)).setEq q.toNat (freshEq (s.eq q.toNat) base
        (capM1.toNat + 1) iq.toNat (txMapsFor s.cfg q.toNat (capM1.toNat + 1)) cur)) := by
      unfold EqOk
      rw [State.setEq_same]
      exact ⟨hl, batchLaw_empty _ _ cur rfl⟩
    exact allocEnd_eqAll _ _ _ ((hu.eqAll h).one (t := State.setEq _ q.toNat _) q.toNat (fun k hk => State.setEq_ne _ _ hk) rfl
      fun _ => hk) fun _ => hk

theorem exec_qStart_eqAll {q ty} {s t : State} (h : EqAll s) (he : exec (.qStart q ty) s = .next t) :
    EqAll t := by
  rcases execQStart_cases he with rfl | ⟨hst, _, u, hu, ⟨v, rfl⟩ | rfl⟩
  · exact h
  · exact hu.eqAll h
  · have h2 := setSt_eqAll ty q.toNat .run (hu.eqAll h) (by
      rintro rfl; rw [hu.eqr]; intro e; rw [State.qst, e] at hst; cases hst)
    cases ty with
    | iq =>
      generalize u.setSt .iq q.toNat .run = v at h2
      show EqAll (creditReturn q.toNat v)
      exact (eqAll_iq q.toNat).creditReturn h2
    | fl =>
      generalize u.setSt .fl q.toNat .run = v at h2
      show EqAll (flDoorbell q.toNat true (flRefill q.toNat _ v).2).2
      exact (eqAll_fl q.toNat).flDoorbell ((eqAll_fl q.toNat).flRefill h2 _) _
    | eq => exact h2

theorem exec_qStop_eqAll {q ty} {s t : State} (h : EqAll s) (he : exec (.qStop q ty) s = .next t) :
    EqAll t := by
  rcases execQStop_cases he with rfl | ⟨hst, _, u, hu, ⟨v, rfl⟩ | rfl⟩
  · exact h
  · exact hu.eqAll h
  · have hne : ty = .eq → (u.eq q.toNat).st ≠ .uninit := by
      rintro rfl; rw [hu.eqr]; intro e; rw [State.qst, e] at hst; cases hst
    have h2 := setSt_eqAll ty q.toNat .reg (hu.eqAll h) hne
    cases ty with
    | iq => exact h2
    | fl => exact h2
    | eq =>
      generalize u.setSt .eq q.toNat .reg = v at h2
      show EqAll (discardTx q.toNat v)
      exact h2.after ((onlyEq_closed q.toNat v).discardTx (OnlyEq.refl _ _)) fun hk => discardTx_ok hk.1

theorem exec_qFree_eqAll {q ty} {s t : State} (h : EqAll s) (he : exec (.qFree q ty) s = .next t) :
    EqAll t := by
  rcases execQFree_cases he with rfl | ⟨hst, _, u, hu, ⟨v, rfl⟩ | rfl⟩
  · exact h
  · exact hu.eqAll h
  · exact setSt_eqAll ty q.toNat .mem (s := u.setQmap _) (hu.eqAll h) (by
      rintro rfl
      show (u.eq q.toNat).st ≠ _
      rw [hu.eqr]; intro e; rw [State.qst, e] at hst; cases hst)

theorem exec_qTeardown_eqAll {q ty} {s t : State} (h : EqAll s) (he : exec (.qTeardown q ty) s = .next t) :
    EqAll t := by
  rcases execQTeardown_cases he with rfl | ⟨_, rfl⟩ | ⟨_, _, _, u, n, hd, rfl⟩
  · exact h
  · exact h
  · show EqAll u
    by_cases ht : ty = .eq
    · subst ht
      exact h.one q.toNat (fun k hk => hd.eqs k (.inr hk)) hd.cfg fun hj => absurd hd.gone hj
    · exact h.congr (fun k => hd.eqs k (.inl ht)) hd.cfg

/-- Every command keeps the laws of every EQ. -/
theorem exec_eqAll {i : Instr} {s t : State} (hw : i.wf s.cfg = true) (h : EqAll s) (he : exec i s = .next t) : EqAll t := by
  have other : ∀ {i : Instr}, (∃ t, exec i s = .next t ∧ Ends EqAll t) → exec i s = .next t → EqAll t := by
    rintro i ⟨t', e, h⟩ he
    rw [e] at he
    cases he
    exact ends_eqAll' h
  by_cases hg : Instr.isEgress i = true
  · obtain ⟨t', e, hend⟩ := exec_ends_eq hg (onlyEq_closed _ s) (OnlyEq.refl _ s)
    rw [he] at e
    cases e
    exact ends_eqAll h hend fun hk => exec_eqOk hg hk he
  by_cases hf : Instr.isFreeList i = true
  · exact other (exec_ends_fl hf (eqAll_fl _) h) he
  cases i with
  | iqCheck q => cases he; repeat' split
                 all_goals exact h
  | iqConsume q => exact other (iqConsume_ends eqAll_ingress q h) he
  | iqCredit q =>
    cases he
    split
    · show EqAll (creditReturn q.toNat s)
      exact (eqAll_iq q.toNat).creditReturn h
    · exact h
  | iqService q b => exact other (iqService_ends eqAll_ingress q b h) he
  | qAllocIq q role tmr pktc esize fwd capM1 tgt => exact exec_qAllocIq_eqAll h he
  | qAllocFl q capM1 iq => exact exec_qAllocFl_eqAll h he
  | qAllocEq q capM1 iq => exact exec_qAllocEq_eqAll hw h he
  | qStart q ty => exact exec_qStart_eqAll h he
  | qStop q ty => exact exec_qStop_eqAll h he
  | qFree q ty => exact exec_qFree_eqAll h he
  | qTeardown q ty => exact exec_qTeardown_eqAll h he
  | _ => first | exact absurd rfl hg | exact absurd rfl hf

end Sys2Proof.Machine
end

