-- ==== Sys2Proof/Laws/Memory.lean ====
section
/-! SUPPORT. Flits in memory: what a written flit reads back as, and which reads it leaves alone (R103). -/

namespace Sys2Proof.Machine

/-- Two small offsets from one address are the same byte only if they are equal. -/
theorem addr_offset_inj (a : Addr) {i k : Nat} (hi : i < 2 ^ 64) (hk : k < 2 ^ 64)
    (h : a + BitVec.ofNat 64 i = a + BitVec.ofNat 64 k) : i = k := by
  have h2 := congrArg BitVec.toNat h
  have := a.isLt
  simp only [BitVec.toNat_add, BitVec.toNat_ofNat] at h2
  omega

/-- A written list of bytes reads back. -/
theorem Memory.get_setBytes_at (m : List Host.Cell) (a : Addr) (l : List Byte) (hl : l.length ≤ 2 ^ 64) (k : Nat)
    (hk : k < l.length) : Memory.get (Memory.setBytes m a l) (a + BitVec.ofNat 64 k).toNat = l[k] := by
  induction l generalizing m a k with
  | nil => simp at hk
  | cons b t ih =>
    have hs : ∀ n, a + 1 + BitVec.ofNat 64 n = a + BitVec.ofNat 64 (n + 1) := fun n => by
      rw [BitVec.add_assoc]; congr 1; apply BitVec.eq_of_toNat_eq; simp [Nat.add_comm]
    cases k with
    | zero =>
      rw [Memory.setBytes, Memory.get_setBytes_of_ne]
      · simp [Memory.get_set]
      · intro n hn h
        have h2 : a + BitVec.ofNat 64 0 = a + BitVec.ofNat 64 (n + 1) := by
          rw [hs n] at h; exact BitVec.eq_of_toNat_eq h
        have := addr_offset_inj a (by omega) (by simp at hl; omega) h2
        omega
    | succ k =>
      rw [Memory.setBytes, ← hs k]
      simpa using ih (Memory.set m a.toNat b) (a + 1) (by simp at hl; omega) k (by simpa using hk)

theorem flitBytes_length (v : Flit) : (flitBytes v).length = 8 := by simp [flitBytes]

theorem flitBytes_get (v : Flit) (k : Nat) (hk : k < 8) : (flitBytes v)[k]'(by rw [flitBytes_length]; exact hk) = flitByte v k := by
  simp [flitBytes]

/-- A byte of a written flit (R103). -/
theorem readByte_writeFlit (s : State) (a : Addr) (v : Flit) {k : Nat} (hk : k < 8) :
    (s.writeFlit a v).readByte (a + BitVec.ofNat 64 k) = flitByte v k := by
  show Memory.get (Memory.setBytes s.mem a (flitBytes v)) _ = _
  rw [Memory.get_setBytes_at _ _ _ (by rw [flitBytes_length]; decide) k (by rw [flitBytes_length]; exact hk), flitBytes_get v k hk]

/-- A byte outside a written flit. -/
theorem readByte_writeFlit_ne (s : State) (a : Addr) (v : Flit) {x : Addr} (h : ∀ k, k < 8 → x ≠ a + BitVec.ofNat 64 k) :
    (s.writeFlit a v).readByte x = s.readByte x := by
  show Memory.get (Memory.setBytes s.mem a (flitBytes v)) _ = _
  rw [Memory.get_setBytes_of_ne]
  · rfl
  · intro k hk e
    rw [flitBytes_length] at hk
    exact h k hk (BitVec.eq_of_toNat_eq e)

/-- A flit is the flit of its bytes. -/
theorem flitOfBytes_flitBytes (v : Flit) : flitOfBytes ((List.range 8).map (flitByte v)) = v := by
  have e : (List.range 8).map (flitByte v) = [flitByte v 0, flitByte v 1, flitByte v 2, flitByte v 3, flitByte v 4,
    flitByte v 5, flitByte v 6, flitByte v 7] := rfl
  rw [e]
  apply BitVec.eq_of_getLsbD_eq
  intro i hi
  simp only [flitOfBytes, List.getD_cons_zero, List.getD_cons_succ, flitByte]
  simp only [BitVec.getLsbD_append, BitVec.getLsbD_extractLsb']
  rcases (by omega : i < 8 ∨ (8 ≤ i ∧ i < 16) ∨ (16 ≤ i ∧ i < 24) ∨ (24 ≤ i ∧ i < 32) ∨ (32 ≤ i ∧ i < 40) ∨
    (40 ≤ i ∧ i < 48) ∨ (48 ≤ i ∧ i < 56) ∨ 56 ≤ i) with h | h | h | h | h | h | h | h
  all_goals
    repeat first
      | rw [if_pos (by omega)]
      | rw [if_neg (by omega)]
    rw [decide_eq_true (by omega), Bool.true_and]
    congr 1
    omega

/-- A flit read from eight bytes. -/
theorem read64_eq_of_bytes (s : State) (a : Addr) (v : Flit)
    (h : ∀ k, k < 8 → s.readByte (a + BitVec.ofNat 64 k) = flitByte v k) : s.read64 a = v := by
  rw [State.read64, State.readBytes, ← flitOfBytes_flitBytes v]
  congr 1
  refine List.map_congr_left fun k hk => ?_
  exact h k (List.mem_range.mp hk)

/-- A written flit reads back. -/
theorem read64_writeFlit (s : State) (a : Addr) (v : Flit) : (s.writeFlit a v).read64 a = v :=
  read64_eq_of_bytes _ _ _ fun _ hk => readByte_writeFlit s a v hk

/-- A flit reads as before where its bytes do. -/
theorem read64_congr {s t : State} {a : Addr} (h : ∀ k, k < 8 → t.readByte (a + BitVec.ofNat 64 k) = s.readByte (a + BitVec.ofNat 64 k)) :
    t.read64 a = s.read64 a := by
  rw [State.read64, State.read64, State.readBytes, State.readBytes]
  congr 1
  exact List.map_congr_left fun k hk => h k (List.mem_range.mp hk)

end Sys2Proof.Machine
end

