-- ==== Sys2Proof/Laws/FreeList.lean ====
section
/-! SUPPORT. The free list: its law under one consumed and one posted slot, what `fill_slot`, the refill loop, the doorbell
and the take loop do to the record and to memory. -/

namespace Sys2Proof.Machine

/-! ### The law, record by record -/

/-- What the law of a free list reads. -/
theorem FL.Law.congr {f g : FL} (h : f.Law) (h1 : g.cap = f.cap) (h2 : g.cidx = f.cidx) (h3 : g.pidx = f.pidx)
    (h4 : g.needed = f.needed) (h5 : g.pending ≤ f.pending)
    (h6 : ∀ k, (g.slot k).own.isPosted = (f.slot k).own.isPosted) : g.Law where
  cap_min := h1 ▸ h.cap_min
  cap_max := h1 ▸ h.cap_max
  cidx_lt := by rw [h1, h2]; exact h.cidx_lt
  needed_le := by rw [h1, h4]; exact h.needed_le
  pidx_eq := by rw [h1, h2, h3, h4]; exact h.pidx_eq
  pend_le := by rw [h1, h4]; exact h5.trans h.pend_le
  window j := by rw [h1, h2, h4, h6]; exact h.window j

theorem FL.Law.cap_pos {f : FL} (h : f.Law) : 0 < f.cap := by have := h.cap_min; omega

theorem FL.Law.pidx_lt {f : FL} (h : f.Law) : f.pidx < f.cap := by rw [h.pidx_eq]; exact Nat.mod_lt _ h.cap_pos

/-- The slot at the producer index is not posted (R53, R256). -/
theorem FL.Law.pidx_free {f : FL} (h : f.Law) : (f.slot f.pidx).own.isPosted = false := by
  rw [Bool.eq_false_iff, Ne, h.window]
  rintro ⟨_, h2⟩
  rw [h.pidx_eq, subMod_add h.cidx_lt (by have := h.cap_min; omega)] at h2
  omega

/-- A slot of the published window is posted. -/
theorem FL.Law.posted_at {f : FL} (h : f.Law) {i : Nat} (hi : i < f.cap - 1 - f.needed) :
    (f.slot ((f.cidx + i) % f.cap)).own.isPosted = true := by
  have := h.cap_min
  rw [h.window, subMod_add h.cidx_lt (by omega)]
  exact ⟨Nat.mod_lt _ h.cap_pos, hi⟩

/-- The law after the slot at `cidx` was consumed (R250). -/
theorem FL.Law.take {f g : FL} (h : f.Law) (hp : 1 ≤ f.published) (h1 : g.cap = f.cap) (h2 : g.cidx = (f.cidx + 1) % f.cap)
    (h3 : g.pidx = f.pidx) (h4 : g.needed = f.needed + 1) (h5 : g.pending = f.pending)
    (h6 : ∀ k, k ≠ f.cidx → (g.slot k).own.isPosted = (f.slot k).own.isPosted)
    (h7 : (g.slot f.cidx).own.isPosted = false) : g.Law := by
  have hc := h.cap_min
  have hl := h.cidx_lt
  simp only [FL.published] at hp
  refine ⟨h1 ▸ hc, h1 ▸ h.cap_max, ?_, ?_, ?_, ?_, fun j => ?_⟩
  · rw [h1, h2]; exact Nat.mod_lt _ h.cap_pos
  · rw [h1, h4]; omega
  · rw [h1, h2, h3, h4, h.pidx_eq, Nat.mod_add_mod]; congr 1; omega
  · rw [h1, h4, h5]; omega
  · rw [h1, h2, h4]
    by_cases hj : j = f.cidx
    · subst hj
      rw [h7]
      constructor
      · intro h; cases h
      · rintro ⟨_, h8⟩
        have : subMod f.cidx ((f.cidx + 1) % f.cap) f.cap = f.cap - 1 := by
          rw [subMod_eq hl (Nat.mod_lt _ h.cap_pos), add_mod_of_lt hl (by omega)]
          split <;> split <;> omega
        omega
    · rw [h6 j hj, h.window]
      constructor
      · rintro ⟨h8, h9⟩
        have := subMod_succ h8 hl hj
        exact ⟨h8, by omega⟩
      · rintro ⟨h8, h9⟩
        have := subMod_succ h8 hl hj
        exact ⟨h8, by omega⟩

/-- The law after the slot at `pidx` was posted (R243). -/
theorem FL.Law.post {f g : FL} (h : f.Law) (hn : 1 ≤ f.needed) (h1 : g.cap = f.cap) (h2 : g.cidx = f.cidx)
    (h3 : g.pidx = (f.pidx + 1) % f.cap) (h4 : g.needed = f.needed - 1) (h5 : g.pending ≤ f.pending + 1)
    (h6 : ∀ k, k ≠ f.pidx → (g.slot k).own.isPosted = (f.slot k).own.isPosted)
    (h7 : (g.slot f.pidx).own.isPosted = true) : g.Law := by
  have hc := h.cap_min
  have hl := h.cidx_lt
  have hne := h.needed_le
  have hpe := h.pend_le
  refine ⟨h1 ▸ hc, h1 ▸ h.cap_max, ?_, ?_, ?_, ?_, fun j => ?_⟩
  · rw [h1, h2]; exact hl
  · rw [h1, h4]; omega
  · rw [h1, h2, h3, h4, h.pidx_eq, Nat.mod_add_mod]; congr 1; omega
  · rw [h1, h4]; omega
  · rw [h1, h2, h4]
    have hd : subMod f.pidx f.cidx f.cap = f.cap - 1 - f.needed := by
      rw [h.pidx_eq, subMod_add hl (by omega)]
    by_cases hj : j = f.pidx
    · subst hj
      rw [h7, hd]
      exact ⟨fun _ => ⟨h.pidx_lt, by omega⟩, fun _ => rfl⟩
    · rw [h6 j hj, h.window]
      constructor
      · rintro ⟨h8, h9⟩; exact ⟨h8, by omega⟩
      · rintro ⟨h8, h9⟩
        refine ⟨h8, ?_⟩
        have : subMod j f.cidx f.cap ≠ f.cap - 1 - f.needed := fun e => hj (by
          have e1 := add_subMod h8 hl
          rw [e, ← h.pidx_eq] at e1
          exact e1.symm)
        omega

/-! ### `fill_slot` (R242) -/

/-- The record after a slot was filled, or not: nothing but that slot and the failure counters changed. -/
structure FilledFrom (f g : FL) : Prop where
  keep  : g = { f with sd := g.sd, allocFail := g.allocFail, mapFail := g.mapFail }
  slots : ∀ k, k ≠ f.pidx → g.slot k = f.slot k

theorem FilledFrom.refl (f : FL) : FilledFrom f f := ⟨rfl, fun _ _ => rfl⟩

theorem FilledFrom.trans {f g h : FL} (a : FilledFrom f g) (b : FilledFrom g h) : FilledFrom f h where
  keep := by rw [b.keep, a.keep]
  slots k hk := by
    have : g.pidx = f.pidx := by rw [a.keep]
    rw [b.slots k (this ▸ hk), a.slots k hk]

theorem FilledFrom.setSlot (f : FL) (x : FlSlot) : FilledFrom f (f.setSlot f.pidx x) :=
  ⟨rfl, fun k hk => by rw [FL.setSlot_slot, if_neg (Ne.symm hk)]⟩

/-- What `fill_slot` may answer: the slot posted with a buffer of the active class and its pointer written, or the slot
unposted and memory as it was. -/
structure Filled (j : Nat) (s : State) (ok : Bool) (t : State) : Prop where
  from_ : FilledFrom (s.fl j) (t.fl j)
  good  : ok = true → ∃ b, ((t.fl j).slot (s.fl j).pidx).own = .posted b ∧ b.bcls = (s.fl j).cls ∧
    t.mem = Memory.setBytes s.mem (slotAddr (s.fl j).base 8 (s.fl j).pidx) (flitBytes (flPointer b))
  bad   : ok = false → ((t.fl j).slot (s.fl j).pidx).own.isPosted = false ∧ t.mem = s.mem

theorem flPublish_fl (j k : Nat) (b : RxBuf) (s : State) :
    (flPublish j k b s).fl j = (s.fl j).setSlot k { (s.fl j).slot k with own := .posted b } := by
  unfold flPublish
  rw [State.setFl_same]
  rfl

theorem flPublish_mem (j k : Nat) (b : RxBuf) (s : State) :
    (flPublish j k b s).mem = Memory.setBytes s.mem (slotAddr (s.fl j).base 8 k) (flitBytes (flPointer b)) := rfl

/-- A published slot, after calls that left the record as it was but for the slot. -/
theorem flPublish_filled (j : Nat) (b : RxBuf) (s u : State) (hu : FilledFrom (s.fl j) (u.fl j)) (hm : u.mem = s.mem)
    (hb : b.bcls = (s.fl j).cls) : Filled j s true (flPublish j (s.fl j).pidx b u) where
  from_ := by
    rw [flPublish_fl]
    have hp : (u.fl j).pidx = (s.fl j).pidx := by rw [hu.keep]
    rw [← hp]
    exact hu.trans (FilledFrom.setSlot _ _)
  good _ := by
    refine ⟨b, ?_, hb, ?_⟩
    · rw [flPublish_fl, FL.setSlot_slot, if_pos rfl]
    · rw [flPublish_mem, hm, hu.keep]
  bad h := by cases h

theorem flRemap_filled (j : Nat) (s : State) (h : ((s.fl j).slot (s.fl j).pidx).own.isPosted = false) :
    FilledFrom (s.fl j) ((flRemap j (s.fl j).pidx s).2.fl j) ∧ (flRemap j (s.fl j).pidx s).2.mem = s.mem ∧
    (((flRemap j (s.fl j).pidx s).2.fl j).slot (s.fl j).pidx).own.isPosted = false := by
  unfold flRemap
  dsimp only
  split
  · exact ⟨FilledFrom.refl _, rfl, h⟩
  · split
    · refine ⟨?_, rfl, ?_⟩
      · rw [State.setFl_same]; exact FilledFrom.setSlot _ _
      · rw [State.setFl_same, FL.setSlot_slot, if_pos rfl]; exact h
    · unfold flMapFailed
      refine ⟨?_, rfl, ?_⟩
      · rw [State.setFl_same]; exact ⟨rfl, fun _ _ => rfl⟩
      · rw [State.setFl_same]; exact h

theorem flFillFresh_filled (j : Nat) (s : State) (h : ((s.fl j).slot (s.fl j).pidx).own.isPosted = false) :
    Filled j s (flFillFresh j (s.fl j).pidx s).1 (flFillFresh j (s.fl j).pidx s).2 := by
  obtain ⟨h1, h2, h3⟩ := flRemap_filled j s h
  unfold flFillFresh
  dsimp only
  generalize flRemap j (s.fl j).pidx s = r at h1 h2 h3
  have hp : (r.2.fl j).pidx = (s.fl j).pidx := by rw [h1.keep]
  have hc : (r.2.fl j).cls = (s.fl j).cls := by rw [h1.keep]
  have hb : (r.2.fl j).base = (s.fl j).base := by rw [h1.keep]
  split
  · split
    · refine ⟨h1.trans ?_, fun h => (by cases h), fun _ => ⟨?_, h2⟩⟩
      · unfold flAllocFailed; rw [State.setFl_same]; exact ⟨rfl, fun _ _ => rfl⟩
      · unfold flAllocFailed; rw [State.setFl_same]; exact h3
    · split
      · refine ⟨h1.trans ?_, fun h => (by cases h), fun _ => ⟨?_, h2⟩⟩
        · unfold flMapFailed; rw [State.setFl_same]; exact ⟨rfl, fun _ _ => rfl⟩
        · unfold flMapFailed; rw [State.setFl_same]; exact h3
      · rename_i n _ _ a _
        exact flPublish_filled j { buf := n, addr := a, bcls := (r.2.fl j).cls } s
          ((r.2.bufAlloc (r.2.fl j).cls).2.bufMap n).2 h1 h2 hc
  · rename_i hr
    refine ⟨h1, fun h => absurd h (by simp), fun _ => ⟨h3, h2⟩⟩

/-- What `fill_slot` does at an unposted slot. -/
theorem fillSlot_filled (j : Nat) (s : State) (h : ((s.fl j).slot (s.fl j).pidx).own.isPosted = false) :
    Filled j s (fillSlot j s).1 (fillSlot j s).2 := by
  unfold fillSlot
  dsimp only
  split
  · rename_i b hb
    split
    · rename_i hc
      exact flPublish_filled j b s s (FilledFrom.refl _) rfl hc
    · have e : (flDropRetained j (s.fl j).pidx b s).fl j
          = (s.fl j).setSlot (s.fl j).pidx { (s.fl j).slot (s.fl j).pidx with own := .empty } := by
        unfold flDropRetained
        rw [State.setFl_same]
        rfl
      have g := flFillFresh_filled j (flDropRetained j (s.fl j).pidx b s) (by
        rw [e]
        show (((s.fl j).setSlot (s.fl j).pidx _).slot (s.fl j).pidx).own.isPosted = false
        rw [FL.setSlot_slot, if_pos rfl]
        rfl)
      have hp : ((flDropRetained j (s.fl j).pidx b s).fl j).pidx = (s.fl j).pidx := by rw [e]; rfl
      have hc : ((flDropRetained j (s.fl j).pidx b s).fl j).cls = (s.fl j).cls := by rw [e]; rfl
      have hb : ((flDropRetained j (s.fl j).pidx b s).fl j).base = (s.fl j).base := by rw [e]; rfl
      have hm : (flDropRetained j (s.fl j).pidx b s).mem = s.mem := rfl
      rw [hp] at g
      refine ⟨?_, fun h => ?_, fun h => ?_⟩
      · refine FilledFrom.trans ?_ g.from_
        rw [e]; exact FilledFrom.setSlot _ _
      · have := g.good h
        rw [hp, hc, hb, hm] at this
        exact this
      · have := g.bad h
        rw [hp, hm] at this
        exact this
  · exact flFillFresh_filled j s h
  · exact flFillFresh_filled j s h

/-! ### The refill loop (R243) -/

/-- Two ring slots inside the address space share no byte. -/
theorem slotAddr_disjoint {base : Addr} {e cap x y i k : Nat} (hb : base.toNat + e * cap ≤ 2 ^ 64) (hx : x < cap) (hy : y < cap)
    (hi : i < e) (hk : k < e) (h : slotAddr base e x + BitVec.ofNat 64 i = slotAddr base e y + BitVec.ofNat 64 k) :
    x = y ∧ i = k := by
  have hx' : x * e + e ≤ e * cap := by
    rw [Nat.mul_comm e cap, ← Nat.succ_mul]; exact Nat.mul_le_mul_right e hx
  have hy' : y * e + e ≤ e * cap := by
    rw [Nat.mul_comm e cap, ← Nat.succ_mul]; exact Nat.mul_le_mul_right e hy
  have h2 := congrArg BitVec.toNat h
  simp only [slotAddr, BitVec.toNat_add, BitVec.toNat_ofNat, Nat.add_mod_mod, Nat.mod_add_mod] at h2
  rw [Nat.mod_eq_of_lt (by omega), Nat.mod_eq_of_lt (by omega)] at h2
  have h3 : x * e + i = y * e + k := by omega
  have hx1 : (x * e + i) / e = x := by
    rw [Nat.mul_comm, Nat.mul_add_div (by omega), Nat.div_eq_of_lt hi, Nat.add_zero]
  have hy1 : (y * e + k) / e = y := by
    rw [Nat.mul_comm, Nat.mul_add_div (by omega), Nat.div_eq_of_lt hk, Nat.add_zero]
  have : x = y := by rw [← hx1, ← hy1, h3]
  subst this
  exact ⟨rfl, by omega⟩

/-- After `n` slots of a refill: the record, its law, the posted slots and their pointers, and what else is as before. -/
structure Refilled (j : Nat) (s : State) (n : Nat) (t : State) : Prop where
  keep   : t.fl j = { s.fl j with
    sd := (t.fl j).sd, allocFail := (t.fl j).allocFail, mapFail := (t.fl j).mapFail
    pidx := ((s.fl j).pidx + n) % (s.fl j).cap, needed := (s.fl j).needed - n, pending := (s.fl j).pending + n }
  law    : (t.fl j).Law
  posted : ∀ i, i < n → ∃ b, ((t.fl j).slot (((s.fl j).pidx + i) % (s.fl j).cap)).own = .posted b ∧ b.bcls = (s.fl j).cls ∧
    ((s.fl j).base.toNat + 8 * (s.fl j).cap ≤ 2 ^ 64 →
      t.read64 (slotAddr (s.fl j).base 8 (((s.fl j).pidx + i) % (s.fl j).cap)) = flPointer b)
  others : ∀ k, (∀ i, i ≤ n → k ≠ ((s.fl j).pidx + i) % (s.fl j).cap) → (t.fl j).slot k = (s.fl j).slot k
  mem    : ∀ a : Addr, (∀ i, i < n → ∀ b, b < 8 →
    a ≠ slotAddr (s.fl j).base 8 (((s.fl j).pidx + i) % (s.fl j).cap) + BitVec.ofNat 64 b) → t.readByte a = s.readByte a

theorem Refilled.zero {j : Nat} {s : State} (h : (s.fl j).Law) : Refilled j s 0 s where
  keep := by
    have : (s.fl j).pidx % (s.fl j).cap = (s.fl j).pidx := Nat.mod_eq_of_lt h.pidx_lt
    simp [this]
  law := h
  posted i hi := absurd hi (by omega)
  others _ _ := rfl
  mem _ _ := rfl

/-- A failed `fill_slot` after `n` slots. -/
theorem Refilled.stop {j n : Nat} {s t u : State} (h : Refilled j s n t) (g : Filled j t false u) : Refilled j s n u := by
  have hp : (t.fl j).pidx = ((s.fl j).pidx + n) % (s.fl j).cap := by rw [h.keep]
  obtain ⟨g1, g2⟩ := g.bad rfl
  have hm : ∀ a, u.readByte a = t.readByte a := fun a => by rw [State.readByte, State.readByte, g2]
  refine ⟨?_, ?_, fun i hi => ?_, fun k hk => ?_, fun a ha => (hm a).trans (h.mem a ha)⟩
  · have e := g.from_.keep
    rw [h.keep] at e
    exact e
  · refine h.law.congr (by rw [g.from_.keep]) (by rw [g.from_.keep]) (by rw [g.from_.keep]) (by rw [g.from_.keep])
      (by rw [g.from_.keep]) fun k => ?_
    by_cases hk : k = (t.fl j).pidx
    · rw [hk, g1, h.law.pidx_free]
    · rw [g.from_.slots k hk]
  · obtain ⟨b, b1, b2, b3⟩ := h.posted i hi
    refine ⟨b, ?_, b2, fun hb => ?_⟩
    · rw [g.from_.slots, b1]
      intro e
      have := h.law.pidx_free
      rw [← e, b1] at this
      cases this
    · rw [← b3 hb]; exact read64_congr fun k _ => hm _
  · rw [g.from_.slots k (by rw [hp]; exact hk n (Nat.le_refl n)), h.others k hk]

/-- One more slot of a refill. -/
theorem Refilled.next {j n : Nat} {s t u : State} (hs : (s.fl j).Law) (h : Refilled j s n t) (hn : n < (s.fl j).needed)
    (g : Filled j t true u) : Refilled j s (n + 1) (flPosted j u) := by
  have hc := hs.cap_min
  have hnl := hs.needed_le
  have hp : (t.fl j).pidx = ((s.fl j).pidx + n) % (s.fl j).cap := by rw [h.keep]
  have hcap : (t.fl j).cap = (s.fl j).cap := by rw [h.keep]
  have hbase : (t.fl j).base = (s.fl j).base := by rw [h.keep]
  have hcls : (t.fl j).cls = (s.fl j).cls := by rw [h.keep]
  have hneed : (t.fl j).needed = (s.fl j).needed - n := by rw [h.keep]
  have hpend : (t.fl j).pending = (s.fl j).pending + n := by rw [h.keep]
  obtain ⟨b, b1, b2, b3⟩ := g.good rfl
  have hf : (flPosted j u).fl j = { u.fl j with
      pidx := ((u.fl j).pidx + 1) % (u.fl j).cap, needed := (u.fl j).needed - 1, pending := (u.fl j).pending + 1 } := by
    unfold flPosted; rw [State.setFl_same]
  have hslot : ∀ k, ((flPosted j u).fl j).slot k = (u.fl j).slot k := fun k => by rw [hf]; rfl
  have hmem : ∀ a, (flPosted j u).readByte a = u.readByte a := fun _ => rfl
  have hw : ∀ a : Addr, (∀ k, k < 8 → a ≠ slotAddr (s.fl j).base 8 (t.fl j).pidx + BitVec.ofNat 64 k) →
      u.readByte a = t.readByte a := fun a ha => by
    have := readByte_writeFlit_ne t (slotAddr (t.fl j).base 8 (t.fl j).pidx) (flPointer b) (x := a) (by rw [hbase]; exact ha)
    rw [← this, State.readByte, State.readByte, b3]
    rfl
  have hr : u.read64 (slotAddr (s.fl j).base 8 (t.fl j).pidx) = flPointer b := by
    rw [← read64_writeFlit t (slotAddr (s.fl j).base 8 (t.fl j).pidx) (flPointer b)]
    refine read64_congr fun k _ => ?_
    rw [State.readByte, State.readByte, b3, hbase]
    rfl
  refine ⟨?_, ?_, fun i hi => ?_, fun k hk => ?_, fun a ha => ?_⟩
  · rw [hf, g.from_.keep, h.keep]
    simp only [FL.mk.injEq, true_and, and_true]
    refine ⟨?_, ?_, ?_⟩
    · rw [Nat.mod_add_mod, Nat.add_assoc]
    · omega
    · omega
  · have hp' : (u.fl j).pidx = (t.fl j).pidx := by rw [g.from_.keep]
    refine h.law.post (by omega) ?_ ?_ ?_ ?_ ?_ (fun k hk => ?_) ?_
    · rw [hf, g.from_.keep]
    · rw [hf, g.from_.keep]
    · rw [hf, g.from_.keep]
    · rw [hf, g.from_.keep]
    · rw [hf, g.from_.keep]
    · rw [hslot, g.from_.slots k hk]
    · rw [hslot, b1]; rfl
  · by_cases hin : i = n
    · subst hin
      refine ⟨b, ?_, b2.trans hcls, fun _ => ?_⟩
      · rw [hslot, ← hp, b1]
      · rw [← hp, ← hr]; exact read64_congr fun k _ => hmem _
    · obtain ⟨b', c1, c2, c3⟩ := h.posted i (by omega)
      have hne : ((s.fl j).pidx + i) % (s.fl j).cap ≠ (t.fl j).pidx := fun e => by
        rw [hp] at e
        have := add_mod_inj hs.pidx_lt (by omega) (by omega) e
        exact hin this
      refine ⟨b', ?_, c2, fun hb => ?_⟩
      · rw [hslot, g.from_.slots _ hne, c1]
      · rw [← c3 hb]
        refine read64_congr fun k hk => (hmem _).trans (hw _ fun k' hk' e => hne ?_)
        refine (slotAddr_disjoint hb (Nat.mod_lt _ hs.cap_pos) ?_ hk hk' e).1
        rw [hp]; exact Nat.mod_lt _ hs.cap_pos
  · rw [hslot, g.from_.slots k (by rw [hp]; exact hk n (by omega)), h.others k fun i hi => hk i (by omega)]
  · rw [hmem, hw a fun k hk => by rw [hp]; exact ha n (by omega) k hk, h.mem a fun i hi => ha i (by omega)]

/-- The refill loop posts some number of slots, all it was asked for or fewer after a soft failure. -/
theorem flRefillLoop_refilled {j : Nat} {s : State} (hs : (s.fl j).Law) (k n : Nat) {t : State} (h : Refilled j s n t)
    (hk : n + k ≤ (s.fl j).needed) :
    Refilled j s (flRefillLoop j k n t).1 (flRefillLoop j k n t).2 ∧ (flRefillLoop j k n t).1 ≤ n + k := by
  induction k generalizing n t with
  | zero => exact ⟨h, Nat.le_refl _⟩
  | succ k ih =>
    have g := fillSlot_filled j t h.law.pidx_free
    unfold flRefillLoop
    dsimp only
    split
    · rename_i he
      rw [he] at g
      have := ih (n + 1) (h.next hs (by omega) g) (by omega)
      exact ⟨this.1, by omega⟩
    · rename_i he
      rw [Bool.eq_false_iff.mpr he] at g
      exact ⟨h.stop g, by omega⟩

/-! ### The doorbell (R255) -/

/-- The writes of a doorbell: increments of 1 to 16383 that sum to what was pending. -/
theorem flRing_publishes (j n : Nat) (s : State) (hn : (s.fl j).pending ≤ n) :
    ∃ incs : List Nat, incs.sum = (s.fl j).pending ∧ (∀ i ∈ incs, 1 ≤ i ∧ i ≤ 16383) ∧
      (flRing j n s).out = s.out ++ incs.map (fun i => .regWrite .kdb (kdbWord ((s.fl j).cntxtId.setWidth 17) i)) ∧
      (flRing j n s).fl j = { s.fl j with pending := 0 } ∧
      ((flRing j n s).peerFlOf j).avail = (s.peerFlOf j).avail + (s.fl j).pending ∧ (flRing j n s).mem = s.mem := by
  induction n generalizing s with
  | zero =>
    have : (s.fl j).pending = 0 := by omega
    refine ⟨[], by simp [this], by simp, by simp [flRing], ?_, by simp [flRing, this], rfl⟩
    show s.fl j = _
    rw [← this]
  | succ n ih =>
    unfold flRing
    dsimp only
    split
    · rename_i h0
      refine ⟨[], by simp [h0], by simp, by simp, ?_, by simp [h0], rfl⟩
      rw [← h0]
    · rename_i h0
      have hi1 : 1 ≤ min (s.fl j).pending Config.maxPidxInc := by simp [Config.maxPidxInc]; omega
      have hi2 : min (s.fl j).pending Config.maxPidxInc ≤ 16383 := Nat.min_le_right _ _
      have hi3 : min (s.fl j).pending Config.maxPidxInc ≤ (s.fl j).pending := Nat.min_le_left _ _
      generalize min (s.fl j).pending Config.maxPidxInc = i at hi1 hi2 hi3
      have ef : (s.kdbFl j i).fl j = s.fl j := rfl
      obtain ⟨incs, e1, e2, e3, e4, e5, e6⟩ := ih
        ((s.kdbFl j i).setFl j { (s.kdbFl j i).fl j with pending := (s.fl j).pending - i }) (by
          rw [State.setFl_same]; show (s.fl j).pending - i ≤ n; omega)
      rw [State.setFl_same] at e1 e3 e4 e5
      refine ⟨i :: incs, ?_, ?_, ?_, ?_, ?_, e6⟩
      · rw [List.sum_cons, e1]; show i + ((s.fl j).pending - i) = _; omega
      · intro k hk
        rcases List.mem_cons.mp hk with rfl | hk
        · exact ⟨hi1, hi2⟩
        · exact e2 k hk
      · rw [e3]
        show (s.out ++ [_]) ++ _ = _
        rw [List.append_assoc]
        rfl
      · rw [e4]; rfl
      · rw [e5]
        have : ((s.kdbFl j i).setFl j { (s.kdbFl j i).fl j with pending := (s.fl j).pending - i }).peerFlOf j
            = { s.peerFlOf j with avail := (s.peerFlOf j).avail + i } := by
          show (s.kdbFl j i).peerFlOf j = _
          unfold State.kdbFl
          rw [State.setPeerFl_get, if_pos rfl]
        rw [this]
        show (s.peerFlOf j).avail + i + ((s.fl j).pending - i) = _
        omega

/-- What a free-list doorbell does: nothing, or it publishes all that is pending. -/
theorem flDoorbell_cases (j : Nat) (force : Bool) (s : State) :
    (((s.fl j).pending = 0 ∨ (force = false ∧ (s.fl j).pending < s.cfg.flDbThresh)) ∧ flDoorbell j force s = (0, s)) ∨
    (¬ ((s.fl j).pending = 0 ∨ (force = false ∧ (s.fl j).pending < s.cfg.flDbThresh)) ∧
      (flDoorbell j force s).1 = (s.fl j).pending ∧ (flDoorbell j force s).2.mem = s.mem ∧
      (flDoorbell j force s).2.fl j = { s.fl j with pending := 0 } ∧
      ((flDoorbell j force s).2.peerFlOf j).avail = (s.peerFlOf j).avail + (s.fl j).pending ∧
      ∃ incs : List Nat, incs.sum = (s.fl j).pending ∧ (∀ i ∈ incs, 1 ≤ i ∧ i ≤ 16383) ∧
        (flDoorbell j force s).2.out = s.out ++ .barrier ::
          incs.map (fun i => .regWrite .kdb (kdbWord ((s.fl j).cntxtId.setWidth 17) i))) := by
  unfold flDoorbell
  dsimp only
  by_cases h : (s.fl j).pending = 0 ∨ (force = false ∧ (s.fl j).pending < s.cfg.flDbThresh)
  · rw [if_pos h]; exact .inl ⟨h, rfl⟩
  · rw [if_neg h]
    obtain ⟨incs, e1, e2, e3, e4, e5, e6⟩ := flRing_publishes j (s.fl j).pending (s.emit .barrier) (Nat.le_refl _)
    refine .inr ⟨h, rfl, e6, e4, e5, incs, e1, e2, ?_⟩
    show (flRing j (s.fl j).pending (s.emit .barrier)).out = _
    rw [e3]
    show (s.out ++ [_]) ++ _ = _
    rw [List.append_assoc]
    rfl

/-- The record after a doorbell: only `pending` may have changed, to 0. -/
theorem flDoorbell_fl (j : Nat) (force : Bool) (s : State) :
    (flDoorbell j force s).2.fl j = { s.fl j with pending :=
      if (s.fl j).pending = 0 ∨ (force = false ∧ (s.fl j).pending < s.cfg.flDbThresh) then (s.fl j).pending else 0 } ∧
    (flDoorbell j force s).2.mem = s.mem := by
  rcases flDoorbell_cases j force s with ⟨h, e⟩ | ⟨h, _, e1, e2, _⟩
  · rw [e, if_pos h]; exact ⟨rfl, rfl⟩
  · rw [e2, if_neg h]; exact ⟨rfl, e1⟩

theorem flDoorbell_law {j : Nat} {s : State} (h : (s.fl j).Law) (force : Bool) : ((flDoorbell j force s).2.fl j).Law := by
  rw [(flDoorbell_fl j force s).1]
  refine h.congr rfl rfl rfl rfl ?_ fun _ => rfl
  show (if _ then (s.fl j).pending else 0) ≤ _
  split <;> omega

/-- A refill keeps the law. -/
theorem flRefill_law {j : Nat} {s : State} (h : (s.fl j).Law) (n : Nat) : ((flRefill j n s).2.fl j).Law :=
  flDoorbell_law (flRefillLoop_refilled h _ 0 (Refilled.zero h) (by simp)).1.law _

/-! ### Consumption (R250) -/

theorem flTaken_fl (j : Nat) (own : Own) (s : State) : (flTaken j own s).fl j = afterTake (s.fl j) own := by
  unfold flTaken
  rw [State.setFl_same]
  rfl

theorem afterTake_slot (f : FL) (own : Own) (k : Nat) :
    (afterTake f own).slot k = if f.cidx = k then { f.slot f.cidx with own := own } else f.slot k :=
  Tab.get_put _ _ _ _ _

/-- The law after one slot was taken. -/
theorem FL.Law.afterTake {f : FL} (h : f.Law) (hp : 1 ≤ f.published) {own : Own} (ho : own.isPosted = false) :
    (afterTake f own).Law := by
  refine h.take hp rfl rfl rfl rfl rfl (fun k hk => ?_) ?_
  · rw [afterTake_slot, if_neg (Ne.symm hk)]
  · rw [afterTake_slot, if_pos rfl]; exact ho

/-- After `k` slots were taken: the record, its law, the taken slots unposted, and the rest as before. -/
structure Taken (f : FL) (k : Nat) (g : FL) : Prop where
  keep   : g = { f with sd := g.sd, cidx := (f.cidx + k) % f.cap, needed := f.needed + k }
  law    : g.Law
  taken  : ∀ i, i < k → (g.slot ((f.cidx + i) % f.cap)).own.isPosted = false
  others : ∀ x, (∀ i, i < k → x ≠ (f.cidx + i) % f.cap) → g.slot x = f.slot x
  le     : k ≤ f.published

theorem Taken.zero {f : FL} (h : f.Law) : Taken f 0 f where
  keep := by
    have : f.cidx % f.cap = f.cidx := Nat.mod_eq_of_lt h.cidx_lt
    simp [this]
  law := h
  taken i hi := absurd hi (by omega)
  others _ _ := rfl
  le := Nat.zero_le _

theorem Taken.published {f g : FL} {k : Nat} (h : Taken f k g) : g.published = f.published - k := by
  rw [h.keep]; simp only [FL.published]; omega

theorem Taken.next {f g : FL} {k : Nat} (h : Taken f k g) (hk : k < f.published) {own : Own} (ho : own.isPosted = false) :
    Taken f (k + 1) (afterTake g own) := by
  have hc : g.cidx = (f.cidx + k) % f.cap := by rw [h.keep]
  have hcap : g.cap = f.cap := by rw [h.keep]
  have hn : g.needed = f.needed + k := by rw [h.keep]
  refine ⟨?_, h.law.afterTake (by rw [h.published]; omega) ho, fun i hi => ?_, fun x hx => ?_, hk⟩
  · show ({ g with sd := _, cidx := _, needed := _ } : FL) = _
    rw [hc, hcap, hn, Nat.mod_add_mod, Nat.add_assoc, Nat.add_assoc, h.keep]
    rfl
  · rw [afterTake_slot]
    split
    · exact ho
    · rename_i hne
      refine h.taken i ?_
      rcases Nat.lt_succ_iff_lt_or_eq.mp hi with hi | rfl
      · exact hi
      · exact absurd hc hne
  · rw [afterTake_slot, if_neg (by rw [hc]; exact Ne.symm (hx k (by omega))), h.others x fun i hi => hx i (by omega)]

/-- Reading one turn of the take loop at a posted slot. -/
theorem flTakeLoop_step (j len n rem : Nat) (frame : Frame) (taken : Nat) (s : State) {b : RxBuf} (hr : rem ≠ 0)
    (hb : ((s.fl j).slot (s.fl j).cidx).own = .posted b) :
    ∃ own u frame', own.isPosted = false ∧ u.fl j = afterTake (s.fl j) own ∧ u.mem = s.mem ∧
      flTakeLoop j len (n + 1) rem frame taken s =
        flTakeLoop j len n (rem - min rem (classSize s.cfg b.bcls)) frame' (taken + 1) u ∧ u.cfg = s.cfg := by
  rw [flTakeLoop, if_neg hr]
  simp only [hb]
  split
  · exact ⟨_, _, _, rfl, flTaken_fl j _ s, rfl, rfl, rfl⟩
  · exact ⟨_, _, _, rfl, flTaken_fl j _ (s.emit _), rfl, rfl, rfl⟩

/-- The take loop keeps the law, whether it ends or faults. -/
theorem flTakeLoop_law {j : Nat} (len n rem : Nat) (frame : Frame) (taken : Nat) {s : State} (h : (s.fl j).Law)
    (hn : n ≤ (s.fl j).published) : (flTakeLoop j len n rem frame taken s).Holds (fun t => (t.fl j).Law) := by
  induction n generalizing rem frame taken s with
  | zero =>
    unfold flTakeLoop
    split
    · exact h
    · exact Ran.holds_raise _ _ h
  | succ n ih =>
    by_cases hr : rem = 0
    · rw [flTakeLoop, if_pos hr]; exact h
    · cases ho : ((s.fl j).slot (s.fl j).cidx).own with
      | posted b =>
        obtain ⟨own, u, fr, h1, h2, _, h4, _⟩ := flTakeLoop_step j len n rem frame taken s hr ho
        rw [h4]
        refine ih _ _ _ ?_ ?_
        · rw [h2]; exact h.afterTake (by omega) h1
        · rw [h2]; simp only [FL.published, afterTake] at hn ⊢; omega
      | empty => rw [flTakeLoop, if_neg hr]; simp only [ho]; exact Ran.holds_raise _ _ h
      | retained b => rw [flTakeLoop, if_neg hr]; simp only [ho]; exact Ran.holds_raise _ _ h

theorem flTake_law {j : Nat} (len : Nat) {s : State} (h : (s.fl j).Law) : (flTake j len s).Holds (fun t => (t.fl j).Law) :=
  flTakeLoop_law _ _ _ _ _ h (Nat.le_refl _)

/-- Under the law the loop finds a posted buffer at every published slot, so a frame that the published buffers hold is taken
from consecutive buffers, only as many as it needs (R250, R252). -/
theorem flTakeLoop_spans {j : Nat} (f : FL) (len m n rem : Nat) (frame : Frame) (k : Nat) {s : State} (h : Taken f k (s.fl j))
    (hn : n = (s.fl j).published) (hsz : ∀ x b, (f.slot x).own = .posted b → m ≤ classSize s.cfg b.bcls)
    (hrem : rem ≤ m * n) (hk : rem ≠ 0 → k * m + rem ≤ len) (hk0 : rem = 0 → k = 0 ∨ (k - 1) * m < len) :
    ∃ fr k' t, flTakeLoop j len n rem frame k s = .done (fr, k') t ∧ Taken f k' (t.fl j) ∧ k ≤ k' ∧ (rem ≠ 0 → 1 ≤ k') ∧
      (k' = 0 ∨ (k' - 1) * m < len) ∧ t.mem = s.mem := by
  induction n generalizing rem frame k s with
  | zero =>
    have hr : rem = 0 := by simpa using hrem
    refine ⟨frame, k, s, ?_, h, Nat.le_refl _, fun h => absurd hr h, hk0 hr, rfl⟩
    rw [flTakeLoop, if_pos hr]
  | succ n ih =>
    by_cases hr : rem = 0
    · refine ⟨frame, k, s, ?_, h, Nat.le_refl _, fun h => absurd hr h, hk0 hr, rfl⟩
      rw [flTakeLoop, if_pos hr]
    · have hpub := h.published
      have hpos := h.law.posted_at (i := 0) (by
        simp only [FL.published] at hn; omega)
      rw [Nat.add_zero, Nat.mod_eq_of_lt h.law.cidx_lt] at hpos
      cases ho : ((s.fl j).slot (s.fl j).cidx).own with
      | empty => rw [ho] at hpos; cases hpos
      | retained b => rw [ho] at hpos; cases hpos
      | posted b =>
        have hc : (s.fl j).cidx = (f.cidx + k) % f.cap := by rw [h.keep]
        have hlt : k < f.published := by omega
        have hfcap : 0 < f.cap := by
          have := h.law.cap_pos
          rw [h.keep] at this
          exact this
        have hfs : f.slot (s.fl j).cidx = (s.fl j).slot (s.fl j).cidx := by
          refine (h.others _ fun i hi e => ?_).symm
          rw [hc] at e
          have hkc : k < f.cap := by simp only [FL.published] at hlt; omega
          have hfl : f.cidx % f.cap < f.cap := Nat.mod_lt _ hfcap
          rw [← Nat.mod_add_mod f.cidx, ← Nat.mod_add_mod f.cidx _ i] at e
          have := add_mod_inj hfl hkc (by omega) e
          omega
        have hsize := hsz (s.fl j).cidx b (by rw [hfs]; exact ho)
        obtain ⟨own, u, fr, h1, h2, h3, h4, h5⟩ := flTakeLoop_step j len n rem frame k s hr ho
        have hk1 := hk hr
        have hmul : m * (n + 1) = m * n + m := Nat.mul_succ m n
        have hmul2 : (k + 1) * m = k * m + m := Nat.succ_mul k m
        have := ih (rem - min rem (classSize s.cfg b.bcls)) fr (k + 1) (s := u) (by rw [h2]; exact h.next hlt h1)
          (by rw [h2]; simp only [FL.published, Machine.afterTake] at hn ⊢; omega) (by rw [h5]; exact hsz)
          (by omega) (fun h => by omega) (fun _ => .inr (by
            simp only [Nat.add_sub_cancel]; omega))
        obtain ⟨fr', k', t, e1, e2, e3, e4, e5, e6⟩ := this
        exact ⟨fr', k', t, h4.trans e1, e2, by omega, fun _ => by omega, e5, e6.trans h3⟩

/-! ### The law of every free list -/

theorem FlInv.congr {s t : State} (h : FlInv s) (e : ∀ k, t.fl k = s.fl k) : FlInv t := fun j hj => by
  rw [e] at hj ⊢; exact h j hj

theorem FlInv.one {s t : State} (h : FlInv s) (j : Nat) (e : ∀ k, k ≠ j → t.fl k = s.fl k)
    (hj : (t.fl j).st ≠ .uninit → (t.fl j).Law) : FlInv t := fun k hk => by
  by_cases hkj : k = j
  · subst hkj; exact hj hk
  · rw [e k hkj] at hk ⊢; exact h k hk

/-- The other lists, and the fields of this one that only the lifecycle writes. -/
def OthersFl (j : Nat) (s t : State) : Prop := (∀ k, k ≠ j → t.fl k = s.fl k) ∧ (t.fl j).fixed = (s.fl j).fixed

theorem othersFl_closed (j : Nat) (s : State) : ClosedFl j (OthersFl j s) where
  emit _ _ h := h
  writeFlit _ _ _ h := h
  drew _ _ _ _ _ h := h
  draws _ _ h := h
  setFl t f e h := ⟨fun k hk => (State.setFl_ne t f hk).trans (h.1 k hk), by rw [State.setFl_same, e]; exact h.2⟩
  setPeerFl _ _ h := h

/-- The law of every list after an operation on one of them that keeps its law. -/
theorem FlInv.after {s t : State} {j : Nat} (h : FlInv s) (ho : OthersFl j s t) (hl : (s.fl j).Law → (t.fl j).Law) :
    FlInv t := h.one j ho.1 fun hj => hl (h j fun e => hj (by
  have := congrArg Prod.fst ho.2
  exact this.trans e))

theorem flInv_refill {s : State} (h : FlInv s) (j n : Nat) : FlInv (flRefill j n s).2 :=
  h.after ((othersFl_closed j s).flRefill ⟨fun _ _ => rfl, rfl⟩ n) fun hl => flRefill_law hl n

theorem flInv_doorbell {s : State} (h : FlInv s) (j : Nat) (b : Bool) : FlInv (flDoorbell j b s).2 :=
  h.after ((othersFl_closed j s).flDoorbell ⟨fun _ _ => rfl, rfl⟩ b) fun hl => flDoorbell_law hl b

theorem flInv_take {s : State} (h : FlInv s) (j n : Nat) : (flTake j n s).Holds FlInv := by
  have h1 := (othersFl_closed j s).flTake (s := s) ⟨fun _ _ => rfl, rfl⟩ n
  have h2 := fun hl => flTake_law (j := j) (s := s) n hl
  cases hr : flTake j n s with
  | done a t =>
    rw [hr] at h1 h2
    exact h.after h1 h2
  | raised t =>
    rw [hr] at h1 h2
    obtain ⟨u, c, q, hu, rfl⟩ := h1
    refine ⟨u, c, q, h.after hu fun hl => ?_, rfl⟩
    obtain ⟨u', c', q', hu', e⟩ := h2 hl
    have : u.fl j = u'.fl j := by have e' := congrArg (fun s => State.fl s j) e; exact e'
    rw [this]; exact hu'

theorem flInv_iq (j : Nat) : ClosedIq j FlInv where
  emit _ _ h := h
  writeFlit _ _ _ h := h
  drew _ _ _ _ _ h := h
  draws _ _ h := h
  setIq _ _ _ h := h
  setPeerIq _ _ h := h

theorem flInv_eq (j : Nat) : ClosedEq j FlInv where
  emit _ _ h := h
  writeFlit _ _ _ h := h
  drew _ _ _ _ _ h := h
  draws _ _ h := h
  setEq _ _ _ h := h
  setSrc _ _ h := h
  setPeerEq _ _ h := h

/-- What the ingress commands call keeps the law of every list. -/
theorem flInv_ingress : ClosedIngress FlInv where
  emit _ _ h := h
  progress j _ h := (flInv_eq j).eqProgress h
  take j n _ h := flInv_take h j n
  refill j n _ h := flInv_refill h j n
  doorbell j b _ h := flInv_doorbell h j b
  svc _ _ _ h := h
  count _ _ _ h := h
  consume j _ h := (flInv_iq j).consumed h
  credit j _ h := (flInv_iq j).creditReturn h

/-- A freshly allocated free list obeys its law (R425). -/
theorem freshFl_law (f : FL) (base : Addr) {cap : Nat} (owner : Nat) (h1 : 2 ≤ cap) (h2 : cap ≤ 65536) :
    (freshFl f base cap owner).Law where
  cap_min := h1
  cap_max := h2
  cidx_lt := by show 0 < cap; omega
  needed_le := Nat.le_refl _
  pidx_eq := by show 0 = (0 + (cap - 1 - (cap - 1))) % cap; rw [Nat.sub_self]; exact (Nat.zero_mod cap).symm
  pend_le := Nat.zero_le _
  window j := by
    show false = true ↔ j < cap ∧ subMod j 0 cap < cap - 1 - (cap - 1)
    simp

end Sys2Proof.Machine
end

