-- ==== Sys2Proof/Laws/FreeListInv.lean ====
section
/-! SUPPORT. The law of every free list, from command to command (R53, R253, R256). -/

namespace Sys2Proof.Machine

theorem OnlyCalls.flInv {s t : State} (h : OnlyCalls s t) (hs : FlInv s) : FlInv t := hs.congr h.fl

theorem allocEnd_flInv (t : QType) (j : Nat) (r : PeerReq) {s : State} (h : FlInv s) (hj : t = .fl → (s.fl j).Law) :
    FlInv (allocEnd t j r s) := by
  obtain ⟨u, hc, ⟨v, e⟩ | ⟨id0, _, e⟩⟩ := allocEnd_cases t j r s
  · rw [e]; exact hc.flInv h
  · rw [e]
    have hu := hc.flInv h
    have hf := register_frame t j (ctxIdFor t id0) u
    refine FlInv.congr (s := register t j (ctxIdFor t id0) u) ?_ fun _ => rfl
    by_cases ht : t = .fl
    · subst ht
      refine hu.one j (fun k hk => hf.fls k (.inr hk)) fun _ => ?_
      rw [register_fl, if_pos rfl, hc.fl]
      exact (hj rfl).congr rfl rfl rfl rfl (Nat.le_refl _) fun _ => rfl
    · exact hu.congr fun k => hf.fls k (.inl ht)

theorem setSt_flInv (t : QType) (j : Nat) (st : QState) {s : State} (h : FlInv s) (hj : t = .fl → (s.fl j).st ≠ .uninit) :
    FlInv (s.setSt t j st) := by
  cases t with
  | iq => exact h
  | eq => exact h
  | fl =>
    refine h.one j (fun k hk => State.setFl_ne _ _ hk) fun _ => ?_
    show FL.Law ((s.setFl j _).fl j)
    rw [State.setFl_same]
    exact (h j (hj rfl)).congr rfl rfl rfl rfl (Nat.le_refl _) fun _ => rfl

/-- Every command keeps the law of every free list. -/
theorem exec_flInv {i : Instr} {s t : State} (hw : i.wf s.cfg = true) (h : FlInv s) (he : exec i s = .next t) : FlInv t := by
  have other : ∀ {i : Instr}, (∃ t, exec i s = .next t ∧ Ends FlInv t) → exec i s = .next t → FlInv t := by
    rintro i ⟨t', e, h⟩ he
    rw [e] at he
    cases he
    obtain ⟨u, rc, v, h, rfl⟩ | ⟨u, c, q, h, rfl⟩ := h <;> exact h
  by_cases hg : Instr.isEgress i = true
  · exact other (exec_ends_eq hg (flInv_eq _) h) he
  cases i with
  | iqCheck q => cases he; repeat' split
                 all_goals exact h
  | iqConsume q => exact other (iqConsume_ends flInv_ingress q h) he
  | iqCredit q =>
    cases he
    split
    · show FlInv (creditReturn q.toNat s)
      exact (flInv_iq q.toNat).creditReturn h
    · exact h
  | iqService q b => exact other (iqService_ends flInv_ingress q b h) he
  | flSelect q m =>
    cases he
    split
    · exact h
    · rename_i hn
      show FlInv (s.setFl q.toNat _)
      refine h.one q.toNat (fun k hk => State.setFl_ne _ _ hk) fun _ => ?_
      rw [State.setFl_same]
      exact (h _ hn).congr rfl rfl rfl rfl (Nat.le_refl _) fun _ => rfl
  | flRefill q n =>
    cases he
    split
    · exact flInv_refill h q.toNat n.toNat
    · exact h
  | flTake q n =>
    cases he
    have h1 := flInv_take h q.toNat n.toNat
    split
    · have h2 := Ran.holds_bind (f := fun r s => Ran.done r.2 (s.emit (.deliver r.1 none))) h1
        fun r s hs => Ran.holds_done (a := r.2) (s := s.emit (.deliver r.1 none)) hs
      generalize (flTake q.toNat n.toNat s).bind (fun r s => Ran.done r.2 (s.emit (.deliver r.1 none))) = x at h2 ⊢
      cases x with
      | done a u => exact h2
      | raised u => obtain ⟨w, c, q, hw, rfl⟩ := h2; exact hw
    · exact h
  | flDoorbell q b =>
    cases he
    split
    · exact flInv_doorbell h q.toNat b
    · exact h
  | qAllocIq q role tmr pktc esize fwd capM1 tgt =>
    rcases execQAllocIq_cases he with rfl | ⟨_, _, ⟨u, hu, rfl⟩ | ⟨base, u, v, r, -, hu, rfl, rfl⟩⟩
    · exact h
    · exact hu.flInv h
    · exact allocEnd_flInv _ _ _ (hu.flInv h) (by simp)
  | qAllocFl q capM1 iq =>
    rcases execQAllocFl_cases he with rfl | ⟨_, _, ⟨u, hu, rfl⟩ | ⟨base, u, v, r, -, hu, rfl, rfl⟩⟩
    · exact h
    · exact hu.flInv h
    · have hc : 1 ≤ capM1.toNat := by simp [Instr.wf, Instr.operandsOk] at hw; omega
      have hl := freshFl_law (s.fl q.toNat) base (cap := capM1.toNat + 1) iq.toNat (by omega) (by have := capM1.isLt; omega)
      have hk : ∀ (v : State) x, ((v.setFl q.toNat (freshFl (s.fl q.toNat) base (capM1.toNat + 1) iq.toNat)).setIq
          iq.toNat x).fl q.toNat = freshFl (s.fl q.toNat) base (capM1.toNat + 1) iq.toNat := fun v x => State.setFl_same v _ _
      refine allocEnd_flInv _ _ _ ?_ fun _ => by rw [hk]; exact hl
      refine FlInv.one (s := u) (hu.flInv h) q.toNat (fun k hk => State.setFl_ne _ _ hk) fun _ => ?_
      rw [hk]; exact hl
  | qAllocEq q capM1 iq =>
    rcases execQAllocEq_cases he with rfl | ⟨_, _, ⟨u, hu, rfl⟩ | ⟨base, cur, u, v, r, -, hu, rfl, rfl⟩⟩
    · exact h
    · exact hu.flInv h
    · exact allocEnd_flInv _ _ _ (hu.flInv h) (by simp)
  | qStart q ty =>
    rcases execQStart_cases he with rfl | ⟨hst, _, u, hu, ⟨v, rfl⟩ | rfl⟩
    · exact h
    · exact hu.flInv h
    · have h2 := setSt_flInv ty q.toNat .run (hu.flInv h) (by
        rintro rfl; rw [hu.fl]; intro e; rw [State.qst, e] at hst; cases hst)
      cases ty with
      | iq =>
        generalize u.setSt .iq q.toNat .run = v at h2
        show FlInv (creditReturn q.toNat v)
        exact (flInv_iq q.toNat).creditReturn h2
      | fl =>
        generalize u.setSt .fl q.toNat .run = v at h2
        show FlInv (flDoorbell q.toNat true (flRefill q.toNat _ v).2).2
        exact flInv_doorbell (flInv_refill h2 _ _) _ _
      | eq => exact h2
  | qStop q ty =>
    rcases execQStop_cases he with rfl | ⟨hst, _, u, hu, ⟨v, rfl⟩ | rfl⟩
    · exact h
    · exact hu.flInv h
    · have h2 := setSt_flInv ty q.toNat .reg (hu.flInv h) (by
        rintro rfl; rw [hu.fl]; intro e; rw [State.qst, e] at hst; cases hst)
      cases ty with
      | iq => exact h2
      | fl => exact h2
      | eq =>
        generalize u.setSt .eq q.toNat .reg = v at h2
        show FlInv (discardTx q.toNat v)
        exact (flInv_eq q.toNat).discardTx h2
  | qFree q ty =>
    rcases execQFree_cases he with rfl | ⟨hst, _, u, hu, ⟨v, rfl⟩ | rfl⟩
    · exact h
    · exact hu.flInv h
    · exact setSt_flInv ty q.toNat .mem (s := u.setQmap _) (hu.flInv h) (by
        rintro rfl
        show (u.fl q.toNat).st ≠ _
        rw [hu.fl]; intro e; rw [State.qst, e] at hst; cases hst)
  | qTeardown q ty =>
    rcases execQTeardown_cases he with rfl | ⟨_, rfl⟩ | ⟨_, _, _, u, n, hd, rfl⟩
    · exact h
    · exact h
    · show FlInv u
      by_cases ht : ty = .fl
      · subst ht
        exact h.one q.toNat (fun k hk => hd.fls k (.inr hk)) fun hj => absurd hd.gone hj
      · exact h.congr fun k => hd.fls k (.inl ht)
  | _ => exact absurd rfl hg

end Sys2Proof.Machine
end

