-- ==== Sys2Proof/Laws/Ring.lean ====
section
/-! SUPPORT. Flits written to an egress ring: what reads back, and which bytes are left alone (R281, R615). -/

namespace Sys2Proof.Machine

theorem flitAddr_eq (base : Addr) (cap f : Nat) : flitAddr base cap f = slotAddr base 8 (f % (8 * cap)) := by
  unfold flitAddr slotAddr
  rw [Nat.mul_comm]

/-- Bytes of two flits of one ring are the same byte only in the same flit. -/
theorem flitAddr_disjoint {e : EQ} (h : e.ringFits) (hc : 0 < e.cap) {f g i k : Nat} (hi : i < 8) (hk : k < 8)
    (hx : flitAddr e.base e.cap f + BitVec.ofNat 64 i = flitAddr e.base e.cap g + BitVec.ofNat 64 k) :
    f % (8 * e.cap) = g % (8 * e.cap) ∧ i = k := by
  unfold EQ.ringFits at h
  rw [flitAddr_eq, flitAddr_eq] at hx
  exact slotAddr_disjoint (base := e.base) (e := 8) (cap := 8 * e.cap) (by omega) (Nat.mod_lt _ (by omega))
    (Nat.mod_lt _ (by omega)) hi hk hx

/-- Offsets below the ring's size lead to different flits. -/
theorem flit_ne {c f i k : Nat} (hi : i < 8 * c) (hk : k < 8 * c) (h : (f + i) % (8 * c) = (f + k) % (8 * c)) : i = k := by
  have hc : 0 < 8 * c := by omega
  refine add_mod_inj (b := f % (8 * c)) (c := 8 * c) (Nat.mod_lt _ hc) hi hk ?_
  rw [Nat.mod_add_mod, Nat.mod_add_mod]; exact h

/-- No byte outside the flits changes. -/
theorem wflits_mem (j f : Nat) (l : List Flit) (s : State) (a : Nat) (h : ¬ (s.eq j).inFlits f l.length a) :
    Memory.get (wflits j f l s).mem a = Memory.get s.mem a := by
  induction l generalizing f s with
  | nil => rfl
  | cons v t ih =>
    have h1 : ¬ ((wflit j f v s).eq j).inFlits (f + 1) t.length a := by
      rintro ⟨k, hk, b, hb, e⟩
      refine h ⟨k + 1, by simpa using hk, b, hb, ?_⟩
      rw [e]
      have : f + 1 + k = f + (k + 1) := by omega
      rw [this]; rfl
    rw [wflits, ih _ _ h1]
    show Memory.get (Memory.setBytes s.mem _ (flitBytes v)) a = _
    refine Memory.get_setBytes_of_ne _ _ _ _ fun k hk hx => h ⟨0, by simp, k, by rwa [flitBytes_length] at hk, ?_⟩
    rw [Nat.add_zero]; exact hx

theorem read64_of_mem {s t : State} {x : Addr} (h : ∀ b, b < 8 → Memory.get t.mem (x + BitVec.ofNat 64 b).toNat =
    Memory.get s.mem (x + BitVec.ofNat 64 b).toNat) : t.read64 x = s.read64 x := read64_congr h

/-- Every flit reads back. -/
theorem wflits_read (j f : Nat) (l : List Flit) (s : State) (hf : (s.eq j).ringFits) (hl : l.length ≤ 8 * (s.eq j).cap)
    (k : Nat) (hk : k < l.length) : (wflits j f l s).read64 (flitAddr (s.eq j).base (s.eq j).cap (f + k)) = l[k] := by
  induction l generalizing f s k with
  | nil => simp at hk
  | cons v t ih =>
    simp only [List.length_cons] at hl hk
    cases k with
    | zero =>
      rw [wflits, Nat.add_zero]
      refine (read64_of_mem fun b hb => ?_).trans (read64_writeFlit s _ v)
      refine wflits_mem j (f + 1) t _ _ ?_
      rintro ⟨i, hi, c, hc, e⟩
      have := (flitAddr_disjoint hf (by omega) hb hc (BitVec.eq_of_toNat_eq e)).1
      have := flit_ne (c := (s.eq j).cap) (f := f) (i := 0) (k := i + 1) (by omega) (by omega) (by
        rw [Nat.add_zero]
        rw [Nat.add_zero] at this
        exact this.trans (by congr 1; omega))
      omega
    | succ k =>
      have := ih (f + 1) (wflit j f v s) hf (by show t.length ≤ 8 * (s.eq j).cap; omega) k (by omega)
      rw [wflits]
      have e : f + (k + 1) = f + 1 + k := by omega
      rw [e]
      exact this

/-- What a run of flits writes. -/
theorem wflits_ringWritten (j f : Nat) (l : List Flit) (s : State) (hf : (s.eq j).ringFits) (hl : l.length ≤ 8 * (s.eq j).cap) :
    RingWritten (s.eq j) f l s (wflits j f l s) :=
  ⟨fun k hk => wflits_read j f l s hf hl k hk, fun a ha => wflits_mem j f l s a ha⟩

theorem RingWritten.of_mem {e g : EQ} {f : Nat} {l : List Flit} {s t u v : State} (h : RingWritten e f l s t)
    (hu : u.mem = s.mem) (hv : v.mem = t.mem) (hb : g.base = e.base) (hc : g.cap = e.cap) : RingWritten g f l u v := by
  refine ⟨fun k hk => ?_, fun a ha => ?_⟩
  · rw [hb, hc, ← h.1 k hk]
    exact read64_of_mem fun b _ => by rw [hv]
  · rw [hu, hv]
    refine h.2 a fun hx => ha ?_
    unfold EQ.inFlits at hx ⊢
    rw [hb, hc]; exact hx

/-- A stretch of flits inside another. -/
theorem EQ.inFlits.mono {e g : EQ} {f f' n m a : Nat} (h : e.inFlits f n a) (hb : g.base = e.base) (hc : g.cap = e.cap)
    (hx : ∃ d, f % (8 * e.cap) = (f' + d) % (8 * e.cap) ∧ d + n ≤ m) : g.inFlits f' m a := by
  obtain ⟨k, hk, b, hb', e1⟩ := h
  obtain ⟨d, hd, hm⟩ := hx
  refine ⟨d + k, by omega, b, hb', ?_⟩
  rw [hb, hc, e1]
  have : flitAddr e.base e.cap (f + k) = flitAddr e.base e.cap (f' + (d + k)) := by
    unfold flitAddr
    rw [← Nat.add_assoc, ← Nat.mod_add_mod f, hd, Nat.mod_add_mod]
  rw [this]

/-! ### Lengths of the work requests -/

theorem sglRest_length (l : List Segment) : (sglRest l).length = 3 * (l.length / 2) + 2 * (l.length % 2) := by
  induction l using sglRest.induct with
  | case1 => rfl
  | case2 a => simp [sglRest]
  | case3 a b t ih => simp only [sglRest, List.length_cons, ih]; omega

theorem sglBody_length {l : List Segment} (h : l ≠ []) : (sglBody l).length = sglFlits l.length := by
  cases l with
  | nil => exact absurd rfl h
  | cons a t =>
    simp only [sglBody, List.length_cons, sglRest_length, sglFlits]
    omega

theorem sglWritten_length {l : List Segment} (h : l ≠ []) :
    (sglWritten l).length = sglFlits l.length + sglFlits l.length % 2 := by
  unfold sglWritten sglPad
  rw [List.length_append, sglBody_length h]
  split
  · simp; omega
  · simp; omega

theorem pktWr_length (p : Packet) {l : List Segment} (h : l ≠ []) : (pktWr p l).length = pktWrFlits l := by
  simp only [pktWr, List.length_append, List.length_cons, List.length_nil, sglWritten_length h, pktWrFlits, Config.txpktHdrFlits]
  omega

theorem lsoWr_length (p : Packet) (o : Lso) {l : List Segment} (h : l ≠ []) : (lsoWr p o l).length = lsoWrFlits l := by
  simp only [lsoWr, List.length_append, List.length_cons, List.length_nil, sglWritten_length h, lsoWrFlits, Config.txpktLsoHdrFlits]
  omega

theorem partWr_length (p : Packet) {l : List Segment} (h : l ≠ []) : (partWr p l).length = partFlits l := by
  simp only [partWr, List.length_append, List.length_cons, List.length_nil, sglWritten_length h, partFlits, Config.txpktsPktFlits]
  omega

theorem immWr_length (p : Packet) : (immWr p).length = immWrFlits p.len.toNat := by
  simp only [immWr, List.length_append, List.length_cons, List.length_nil, immFlits, List.length_map, List.length_range,
    immWrFlits, Config.txpktHdrFlits]

/-- A request that the credit covers fits the ring. -/
theorem EQ.Law.room {e : EQ} (h : e.Law) {n : Nat} (hn : ndesc n ≤ e.avail) : n ≤ 8 * e.avail ∧ 8 * e.avail < 8 * e.cap := by
  have h1 := h.avail_le
  have h2 := h.cap_min
  unfold ndesc ceilDiv Config.slotFlits at hn
  omega

end Sys2Proof.Machine
end

