-- ==== Sys2Proof/Laws/Transmit.lean ====
section
/-! SUPPORT. Where a transmit run writes: only in the slots the credit covers, from the producer index on (R280, R281, R612). -/

namespace Sys2Proof.Machine

/-- From `s` to `t` queue `j` took some of its credit, moved its producer index by it and left no more of it pending, and wrote
nothing outside the flits that the credit of `s` covers. -/
structure Sends (j : Nat) (s t : State) : Prop where
  base : (t.eq j).base = (s.eq j).base
  cap  : (t.eq j).cap = (s.eq j).cap
  cidx : (t.eq j).cidx = (s.eq j).cidx
  took : ∃ c, c + (t.eq j).avail = (s.eq j).avail ∧ (t.eq j).pidx % (s.eq j).cap = ((s.eq j).pidx + c) % (s.eq j).cap ∧
    (t.eq j).pending ≤ (s.eq j).pending + c
  mem  : ∀ a, ¬ (s.eq j).inFlits (8 * (s.eq j).pidx) (8 * (s.eq j).avail) a → Memory.get t.mem a = Memory.get s.mem a

theorem Sends.refl (j : Nat) (s : State) : Sends j s s :=
  ⟨rfl, rfl, rfl, ⟨0, by omega, rfl, Nat.le_refl _⟩, fun _ _ => rfl⟩

/-- The fields of a record that `Sends` reads. -/
def EQ.place (e : EQ) : Addr × Nat × Nat × Nat × Nat × Nat := (e.base, e.cap, e.cidx, e.avail, e.pidx, e.pending)

/-- Nothing written, nothing taken. -/
theorem Sends.keep {j : Nat} {s t u : State} (h : Sends j s t) (hm : u.mem = t.mem) (hp : (u.eq j).place = (t.eq j).place) :
    Sends j s u := by
  simp only [EQ.place, Prod.mk.injEq] at hp
  obtain ⟨h1, h2, h3, h4, h5, h6⟩ := hp
  refine ⟨h1.trans h.base, h2.trans h.cap, h3.trans h.cidx, ?_, fun a ha => by rw [hm]; exact h.mem a ha⟩
  rw [h4, h5, h6]; exact h.took

/-- The position of a slot in flits. -/
theorem flit_pos {p q c : Nat} (h : p % c = q % c) : 8 * p % (8 * c) = 8 * q % (8 * c) := by
  rw [Nat.mul_mod_mul_left, Nat.mul_mod_mul_left, h]

/-- A run of flits inside the credit left, and a commit of some slots. -/
theorem Sends.write {j f : Nat} {l : List Flit} {s t u : State} (h : Sends j s t) (hm : u.mem = (wflits j f l t).mem)
    (hb : (u.eq j).base = (t.eq j).base) (hc : (u.eq j).cap = (t.eq j).cap) (hi : (u.eq j).cidx = (t.eq j).cidx)
    (ht : ∃ n, n + (u.eq j).avail = (t.eq j).avail ∧ (u.eq j).pidx % (t.eq j).cap = ((t.eq j).pidx + n) % (t.eq j).cap ∧
      (u.eq j).pending ≤ (t.eq j).pending + n)
    (hf : ∃ d, f % (8 * (t.eq j).cap) = (8 * (t.eq j).pidx + d) % (8 * (t.eq j).cap) ∧ d + l.length ≤ 8 * (t.eq j).avail) :
    Sends j s u := by
  obtain ⟨c, hc1, hc2, hc3⟩ := h.took
  obtain ⟨n, hn1, hn2, hn3⟩ := ht
  refine ⟨hb.trans h.base, hc.trans h.cap, hi.trans h.cidx, ⟨c + n, by omega, ?_, by omega⟩, fun a ha => ?_⟩
  · rw [h.cap] at hn2
    rw [hn2, Nat.add_mod, hc2, ← Nat.add_mod, Nat.add_assoc]
  · rw [hm, wflits_mem, h.mem a ha]
    intro hx
    refine ha (hx.mono h.base.symm h.cap.symm ?_)
    obtain ⟨d, hd, hl⟩ := hf
    refine ⟨8 * c + d, ?_, by omega⟩
    rw [hd, ← Nat.mod_add_mod, h.cap, flit_pos hc2, Nat.mod_add_mod]
    congr 1; omega

/-- A commit after the flits of a request, as every WR command does. -/
theorem Sends.commit {j n u0 : Nat} {l : List Flit} {s t u : State} (h : Sends j s t)
    (hm : u.mem = (wflits j (8 * (t.eq j).pidx) l t).mem) (hl : l.length ≤ 8 * n) (hn : n ≤ (t.eq j).avail)
    (hp : (u.eq j).place = ((t.eq j).committed n u0).place) : Sends j s u := by
  simp only [EQ.place, EQ.committed, Prod.mk.injEq] at hp
  obtain ⟨h1, h2, h3, h4, h5, h6⟩ := hp
  refine h.write hm h1 h2 h3 ⟨n, by omega, ?_, by omega⟩ ⟨0, rfl, by omega⟩
  rw [h5, Nat.mod_mod]

theorem ndesc_le (n : Nat) : n ≤ 8 * ndesc n := by unfold ndesc ceilDiv Config.slotFlits; omega

/-! ### Lengths, with or without a segment -/

theorem sglWritten_le (l : List Segment) : (sglWritten l).length ≤ sglFlits l.length + sglFlits l.length % 2 := by
  by_cases h : l = []
  · subst h; simp [sglWritten, sglBody, sglPad]
  · exact Nat.le_of_eq (sglWritten_length h)

theorem pktWr_le (p : Packet) (l : List Segment) : (pktWr p l).length ≤ pktWrFlits l := by
  have := sglWritten_le l
  simp only [pktWr, List.length_append, List.length_cons, List.length_nil, pktWrFlits, Config.txpktHdrFlits]
  omega

theorem lsoWr_le (p : Packet) (o : Lso) (l : List Segment) : (lsoWr p o l).length ≤ lsoWrFlits l := by
  have := sglWritten_le l
  simp only [lsoWr, List.length_append, List.length_cons, List.length_nil, lsoWrFlits, Config.txpktLsoHdrFlits]
  omega

theorem partWr_le (p : Packet) (l : List Segment) : (partWr p l).length ≤ partFlits l := by
  have := sglWritten_le l
  simp only [partWr, List.length_append, List.length_cons, List.length_nil, partFlits, Config.txpktsPktFlits]
  omega

/-! ### What each operation writes -/

theorem sendSgl_mem (j : Nat) (l : List Flit) (n : Nat) (c : EqStats → EqStats) (s : State) :
    (sendSgl j l n c s).mem = (wflits j (8 * (s.eq j).pidx) l s).mem := rfl

theorem sendSgl_sends {j n : Nat} {l : List Flit} {s t : State} (h : Sends j s t) (c : EqStats → EqStats) (hl : l.length ≤ n)
    (hn : ndesc n ≤ (t.eq j).avail) : Sends j s (sendSgl j l n c t) := by
  refine h.commit (n := ndesc n) (u0 := 1) (sendSgl_mem _ _ _ _ _) (Nat.le_trans hl (ndesc_le n)) hn ?_
  rw [sendSgl_eq]; rfl

theorem writeOne_sends {j : Nat} {s t : State} (h : Sends j s t) : Sends j s (writeOne j t).2 := by
  unfold writeOne
  split
  · unfold writePkt
    dsimp only
    split
    · exact h
    · exact sendSgl_sends h _ (pktWr_le _ _) (by omega)
  · unfold writeLso
    dsimp only
    split
    · exact h
    · exact sendSgl_sends h _ (lsoWr_le _ _ _) (by omega)

theorem writeImm_mem (j : Nat) (p : Packet) (s : State) (h : ¬ (s.eq j).avail < ndesc (immWrFlits p.len.toNat)) :
    (writeImm j p s).2.mem = (wflits j (8 * (s.eq j).pidx) (immWr p) s).mem := by
  unfold writeImm
  dsimp only
  rw [if_neg h]
  rfl

theorem writeImm_sends {j : Nat} {s t : State} (h : Sends j s t) (p : Packet) : Sends j s (writeImm j p t).2 := by
  by_cases ha : (t.eq j).avail < ndesc (immWrFlits p.len.toNat)
  · have : (writeImm j p t).2 = t := by unfold writeImm; rw [if_pos ha]
    rw [this]; exact h
  · refine h.commit (n := ndesc (immWrFlits p.len.toNat)) (u0 := 0) (writeImm_mem j p t ha) ?_ (by omega) ?_
    · rw [immWr_length]; exact ndesc_le _
    · rw [writeImm_eq j p t ha]; rfl

theorem writeFlush_mem (j : Nat) (s : State) (h : 1 ≤ (s.eq j).avail) :
    (writeFlush j s).2.mem = (wflits j (8 * (s.eq j).pidx) flushWr s).mem := by
  unfold writeFlush
  dsimp only
  rw [if_neg (by omega)]
  rfl

theorem writeFlush_sends {j : Nat} {s t : State} (h : Sends j s t) : Sends j s (writeFlush j t).2 := by
  by_cases ha : (t.eq j).avail < 1
  · have : (writeFlush j t).2 = t := by unfold writeFlush; rw [if_pos ha]
    rw [this]; exact h
  · refine h.commit (n := 1) (u0 := 0) (writeFlush_mem j t (by omega)) (by decide) (by omega) ?_
    rw [writeFlush_eq j t (by omega)]; rfl

theorem txpktsFlush_mem (j : Nat) (s : State) (h : (s.eq j).batch.accepting = true) :
    (txpktsFlush j s).2.mem = (wflits j (8 * (s.eq j).pidx) (batchHdr (s.eq j).batch) s).mem := by
  unfold txpktsFlush
  dsimp only
  rw [if_pos h]
  rfl

theorem txpktsFlush_sends {j : Nat} {s t : State} (h : Sends j s t) (ho : EqOk j t) : Sends j s (txpktsFlush j t).2 := by
  by_cases ha : (t.eq j).batch.accepting = true
  · have hf := ho.2.flits ha
    have hc := ho.2.count ha
    refine h.commit (n := ndesc (t.eq j).batch.nflits) (u0 := (t.eq j).batch.nmaps) (txpktsFlush_mem j t ha) ?_ hf.2 ?_
    · have := ndesc_le (t.eq j).batch.nflits
      show 2 ≤ _
      omega
    · rw [txpktsFlush_eq j t ha]; rfl
  · have : (txpktsFlush j t).2 = t := by unfold txpktsFlush; dsimp only; rw [if_neg ha]
    rw [this]; exact h

theorem txpktsJoin_mem (j : Nat) (s : State) :
    (txpktsJoin j s).mem = (wflits j (batchBase (s.eq j)).cur (partWr (s.eq j).sgl.pkt (s.eq j).sgl.segs) s).mem := rfl

theorem txpktsAdd_sends {j : Nat} {s t : State} (h : Sends j s t) (ho : EqOk j t) : Sends j s (txpktsAdd j t).2 := by
  unfold txpktsAdd
  split
  · rename_i ha
    obtain ⟨-, -, h3, -⟩ := (batchAccepts_iff _ _).1 ha
    have hle := ndesc_le ((batchBase (t.eq j)).nflits + partFlits (t.eq j).sgl.segs)
    have hcur := batchBase_cur ho.2
    refine h.write (txpktsJoin_mem j t) ?_ ?_ ?_ ⟨0, ?_⟩ ⟨(batchBase (t.eq j)).nflits, ?_, ?_⟩
    · rw [txpktsJoin_eq]; rfl
    · rw [txpktsJoin_eq]; rfl
    · rw [txpktsJoin_eq]; rfl
    · rw [txpktsJoin_eq]; exact ⟨Nat.zero_add _, rfl, Nat.le_refl _⟩
    · exact hcur.2.1
    · have := partWr_le (t.eq j).sgl.pkt (t.eq j).sgl.segs
      omega
  · exact h

theorem eqDoorbell_sends {j : Nat} {s t : State} (h : Sends j s t) (b : Bool) : Sends j s (eqDoorbell j b t).2 := by
  have hm : (eqDoorbell j b t).2.mem = t.mem := by unfold eqDoorbell; dsimp only; split <;> rfl
  obtain ⟨c, h1, h2, h3⟩ := h.took
  refine ⟨?_, ?_, ?_, ⟨c, ?_, ?_, ?_⟩, fun a ha => by rw [hm]; exact h.mem a ha⟩ <;> rw [eqDoorbell_eq] <;> split
  · exact h.base
  · exact h.base
  · exact h.cap
  · exact h.cap
  · exact h.cidx
  · exact h.cidx
  · exact h1
  · exact h1
  · exact h2
  · exact h2
  · exact h3
  · exact Nat.zero_le _

theorem sglHold_sends {j : Nat} {s t : State} (h : Sends j s t) : Sends j s (sglHold j t) := by
  refine h.keep rfl ?_
  rw [sglHold_eq]; rfl

theorem eqHold_sends {j : Nat} {s t : State} (h : Sends j s t) (p : Option Packet) : Sends j s (eqHold j p t) := by
  refine h.keep rfl ?_
  rw [show (eqHold j p t).eq j = { t.eq j with held := p } from State.setEq_same _ _ _]; rfl

theorem eqStats_sends {j : Nat} {s t : State} (h : Sends j s t) (f : EqStats → EqStats) : Sends j s (eqStats j f t) := by
  refine h.keep rfl ?_
  rw [eqStats_eq]; rfl

theorem eqDrop_sends {j : Nat} {s t : State} (h : Sends j s t) (p : Packet) : Sends j s (eqDrop j p t) :=
  eqStats_sends (t := t.emit _) (h.keep rfl rfl) _

theorem sglRelease_sends {j : Nat} {s t : State} (h : Sends j s t) : Sends j s (sglRelease j t) := by
  refine h.keep ?_ ?_
  · unfold sglRelease; dsimp only; split <;> rfl
  · rw [sglRelease_eq]; rfl

theorem dequeue_sends {j : Nat} {s t : State} (h : Sends j s t) : Sends j s (t.dequeue j).2 := h.keep rfl rfl

theorem peek_sends {j : Nat} {s t : State} (h : Sends j s t) : Sends j s (t.peek j).2 := h.keep rfl rfl

theorem takePacket_sends {j : Nat} {s t : State} (h : Sends j s t) : Sends j s (takePacket j t).2 := by
  unfold takePacket
  split
  · exact eqHold_sends h none
  · exact dequeue_sends h

theorem sglLoad_sends {j : Nat} {s t : State} (h : Sends j s t) (p : Packet) (l : List Segment) : Sends j s (sglLoad j p l t) := by
  refine h.keep rfl ?_
  rw [show (sglLoad j p l t).eq j = { t.eq j with sgl := { valid := true, mapHeld := true, pkt := p, segs := l } } from
    State.setEq_same _ _ _]
  rfl

theorem mapLoad_sends {j : Nat} {s t : State} (h : Sends j s t) (p : Packet) : Sends j s (t.mapLoad p).2 := h.keep rfl rfl
theorem compact_sends {j : Nat} {s t : State} (h : Sends j s t) (p : Packet) : Sends j s (t.compact p).2 := h.keep rfl rfl

theorem sglBuildPkt_sends {j : Nat} {s t : State} (h : Sends j s t) (p : Packet) : Sends j s (sglBuildPkt j p t).s := by
  have h1 : Sends j s (t.mapLoad p).2 := mapLoad_sends h p
  unfold sglBuildPkt
  split
  · exact h
  · dsimp only
    split
    · exact sglLoad_sends h1 _ _
    · exact h1
    · have h2 : Sends j s ((eqStats j (fun c => { c with defrags := c.defrags + 1 }) (t.mapLoad p).2).compact p).2 :=
        compact_sends (eqStats_sends h1 _) p
      split
      · exact eqDrop_sends h2 _
      · rename_i p' _
        unfold sglRetry
        dsimp only
        split
        · exact sglLoad_sends (mapLoad_sends h2 p') _ _
        · exact eqDrop_sends (mapLoad_sends h2 p') _
        · exact mapLoad_sends h2 p'

theorem stallFlush_sends {j : Nat} {s t : State} (h : Sends j s t) (b : Bool) : Sends j s (stallFlush j b t) := by
  have h1 : Sends j s (t.setEq j { t.eq j with stalled := true }) := h.keep rfl (by rw [State.setEq_same]; rfl)
  have h2 := eqStats_sends h1 (fun c => if b then { c with noDmamap := c.noDmamap + 1 } else { c with noDesc := c.noDesc + 1 })
  have key : ∀ u, Sends j s u → Sends j s (if (u.eq j).flushOut = false ∧ 1 ≤ (u.eq j).avail then (writeFlush j u).2 else u) :=
    fun u hu => by
      split
      · exact writeFlush_sends hu
      · exact hu
  exact key _ h2

/-! ### The loop -/

theorem flushFirst_sends {j : Nat} {s t : State} (h : Sends j s t) (ho : EqOk j t) : Sends j s (flushFirst j t) := by
  unfold flushFirst
  split
  · exact eqDoorbell_sends (txpktsFlush_sends h ho) _
  · exact h

theorem txSingle_sends {j : Nat} {s t : State} (h : Sends j s t) (ho : EqOk j t) (p : Packet) :
    Sends j s (txSingle j p t).state := by
  have h1 := writeOne_sends (flushFirst_sends h ho)
  unfold txSingle
  dsimp only
  split
  · exact h1
  · exact h1

theorem txBuilt_sends {j : Nat} {s t : State} (h : Sends j s t) (ho : EqOk j t) (c : Bool) (p : Packet) :
    Sends j s (txBuilt j c p t).state := by
  unfold txBuilt
  dsimp only
  split
  · split
    · exact txpktsAdd_sends h ho
    · rename_i hn
      rw [txpktsAdd_false (by simpa using hn)]
      exact txSingle_sends h ho _
  · exact txSingle_sends h ho _

theorem txSgl_sends {j : Nat} {s t : State} (h : Sends j s t) (ho : EqOk j t) (c : Bool) (p : Packet) :
    Sends j s (txSgl j c p t).state := by
  have h1 := sglBuildPkt_sends h p
  unfold txSgl
  dsimp only
  split
  · exact txBuilt_sends h1 (sglBuildPkt_ok ho p).1 c _
  · split
    · exact h1
    · exact h1

theorem txOne_sends {j : Nat} {s t : State} (h : Sends j s t) (ho : EqOk j t) (p : Packet) : Sends j s (txOne j p t).state := by
  unfold txOne
  dsimp only
  split
  · split
    · have := writeImm_sends (peek_sends h) p
      split
      · exact this
      · exact this
    · exact txSgl_sends (peek_sends h) (peek_ok ho) _ _
  · exact eqDrop_sends h p

theorem txLoop_sends {j : Nat} {s t : State} (h : Sends j s t) (ho : EqOk j t) (limit n : Nat) (p : Option Packet) (k : Nat) :
    Sends j s (txLoop j limit n p k t).s := by
  induction n generalizing p k t with
  | zero =>
    cases p with
    | none => exact h
    | some p => exact eqHold_sends h _
  | succ n ih =>
    cases p with
    | none => exact h
    | some p =>
      have h1 := txOne_sends h ho p
      have ho1 := txOne_ok ho p
      unfold txLoop
      split
      · split
        · rename_i e; rw [e] at h1 ho1; exact ih (dequeue_sends h1) (dequeue_ok ho1) _ _
        · rename_i e; rw [e] at h1 ho1; exact ih (dequeue_sends h1) (dequeue_ok ho1) _ _
        · rename_i e
          rw [e] at h1 ho1
          exact ih (dequeue_sends (eqDoorbell_sends h1 _)) (dequeue_ok (eqDoorbell_ok ho1 _).1) _ _
        · rename_i e; rw [e] at h1; exact eqHold_sends (sglRelease_sends h1) _
      · exact eqHold_sends h _

theorem txEnd_sends {j : Nat} {s t : State} (h : Sends j s t) (ho : EqOk j t) (b : Option Bool) : Sends j s (txEnd j b t) := by
  have h1 := txpktsFlush_sends h ho
  unfold txEnd
  dsimp only
  split
  · exact eqDoorbell_sends (stallFlush_sends h1 _) _
  · exact eqDoorbell_sends (h1.keep (u := State.setEq _ j _) rfl (by rw [State.setEq_same]; rfl)) _

theorem txKeep_sends {j : Nat} {s t : State} (h : Sends j s t) (p : Packet) : Sends j s (txKeep j p t) := by
  unfold txKeep
  split
  · exact eqHold_sends (sglRelease_sends h) _
  · exact h

theorem txFirst_sends {j : Nat} {s t : State} (h : Sends j s t) (ho : EqOk j t) : Sends j s (txFirst j t).s := by
  have hb := txBuilt_sends (peek_sends h) (peek_ok ho) (coalescing j t) (t.eq j).sgl.pkt
  unfold txFirst
  dsimp only
  split
  · split
    · split
      · rename_i e; rw [e] at hb; exact hb
      · rename_i e; rw [e] at hb; exact hb
      · rename_i e; rw [e] at hb; exact eqDoorbell_sends hb _
      · rename_i e; rw [e] at hb; exact txKeep_sends hb _
    · exact eqDrop_sends (sglRelease_sends h) _
  · exact h

theorem txPackets_sends {j limit : Nat} {s : State} {e : TxEnd} (h : Sends j s e.s) (ho : EqOk j e.s) :
    Sends j s (txPackets j limit e).s := by
  unfold txPackets
  split
  · exact h
  · exact txLoop_sends (takePacket_sends h) (takePacket_ok ho).1 _ _ _ _

/-- The transmit part of `EQ_TX` writes only inside the credit it starts with. -/
theorem txRun_sends {j : Nat} {s : State} (ho : EqOk j s) (limit : Nat) : Sends j s (txRun j limit s).2 :=
  txEnd_sends (txPackets_sends (txFirst_sends (Sends.refl j s) ho) (txFirst_ok ho)) (txPackets_ok (txFirst_ok ho)) _

/-- Pending slots stay in use under what a transmit run does (R57). -/
theorem Sends.pend {j : Nat} {s t : State} (h : Sends j s t) (hl : (s.eq j).Law) (hp : (s.eq j).PendLaw) : (t.eq j).PendLaw := by
  obtain ⟨c, h1, -, h3⟩ := h.took
  have h4 := hl.avail_le
  simp only [EQ.PendLaw, EQ.inUse, h.cap] at hp ⊢
  omega

/-! ### How a transmit run leaves its queue -/

/-- The loop sends no more than its limit. -/
theorem txLoop_limit {j : Nat} (limit n : Nat) (p : Option Packet) (k : Nat) (s : State) (hl : limit ≠ 0) (hk : k ≤ limit) :
    (txLoop j limit n p k s).sent ≤ limit := by
  induction n generalizing p k s with
  | zero => cases p <;> simpa [txLoop] using hk
  | succ n ih =>
    cases p with
    | none => simpa [txLoop] using hk
    | some p =>
      unfold txLoop
      split
      · have : k < limit := by omega
        split
        · exact ih _ _ _ hk
        · exact ih _ _ _ (by omega)
        · exact ih _ _ _ (by omega)
        · exact hk
      · exact hk

/-- A flushed queue has no batch open. -/
theorem txpktsFlush_closed (j : Nat) (s : State) : ((txpktsFlush j s).2.eq j).batch.accepting = false := by
  by_cases ha : (s.eq j).batch.accepting = true
  · rw [txpktsFlush_eq j s ha]; rfl
  · have : (txpktsFlush j s).2 = s := by unfold txpktsFlush; dsimp only; rw [if_neg ha]
    rw [this]; simpa using ha

/-- The packets an EQ keeps for later: the SGL register's and the held one. -/
def EQ.kept (e : EQ) : SglReg × Option Packet := (e.sgl, e.held)

/-- Flushing the batch keeps the packets kept for later. -/
theorem txpktsFlush_kept (j : Nat) (s : State) : ((txpktsFlush j s).2.eq j).kept = (s.eq j).kept := by
  by_cases ha : (s.eq j).batch.accepting = true
  · rw [txpktsFlush_eq j s ha]; rfl
  · have : (txpktsFlush j s).2 = s := by unfold txpktsFlush; dsimp only; rw [if_neg ha]
    rw [this]

theorem eqDoorbell_kept (j : Nat) (b : Bool) (s : State) : ((eqDoorbell j b s).2.eq j).kept = (s.eq j).kept := by
  rw [eqDoorbell_eq]; split <;> rfl

/-- A work request that found no credit leaves the kept packets as they were, whatever was flushed before it (R285). -/
theorem txSingle_stalled {j : Nat} {p p' : Packet} {b : Bool} {s t : State} (h : txSingle j p s = .stalled b p' t) :
    b = false ∧ p' = p ∧ (t.eq j).kept = (s.eq j).kept := by
  have hf : ((flushFirst j s).eq j).kept = (s.eq j).kept := by
    unfold flushFirst
    split
    · rw [eqDoorbell_kept, txpktsFlush_kept]
    · rfl
  have hw : ∀ u, (writeOne j u).1 = none → (writeOne j u).2 = u := fun u => by
    unfold writeOne
    split
    · unfold writePkt; dsimp only; split <;> simp
    · unfold writeLso; dsimp only; split <;> simp
  unfold txSingle at h
  dsimp only at h
  split at h
  · rename_i hn; cases h; exact ⟨rfl, rfl, by rw [hw _ hn, hf]⟩
  · cases h

theorem txBuilt_stalled {j : Nat} {c b : Bool} {p p' : Packet} {s t : State} (h : txBuilt j c p s = .stalled b p' t) :
    b = false ∧ p' = p ∧ (t.eq j).kept = (s.eq j).kept := by
  unfold txBuilt at h
  dsimp only at h
  split at h
  · split at h
    · cases h
    · rename_i hn
      rw [txpktsAdd_false (by simpa using hn)] at h
      exact txSingle_stalled h
  · exact txSingle_stalled h

/-- Where the kept packets of `e` stand after a stall that left those of `g`: one is held, and the SGL register is full only
if both were there before and stay (R510, log entry 18). -/
def StallKept (e g : EQ) : Prop :=
  g.held.isSome = true ∧ (g.sgl.valid = true → e.sgl.valid = true ∧ e.held.isSome = true ∧ g.kept = e.kept)

theorem StallKept.congr {e g g' : EQ} (h : StallKept e g) (hk : g'.kept = g.kept) : StallKept e g' := by
  obtain ⟨h1, h2⟩ := Prod.mk.inj hk
  unfold StallKept
  rw [hk, h1, h2]
  exact h

/-- The record after a packet was put back in `eq.held` and its map given back. -/
theorem held_released (j : Nat) (p : Packet) (s : State) : ((eqHold j (some p) (sglRelease j s)).eq j) =
    { s.eq j with held := some p, sgl := { (s.eq j).sgl with mapHeld := false, valid := false } } := by
  show (State.setEq _ j _).eq j = _
  rw [State.setEq_same, sglRelease_eq]

theorem StallKept.released (e : EQ) (j : Nat) (p : Packet) (s : State) :
    StallKept e ((eqHold j (some p) (sglRelease j s)).eq j) := by
  rw [held_released]
  exact ⟨rfl, fun h => nomatch h⟩

theorem txKeep_kept {j : Nat} {p : Packet} {s t : State} (hv : (s.eq j).sgl.valid = true)
    (h : (t.eq j).kept = (s.eq j).kept) : StallKept (s.eq j) ((txKeep j p t).eq j) := by
  obtain ⟨h1, h2⟩ := Prod.mk.inj h
  unfold txKeep
  split
  · exact StallKept.released _ _ _ _
  · rename_i q hq
    rw [hq] at h2
    exact ⟨by rw [hq]; rfl, fun _ => ⟨hv, by rw [← h2]; rfl, h⟩⟩

/-- The packet of the SGL register counts for one; a stall keeps it. -/
theorem txFirst_cases (j : Nat) (s : State) :
    (txFirst j s).sent ≤ 1 ∧ ((s.eq j).sgl.valid = false → txFirst j s = { sent := 0, stall := none, s := s }) ∧
    ((txFirst j s).stall ≠ none → StallKept (s.eq j) ((txFirst j s).s.eq j)) := by
  unfold txFirst
  dsimp only
  split
  · rename_i hv
    split
    · cases hb : txBuilt j (coalescing j s) (s.eq j).sgl.pkt (s.peek j).2 with
      | dropped t => exact ⟨Nat.zero_le _, fun h => (by rw [hv] at h; cases h), fun h => absurd rfl h⟩
      | coalesced t => exact ⟨Nat.le_refl _, fun h => (by rw [hv] at h; cases h), fun h => absurd rfl h⟩
      | sent t => exact ⟨Nat.le_refl _, fun h => (by rw [hv] at h; cases h), fun h => absurd rfl h⟩
      | stalled b p t =>
        exact ⟨Nat.zero_le _, fun h => (by rw [hv] at h; cases h), fun _ => txKeep_kept hv (txBuilt_stalled hb).2.2⟩
    · exact ⟨Nat.zero_le _, fun h => (by rw [hv] at h; cases h), fun h => absurd rfl h⟩
  · exact ⟨Nat.zero_le _, fun _ => rfl, fun h => absurd rfl h⟩

/-- A packet the loop stalled on is kept. -/
theorem txLoop_stall_kept {j : Nat} (e : EQ) (limit n : Nat) (p : Option Packet) (k : Nat) (s : State) (b : Bool)
    (h : (txLoop j limit n p k s).stall = some b) : StallKept e ((txLoop j limit n p k s).s.eq j) := by
  induction n generalizing p k s with
  | zero => cases p <;> simp [txLoop] at h
  | succ n ih =>
    cases p with
    | none => simp [txLoop] at h
    | some p =>
      unfold txLoop at h ⊢
      split at h
      · rename_i hl
        rw [if_pos hl]
        split at h
        · exact ih _ _ _ h
        · exact ih _ _ _ h
        · exact ih _ _ _ h
        · exact StallKept.released _ _ _ _
      · cases h

/-- A forced doorbell leaves nothing pending, and nothing else of the record changes. -/
theorem eqDoorbell_forced (j : Nat) (s : State) : (eqDoorbell j true s).2.eq j = { s.eq j with pending := 0 } := by
  rw [eqDoorbell_eq]
  split
  · rename_i h
    have hp : (s.eq j).pending = 0 := by rcases h with h | ⟨h, _⟩
                                         · exact h
                                         · cases h
    rw [← hp]
  · rfl

theorem writeFlush_kept (j : Nat) (s : State) : ((writeFlush j s).2.eq j).kept = (s.eq j).kept := by
  by_cases h : 1 ≤ (s.eq j).avail
  · rw [writeFlush_eq j s h]; rfl
  · have : (writeFlush j s).2 = s := by unfold writeFlush; dsimp only; rw [if_pos (by omega)]
    rw [this]

theorem stallFlush_kept (j : Nat) (b : Bool) (s : State) : ((stallFlush j b s).eq j).kept = (s.eq j).kept := by
  have h1 : ∀ (f : EqStats → EqStats) (u : State), (u.eq j).kept = (s.eq j).kept → ((eqStats j f u).eq j).kept = (s.eq j).kept := by
    intro f u hu
    rw [eqStats_eq]; exact hu
  have h2 := fun f => h1 f (s.setEq j { s.eq j with stalled := true }) (by rw [State.setEq_same]; rfl)
  unfold stallFlush
  dsimp only
  generalize (fun c : EqStats => if b = true then _ else _) = f
  split
  · rw [writeFlush_kept]; exact h2 f
  · exact h2 f

/-- A transmit run that stalls keeps its packet (R280, R510). -/
theorem txRun_stall (j limit : Nat) (s : State) (h : (txRun j limit s).1.1 = .stalled) :
    StallKept (s.eq j) ((txRun j limit s).2.eq j) := by
  unfold txRun at h ⊢
  dsimp only at h ⊢
  have hp : ∀ b, (txPackets j limit (txFirst j s)).stall = some b →
      StallKept (s.eq j) ((txPackets j limit (txFirst j s)).s.eq j) := by
    intro b hb
    unfold txPackets at hb ⊢
    split at hb
    · rename_i hf
      exact (txFirst_cases j s).2.2 (by rw [hf]; exact fun e => nomatch e)
    · exact txLoop_stall_kept _ _ _ _ _ _ _ hb
  cases hs : (txPackets j limit (txFirst j s)).stall with
  | none => rw [hs] at h; cases h
  | some b =>
    refine (hp b hs).congr ?_
    unfold txEnd
    dsimp only
    rw [eqDoorbell_kept, stallFlush_kept, txpktsFlush_kept]

/-! ### What a reclaim leaves -/

/-- Returning maps writes no memory and leaves the producer index and the resume request. -/
theorem mapReturns_mem (j u : Nat) (s : State) : (mapReturns j u s).mem = s.mem ∧
    (∀ j', ((mapReturns j u s).eq j').pidx = (s.eq j').pidx ∧ ((mapReturns j u s).eq j').resumeReq = (s.eq j').resumeReq) := by
  induction u generalizing s with
  | zero => exact ⟨rfl, fun _ => ⟨rfl, rfl⟩⟩
  | succ u ih =>
    have h1 : (mapReturn j s).mem = s.mem ∧
        (∀ j', ((mapReturn j s).eq j').pidx = (s.eq j').pidx ∧ ((mapReturn j s).eq j').resumeReq = (s.eq j').resumeReq) := by
      refine ⟨by unfold mapReturn; dsimp only; split <;> rfl, fun j' => ?_⟩
      unfold mapReturn; dsimp only; rw [State.setEq_get]
      split
      · rename_i e; subst e
        split <;> exact ⟨rfl, rfl⟩
      · split <;> exact ⟨rfl, rfl⟩
    have h2 := ih (mapReturn j s)
    exact ⟨h2.1.trans h1.1, fun j' => ⟨(h2.2 j').1.trans (h1.2 j').1, (h2.2 j').2.trans (h1.2 j').2⟩⟩

theorem reclaimOne_mem (j : Nat) (s : State) : (reclaimOne j s).mem = s.mem ∧
    ((reclaimOne j s).eq j).pidx = (s.eq j).pidx ∧ ((reclaimOne j s).eq j).resumeReq = (s.eq j).resumeReq := by
  have h := mapReturns_mem j ((s.eq j).slot (s.eq j).cidx).mapsUsed s
  refine ⟨h.1, ?_, ?_⟩
  · unfold reclaimOne; dsimp only; rw [State.setEq_same]; exact (h.2 j).1
  · unfold reclaimOne; dsimp only; rw [State.setEq_same]; exact (h.2 j).2

theorem reclaimLoop_mem (j r m n got : Nat) (s : State) : (reclaimLoop j r m n got s).2.mem = s.mem ∧
    ((reclaimLoop j r m n got s).2.eq j).pidx = (s.eq j).pidx ∧
    ((reclaimLoop j r m n got s).2.eq j).resumeReq = (s.eq j).resumeReq := by
  induction n generalizing got s with
  | zero => exact ⟨rfl, rfl, rfl⟩
  | succ n ih =>
    unfold reclaimLoop; dsimp only
    split
    · have h1 := reclaimOne_mem j s
      have h2 := ih (got + ((s.eq j).slot (s.eq j).cidx).descUsed) (reclaimOne j s)
      exact ⟨h2.1.trans h1.1, h2.2.1.trans h1.2.1, h2.2.2.trans h1.2.2⟩
    · exact ⟨rfl, rfl, rfl⟩

/-- Nor does the reclaim before a transmit run. -/
theorem txReclaim_mem {j : Nat} {s u : State} (h : txReclaim j s = .done () u) :
    u.mem = s.mem ∧ (u.eq j).pidx = (s.eq j).pidx ∧ (u.eq j).resumeReq = (s.eq j).resumeReq := by
  unfold txReclaim at h
  split at h
  · unfold reclaim at h
    rcases reclaimable_cases j s with ⟨c, e⟩ | ⟨r, e, hr⟩
    · rw [e] at h; cases h
    · rw [e] at h
      simp only [Ran.bind] at h
      split at h
      · rename_i hx
        split at hx
        · cases hx; cases h; exact ⟨rfl, rfl, rfl⟩
        · split at hx
          · cases hx; cases h; exact reclaimLoop_mem _ _ _ _ _ _
          · cases hx
      · cases h
  · cases h; exact ⟨rfl, rfl, rfl⟩

end Sys2Proof.Machine
end

