-- ==== Sys2Proof/Laws/Pending.lean ====
section
/-! SUPPORT. The pending slots of an egress queue stay in use under its own commands (R57), while PEER claims only published
slots (R114). -/

namespace Sys2Proof.Machine

/-- A reclaim returns no more than the slots its records tile, and leaves what is pending. -/
theorem reclaimLoop_avail {j r m : Nat} (n got : Nat) {s : State} (hm : (s.eq j).mapCidx < (s.eq j).txMaps) (hg : got ≤ r)
    (hk : 1 ≤ (s.eq j).cap) (ht : ∃ x, Tiles (s.eq j) (s.eq j).cidx (r - got) x) :
    ((reclaimLoop j r m n got s).2.eq j).cap = (s.eq j).cap ∧
    ((reclaimLoop j r m n got s).2.eq j).pending = (s.eq j).pending ∧
    ((reclaimLoop j r m n got s).2.eq j).avail + got ≤ (s.eq j).avail + r := by
  induction n generalizing got s with
  | zero => exact ⟨rfl, rfl, by show (s.eq j).avail + got ≤ _; omega⟩
  | succ n ih =>
    unfold reclaimLoop
    dsimp only
    split
    · rename_i hc
      obtain ⟨x, ht⟩ := ht
      obtain ⟨-, h2, -, h4⟩ := ht.head (by omega)
      have he := reclaimOne_eq j s hm
      have hn := ih (got + ((s.eq j).slot (s.eq j).cidx).descUsed) (s := reclaimOne j s)
        (by rw [he]; exact Nat.mod_lt _ (by show 0 < (s.eq j).txMaps; omega)) (by omega)
        (by rw [he]; exact hk) ⟨_, by
          rw [he, Nat.sub_add_eq]
          exact h4.congr rfl (fun _ _ => rfl) (Nat.mod_lt _ hk)⟩
      rw [he] at hn
      refine ⟨hn.1, hn.2.1, ?_⟩
      have := hn.2.2
      simp only [EQ.reclaimed] at this
      omega
    · exact ⟨rfl, rfl, by show (s.eq j).avail + got ≤ _; omega⟩

/-- A reclaim of published slots keeps the pending ones in use. -/
theorem reclaim_pend {j : Nat} {s : State} (hl : (s.eq j).Law) (hp : (s.eq j).PendLaw) (hs : StatusPublished j s) (a m : Nat) :
    (reclaim j a m s).Holds (fun u => (u.eq j).PendLaw) := by
  unfold reclaim reclaimable
  dsimp only
  split
  · exact Ran.holds_raise _ _ hp
  · rename_i hc
    split
    · exact Ran.holds_raise _ _ hp
    · rename_i hr
      show Ran.Holds _ (if _ then _ else _)
      split
      · exact hp
      · split
        · rename_i ht
          rw [wrTiles_eq] at ht
          obtain ⟨x, hx⟩ := Option.isSome_iff_exists.1 ht
          have hn := reclaimLoop_avail (j := j) (r := subMod (hwCidx j s) (s.eq j).cidx (s.eq j).cap) (m := m)
            (subMod (hwCidx j s) (s.eq j).cidx (s.eq j).cap) 0 hl.mcidx_lt (Nat.zero_le _) (by omega) ⟨x, tiles_of_wrMaps hx⟩
          have h4 := hl.avail_le
          have h5 := hs (by omega)
          obtain ⟨n1, n2, n3⟩ := hn
          simp only [EQ.PendLaw, EQ.inUse] at hp h5
          have key : ((reclaimLoop j (subMod (hwCidx j s) (s.eq j).cidx (s.eq j).cap) m
              (subMod (hwCidx j s) (s.eq j).cidx (s.eq j).cap) 0 s).2.eq j).PendLaw := by
            simp only [EQ.PendLaw, EQ.inUse, n1, n2]
            omega
          exact key
        · exact Ran.holds_raise _ _ hp

theorem pend_ran {α : Type} {j : Nat} {r : Ran α} (h : r.Holds (fun u => (u.eq j).PendLaw)) (f : α → RC × Nat) :
    ((r.finish f).eq j).PendLaw := by
  cases r with
  | done a s => exact h
  | raised s => obtain ⟨u, c, q, hu, rfl⟩ := h; exact hu

theorem txReclaim_pend {j : Nat} {s : State} (hl : (s.eq j).Law) (hp : (s.eq j).PendLaw) (hs : StatusPublished j s) :
    (txReclaim j s).Holds (fun u => (u.eq j).PendLaw) := by
  unfold txReclaim
  split
  · exact Ran.holds_bind (reclaim_pend hl hp hs _ _) fun _ _ h => h
  · exact hp

theorem wrResult_sends {j : Nat} {s : State} {r : Option Nat × State} (h : Sends j s r.2) : Sends j s (wrResult j r) := by
  unfold wrResult
  split
  · exact (sglHold_sends h).keep rfl rfl
  · exact h.keep rfl rfl

theorem immHeld_sends (j : Nat) (s : State) : Sends j s (immHeld j s) := by
  have hr := Sends.refl j s
  unfold immHeld
  dsimp only
  split
  · split
    · exact hr.keep rfl rfl
    · exact (writeImm_sends (sglRelease_sends hr) _).keep rfl rfl
  · exact hr.keep rfl rfl

/-- Every egress command keeps the pending slots of its queue in use, reclaims of unpublished slots apart. -/
theorem exec_pend {i : Instr} (hi : Instr.isEgress i = true) {s t : State} (h : EqOk i.qid.toNat s)
    (hp : (s.eq i.qid.toNat).PendLaw) (hs : StatusPublished i.qid.toNat s) (he : exec i s = .next t) :
    (t.eq i.qid.toNat).PendLaw := by
  have hr := fun j => Sends.refl j s
  cases i with
  | eqTx q l =>
    cases he
    change EqOk q.toNat s at h
    split
    · have e0 : (s.setEq q.toNat { s.eq q.toNat with resumeReq := false }).eq q.toNat =
          { s.eq q.toNat with resumeReq := false } := State.setEq_same _ _ _
      have h0 : EqOk q.toNat (s.setEq q.toNat { s.eq q.toNat with resumeReq := false }) := by
        refine h.keep rfl ?_ ?_ <;> rw [e0] <;> rfl
      have hp0 : ((s.setEq q.toNat { s.eq q.toNat with resumeReq := false }).eq q.toNat).PendLaw := by rw [e0]; exact hp
      have hs0 : StatusPublished q.toNat (s.setEq q.toNat { s.eq q.toNat with resumeReq := false }) := by
        unfold StatusPublished hwCidx
        rw [e0]
        exact hs
      have hd := txReclaim_ok h0
      have hd' := txReclaim_pend h0.1 hp0 hs0
      revert hd hd'
      cases txReclaim q.toNat (s.setEq q.toNat { s.eq q.toNat with resumeReq := false }) with
      | done _ u => exact fun hd hd' => (txRun_sends hd l.toNat).pend hd.1 hd'
      | raised u => exact fun _ ⟨v, _, _, hv, e⟩ => by rw [e]; exact hv
    · exact hp
  | eqWrPkt q =>
    cases he
    split
    · refine (wrResult_sends ?_).pend h.1 hp
      unfold writePkt
      dsimp only
      split
      · exact hr _
      · exact sendSgl_sends (hr q.toNat) _ (pktWr_le _ _) (by omega)
    · exact hp
  | eqWrLso q =>
    cases he
    split
    · exact hp
    · split
      · refine (wrResult_sends ?_).pend h.1 hp
        unfold writeLso
        dsimp only
        split
        · exact hr _
        · exact sendSgl_sends (hr q.toNat) _ (lsoWr_le _ _ _) (by omega)
      · exact hp
  | eqWrImm q =>
    cases he
    split
    · have h1 := takePacket_sends (hr q.toNat)
      split
      · exact (immHeld_sends q.toNat s).pend h.1 hp
      dsimp only
      split
      · exact h1.pend h.1 hp
      · split
        · have h2 := writeImm_sends h1 (by assumption)
          split
          · exact (eqHold_sends h2 _).pend h.1 hp
          · exact h2.pend h.1 hp
        · exact (eqHold_sends h1 _).pend h.1 hp
    · exact hp
  | eqWrFlush q =>
    cases he
    split
    · have := (writeFlush_sends (hr q.toNat)).pend h.1 hp
      dsimp only
      split <;> exact this
    · exact hp
  | eqDoorbell q f =>
    cases he
    split
    · exact (eqDoorbell_sends (hr _) f).pend h.1 hp
    · exact hp
  | eqReclaimable q =>
    cases he
    split
    · exact pend_ran (reclaimable_holds hp) _
    · exact hp
  | eqReclaim q a m =>
    cases he
    split
    · exact pend_ran (reclaim_pend h.1 hp hs _ _) _
    · exact hp
  | sglBuild q =>
    cases he
    split
    · have h1 := takePacket_sends (hr q.toNat)
      dsimp only
      split
      · exact h1.pend h.1 hp
      · have h2 := sglBuildPkt_sends h1 (by assumption)
        split
        · exact h2.pend h.1 hp
        · split
          · exact (eqHold_sends h2 _).pend h.1 hp
          · exact h2.pend h.1 hp
    · exact hp
  | sglWrite q f =>
    cases he
    split
    · show ((State.finish (wflits _ _ _ s) _ _).eq q.toNat).PendLaw
      rw [State.finish_get_eq, wflits_eq]
      exact hp
    · exact hp
  | txpktsAdd q =>
    cases he
    split
    · have := (txpktsAdd_sends (hr q.toNat) h).pend h.1 hp
      dsimp only
      split <;> exact this
    · exact hp
  | txpktsFlush q =>
    cases he
    split
    · exact (txpktsFlush_sends (hr q.toNat) h).pend h.1 hp
    · exact hp
  | _ => cases hi

end Sys2Proof.Machine
end

