-- ==== Sys2Proof/Laws/PerInstr.lean ====
section
/-! SUPPORT. Per command: its encoding matches its row of spec/opcode_table.json. -/

namespace Sys2Proof.Laws

/-- The `match` and `mask` columns of a command's row of spec/opcode_table.json. -/
def tableRow : Instr → CmdWord × CmdWord
  | .iqCheck _ => (0x0400000000000000#64, 0xFC00FFFFFFFFFFFF#64)
  | .iqConsume _ => (0x0800000000000000#64, 0xFC00FFFFFFFFFFFF#64)
  | .iqCredit _ => (0x0C00000000000000#64, 0xFC00FFFFFFFFFFFF#64)
  | .iqService _ _ => (0x1000000000000000#64, 0xFC00FFFF00000000#64)
  | .flSelect _ _ => (0x2000000000000000#64, 0xFC00FFFF00000000#64)
  | .flRefill _ _ => (0x2400000000000000#64, 0xFC00FFFF00000000#64)
  | .flTake _ _ => (0x2800000000000000#64, 0xFC00FFFF00000000#64)
  | .flDoorbell _ _ => (0x2C00000000000000#64, 0xFC00FFFEFFFFFFFF#64)
  | .eqTx _ _ => (0x4000000000000000#64, 0xFC00FFFF00000000#64)
  | .eqWrPkt _ => (0x4400000000000000#64, 0xFC00FFFFFFFFFFFF#64)
  | .eqWrLso _ => (0x4800000000000000#64, 0xFC00FFFFFFFFFFFF#64)
  | .eqWrImm _ => (0x4C00000000000000#64, 0xFC00FFFFFFFFFFFF#64)
  | .eqWrFlush _ => (0x5000000000000000#64, 0xFC00FFFFFFFFFFFF#64)
  | .eqDoorbell _ _ => (0x5400000000000000#64, 0xFC00FFFEFFFFFFFF#64)
  | .eqReclaimable _ => (0x6000000000000000#64, 0xFC00FFFFFFFFFFFF#64)
  | .eqReclaim _ _ _ => (0x6400000000000000#64, 0xFC00000000000000#64)
  | .sglBuild _ => (0x7000000000000000#64, 0xFC00FFFFFFFFFFFF#64)
  | .sglWrite _ _ => (0x7400000000000000#64, 0xFC00FFFF00000000#64)
  | .txpktsAdd _ => (0x8000000000000000#64, 0xFC00FFFFFFFFFFFF#64)
  | .txpktsFlush _ => (0x8400000000000000#64, 0xFC00FFFFFFFFFFFF#64)
  | .qAllocIq _ _ _ _ _ _ _ _ => (0xA000000000000000#64, 0xFC00F800FC000000#64)
  | .qAllocFl _ _ _ => (0xA400000000000000#64, 0xFC00FFFFFC000000#64)
  | .qAllocEq _ _ _ => (0xA800000000000000#64, 0xFC00FFFFFC000000#64)
  | .qStart _ _ => (0xAC00000000000000#64, 0xFC00FFFCFFFFFFFF#64)
  | .qStop _ _ => (0xB000000000000000#64, 0xFC00FFFCFFFFFFFF#64)
  | .qFree _ _ => (0xB400000000000000#64, 0xFC00FFFCFFFFFFFF#64)
  | .qTeardown _ _ => (0xB800000000000000#64, 0xFC00FFFCFFFFFFFF#64)

/-- Masking two packed words field by field. -/
theorem packWord_and (op op' : BitVec 6) (q q' : Qid) (a a' : BitVec 16) (b b' : BitVec 32) :
    packWord op q a b &&& packWord op' q' a' b' = packWord (op &&& op') (q &&& q') (a &&& a') (b &&& b') := by
  unfold packWord
  refine Eq.trans (BitVec.and_append (x₁ := (op ++ q) ++ a) (x₂ := (op' ++ q') ++ a') (y₁ := b) (y₂ := b')) ?_
  refine congrArg (· ++ (b &&& b')) ?_
  refine Eq.trans (BitVec.and_append (x₁ := op ++ q) (x₂ := op' ++ q') (y₁ := a) (y₂ := a')) ?_
  exact congrArg (· ++ (a &&& a')) BitVec.and_append

/-- An all-zero field under any mask. -/
theorem zero_masked {n : Nat} (m : BitVec n) : (0 : BitVec n) &&& m = 0 := BitVec.zero_and

/-- `A` of a doorbell command has nothing but bit 0. -/
theorem force_masked (force : Bool) : packForce force &&& 0xFFFE#16 = 0 := by cases force <;> decide

/-- `A` of a lifecycle command has nothing but bits 1:0. -/
theorem type_masked (t : QType) : packType t &&& 0xFFFC#16 = 0 := by cases t <;> decide

/-- A concatenation is zero under a mask when both parts are. -/
theorem append_masked {m n : Nat} {x mx : BitVec m} {y my : BitVec n} (hx : x &&& mx = 0) (hy : y &&& my = 0) :
    (x ++ y) &&& (mx ++ my) = 0#m ++ 0#n := by
  rw [BitVec.and_append, hx, hy]; rfl

/-- `B` of an allocation has nothing above bit 25. -/
theorem allocB_masked (capM1 : BitVec 16) (x : Qid) : packAllocB capM1 x &&& 0xFC000000#32 = 0 :=
  append_masked (x := 0#6 ++ x) (mx := 0xFC00#16) (my := 0#16)
    (append_masked (x := 0#6) (mx := 0x3F#6) (my := 0#10) BitVec.zero_and BitVec.and_zero) BitVec.and_zero

/-- `A` of `Q_ALLOC_IQ` has nothing above bit 10. -/
theorem allocIqA_masked (role : Role) (tmr pktc : BitVec 3) (esize : ESize) (fwd : Bool) :
    packAllocIqA role tmr pktc esize fwd &&& 0xF800#16 = 0 :=
  append_masked (x := (((0#5 ++ BitVec.ofBool fwd) ++ esize.code) ++ pktc) ++ tmr) (mx := 0x3E00#14) (my := 0#2)
    (append_masked (x := ((0#5 ++ BitVec.ofBool fwd) ++ esize.code) ++ pktc) (mx := 0x7C0#11) (my := 0#3)
      (append_masked (x := (0#5 ++ BitVec.ofBool fwd) ++ esize.code) (mx := 0xF8#8) (my := 0#3)
        (append_masked (x := 0#5 ++ BitVec.ofBool fwd) (mx := 0x3E#6) (my := 0#2)
          (append_masked (x := 0#5) (mx := 0x1F#5) (my := 0#1) BitVec.zero_and BitVec.and_zero) BitVec.and_zero)
        BitVec.and_zero) BitVec.and_zero) BitVec.and_zero

namespace MatchesTable

/-- The word of a command has, under the mask of its table row, the bits of the row. -/
def Statement (i : Instr) : Prop := encode i &&& (tableRow i).2 = (tableRow i).1

/-- A command matches its row once the row is spelled by fields and the fields it fixes are zero. -/
theorem of_row {i : Instr} {ma : BitVec 16} {mb : BitVec 32}
    (hr : tableRow i = (packWord i.opcode 0 0 0, packWord 0x3F 0 ma mb)) (ha : i.aField &&& ma = 0)
    (hb : i.bField &&& mb = 0) : Statement i := by
  have h : i.opcode &&& 0x3F = i.opcode := BitVec.and_allOnes
  rw [Statement, hr]
  show packWord i.opcode i.qid i.aField i.bField &&& packWord 0x3F 0 ma mb = packWord i.opcode 0 0 0
  rw [packWord_and, h, ha, hb]
  exact congrArg (fun q => packWord i.opcode q 0 0) BitVec.and_zero

theorem iqCheck (q : Qid) : Statement (.iqCheck q) :=
  of_row (ma := 0xFFFF) (mb := 0xFFFFFFFF) (by simp only [tableRow, Instr.opcode]; decide) (zero_masked _) (zero_masked _)

theorem iqConsume (q : Qid) : Statement (.iqConsume q) :=
  of_row (ma := 0xFFFF) (mb := 0xFFFFFFFF) (by simp only [tableRow, Instr.opcode]; decide) (zero_masked _) (zero_masked _)

theorem iqCredit (q : Qid) : Statement (.iqCredit q) :=
  of_row (ma := 0xFFFF) (mb := 0xFFFFFFFF) (by simp only [tableRow, Instr.opcode]; decide) (zero_masked _) (zero_masked _)

theorem iqService (q : Qid) (budget : BitVec 32) : Statement (.iqService q budget) :=
  of_row (ma := 0xFFFF) (mb := 0x0) (by simp only [tableRow, Instr.opcode]; decide) (zero_masked _) BitVec.and_zero

theorem flSelect (q : Qid) (mtu : BitVec 32) : Statement (.flSelect q mtu) :=
  of_row (ma := 0xFFFF) (mb := 0x0) (by simp only [tableRow, Instr.opcode]; decide) (zero_masked _) BitVec.and_zero

theorem flRefill (q : Qid) (n : BitVec 32) : Statement (.flRefill q n) :=
  of_row (ma := 0xFFFF) (mb := 0x0) (by simp only [tableRow, Instr.opcode]; decide) (zero_masked _) BitVec.and_zero

theorem flTake (q : Qid) (len : BitVec 32) : Statement (.flTake q len) :=
  of_row (ma := 0xFFFF) (mb := 0x0) (by simp only [tableRow, Instr.opcode]; decide) (zero_masked _) BitVec.and_zero

theorem flDoorbell (q : Qid) (force : Bool) : Statement (.flDoorbell q force) :=
  of_row (ma := 0xFFFE) (mb := 0xFFFFFFFF) (by simp only [tableRow, Instr.opcode]; decide) (force_masked _) (zero_masked _)

theorem eqTx (q : Qid) (limit : BitVec 32) : Statement (.eqTx q limit) :=
  of_row (ma := 0xFFFF) (mb := 0x0) (by simp only [tableRow, Instr.opcode]; decide) (zero_masked _) BitVec.and_zero

theorem eqWrPkt (q : Qid) : Statement (.eqWrPkt q) :=
  of_row (ma := 0xFFFF) (mb := 0xFFFFFFFF) (by simp only [tableRow, Instr.opcode]; decide) (zero_masked _) (zero_masked _)

theorem eqWrLso (q : Qid) : Statement (.eqWrLso q) :=
  of_row (ma := 0xFFFF) (mb := 0xFFFFFFFF) (by simp only [tableRow, Instr.opcode]; decide) (zero_masked _) (zero_masked _)

theorem eqWrImm (q : Qid) : Statement (.eqWrImm q) :=
  of_row (ma := 0xFFFF) (mb := 0xFFFFFFFF) (by simp only [tableRow, Instr.opcode]; decide) (zero_masked _) (zero_masked _)

theorem eqWrFlush (q : Qid) : Statement (.eqWrFlush q) :=
  of_row (ma := 0xFFFF) (mb := 0xFFFFFFFF) (by simp only [tableRow, Instr.opcode]; decide) (zero_masked _) (zero_masked _)

theorem eqDoorbell (q : Qid) (force : Bool) : Statement (.eqDoorbell q force) :=
  of_row (ma := 0xFFFE) (mb := 0xFFFFFFFF) (by simp only [tableRow, Instr.opcode]; decide) (force_masked _) (zero_masked _)

theorem eqReclaimable (q : Qid) : Statement (.eqReclaimable q) :=
  of_row (ma := 0xFFFF) (mb := 0xFFFFFFFF) (by simp only [tableRow, Instr.opcode]; decide) (zero_masked _) (zero_masked _)

theorem eqReclaim (q : Qid) (atleast : BitVec 16) (howmany : BitVec 32) : Statement (.eqReclaim q atleast howmany) :=
  of_row (ma := 0x0) (mb := 0x0) (by simp only [tableRow, Instr.opcode]; decide) BitVec.and_zero BitVec.and_zero

theorem sglBuild (q : Qid) : Statement (.sglBuild q) :=
  of_row (ma := 0xFFFF) (mb := 0xFFFFFFFF) (by simp only [tableRow, Instr.opcode]; decide) (zero_masked _) (zero_masked _)

theorem sglWrite (q : Qid) (f : BitVec 32) : Statement (.sglWrite q f) :=
  of_row (ma := 0xFFFF) (mb := 0x0) (by simp only [tableRow, Instr.opcode]; decide) (zero_masked _) BitVec.and_zero

theorem txpktsAdd (q : Qid) : Statement (.txpktsAdd q) :=
  of_row (ma := 0xFFFF) (mb := 0xFFFFFFFF) (by simp only [tableRow, Instr.opcode]; decide) (zero_masked _) (zero_masked _)

theorem txpktsFlush (q : Qid) : Statement (.txpktsFlush q) :=
  of_row (ma := 0xFFFF) (mb := 0xFFFFFFFF) (by simp only [tableRow, Instr.opcode]; decide) (zero_masked _) (zero_masked _)

theorem qAllocIq (q : Qid) (role : Role) (tmr pktc : BitVec 3) (esize : ESize) (fwd : Bool) (capM1 : BitVec 16) (tgt : Qid) : Statement (.qAllocIq q role tmr pktc esize fwd capM1 tgt) :=
  of_row (ma := 0xF800) (mb := 0xFC000000) (by simp only [tableRow, Instr.opcode]; decide) (allocIqA_masked ..) (allocB_masked _ _)

theorem qAllocFl (q : Qid) (capM1 : BitVec 16) (iq : Qid) : Statement (.qAllocFl q capM1 iq) :=
  of_row (ma := 0xFFFF) (mb := 0xFC000000) (by simp only [tableRow, Instr.opcode]; decide) (zero_masked _) (allocB_masked _ _)

theorem qAllocEq (q : Qid) (capM1 : BitVec 16) (iq : Qid) : Statement (.qAllocEq q capM1 iq) :=
  of_row (ma := 0xFFFF) (mb := 0xFC000000) (by simp only [tableRow, Instr.opcode]; decide) (zero_masked _) (allocB_masked _ _)

theorem qStart (q : Qid) (t : QType) : Statement (.qStart q t) :=
  of_row (ma := 0xFFFC) (mb := 0xFFFFFFFF) (by simp only [tableRow, Instr.opcode]; decide) (type_masked _) (zero_masked _)

theorem qStop (q : Qid) (t : QType) : Statement (.qStop q t) :=
  of_row (ma := 0xFFFC) (mb := 0xFFFFFFFF) (by simp only [tableRow, Instr.opcode]; decide) (type_masked _) (zero_masked _)

theorem qFree (q : Qid) (t : QType) : Statement (.qFree q t) :=
  of_row (ma := 0xFFFC) (mb := 0xFFFFFFFF) (by simp only [tableRow, Instr.opcode]; decide) (type_masked _) (zero_masked _)

theorem qTeardown (q : Qid) (t : QType) : Statement (.qTeardown q t) :=
  of_row (ma := 0xFFFC) (mb := 0xFFFFFFFF) (by simp only [tableRow, Instr.opcode]; decide) (type_masked _) (zero_masked _)

end MatchesTable

end Sys2Proof.Laws
end

