-- ==== Sys2Proof/Laws/Refill.lean ====
section
/-! SUPPORT. Which slots a refill fills, and with which buffers (R242 to R247): what a soft failure counts and leaves, which
retained buffer is posted again, and what HOST's answers fill. -/

namespace Sys2Proof.Machine

/-! ### HOST's answers -/

theorem HostFills.next {h g : HostIn} {n : Nat} (hf : HostFills h (n + 1))
    (hm : g.mapCreate = h.mapCreate ∨ g.mapCreate = h.mapCreate.tail) (ha : g.bufAlloc = h.bufAlloc.tail)
    (hb : g.bufMap = h.bufMap.tail) : HostFills g n := by
  obtain ⟨h1, h2, h3⟩ := hf
  refine ⟨fun i hi => ?_, fun i hi => ?_, fun i hi => ?_⟩
  · rcases hm with e | e <;> rw [e]
    · exact h1 i (by omega)
    · rw [List.getElem?_tail]; exact h1 (i + 1) (by omega)
  · rw [ha, List.getElem?_tail]; exact h2 (i + 1) (by omega)
  · rw [hb, List.getElem?_tail]; exact h3 (i + 1) (by omega)

theorem drawTape_some {α : Type} {l : List α} {f : Nat → α} {n : Nat} {a : α} (h : l[0]? = some a) :
    drawTape l f n = (a, l.tail, n) := by
  cases l with
  | nil => cases h
  | cons b l => cases h; rfl

/-! ### One slot -/

/-- From `f` to `g` a slot was filled, or one soft failure was counted (R247). -/
def SoftFail (ok : Bool) (f g : FL) : Prop :=
  if ok then g.allocFail = f.allocFail ∧ g.mapFail = f.mapFail
  else (g.allocFail = f.allocFail + 1 ∧ g.mapFail = f.mapFail) ∨ (g.allocFail = f.allocFail ∧ g.mapFail = f.mapFail + 1)

/-- What filling an empty slot does: a success uses HOST's next answers, a failure is counted and leaves the slot empty. -/
structure Fresh (j k : Nat) (s : State) (ok : Bool) (t : State) : Prop where
  count : SoftFail ok (s.fl j) (t.fl j)
  empty : ok = false → ((t.fl j).slot k).own = .empty
  host  : ∀ n, HostFills s.host (n + 1) → ok = true ∧ HostFills t.host n ∧ t.host.bufAlloc = s.host.bufAlloc.tail ∧
    t.host.bufMap = s.host.bufMap.tail ∧ ∃ b, ((t.fl j).slot k).own = .posted b ∧ s.host.bufAlloc[0]? = some (some b.buf) ∧
      s.host.bufMap[0]? = some (some b.addr)

theorem flRemap_cases (j k : Nat) (s : State) :
    let r := flRemap j k s
    SoftFail r.1 (s.fl j) (r.2.fl j) ∧ (((r.2.fl j).slot k).own = ((s.fl j).slot k).own) ∧
    r.2.host.bufAlloc = s.host.bufAlloc ∧ r.2.host.bufMap = s.host.bufMap ∧
    (∀ n, HostFills s.host (n + 1) → r.1 = true ∧
      (r.2.host.mapCreate = s.host.mapCreate ∨ r.2.host.mapCreate = s.host.mapCreate.tail)) := by
  dsimp only
  unfold flRemap
  split
  · exact ⟨⟨rfl, rfl⟩, rfl, rfl, rfl, fun _ _ => ⟨rfl, .inl rfl⟩⟩
  · dsimp only
    split
    · refine ⟨?_, ?_, rfl, rfl, fun n hn => ⟨rfl, .inr ?_⟩⟩
      · rw [State.setFl_same]; exact ⟨rfl, rfl⟩
      · rw [State.setFl_same, FL.setSlot_slot, if_pos rfl]; rfl
      · show (drawTape s.host.mapCreate _ _).2.1 = _
        rw [drawTape_some (hn.1 0 (by omega))]
    · rename_i hr
      refine ⟨?_, ?_, rfl, rfl, fun n hn => absurd ?_ hr⟩
      · unfold flMapFailed; rw [State.setFl_same]; exact .inr ⟨rfl, rfl⟩
      · unfold flMapFailed; rw [State.setFl_same]; rfl
      · show (drawTape s.host.mapCreate _ _).1 = true
        rw [drawTape_some (hn.1 0 (by omega))]

theorem flFillFresh_fresh (j k : Nat) (s : State) (h : ((s.fl j).slot k).own = .empty) :
    Fresh j k s (flFillFresh j k s).1 (flFillFresh j k s).2 := by
  have hm := flRemap_cases j k s
  dsimp only at hm
  unfold flFillFresh
  dsimp only
  generalize flRemap j k s = r at hm
  obtain ⟨h1, h2, h3, h4, h5⟩ := hm
  split
  · rename_i hr
    rw [hr] at h1
    obtain ⟨c1, c2⟩ := (h1 : _ ∧ _)
    split
    · rename_i ha
      refine ⟨?_, fun _ => ?_, fun n hn => absurd ha ?_⟩
      · unfold flAllocFailed; rw [State.setFl_same]
        exact .inl ⟨congrArg (· + 1) c1, c2⟩
      · unfold flAllocFailed; rw [State.setFl_same]; exact h2.trans h
      · obtain ⟨b, hb⟩ := hn.2.1 0 (by omega)
        show (drawTape r.2.host.bufAlloc _ _).1 ≠ none
        rw [h3, drawTape_some hb]; simp
    · rename_i b ha
      split
      · rename_i hb
        refine ⟨?_, fun _ => ?_, fun n hn => absurd hb ?_⟩
        · unfold flMapFailed; rw [State.setFl_same]
          exact .inr ⟨c1, congrArg (· + 1) c2⟩
        · unfold flMapFailed; rw [State.setFl_same]; exact h2.trans h
        · obtain ⟨a, ha, hz⟩ := hn.2.2 0 (by omega)
          show alignedAddr (drawTape r.2.host.bufMap _ _).1 ≠ none
          rw [h4, drawTape_some ha]; simp [alignedAddr, hz]
      · rename_i a hb
        refine ⟨?_, fun h => (by cases h), fun n hn => ?_⟩
        · rw [flPublish_fl]; exact ⟨c1, c2⟩
        · obtain ⟨x, hx⟩ := hn.2.1 0 (by omega)
          obtain ⟨y, hy, hz⟩ := hn.2.2 0 (by omega)
          have e1 : drawTape r.2.host.bufAlloc Config.freeBufAlloc r.2.draws = (some x, s.host.bufAlloc.tail, r.2.draws) := by rw [h3, drawTape_some hx]
          have e2 : ∀ n, (drawTape r.2.host.bufMap Config.freeBufMap n) = (some y, s.host.bufMap.tail, n) := fun n => by
            rw [h4, drawTape_some hy]
          have ha' : (drawTape r.2.host.bufAlloc Config.freeBufAlloc r.2.draws).1 = some b := ha
          have hb' : ∀ n, alignedAddr (drawTape r.2.host.bufMap Config.freeBufMap n).1 = some a → y = a := fun n => by
            rw [e2]; simp [alignedAddr, hz]
          have hya := hb' _ hb
          subst hya
          rw [e1] at ha'
          cases ha'
          have g1 : (drawTape r.2.host.bufAlloc Config.freeBufAlloc r.2.draws).2.1 = s.host.bufAlloc.tail := by rw [e1]
          have g2 := fun n => congrArg (fun d => d.2.1) (e2 n)
          refine ⟨rfl, hn.next (h5 n hn).2 g1 (g2 _), g1, g2 _, { buf := b, addr := y, bcls := (r.2.fl j).cls }, ?_, hx, hy⟩
          rw [flPublish_fl, FL.setSlot_slot, if_pos rfl]; rfl
  · rename_i hr
    have hf : r.1 = false := by simpa using hr
    rw [hf] at h1
    exact ⟨h1, fun _ => h2.trans h, fun n hn => absurd (h5 n hn).1 hr⟩

/-- What `fill_slot` does at slot `pidx`. -/
structure Fills (j : Nat) (s : State) (ok : Bool) (t : State) : Prop where
  count : SoftFail ok (s.fl j) (t.fl j)
  empty : ok = false → ((t.fl j).slot (s.fl j).pidx).own = .empty
  again : ∀ b, ((s.fl j).slot (s.fl j).pidx).own = .retained b → b.bcls = (s.fl j).cls →
    ok = true ∧ ((t.fl j).slot (s.fl j).pidx).own = .posted b ∧ t.host = s.host
  host  : ∀ n, HostFills s.host (n + 1) → ok = true ∧ HostFills t.host n ∧
    (((s.fl j).slot (s.fl j).pidx).own = .empty → t.host.bufAlloc = s.host.bufAlloc.tail ∧ t.host.bufMap = s.host.bufMap.tail ∧
      ∃ b, ((t.fl j).slot (s.fl j).pidx).own = .posted b ∧ s.host.bufAlloc[0]? = some (some b.buf) ∧
        s.host.bufMap[0]? = some (some b.addr))

theorem HostFills.mono {h : HostIn} {m n : Nat} (hf : HostFills h n) (hm : m ≤ n) : HostFills h m :=
  ⟨fun i hi => hf.1 i (by omega), fun i hi => hf.2.1 i (by omega), fun i hi => hf.2.2 i (by omega)⟩

theorem fillSlot_fills (j : Nat) (s : State) (h : ((s.fl j).slot (s.fl j).pidx).own.isPosted = false) :
    Fills j s (fillSlot j s).1 (fillSlot j s).2 := by
  unfold fillSlot
  dsimp only
  split
  · rename_i b hb
    split
    · have e := flPublish_fl j (s.fl j).pidx b s
      refine ⟨?_, fun h => (by cases h), fun b' hb' _ => ⟨rfl, ?_, rfl⟩, fun n hn => ⟨rfl, hn.mono (by omega), fun he => ?_⟩⟩
      · rw [e]; exact ⟨rfl, rfl⟩
      · rw [hb] at hb'; cases hb'
        rw [e, FL.setSlot_slot, if_pos rfl]
      · rw [hb] at he; cases he
    · rename_i hc
      have e : (flDropRetained j (s.fl j).pidx b s).fl j
          = (s.fl j).setSlot (s.fl j).pidx { (s.fl j).slot (s.fl j).pidx with own := .empty } := by
        unfold flDropRetained
        rw [State.setFl_same]
        rfl
      have g := flFillFresh_fresh j (s.fl j).pidx (flDropRetained j (s.fl j).pidx b s) (by
        rw [e, FL.setSlot_slot, if_pos rfl])
      refine ⟨?_, g.empty, fun b' hb' hc' => ?_, fun n hn => ?_⟩
      · have := g.count
        rw [e] at this
        exact this
      · rw [hb] at hb'; cases hb'; exact absurd hc' hc
      · obtain ⟨g1, g2, -⟩ := g.host n hn
        exact ⟨g1, g2, fun he => by rw [hb] at he; cases he⟩
  · rename_i he
    have g := flFillFresh_fresh j (s.fl j).pidx s he
    refine ⟨g.count, g.empty, fun b hb => (by rw [he] at hb; cases hb), fun n hn => ?_⟩
    obtain ⟨g1, g2, g3, g4, g5⟩ := g.host n hn
    exact ⟨g1, g2, fun _ => ⟨g3, g4, g5⟩⟩
  · rename_i b hb; rw [hb] at h; cases h

/-! ### The loop -/

/-- After `n` slots of a refill, none of them failed: what was counted, which buffers are posted, and HOST's answers left. -/
structure Tally (j : Nat) (s : State) (n : Nat) (t : State) : Prop where
  count : SoftFail true (s.fl j) (t.fl j)
  rest  : ∀ x, (∀ i, i < n → x ≠ ((s.fl j).pidx + i) % (s.fl j).cap) → (t.fl j).slot x = (s.fl j).slot x
  again : ∀ i, i < n → ∀ b, ((s.fl j).slot (((s.fl j).pidx + i) % (s.fl j).cap)).own = .retained b → b.bcls = (s.fl j).cls →
    ((t.fl j).slot (((s.fl j).pidx + i) % (s.fl j).cap)).own = .posted b
  host  : ∀ m, HostFills s.host (n + m) → HostFills t.host m ∧
    ((∀ i, i < n → ((s.fl j).slot (((s.fl j).pidx + i) % (s.fl j).cap)).own = .empty) →
      t.host.bufAlloc = s.host.bufAlloc.drop n ∧ t.host.bufMap = s.host.bufMap.drop n ∧
      ∀ i, i < n → ∃ b, ((t.fl j).slot (((s.fl j).pidx + i) % (s.fl j).cap)).own = .posted b ∧
        s.host.bufAlloc[i]? = some (some b.buf) ∧ s.host.bufMap[i]? = some (some b.addr))

theorem Tally.zero (j : Nat) (s : State) : Tally j s 0 s :=
  ⟨⟨rfl, rfl⟩, fun _ _ => rfl, fun i hi => absurd hi (by omega), fun m hm =>
    ⟨by rwa [Nat.zero_add] at hm, fun _ => ⟨rfl, rfl, fun i hi => absurd hi (by omega)⟩⟩⟩

/-- The end of a refill loop that was asked for `k` slots and filled `n`. -/
structure Refills (j k : Nat) (s : State) (n : Nat) (t : State) : Prop where
  count : SoftFail (decide (n = k)) (s.fl j) (t.fl j)
  empty : n < k → ((t.fl j).slot (((s.fl j).pidx + n) % (s.fl j).cap)).own = .empty
  again : ∀ i, i < n → ∀ b, ((s.fl j).slot (((s.fl j).pidx + i) % (s.fl j).cap)).own = .retained b → b.bcls = (s.fl j).cls →
    ((t.fl j).slot (((s.fl j).pidx + i) % (s.fl j).cap)).own = .posted b
  fills : (∀ i, i < k → ∃ b, ((s.fl j).slot (((s.fl j).pidx + i) % (s.fl j).cap)).own = .retained b ∧ b.bcls = (s.fl j).cls) →
    n = k
  host  : HostFills s.host k → n = k ∧
    ((∀ i, i < k → ((s.fl j).slot (((s.fl j).pidx + i) % (s.fl j).cap)).own = .empty) →
      ∀ i, i < k → ∃ b, ((t.fl j).slot (((s.fl j).pidx + i) % (s.fl j).cap)).own = .posted b ∧
        s.host.bufAlloc[i]? = some (some b.buf) ∧ s.host.bufMap[i]? = some (some b.addr))

theorem Tally.ends {j n : Nat} {s t : State} (h : Tally j s n t) : Refills j n s n t :=
  ⟨by rw [decide_eq_true rfl]; exact h.count, fun hn => absurd hn (by omega), h.again, fun _ => rfl,
    fun hf => ⟨rfl, fun he => ((h.host 0 hf).2 he).2.2⟩⟩

/-- A slot of the refill that was not reached yet. -/
theorem Tally.unreached {j n : Nat} {s t : State} (h : Tally j s n t) (hs : (s.fl j).Law) (hn : n < (s.fl j).needed) :
    (t.fl j).slot (((s.fl j).pidx + n) % (s.fl j).cap) = (s.fl j).slot (((s.fl j).pidx + n) % (s.fl j).cap) :=
  h.rest _ fun i hi e => by
    have := hs.needed_le
    have := hs.cap_min
    have := add_mod_inj hs.pidx_lt (by omega) (by omega) e
    omega

theorem flPosted_slot (j : Nat) (s : State) (k : Nat) : ((flPosted j s).fl j).slot k = (s.fl j).slot k := by
  unfold flPosted; rw [State.setFl_same]; rfl

theorem Tally.next {j n : Nat} {s t u : State} (hs : (s.fl j).Law) (h : Tally j s n t) (hr : Refilled j s n t)
    (hn : n < (s.fl j).needed) (g : Filled j t true u) (f : Fills j t true u) : Tally j s (n + 1) (flPosted j u) := by
  have hp : (t.fl j).pidx = ((s.fl j).pidx + n) % (s.fl j).cap := by rw [hr.keep]
  have hcls : (t.fl j).cls = (s.fl j).cls := by rw [hr.keep]
  have hun := h.unreached hs hn
  have hne : ∀ i, i < n → ((s.fl j).pidx + i) % (s.fl j).cap ≠ (t.fl j).pidx := fun i hi e => by
    rw [hp] at e
    have := hs.needed_le
    have := hs.cap_min
    have := add_mod_inj hs.pidx_lt (by omega) (by omega) e
    omega
  refine ⟨?_, fun x hx => ?_, fun i hi b hb hc => ?_, fun m hm => ?_⟩
  · have e : (flPosted j u).fl j = { u.fl j with
        pidx := ((u.fl j).pidx + 1) % (u.fl j).cap, needed := (u.fl j).needed - 1, pending := (u.fl j).pending + 1 } := by
      unfold flPosted; rw [State.setFl_same]
    rw [e]
    exact ⟨(f.count : _ ∧ _).1.trans (h.count : _ ∧ _).1, (f.count : _ ∧ _).2.trans (h.count : _ ∧ _).2⟩
  · rw [flPosted_slot, g.from_.slots x (by rw [hp]; exact hx n (by omega))]
    exact h.rest x fun i hi => hx i (by omega)
  · rw [flPosted_slot]
    by_cases e : i = n
    · subst e
      rw [← hp]
      exact (f.again b (by rw [hp, hun]; exact hb) (hc.trans hcls.symm)).2.1
    · rw [g.from_.slots _ (hne i (by omega))]
      exact h.again i (by omega) b hb hc
  · obtain ⟨h1, h2⟩ := h.host (m + 1) (by rwa [Nat.add_comm m 1, ← Nat.add_assoc])
    obtain ⟨f1, f2, f3⟩ := f.host m h1
    refine ⟨f2, fun he => ?_⟩
    obtain ⟨k1, k2, k3⟩ := h2 fun i hi => he i (by omega)
    obtain ⟨l1, l2, b, l3, l4, l5⟩ := f3 (by rw [hp, hun]; exact he n (by omega))
    refine ⟨?_, ?_, fun i hi => ?_⟩
    · show u.host.bufAlloc = _
      rw [l1, k1, List.tail_drop]
    · show u.host.bufMap = _
      rw [l2, k2, List.tail_drop]
    · by_cases e : i = n
      · subst e
        refine ⟨b, ?_, ?_, ?_⟩
        · rw [flPosted_slot, ← hp]; exact l3
        · rw [k1, List.getElem?_drop, Nat.add_zero] at l4; exact l4
        · rw [k2, List.getElem?_drop, Nat.add_zero] at l5; exact l5
      · obtain ⟨b, b1, b2, b3⟩ := k3 i (by omega)
        exact ⟨b, by rw [flPosted_slot, g.from_.slots _ (hne i (by omega))]; exact b1, b2, b3⟩

/-- Which slots the refill loop fills. -/
theorem flRefillLoop_refills {j : Nat} {s : State} (hs : (s.fl j).Law) (k n : Nat) {t : State} (hr : Refilled j s n t)
    (h : Tally j s n t) (hk : n + k ≤ (s.fl j).needed) :
    Refills j (n + k) s (flRefillLoop j k n t).1 (flRefillLoop j k n t).2 := by
  induction k generalizing n t with
  | zero => exact h.ends
  | succ k ih =>
    have g := fillSlot_filled j t hr.law.pidx_free
    have f := fillSlot_fills j t hr.law.pidx_free
    have hp : (t.fl j).pidx = ((s.fl j).pidx + n) % (s.fl j).cap := by rw [hr.keep]
    have hcls : (t.fl j).cls = (s.fl j).cls := by rw [hr.keep]
    have hun := h.unreached hs (by omega)
    unfold flRefillLoop
    dsimp only
    split
    · rename_i e
      rw [e] at g f
      have := ih (n + 1) (hr.next hs (by omega) g) (h.next hs hr (by omega) g f) (by omega)
      rwa [Nat.add_assoc, Nat.add_comm 1 k] at this
    · rename_i e
      have e : (fillSlot j t).1 = false := by simpa using e
      rw [e] at g f
      refine ⟨?_, fun _ => ?_, fun i hi b hb hc => ?_, fun hf => ?_, fun hf => ?_⟩
      · rw [decide_eq_false (by show n ≠ _; omega)]
        have f1 : _ ∨ _ := f.count
        have f2 : _ ∧ _ := h.count
        show _ ∨ _
        rw [← f2.1, ← f2.2]; exact f1
      · rw [← hp]; exact f.empty rfl
      · have hne : ((s.fl j).pidx + i) % (s.fl j).cap ≠ (t.fl j).pidx := fun e => by
          rw [hp] at e
          have hi' : i < n := hi
          have := hs.needed_le
          have := hs.cap_min
          have := add_mod_inj hs.pidx_lt (by omega) (by omega) e
          omega
        rw [g.from_.slots _ hne]
        exact h.again i hi b hb hc
      · obtain ⟨b, hb, hc⟩ := hf n (by omega)
        cases (f.again b (by rw [hp, hun]; exact hb) (hc.trans hcls.symm)).1
      · cases (f.host k (h.host (k + 1) hf).1).1

end Sys2Proof.Machine
end

