-- ==== Sys2Proof/Laws/Service.lean ====
section
/-! SUPPORT. The loop of IQ_SERVICE (R212): it ends within `cap` turns, so the fuel of the model does not show (log entry 11), and
the entries behind the first are those of a service with the budget left. -/

namespace Sys2Proof.Machine

/-! ### Dispatch writes no memory -/

theorem flTakeLoop_mem (j len n rem : Nat) (f : Frame) (taken : Nat) {s u : State} {a : Frame × Nat}
    (h : flTakeLoop j len n rem f taken s = .done a u) : u.mem = s.mem := by
  induction n generalizing rem f taken s with
  | zero =>
    unfold flTakeLoop at h
    split at h
    · cases h; rfl
    · cases h
  | succ n ih =>
    unfold flTakeLoop at h
    split at h
    · cases h; rfl
    · split at h
      · dsimp only at h
        split at h <;> exact (ih _ _ _ h).trans rfl
      · cases h
      · cases h

theorem dispatch_mem {j : Nat} {s u : State} (h : dispatch j s = .done () u) : u.mem = s.mem := by
  have prog : ∀ {id u}, egressProgress j id s = .done () u → u.mem = s.mem := by
    intro id u h
    unfold egressProgress at h
    split at h
    · cases h
    · split at h
      · cases h
        unfold eqProgress
        dsimp only
        split <;> rfl
      · cases h
  unfold dispatch at h
  split at h
  · unfold dispatchRx at h
    dsimp only at h
    split at h
    · split at h
      · cases h
      · unfold rxFrame at h
        split at h
        · cases h
        · rename_i f _
          dsimp only at h
          cases ht : flTake f (ctrlOf j s).len s with
          | raised v => rw [ht] at h; cases h
          | done a v => rw [ht] at h; cases h; exact (flTakeLoop_mem _ _ _ _ _ _ ht : v.mem = s.mem)
    · split at h
      · split at h
        · exact prog h
        · cases h
      · cases h
  · unfold dispatchFw at h
    split at h
    · cases h
    · split at h
      · cases h; rfl
      · split at h
        · exact prog h
        · cases h
  · unfold dispatchFwd at h
    split at h
    · cases h
    · split at h
      · cases h
      · split at h
        · cases h; rfl
        · cases h

/-! ### Where the cursor stands in the loop -/

/-- `x` is queue `j` of `s` some `k ≤ cap` entries further on: the cursor and the generation of R201. -/
structure Along (j : Nat) (s : State) (k : Nat) (x : State) : Prop where
  mem   : x.mem = s.mem
  base  : (x.iq j).base = (s.iq j).base
  esize : (x.iq j).esize = (s.iq j).esize
  cap   : (x.iq j).cap = (s.iq j).cap
  cidx  : (x.iq j).cidx = if (s.iq j).cidx + k < (s.iq j).cap then (s.iq j).cidx + k else (s.iq j).cidx + k - (s.iq j).cap
  gen   : (x.iq j).gen = if (s.iq j).cidx + k < (s.iq j).cap then (s.iq j).gen else !(s.iq j).gen

theorem Along.refl {j : Nat} {s : State} (h : (s.iq j).cidx < (s.iq j).cap) : Along j s 0 s :=
  ⟨rfl, rfl, rfl, rfl, by rw [Nat.add_zero, if_pos h], by rw [Nat.add_zero, if_pos h]⟩

/-- One more entry. -/
theorem Along.next {j k : Nat} {s x u : State} (h : Along j s k x) (hk : k < (s.iq j).cap) (hl : (s.iq j).cidx < (s.iq j).cap)
    (hc : consumeOne j x = .done () u) : Along j s (k + 1) u := by
  unfold consumeOne at hc
  cases hd : dispatch j x with
  | raised v => rw [hd] at hc; cases hc
  | done a v =>
    rw [hd] at hc
    cases hc
    have hm := dispatch_mem hd
    have h2 := (dispatch_noCredit hd).2
    have hs : Ran.Holds (SameFixed x) (dispatch j x) := (sameFixed_closed x).ingress.dispatch (SameFixed.refl x) j
    rw [hd] at hs
    have h3 := SameFixed.iq (s := x) (t := v) hs j
    simp only [IQ.credits, IQ.fixed, Prod.mk.injEq] at h2 h3
    have hx : (v.iq j).cidx < (v.iq j).cap := by
      rw [h2.1, h2.2.1, h.cidx, h.cap]
      split <;> omega
    obtain ⟨c1, -, -, -, c5, -⟩ := consumed_spec hx
    have hcap : (v.iq j).cap = (s.iq j).cap := h2.2.1.trans h.cap
    have hcx : (v.iq j).cidx = _ := h2.1.trans h.cidx
    have hgn : (v.iq j).gen = _ := h2.2.2.2.2.2.trans h.gen
    refine ⟨(c5.trans hm).trans h.mem, ?_, ?_, ?_, ?_, ?_⟩ <;> rw [c1]
    · exact h3.2.2.1.trans h.base
    · exact h3.2.2.2.2.1.trans h.esize
    · exact hcap
    · show (if (v.iq j).cidx = (v.iq j).cap - 1 then 0 else (v.iq j).cidx + 1) = _
      rw [hcap, hcx]
      split <;> split <;> split <;> omega
    · show (if (v.iq j).cidx = (v.iq j).cap - 1 then !(v.iq j).gen else (v.iq j).gen) = _
      rw [hcap, hcx, hgn]
      by_cases e : (s.iq j).cidx + k < (s.iq j).cap
      · simp only [if_pos e]
        by_cases e1 : (s.iq j).cidx + k = (s.iq j).cap - 1
        · rw [if_pos e1, if_neg (by omega)]
        · rw [if_neg e1, if_pos (by omega)]
      · simp only [if_neg e]
        rw [if_neg (by omega), if_neg (by omega)]

/-- The entry at the cursor, as the loop tests it. -/
theorem Along.isNew {j k : Nat} {s x : State} (h : Along j s k x) (hk : k = (s.iq j).cap) (hn : isNew j s = true) :
    Machine.isNew j x = false := by
  subst hk
  have hc : (x.iq j).cidx = (s.iq j).cidx := by rw [h.cidx, if_neg (by omega), Nat.add_sub_cancel]
  have hg : (x.iq j).gen = !(s.iq j).gen := by rw [h.gen, if_neg (by omega)]
  have he : entryAddr j x = entryAddr j s := by unfold entryAddr; rw [h.base, h.esize, hc]
  have hr : (ctrlOf j x).gen = (ctrlOf j s).gen := by
    unfold ctrlOf Ctrl.gen State.readByte
    rw [he, h.esize, h.mem]
  unfold Machine.isNew at hn ⊢
  rw [hr, hg]
  rw [beq_iff_eq] at hn
  rw [hn]
  cases (s.iq j).gen <;> rfl

/-! ### The loop -/

theorem serviceLoop_along {j b : Nat} {s : State} (hl : (s.iq j).cidx < (s.iq j).cap) (hn : isNew j s = true) (r k f g n : Nat)
    {x : State} (hx : Along j s k x) (hr : k + r = (s.iq j).cap) (hf : r < f) (hg : r < g) :
    serviceLoop j b f n x = serviceLoop j b g n x := by
  induction r generalizing k f g n x with
  | zero =>
    obtain ⟨f, rfl⟩ : ∃ f', f = f' + 1 := ⟨f - 1, by omega⟩
    obtain ⟨g, rfl⟩ : ∃ g', g = g' + 1 := ⟨g - 1, by omega⟩
    have := hx.isNew (by omega) hn
    unfold serviceLoop
    simp [this]
  | succ r ih =>
    obtain ⟨f, rfl⟩ : ∃ f', f = f' + 1 := ⟨f - 1, by omega⟩
    obtain ⟨g, rfl⟩ : ∃ g', g = g' + 1 := ⟨g - 1, by omega⟩
    unfold serviceLoop
    split
    · rfl
    · split
      · cases hc : consumeOne j x with
        | raised v => rfl
        | done a v => exact ih (k + 1) f g (n + 1) (hx.next (by omega) hl hc) (by omega) (by omega) (by omega)
      · rfl

/-- The loop ends within `cap` turns: more fuel changes nothing. -/
theorem serviceLoop_fuel {j b f g : Nat} (n : Nat) {s : State} (hl : (s.iq j).cidx < (s.iq j).cap) (hf : (s.iq j).cap < f)
    (hg : (s.iq j).cap < g) : serviceLoop j b f n s = serviceLoop j b g n s := by
  by_cases hn : isNew j s = true
  · exact serviceLoop_along hl hn (s.iq j).cap 0 f g n (Along.refl hl) (by omega) hf hg
  · obtain ⟨f, rfl⟩ : ∃ f', f = f' + 1 := ⟨f - 1, by omega⟩
    obtain ⟨g, rfl⟩ : ∃ g', g = g' + 1 := ⟨g - 1, by omega⟩
    unfold serviceLoop
    simp [hn]

/-- The loop after one entry is the loop of the budget that is left, one entry counted. -/
theorem serviceLoop_shift {j b c : Nat} (h : b = 0 ∧ c = 0 ∨ b = c + 1 ∧ c ≠ 0) (f n : Nat) (s : State) :
    serviceLoop j b f (n + 1) s = (serviceLoop j c f n s).bind fun r u => .done (r.1 + 1, r.2) u := by
  induction f generalizing n s with
  | zero => rfl
  | succ f ih =>
    unfold serviceLoop
    have hc : (b ≠ 0 ∧ n + 1 = b) = (c ≠ 0 ∧ n = c) := propext ⟨fun h => by omega, fun h => by omega⟩
    simp only [hc]
    split
    · rfl
    · split
      · cases consumeOne j s with
        | raised v => rfl
        | done a v => exact ih (n + 1) v
      · rfl

end Sys2Proof.Machine
end

