-- ==== Sys2Proof/Laws/Take.lean ====
section
/-! SUPPORT. What FL_TAKE hands over (R250, R252): the frame that spans the published buffers, and where it ends. -/

namespace Sys2Proof.Machine

theorem bufBytes_zero (c : Config) (b : Nat → RxBuf) : bufBytes c b 0 = 0 := rfl

theorem bufBytes_succ (c : Config) (b : Nat → RxBuf) (n : Nat) :
    bufBytes c b (n + 1) = bufBytes c b n + classSize c (b n).bcls := by
  unfold bufBytes; rw [List.range_succ, List.map_append, List.sum_append]; simp

theorem frameParts_succ (c : Config) (b : Nat → RxBuf) (len k : Nat) : frameParts c b len (k + 1) =
    frameParts c b len k ++ [((b k).buf, min (len - bufBytes c b k) (classSize c (b k).bcls))] := by
  unfold frameParts; rw [List.range_succ, List.map_append]; rfl

/-- The chunks of a frame add up to its length, when its buffers hold it. -/
theorem frameParts_sum (c : Config) (b : Nat → RxBuf) (len k : Nat) :
    ((frameParts c b len k).map Prod.snd).sum = min len (bufBytes c b k) := by
  induction k with
  | zero => simp [frameParts, bufBytes]
  | succ k ih => rw [frameParts_succ, List.map_append, List.sum_append, ih, bufBytes_succ]; simp; omega

/-- The unmaps of the first `k` buffers. -/
def unmaps (b : Nat → RxBuf) (k : Nat) : List Effect := (List.range k).map fun i => .unmap (.rx (b i).buf)

theorem unmaps_succ (b : Nat → RxBuf) (k : Nat) : unmaps b (k + 1) = unmaps b k ++ [.unmap (.rx (b k).buf)] := by
  unfold unmaps; rw [List.range_succ, List.map_append]; rfl

/-- The take loop after `k` attached buffers. -/
structure Spanning (j len : Nat) (b : Nat → RxBuf) (s : State) (k : Nat) (t : State) : Prop where
  taken : Taken (s.fl j) k (t.fl j)
  out   : t.out = s.out ++ unmaps b k
  empty : ∀ i, i < k → ((t.fl j).slot (((s.fl j).cidx + i) % (s.fl j).cap)).own = .empty
  mem   : t.mem = s.mem
  cfg   : t.cfg = s.cfg
  part  : k ≠ 0 → bufBytes s.cfg b (k - 1) < len

theorem Spanning.next {j len k : Nat} {b : Nat → RxBuf} {s t : State} (h : Spanning j len b s k t)
    (hk : k < (s.fl j).published) (hr : bufBytes s.cfg b k < len) :
    Spanning j len b s (k + 1) (flTaken j .empty (t.emit (.unmap (.rx (b k).buf)))) := by
  have hc : (t.fl j).cidx = ((s.fl j).cidx + k) % (s.fl j).cap := by rw [h.taken.keep]
  have e : (flTaken j .empty (t.emit (.unmap (.rx (b k).buf)))).fl j = afterTake (t.fl j) .empty := flTaken_fl j _ (t.emit _)
  have hkc : k < (s.fl j).cap := by simp only [FL.published] at hk; omega
  refine ⟨by rw [e]; exact h.taken.next hk rfl, ?_, fun i hi => ?_, h.mem, h.cfg, fun _ => by simpa using hr⟩
  · show t.out ++ [_] = _
    rw [h.out, unmaps_succ, List.append_assoc]
  · rw [e, afterTake_slot]
    split
    · rfl
    · rename_i hne
      have : i ≠ k := fun e => hne (by rw [hc, e])
      exact h.empty i (by omega)

/-- The slot at `cidx` after `k` turns is the `k`-th published one. -/
theorem Spanning.slot {j len k : Nat} {b : Nat → RxBuf} {s t : State} (hs : (s.fl j).Law) (h : Spanning j len b s k t)
    (hk : k < (s.fl j).published) :
    (t.fl j).slot (t.fl j).cidx = (s.fl j).slot (((s.fl j).cidx + k) % (s.fl j).cap) := by
  have hc : (t.fl j).cidx = ((s.fl j).cidx + k) % (s.fl j).cap := by rw [h.taken.keep]
  have hkc : k < (s.fl j).cap := by simp only [FL.published] at hk; omega
  rw [hc]
  refine h.taken.others _ fun i hi e => ?_
  have := add_mod_inj hs.cidx_lt hkc (by omega) e
  omega

/-- The take loop in frames attached by reference: it ends with the first buffers that hold the frame, or underruns behind the
last published one (R250). -/
theorem flTakeLoop_attach {j len : Nat} {b : Nat → RxBuf} {s : State} (hs : (s.fl j).Law)
    (hb : ∀ i, i < (s.fl j).published → ((s.fl j).slot (((s.fl j).cidx + i) % (s.fl j).cap)).own = .posted (b i))
    (n k : Nat) {t : State} (h : Spanning j len b s k t) (hn : k + n = (s.fl j).published)
    (hc : k = 0 → 1 ≤ len ∧ ¬ (len ≤ s.cfg.rxCopyThresh ∧ len ≤ classSize s.cfg (b 0).bcls)) :
    (len ≤ bufBytes s.cfg b (s.fl j).published → ∃ m u,
      flTakeLoop j len n (len - bufBytes s.cfg b k) (.refs (frameParts s.cfg b len k)) k t
        = .done (.refs (frameParts s.cfg b len m), m) u ∧ Spanning j len b s m u ∧ k ≤ m ∧ 1 ≤ m ∧ len ≤ bufBytes s.cfg b m) ∧
    (bufBytes s.cfg b (s.fl j).published < len → ∃ u,
      flTakeLoop j len n (len - bufBytes s.cfg b k) (.refs (frameParts s.cfg b len k)) k t
        = Ran.raise u .flUnderrun (selFl j) ∧ Spanning j len b s (s.fl j).published u) := by
  induction n generalizing k t with
  | zero =>
    have hk : k = (s.fl j).published := by omega
    subst hk
    refine ⟨fun hl => ⟨_, t, ?_, h, Nat.le_refl _, ?_, hl⟩, fun hl => ⟨t, ?_, h⟩⟩
    · rw [flTakeLoop, if_pos (by omega)]
    · by_cases e : (s.fl j).published = 0
      · have := hc e
        rw [e, bufBytes_zero] at hl; omega
      · omega
    · rw [flTakeLoop, if_neg (by omega)]
  | succ n ih =>
    by_cases hr : len ≤ bufBytes s.cfg b k
    · refine ⟨fun _ => ⟨k, t, ?_, h, Nat.le_refl _, ?_, hr⟩, fun hl => ?_⟩
      · rw [flTakeLoop, if_pos (by omega)]
      · by_cases e : k = 0
        · have := hc e
          rw [e, bufBytes_zero] at hr; omega
        · omega
      · have : ∀ m, bufBytes s.cfg b k ≤ bufBytes s.cfg b (k + m) := fun m => by
          induction m with
          | zero => exact Nat.le_refl _
          | succ m ihm => rw [← Nat.add_assoc, bufBytes_succ]; omega
        have := this (n + 1)
        rw [hn] at this
        omega
    · have ho : ((t.fl j).slot (t.fl j).cidx).own = .posted (b k) := by
        rw [h.slot hs (by omega)]; exact hb k (by omega)
      have e : flTakeLoop j len (n + 1) (len - bufBytes s.cfg b k) (.refs (frameParts s.cfg b len k)) k t =
          flTakeLoop j len n (len - bufBytes s.cfg b (k + 1)) (.refs (frameParts s.cfg b len (k + 1))) (k + 1)
            (flTaken j .empty (t.emit (.unmap (.rx (b k).buf)))) := by
        rw [flTakeLoop, if_neg (by omega)]
        simp only [ho]
        rw [if_neg (by rw [h.cfg]; rintro ⟨e0, e1, e2⟩; subst e0; exact (hc rfl).2 ⟨e1, e2⟩)]
        rw [frameParts_succ, bufBytes_succ, h.cfg]
        show flTakeLoop j len n (_ - min _ _) (.refs (_ ++ [_])) _ _ = _
        congr 1
        omega
      have := ih (k + 1) (h.next (by omega) (by omega)) (by omega) (fun e => by omega)
      rw [e]
      refine ⟨fun hl => ?_, this.2⟩
      obtain ⟨m, u, m1, m2, m3, m4⟩ := this.1 hl
      exact ⟨m, u, m1, m2, by omega, m4⟩

theorem Spanning.zero {j len : Nat} {b : Nat → RxBuf} {s : State} (h : (s.fl j).Law) : Spanning j len b s 0 s :=
  ⟨Taken.zero h, by simp [unmaps], fun i hi => absurd hi (by omega), rfl, rfl, fun h => absurd rfl h⟩

/-- A short frame is copied from one buffer, which is retained (R250). -/
theorem flTake_copy {j len : Nat} {b : RxBuf} {s : State} (hl : 1 ≤ len) (hp : 1 ≤ (s.fl j).published)
    (hb : ((s.fl j).slot (s.fl j).cidx).own = .posted b) (ht : len ≤ s.cfg.rxCopyThresh) (hs : len ≤ classSize s.cfg b.bcls) :
    flTake j len s = .done (.copy (s.readBytes b.addr len), 1) (flTaken j (.retained b) s) := by
  unfold flTake
  obtain ⟨n, e⟩ : ∃ n, (s.fl j).published = n + 1 := ⟨(s.fl j).published - 1, by omega⟩
  rw [e, flTakeLoop, if_neg (by omega)]
  simp only [hb]
  rw [if_pos ⟨trivial, ht, hs⟩, Nat.min_eq_left hs, Nat.sub_self]
  cases n <;> rw [flTakeLoop, if_pos rfl]

end Sys2Proof.Machine
end

