-- ==== Sys2Proof/Laws/Turn.lean ====
section
/-! SUPPORT. One turn of EQ_TX (R280): the loop after a packet is the loop of the limit that is left, so EQ_TX goes on from the
state one packet leaves. -/

namespace Sys2Proof.Machine

/-- The record of EQ `j` is listed in its place, so writing it back changes nothing. -/
def Placed (j : Nat) (s : State) : Prop := s.setEq j (s.eq j) = s

theorem placed_setEq (j : Nat) (s : State) (e : EQ) : Placed j (s.setEq j e) := by
  unfold Placed
  rw [State.setEq_same]
  simp only [State.setEq, Tab.put_put]

theorem placed_of_eqs {j : Nat} {s t : State} (h : Placed j s) (he : t.eqs = s.eqs) : Placed j t := by
  have h1 : Tab.put s.eqs j (s.eq j) = s.eqs := congrArg State.eqs h
  unfold Placed State.setEq
  rw [show t.eq j = s.eq j by simp only [State.eq, he], he, h1, ← he]

theorem placed_closed (j : Nat) : ClosedEq j (Placed j) where
  emit _ _ h := placed_of_eqs h rfl
  writeFlit _ _ _ h := placed_of_eqs h rfl
  drew _ _ _ _ _ h := placed_of_eqs h rfl
  draws _ _ h := placed_of_eqs h rfl
  setEq s e _ _ := placed_setEq j s e
  setSrc _ _ h := placed_of_eqs h rfl
  setPeerEq _ _ h := placed_of_eqs h rfl

/-- Writing a field back with the value it has changes nothing. -/
theorem Placed.write {j : Nat} {s : State} (h : Placed j s) {e : EQ} (he : e = s.eq j) : s.setEq j e = s := he ▸ h

/-- EQ_TX with credit to spare is its transmit part (R280). -/
theorem exec_eqTx (q : Qid) (limit : BitVec 32) (s : State) (hr : (s.eq q.toNat).st = .run)
    (hc : s.cfg.txLowCredit ≤ (s.eq q.toNat).avail) : exec (.eqTx q limit) s =
    let r := txRun q.toNat limit.toNat (s.setEq q.toNat { s.eq q.toNat with resumeReq := false })
    .next (r.2.finish r.1.1 r.1.2) := by
  show execEqTx q limit s = _
  unfold execEqTx
  dsimp only
  rw [if_pos hr]
  have : txReclaim q.toNat (s.setEq q.toNat { s.eq q.toNat with resumeReq := false }) =
      .done () (s.setEq q.toNat { s.eq q.toNat with resumeReq := false }) := by
    unfold txReclaim
    rw [State.setEq_same, if_neg (by show ¬ _ < _; exact Nat.not_lt.2 hc)]
  rw [this]
  rfl

/-! ### The loop -/

/-- One packet sent before a run of the loop. -/
def TxEnd.bump (e : TxEnd) : TxEnd := { e with sent := e.sent + 1 }

/-- The loop after one packet is the loop of the limit that is left, one packet counted. -/
theorem txLoop_shift {j b c : Nat} (h : b = 0 ∧ c = 0 ∨ b = c + 1 ∧ c ≠ 0) (f : Nat) (p : Option Packet) (n : Nat) (s : State) :
    txLoop j b f p (n + 1) s = (txLoop j c f p n s).bump := by
  induction f generalizing p n s with
  | zero => cases p <;> rfl
  | succ f ih =>
    cases p with
    | none => rfl
    | some p =>
      have hc : (b = 0 ∨ n + 1 < b) = (c = 0 ∨ n < c) := propext ⟨fun h => by omega, fun h => by omega⟩
      unfold txLoop
      simp only [hc]
      split
      · cases txOne j p s with
        | dropped t => exact ih _ n _
        | coalesced t => exact ih _ (n + 1) _
        | sent t => exact ih _ (n + 1) _
        | stalled m p t => rfl
      · rfl

/-- The packet loop from state `v` on, with `n` packets sent: it takes a packet and has a turn for every one there can be. -/
def txFrom (j limit n : Nat) (v : State) : TxEnd :=
  let t := takePacket j v
  txLoop j limit ((t.2.src j).length + 1) t.1 n t.2

theorem txFrom_shift {j b c : Nat} (h : b = 0 ∧ c = 0 ∨ b = c + 1 ∧ c ≠ 0) (n : Nat) (v : State) :
    txFrom j b (n + 1) v = (txFrom j c n v).bump := txLoop_shift h _ _ _ _

/-- At its limit the loop keeps the packet it took. -/
theorem txFrom_limit {j : Nat} {v : State} (hp : Placed j v) :
    txFrom j 1 1 v = { sent := 1, stall := none, s := eqHold j (takePacket j v).1 (takePacket j v).2 } := by
  unfold txFrom
  dsimp only
  cases ht : (takePacket j v).1 with
  | some p => unfold txLoop; simp
  | none =>
    have h1 : ((takePacket j v).2.eq j).held = none := by
      unfold takePacket at ht ⊢
      split at ht
      · cases ht
      · rename_i hh; exact hh
    have h2 : eqHold j none (takePacket j v).2 = (takePacket j v).2 := by
      refine ((placed_closed j).takePacket hp).write ?_
      rw [← h1]
    rw [h2]
    cases (((takePacket j v).2.src j).length + 1) <;> rfl

/-- With an empty register the loop starts by taking a packet. -/
theorem txPackets_empty {j limit : Nat} {v : State} (hv : (v.eq j).sgl.valid = false) :
    txPackets j limit (txFirst j v) = txFrom j limit 0 v := by
  rw [(txFirst_cases j v).2.1 hv]
  rfl

/-! ### Going on -/

/-- If the packets of a run of EQ_TX on `s` are one and then those of the loop from `v` on, EQ_TX goes on from `v`. -/
theorem txGoesOn {q : Qid} {limit : BitVec 32} {s v : State} (hr : (s.eq q.toNat).st = .run)
    (hc : s.cfg.txLowCredit ≤ (s.eq q.toNat).avail)
    (h : ∀ l, txPackets q.toNat l (txFirst q.toNat (s.setEq q.toNat { s.eq q.toNat with resumeReq := false })) =
      txFrom q.toNat l 1 v)
    (hp : Placed q.toNat v) (hv : (v.eq q.toNat).sgl.valid = false) (hrr : (v.eq q.toNat).resumeReq = false)
    (hvr : (v.eq q.toNat).st = .run) (hvc : v.cfg = s.cfg) : TxGoesOn q limit s v := by
  refine ⟨fun h1 hlow => ?_, fun h1 => ?_⟩
  · refine ⟨_, exec_eqTx q _ v hvr (hvc ▸ hlow), ?_⟩
    rw [exec_eqTx q _ s hr hc]
    have e : v.setEq q.toNat { v.eq q.toNat with resumeReq := false } = v := hp.write (by rw [← hrr])
    have hl : limit.toNat = 0 ∧ (if limit = 0 then (0 : BitVec 32) else limit - 1).toNat = 0 ∨
        limit.toNat = (if limit = 0 then (0 : BitVec 32) else limit - 1).toNat + 1 ∧
          (if limit = 0 then (0 : BitVec 32) else limit - 1).toNat ≠ 0 := by
      split
      · rename_i h0; subst h0; exact .inl ⟨rfl, rfl⟩
      · right; bv_omega
    simp only [e, txRun, h, txPackets_empty hv, txFrom_shift hl 0 v]
    simp [TxEnd.bump, State.finish, BitVec.ofNat_add]
  · subst h1
    rw [exec_eqTx q _ s hr hc]
    have ht := txFrom_limit hp
    simp only [txRun, h]
    rw [show (BitVec.toNat 1 : Nat) = 1 from rfl, ht]
    rfl

/-- If the packets of a run of EQ_TX on `s` are those of a run on `v`, EQ_TX on `s` is EQ_TX on `v`. -/
theorem eqTx_same {q : Qid} {limit : BitVec 32} {s v : State} (hr : (s.eq q.toNat).st = .run)
    (hc : s.cfg.txLowCredit ≤ (s.eq q.toNat).avail)
    (h : ∀ l, txPackets q.toNat l (txFirst q.toNat (s.setEq q.toNat { s.eq q.toNat with resumeReq := false })) =
      txPackets q.toNat l (txFirst q.toNat v))
    (hp : Placed q.toNat v) (hrr : (v.eq q.toNat).resumeReq = false) (hvr : (v.eq q.toNat).st = .run)
    (hvc : v.cfg.txLowCredit ≤ (v.eq q.toNat).avail) : exec (.eqTx q limit) s = exec (.eqTx q limit) v := by
  have e : v.setEq q.toNat { v.eq q.toNat with resumeReq := false } = v := hp.write (by rw [← hrr])
  rw [exec_eqTx q _ s hr hc, exec_eqTx q _ v hvr hvc, e]
  simp only [txRun, h]

/-! ### What the parts of a turn leave alone -/

/-- What the parts of a turn of R280 keep between two packets: the state and the requests of the queue, its held packet, the
packet source, the parameters and the result register. -/
structure Steady (j : Nat) (s t : State) : Prop where
  placed : Placed j s → Placed j t
  st     : (t.eq j).st = (s.eq j).st
  held   : (t.eq j).held = (s.eq j).held
  resume : (t.eq j).resumeReq = (s.eq j).resumeReq
  src    : t.src j = s.src j
  cfg    : t.cfg = s.cfg
  res    : t.res = s.res

theorem Steady.refl (j : Nat) (s : State) : Steady j s s := ⟨id, rfl, rfl, rfl, rfl, rfl, rfl⟩

section steady
variable {j : Nat} {s t : State} (h : Steady j s t)
include h

theorem Steady.setEq {e : EQ} (h1 : e.st = (t.eq j).st) (h2 : e.held = (t.eq j).held) (h3 : e.resumeReq = (t.eq j).resumeReq) :
    Steady j s (t.setEq j e) :=
  ⟨fun _ => placed_setEq j t e, by rw [State.setEq_same, h1, h.st], by rw [State.setEq_same, h2, h.held],
    by rw [State.setEq_same, h3, h.resume], h.src, h.cfg, h.res⟩

/-- An update that touches none of what is kept. -/
theorem Steady.keep {u : State} (h1 : u.eqs = t.eqs) (h2 : u.host.src = t.host.src) (h3 : u.cfg = t.cfg) (h4 : u.res = t.res) :
    Steady j s u := by
  have e : u.eq j = t.eq j := by simp only [State.eq, h1]
  refine ⟨fun hp => placed_of_eqs (h.placed hp) h1, ?_, ?_, ?_, ?_, h3.trans h.cfg, h4.trans h.res⟩
  · rw [e, h.st]
  · rw [e, h.held]
  · rw [e, h.resume]
  · show Tab.get _ u.host.src j = _
    rw [h2]; exact h.src

theorem Steady.wflits (f : Nat) (l : List Flit) : Steady j s (wflits j f l t) := by
  induction l generalizing f t with
  | nil => exact h
  | cons v l ih => exact ih (h.keep (u := wflit j f v t) rfl rfl rfl rfl) _

theorem Steady.eqCommit (n m : Nat) : Steady j s (eqCommit j n m t) := h.setEq rfl rfl rfl
theorem Steady.eqMapCommit : Steady j s (eqMapCommit j t) := h.setEq rfl rfl rfl
theorem Steady.eqStats (f : EqStats → EqStats) : Steady j s (eqStats j f t) := h.setEq rfl rfl rfl
theorem Steady.sglConsume : Steady j s (sglConsume j t) := h.setEq rfl rfl rfl
theorem Steady.emit (e : Effect) : Steady j s (t.emit e) := h.keep rfl rfl rfl rfl
theorem Steady.eqDrop (p : Packet) : Steady j s (eqDrop j p t) := (h.emit _).eqStats _

theorem Steady.sglRelease : Steady j s (sglRelease j t) := by
  unfold Machine.sglRelease
  dsimp only
  split
  · exact (h.emit _).setEq rfl rfl rfl
  · exact h.setEq rfl rfl rfl

theorem Steady.mapLoad (p : Packet) : Steady j s (t.mapLoad p).2 := h.keep rfl rfl rfl rfl
theorem Steady.compact (p : Packet) : Steady j s (t.compact p).2 := h.keep rfl rfl rfl rfl
theorem Steady.sglLoad (p : Packet) (l : List Segment) : Steady j s (sglLoad j p l t) := h.setEq rfl rfl rfl

theorem Steady.sglBuildPkt (p : Packet) : Steady j s (sglBuildPkt j p t).s := by
  unfold Machine.sglBuildPkt
  split
  · exact h
  · dsimp only
    split
    · exact (h.mapLoad p).sglLoad _ _
    · exact h.mapLoad p
    · have h1 := ((h.mapLoad p).eqStats (fun c => { c with defrags := c.defrags + 1 })).compact p
      split
      · exact h1.eqDrop p
      · rename_i p' _
        unfold sglRetry
        dsimp only
        split
        · exact (h1.mapLoad p').sglLoad _ _
        · exact (h1.mapLoad p').eqDrop p'
        · exact h1.mapLoad p'

theorem Steady.eqDoorbell (b : Bool) : Steady j s (eqDoorbell j b t).2 := by
  unfold Machine.eqDoorbell
  dsimp only
  split
  · exact h
  · exact (h.keep (u := (t.emit .barrier).kdbEq j (t.eq j).pending) rfl rfl rfl rfl).setEq rfl rfl rfl

theorem Steady.sendSgl (l : List Flit) (n : Nat) (c : EqStats → EqStats) : Steady j s (sendSgl j l n c t) :=
  ((((h.wflits _ _).eqMapCommit).eqCommit _ _).eqStats _).sglConsume

theorem Steady.writePkt : Steady j s (writePkt j t).2 := by
  unfold Machine.writePkt
  dsimp only
  split
  · exact h
  · exact h.sendSgl _ _ _

theorem Steady.writeLso (l : Lso) : Steady j s (writeLso j l t).2 := by
  unfold Machine.writeLso
  dsimp only
  split
  · exact h
  · exact h.sendSgl _ _ _

theorem Steady.writeOne : Steady j s (writeOne j t).2 := by
  unfold Machine.writeOne
  split
  · exact h.writePkt
  · exact h.writeLso _

theorem Steady.writeImm (p : Packet) : Steady j s (writeImm j p t).2 := by
  unfold Machine.writeImm
  dsimp only
  split
  · exact h
  · dsimp only
    exact (((h.wflits _ _).eqCommit _ _).emit _).eqStats _

theorem Steady.txpktsJoin : Steady j s (txpktsJoin j t) := by
  have h1 := (h.wflits (batchBase (t.eq j)).cur (partWr (t.eq j).sgl.pkt (t.eq j).sgl.segs)).eqMapCommit
  unfold Machine.txpktsJoin
  dsimp only
  generalize Machine.eqMapCommit j _ = u at h1 ⊢
  exact ((h1.setEq (e := { u.eq j with batch := batchJoined (t.eq j) }) rfl rfl rfl).eqStats _).sglConsume

theorem Steady.txpktsAdd : Steady j s (txpktsAdd j t).2 := by
  unfold Machine.txpktsAdd
  split
  · exact h.txpktsJoin
  · exact h

theorem Steady.batchClear : Steady j s (batchClear j t) :=
  (h.keep (u := t.freshCur.2) rfl rfl rfl rfl).setEq rfl rfl rfl

theorem Steady.txpktsFlush : Steady j s (txpktsFlush j t).2 := by
  unfold Machine.txpktsFlush
  dsimp only
  split
  · have h1 := ((h.wflits (Config.slotFlits * (t.eq j).pidx) (batchHdr (t.eq j).batch)).eqCommit (t.eq j).batch.nflits
      (t.eq j).batch.nmaps).eqStats (fun c => { c with
        txpktsWrs := c.txpktsWrs + 1, txpktsPkts := c.txpktsPkts + BitVec.ofNat 64 (t.eq j).batch.npkt })
    exact h1.batchClear
  · exact h

theorem Steady.flushFirst : Steady j s (flushFirst j t) := by
  unfold Machine.flushFirst
  split
  · exact h.txpktsFlush.eqDoorbell _
  · exact h

end steady

theorem Steady.coalescing {j : Nat} {s t : State} (h : Steady j s t) (hb : (t.eq j).batch = (s.eq j).batch) :
    coalescing j t = coalescing j s := by
  unfold Machine.coalescing State.peek
  rw [hb, h.src]

/-! ### The parts of a turn -/

/-- A packet sent leaves the SGL register empty. -/
theorem writeOne_empty {j : Nat} {s : State} {n : Nat} (h : (writeOne j s).1 = some n) : ((writeOne j s).2.eq j).sgl.valid = false := by
  unfold writeOne at h ⊢
  split at h
  · unfold writePkt at h ⊢; dsimp only at h ⊢
    split at h
    · cases h
    · rename_i _ hn; simp only [if_neg hn]; rw [sendSgl_eq]
  · unfold writeLso at h ⊢; dsimp only at h ⊢
    split at h
    · cases h
    · rename_i _ hn; simp only [if_neg hn]; rw [sendSgl_eq]

theorem eqDrop_sgl (j : Nat) (p : Packet) (t : State) : ((eqDrop j p t).eq j).sgl = (t.eq j).sgl := by
  show ((eqStats j _ _).eq j).sgl = _
  rw [eqStats_eq]; rfl

theorem eqDrop_avail (j : Nat) (p : Packet) (t : State) : ((eqDrop j p t).eq j).avail = (t.eq j).avail := by
  show ((eqStats j _ _).eq j).avail = _
  rw [eqStats_eq]; rfl

/-- What building a packet leaves of the queue, by how it ended (R362). -/
theorem sglBuildPkt_cases (j : Nat) (p : Packet) (t : State) :
    ((sglBuildPkt j p t).s.eq j).avail = (t.eq j).avail ∧ ((sglBuildPkt j p t).s.eq j).batch = (t.eq j).batch ∧
    ((sglBuildPkt j p t).rc = .ok → ((sglBuildPkt j p t).s.eq j).sgl.valid = true ∧
      ((sglBuildPkt j p t).s.eq j).sgl.pkt = (sglBuildPkt j p t).pkt) ∧
    ((sglBuildPkt j p t).rc = .dropped → ((sglBuildPkt j p t).s.eq j).sgl = (t.eq j).sgl) ∧
    ((sglBuildPkt j p t).rc = .ok ∨ (sglBuildPkt j p t).rc = .dropped ∨ (sglBuildPkt j p t).rc = .noMap) := by
  unfold sglBuildPkt
  split
  · refine ⟨rfl, rfl, ?_, ?_, .inr (.inr rfl)⟩ <;> intro h <;> cases h
  · dsimp only
    split
    · have e : ∀ l u, (sglLoad j p l u).eq j =
          { u.eq j with sgl := { valid := true, mapHeld := true, pkt := p, segs := l } } := fun l u => State.setEq_same _ _ _
      refine ⟨by rw [e]; rfl, by rw [e]; rfl, fun _ => by rw [e]; exact ⟨rfl, rfl⟩, fun h => (by cases h),
            .inl rfl⟩
    · refine ⟨rfl, rfl, ?_, ?_, .inr (.inr rfl)⟩ <;> intro h <;> cases h
    · have e : (((eqStats j (fun c => { c with defrags := c.defrags + 1 }) (t.mapLoad p).2).compact p).2.eq j) =
          { t.eq j with stats := { (t.eq j).stats with defrags := (t.eq j).stats.defrags + 1 } } := by
        rw [compact_eq, eqStats_eq]; rfl
      generalize ((eqStats j (fun c => { c with defrags := c.defrags + 1 }) (t.mapLoad p).2).compact p) = c at e ⊢
      split
      · refine ⟨by rw [eqDrop_avail, e], ?_, fun h => by (cases h), fun _ => by rw [eqDrop_sgl, e], .inr (.inl rfl)⟩
        show ((eqStats j _ _).eq j).batch = _
        rw [eqStats_eq, State.emit_get_eq, e]
      · rename_i p' _
        unfold sglRetry
        dsimp only
        split
        · have e2 : ∀ l u, (sglLoad j p' l u).eq j =
              { u.eq j with sgl := { valid := true, mapHeld := true, pkt := p', segs := l } } := fun l u => State.setEq_same _ _ _
          have e3 : ((c.2.mapLoad p').2.eq j) = c.2.eq j := rfl
          refine ⟨by rw [e2, e3, e], by rw [e2, e3, e], fun _ => by rw [e2]; exact ⟨rfl, rfl⟩, fun h => (by cases h),
            .inl rfl⟩
        · have e3 : ((c.2.mapLoad p').2.eq j) = c.2.eq j := rfl
          refine ⟨by rw [eqDrop_avail, e3, e], ?_, fun h => (by cases h), fun _ => by rw [eqDrop_sgl, e3, e], .inr (.inl rfl)⟩
          show ((eqStats j _ _).eq j).batch = _
          rw [eqStats_eq, State.emit_get_eq, e3, e]
        · have e3 : ((c.2.mapLoad p').2.eq j) = c.2.eq j := rfl
          refine ⟨by rw [e3, e], by rw [e3, e], ?_, ?_, .inr (.inr rfl)⟩ <;> intro h <;> cases h

/-- What taking a packet leaves of the queue. -/
theorem takePacket_cases {j : Nat} {s t : State} {m : Packet} (h : takePacket j s = (some m, t)) :
    (t.eq j).held = none ∧ (t.eq j).st = (s.eq j).st ∧ (t.eq j).resumeReq = (s.eq j).resumeReq ∧ t.cfg = s.cfg ∧
    t.res = s.res ∧ (Placed j s → Placed j t) ∧ (t.eq j).sgl = (s.eq j).sgl ∧ (t.eq j).avail = (s.eq j).avail ∧
    (t.eq j).batch = (s.eq j).batch := by
  unfold takePacket at h
  split at h
  · cases h
    have e : (eqHold j none s).eq j = { s.eq j with held := none } := State.setEq_same _ _ _
    rw [e]
    exact ⟨rfl, rfl, rfl, rfl, rfl, fun _ => placed_setEq _ _ _, rfl, rfl, rfl⟩
  · rename_i hh
    have e : t = (s.dequeue j).2 := by rw [h]
    subst e
    exact ⟨hh, rfl, rfl, rfl, rfl, fun hp => placed_of_eqs hp rfl, rfl, rfl, rfl⟩

/-! ### Turns enough -/

section steady
variable {j : Nat} {s t : State} (h : Steady j s t)
include h

theorem Steady.txSingle (p : Packet) : Steady j s (txSingle j p t).state := by
  have h1 := h.flushFirst.writeOne
  unfold Machine.txSingle
  dsimp only
  split <;> exact h1

theorem Steady.txBuilt (c : Bool) (p : Packet) : Steady j s (txBuilt j c p t).state := by
  unfold Machine.txBuilt
  dsimp only
  split
  · split
    · exact h.txpktsAdd
    · exact h.txpktsAdd.txSingle p
  · exact h.txSingle p

theorem Steady.txSgl (c : Bool) (p : Packet) : Steady j s (txSgl j c p t).state := by
  have h1 := h.sglBuildPkt p
  unfold Machine.txSgl
  dsimp only
  split
  · exact h1.txBuilt _ _
  · split <;> exact h1

end steady

/-- One turn of R280 takes nothing from the source but a `glance`. -/
theorem txOne_src (j : Nat) (p : Packet) (s : State) : ((txOne j p s).state.src j).length ≤ (s.src j).length := by
  have hp : ((s.peek j).2.src j).length ≤ (s.src j).length := by
    show ((State.setSrc _ _ _).src j).length ≤ _
    rw [State.setSrc_get, if_pos rfl]; exact peekSrc_length _
  have h := Steady.refl j (s.peek j).2
  unfold txOne
  dsimp only
  split
  · split
    · have h1 := h.writeImm p
      split <;> exact (congrArg List.length h1.src).trans_le hp
    · exact (congrArg List.length (h.txSgl _ _).src).trans_le hp
  · exact Nat.le_of_eq (congrArg List.length ((Steady.refl j s).eqDrop p).src)

/-- A packet taken leaves fewer items. -/
theorem dequeue_length {j : Nat} {s : State} (h : (s.dequeue j).1 ≠ none) : ((s.dequeue j).2.src j).length < (s.src j).length := by
  show ((State.setSrc _ _ _).src j).length < _
  rw [State.setSrc_get, if_pos rfl]; exact dequeueSrc_length h

/-- A loop with a turn for every item of the source has turns enough: more change nothing (R280, log entry 11). -/
theorem txLoop_fuel {j limit : Nat} (f g : Nat) (p : Option Packet) (n : Nat) (s : State) (hf : (s.src j).length < f)
    (hg : (s.src j).length < g) : txLoop j limit f p n s = txLoop j limit g p n s := by
  induction f generalizing g p n s with
  | zero => omega
  | succ f ih =>
    obtain ⟨g, rfl⟩ : ∃ k, g = k + 1 := ⟨g - 1, by omega⟩
    cases p with
    | none => rfl
    | some p =>
      have go : ∀ (u : State) (m : Nat), (u.src j).length ≤ (s.src j).length →
          txLoop j limit f (u.dequeue j).1 m (u.dequeue j).2 = txLoop j limit g (u.dequeue j).1 m (u.dequeue j).2 := by
        intro u m hu
        by_cases hd : (u.dequeue j).1 = none
        · rw [hd]; cases f <;> cases g <;> rfl
        · have := dequeue_length hd
          exact ih g _ m _ (by omega) (by omega)
      have h1 := txOne_src j p s
      unfold txLoop
      split
      · cases ht : txOne j p s with
        | dropped u => rw [ht] at h1; exact go u _ h1
        | coalesced u => rw [ht] at h1; exact go u _ h1
        | sent u =>
          rw [ht] at h1
          exact go _ _ (by rw [((Steady.refl j u).eqDoorbell false).src]; exact h1)
        | stalled b q u => rfl
      · rfl

/-- A loop that dequeues and has a turn for each item of the source is the loop from there. -/
theorem txFrom_dequeue {j limit n m : Nat} {v : State} (hh : (v.eq j).held = none) (hm : (v.src j).length ≤ m) :
    txLoop j limit m (v.dequeue j).1 n (v.dequeue j).2 = txFrom j limit n v := by
  unfold txFrom takePacket
  simp only [hh]
  by_cases hd : (v.dequeue j).1 = none
  · rw [hd]; cases m <;> rfl
  · have := dequeue_length hd
    exact txLoop_fuel _ _ _ _ _ (by omega) (by omega)

/-- The first turn of the loop. -/
theorem txLoop_turn (j l : Nat) (t : State) (m : Packet) :
    txLoop j l ((t.src j).length + 1) (some m) 0 t =
      match txOne j m t with
      | .dropped u => txLoop j l (t.src j).length (u.dequeue j).1 0 (u.dequeue j).2
      | .coalesced u => txLoop j l (t.src j).length (u.dequeue j).1 1 (u.dequeue j).2
      | .sent u => let v := (eqDoorbell j false u).2; txLoop j l (t.src j).length (v.dequeue j).1 1 (v.dequeue j).2
      | .stalled nm p u => { sent := 0, stall := some nm, s := eqHold j (some p) (sglRelease j u) } := by
  rw [txLoop, if_pos (by omega)]
  all_goals cases txOne j m t <;> rfl

/-- With an empty register the loop starts with the packet it takes. -/
theorem txPackets_take {j l : Nat} {s0 s1 : State} {m : Packet} (hv : (s0.eq j).sgl.valid = false)
    (ht : takePacket j s0 = (some m, s1)) :
    txPackets j l (txFirst j s0) = txLoop j l ((s1.src j).length + 1) (some m) 0 s1 := by
  rw [txPackets_empty hv]; unfold txFrom; rw [ht]

/-! ### The packet of the register -/

/-- Flushing the open batch before a WR leaves the register, and no batch open. -/
theorem flushFirst_keeps (j : Nat) (u : State) : ((flushFirst j u).eq j).sgl = (u.eq j).sgl ∧
    ((flushFirst j u).eq j).batch.accepting = false := by
  unfold flushFirst
  split
  · refine ⟨(congrArg Prod.fst (eqDoorbell_kept j false (txpktsFlush j u).2)).trans
      (congrArg Prod.fst (txpktsFlush_kept j u)), ?_⟩
    have : ((eqDoorbell j false (txpktsFlush j u).2).2.eq j).batch = ((txpktsFlush j u).2.eq j).batch := by
      rw [eqDoorbell_eq]; split <;> rfl
    rw [this]; exact txpktsFlush_closed _ _
  · rename_i hh; exact ⟨rfl, by simpa using hh⟩

/-- TXPKTS_ADD on a running queue with a packet in its register (R391). -/
theorem exec_txpktsAdd {q : Qid} {u : State} (hr : (u.eq q.toNat).st = .run) (hv : (u.eq q.toNat).sgl.valid = true) :
    exec (.txpktsAdd q) u = .next (if (txpktsAdd q.toNat u).1 then
      (txpktsAdd q.toNat u).2.finish .ok ((txpktsAdd q.toNat u).2.eq q.toNat).batch.npkt
      else (txpktsAdd q.toNat u).2.finish .reject 0) := by
  show execTxpktsAdd q u = _
  unfold execTxpktsAdd
  dsimp only
  rw [if_pos ⟨hr, hv⟩]

/-- EQ_WR_PKT or EQ_WR_LSO, by the kind of the packet in the register of a running queue with no batch open (R285, R288). -/
theorem exec_writeOne {q : Qid} {u : State} (hr : (u.eq q.toNat).st = .run) (hb : (u.eq q.toNat).batch.accepting = false)
    (hv : (u.eq q.toNat).sgl.valid = true) :
    exec (if (u.eq q.toNat).sgl.pkt.lso = none then .eqWrPkt q else .eqWrLso q) u = .next (wrResult q.toNat (writeOne q.toNat u)) := by
  unfold writeOne
  split
  · rename_i hl
    show execEqWrPkt q u = _
    unfold execEqWrPkt
    dsimp only
    rw [if_pos ⟨hr, hb, hv, by rw [hl]; rfl⟩, hl]
  · rename_i hl
    obtain ⟨o, ho⟩ := Option.ne_none_iff_exists'.mp hl
    show execEqWrLso q u = _
    unfold execEqWrLso
    simp only [ho]
    rw [if_pos ⟨hr, hb, hv⟩]

/-- A turn on the packet of a register is one of the commands `TxRegisterGoes` names, if the packets of EQ_TX on `s` are that
packet and then those of the loop behind it. -/
theorem txRegisterGoes {q : Qid} {limit : BitVec 32} {s u : State} {coal : Bool} (hst : (s.eq q.toNat).st = .run)
    (hc : s.cfg.txLowCredit ≤ (s.eq q.toNat).avail) (hr : (u.eq q.toNat).st = .run) (hv : (u.eq q.toNat).sgl.valid = true)
    (hp : Placed q.toNat u) (hrr : (u.eq q.toNat).resumeReq = false) (hcfg : u.cfg = s.cfg) (hres : u.res = s.res)
    (hC : ∀ l v, txBuilt q.toNat coal (u.eq q.toNat).sgl.pkt u = .coalesced v → Steady q.toNat u v →
      txPackets q.toNat l (txFirst q.toNat (s.setEq q.toNat { s.eq q.toNat with resumeReq := false })) = txFrom q.toNat l 1 v)
    (hS : ∀ l v, txBuilt q.toNat coal (u.eq q.toNat).sgl.pkt u = .sent v → Steady q.toNat u v →
      txPackets q.toNat l (txFirst q.toNat (s.setEq q.toNat { s.eq q.toNat with resumeReq := false })) =
        txFrom q.toNat l 1 (eqDoorbell q.toNat false v).2) : TxRegisterGoes q limit s coal u := by
  have h0 := Steady.refl q.toNat u
  have back : ∀ (v : State) (rc : RC) (n : Nat), v.res = u.res → { v.finish rc n with res := s.res } = v := fun v rc n h => by
    rw [← hres, ← h]; rfl
  refine ⟨fun v hco hl hb hrc => ?_, fun v hco hb hrc => ?_⟩
  · rw [exec_txpktsAdd hr hv] at hb
    have hu := (Host.Outcome.next.inj hb).symm
    have ha : (txpktsAdd q.toNat u).1 = true := by
      by_contra hn
      rw [hu, if_neg hn] at hrc; cases hrc
    have h1 := h0.txpktsAdd
    rw [hu, if_pos ha]
    dsimp only
    rw [back _ _ _ h1.res]
    have hsg : ((txpktsAdd q.toNat u).2.eq q.toNat).sgl.valid = false := by
      unfold txpktsAdd at ha ⊢
      split
      · rw [txpktsJoin_eq]
      · rename_i hh; rw [if_neg hh] at ha; cases ha
    refine txGoesOn hst hc (fun l => hC l _ ?_ h1) (h1.placed hp) hsg (h1.resume.trans hrr) (h1.st.trans hr) (h1.cfg.trans hcfg)
    unfold txBuilt
    rw [hco, hl]
    simp only [Option.isNone_none, Bool.and_self, if_true, ha]
  · have hf := h0.flushFirst
    obtain ⟨hfs, hfb⟩ := flushFirst_keeps q.toNat u
    have hx := exec_writeOne (q := q) (u := flushFirst q.toNat u) (hf.st.trans hr) hfb (by rw [hfs]; exact hv)
    rw [hfs] at hx
    rw [hx] at hb
    have hu := (Host.Outcome.next.inj hb).symm
    cases hw : (writeOne q.toNat (flushFirst q.toNat u)).1 with
    | none => rw [hu] at hrc; unfold wrResult at hrc; rw [hw] at hrc; cases hrc
    | some n =>
      have h1 := hf.writeOne
      have hub : { v with res := s.res } = (writeOne q.toNat (flushFirst q.toNat u)).2 := by
        rw [hu]; unfold wrResult; rw [hw]; exact back _ _ _ h1.res
      show TxGoesOn q limit s (eqDoorbell q.toNat false { v with res := s.res }).2
      rw [hub]
      have hd := h1.eqDoorbell false
      have hsg : ((eqDoorbell q.toNat false (writeOne q.toNat (flushFirst q.toNat u)).2).2.eq q.toNat).sgl.valid = false := by
        have h2 := congrArg Prod.fst (eqDoorbell_kept q.toNat false (writeOne q.toNat (flushFirst q.toNat u)).2)
        exact (congrArg SglReg.valid h2).trans (writeOne_empty hw)
      refine txGoesOn hst hc (fun l => hS l _ ?_ h1) (hd.placed hp) hsg (hd.resume.trans hrr) (hd.st.trans hr) (hd.cfg.trans hcfg)
      have hs : txSingle q.toNat (u.eq q.toNat).sgl.pkt u = .sent (writeOne q.toNat (flushFirst q.toNat u)).2 := by
        unfold txSingle; dsimp only; rw [hw]
      unfold txBuilt
      by_cases hcl : (coal && (u.eq q.toNat).sgl.pkt.lso.isNone) = true
      · rw [if_pos hcl]
        rw [Bool.and_eq_true, Option.isNone_iff_eq_none] at hcl
        rcases hco with h | h | h
        · rw [hcl.1] at h; cases h
        · exact absurd hcl.2 h
        · have hna : (txpktsAdd q.toNat u).1 = false := by
            by_contra hn
            rw [exec_txpktsAdd hr hv, if_pos (by simpa using hn)] at h
            have := congrArg (fun x => x.res.rc) (Host.Outcome.next.inj h)
            cases this
          dsimp only
          rw [if_neg (by rw [hna]; simp), txpktsAdd_false hna, hs]
      · rw [if_neg hcl, hs]

end Sys2Proof.Machine
end

