-- ==== Sys2Proof/Tests/Slice0.lean ====
section
/-! SUPPORT. The model's own tests. Expected values are the vectors of 95_test_vectors.md, named in each comment, or worked
out by hand from the rule cited. -/

namespace Sys2Proof.Tests

-- one test at a time, so that the kernel evaluations do not each hold a thread
set_option Elab.async false

open Sys2Proof.Machine

/-! ### WellFormed: each check refuses an ill-formed command (F-3, F-4, R141 to R144) -/

/-- A small block: four queues of each type (F-4). -/
def cfg4 : Config := { Config.default with niq := 4, nfl := 4, neq := 4 }

theorem test_wf_qid : Instr.wf cfg4 (.iqCheck 4#10) = false ∧ Instr.wf cfg4 (.flDoorbell 4#10 true) = false ∧
    Instr.wf cfg4 (.eqTx 4#10 0) = false ∧ Instr.wf cfg4 (.qStart 4#10 .eq) = false ∧
    Instr.wf cfg4 (.iqCheck 3#10) = true := by decide

theorem test_wf_mtu : Instr.wf cfg4 (.flSelect 0#10 70000#32) = false ∧ Instr.wf cfg4 (.flSelect 0#10 65535#32) = true := by
  decide

theorem test_wf_take : Instr.wf cfg4 (.flTake 0#10 0#32) = false ∧ Instr.wf cfg4 (.flTake 0#10 0x80000000#32) = false ∧
    Instr.wf cfg4 (.flTake 0#10 0x7FFFFFFF#32) = true := by decide

theorem test_wf_alloc_iq :
    Instr.wf cfg4 (.qAllocIq 1#10 .fwEvt 6#3 7#3 .b64 false 255#16 3#10) = false ∧
    Instr.wf cfg4 (.qAllocIq 1#10 .fwEvt 1#3 4#3 .b64 false 255#16 3#10) = false ∧
    Instr.wf cfg4 (.qAllocIq 1#10 .fwEvt 1#3 7#3 .b16 false 255#16 3#10) = false ∧
    Instr.wf cfg4 (.qAllocIq 1#10 .rx 1#3 7#3 .b32 false 255#16 3#10) = false ∧
    Instr.wf cfg4 (.qAllocIq 1#10 .fwEvt 1#3 7#3 .b64 false 0#16 3#10) = false ∧
    Instr.wf cfg4 (.qAllocIq 1#10 .intrFwd 5#3 3#3 .b16 false 1#16 3#10) = true := by decide

theorem test_wf_alloc_ring :
    Instr.wf cfg4 (.qAllocFl 0#10 0#16 1#10) = false ∧ Instr.wf cfg4 (.qAllocEq 0#10 0#16 1#10) = false ∧
    Instr.wf cfg4 (.qAllocEq 0#10 16384#16 1#10) = false ∧ Instr.wf cfg4 (.qAllocFl 0#10 65535#16 1#10) = true ∧
    Instr.wf cfg4 (.qAllocEq 0#10 16383#16 1#10) = true := by decide

/-! ### Decoding: the encoding vectors of 95_test_vectors.md section 9, both ways -/

/-- A word and the command it stands for. -/
def agrees (w : CmdWord) (i : Instr) : Bool := decide (decode Config.default w = .instr i) && decide (encode i = w)

theorem test_decode_ingress :
    agrees 0x0402000000000000#64 (.iqCheck 2#10) && agrees 0x0802000000000000#64 (.iqConsume 2#10) &&
    agrees 0x0C02000000000000#64 (.iqCredit 2#10) && agrees 0x1002000000000010#64 (.iqService 2#10 16#32) := by decide

theorem test_decode_freelist :
    agrees 0x20000000000005DC#64 (.flSelect 0#10 1500#32) && agrees 0x2400000000000046#64 (.flRefill 0#10 70#32) &&
    agrees 0x280000000000003C#64 (.flTake 0#10 60#32) && agrees 0x2C00000100000000#64 (.flDoorbell 0#10 true) := by decide

theorem test_decode_egress :
    agrees 0x4003000000000000#64 (.eqTx 3#10 0#32) && agrees 0x4403000000000000#64 (.eqWrPkt 3#10) &&
    agrees 0x4803000000000000#64 (.eqWrLso 3#10) && agrees 0x4C03000000000000#64 (.eqWrImm 3#10) &&
    agrees 0x5003000000000000#64 (.eqWrFlush 3#10) && agrees 0x5403000100000000#64 (.eqDoorbell 3#10 true) := by decide

theorem test_decode_reclaim_sgl_coalesce :
    agrees 0x6003000000000000#64 (.eqReclaimable 3#10) && agrees 0x64030001000003E8#64 (.eqReclaim 3#10 1#16 1000#32) &&
    agrees 0x7003000000000000#64 (.sglBuild 3#10) && agrees 0x740300000000001E#64 (.sglWrite 3#10 30#32) &&
    agrees 0x8003000000000000#64 (.txpktsAdd 3#10) && agrees 0x8403000000000000#64 (.txpktsFlush 3#10) := by decide

theorem test_decode_lifecycle :
    agrees 0xA00102E5000300FF#64 (.qAllocIq 1#10 .fwEvt 1#3 7#3 .b64 false 255#16 3#10) &&
    agrees 0xA40000000001003F#64 (.qAllocFl 0#10 63#16 1#10) && agrees 0xA80000000002007F#64 (.qAllocEq 0#10 127#16 2#10) &&
    agrees 0xAC03000200000000#64 (.qStart 3#10 .eq) && agrees 0xB003000200000000#64 (.qStop 3#10 .eq) &&
    agrees 0xB403000200000000#64 (.qFree 3#10 .eq) && agrees 0xB800000100000000#64 (.qTeardown 0#10 .fl) := by decide

/-- F-2 and F-3, each refused under its own name. -/
theorem test_decode_refuses :
    decode cfg4 0x0#64 = .rejected .reservedOpcode ∧ decode cfg4 0x1400000000000000#64 = .rejected .reservedOpcode ∧
    decode cfg4 0xFC00000000000000#64 = .rejected .reservedOpcode ∧
    decode cfg4 0x0400000100000000#64 = .rejected .reservedBits ∧
    decode cfg4 0x2C00000200000000#64 = .rejected .reservedBits ∧
    decode cfg4 0xAC00000300000000#64 = .rejected .reservedBits ∧
    decode cfg4 0xA00102E7000300FF#64 = .rejected .reservedBits ∧
    decode cfg4 0x0404000000000000#64 = .rejected .badQid ∧
    decode cfg4 0x2800000000000000#64 = .rejected .badOperand ∧
    decode cfg4 0x2000000000011170#64 = .rejected .badOperand ∧
    decode cfg4 0xA00102F9000300FF#64 = .rejected .badOperand := by decide

/-! ### Helpers for one step -/

/-- The state after a command, the same state if it did not answer a next state. -/
def ran (i : Instr) (s : State) : State :=
  match exec i s with
  | .next t => t
  | .fault _ => s
  | .refused _ => s

/-- The doorbell values written, oldest first. -/
def doorbells (r : Reg) (s : State) : List (BitVec 32) :=
  s.out.filterMap fun e => match e with
    | .regWrite r' v => if r' = r then some v else none
    | _ => none

/-- The flits written, oldest first. -/
def flitsWritten (s : State) : List Flit :=
  s.out.filterMap fun e => match e with
    | .memWrite _ v => some v
    | _ => none

/-- Flit `f` of the ring of `EQ[0]`. -/
def ringFlit (f : Nat) (s : State) : Flit := s.read64 (flitAddr (s.eq 0).base (s.eq 0).cap f)

def pkt (h len : Nat) : Packet := { noPacket with handle := h, len := BitVec.ofNat 32 len }

def seg (a len : Nat) : Segment := { addr := BitVec.ofNat 64 a, len := BitVec.ofNat 32 len }

/-- `EQ[0]` of 95_test_vectors.md section 4. -/
def eq0 : EQ :=
  { EQ.reset with
    st := .run, cntxtId := 0x40#17, base := 0x10000#64, cap := 128, avail := 127, statAddr := 0x12000#64
    txMaps := 256, mapAvail := 256 }

/-- `EQ[0]` with a packet loaded in its SGL register. -/
def eq0sgl (p : Packet) (segs : List Segment) : EQ :=
  { eq0 with sgl := { valid := true, mapHeld := true, pkt := p, segs := segs } }

/-- `IQ[0]` of section 2: firmware events. -/
def iq0 : IQ :=
  { IQ.reset with
    st := .run, cntxtId := 0x10#16, base := 0x20000#64, cap := 256, esize := 64, gen := true, role := .fwEvt
    pktcIdx := 7#3, creditBatch := 64 }

/-- `IQ[1]` of section 2: receive. -/
def iq1 : IQ :=
  { IQ.reset with
    st := .run, cntxtId := 0x11#16, base := 0x30000#64, cap := 1024, esize := 64, gen := true, role := .rx
    tmrIdx := 1#3, pktcIdx := 0#3, creditBatch := 256, fl := some 0 }

/-- `IQ[2]` of section 2: interrupt forwarding. -/
def iq2 : IQ :=
  { IQ.reset with
    st := .run, cntxtId := 0x12#16, base := 0x50000#64, cap := 64, esize := 64, gen := true, role := .intrFwd
    tmrIdx := 2#3, pktcIdx := 7#3, creditBatch := 16 }

/-- `FL[0]` of section 3. -/
def fl0 : FL :=
  { FL.reset with st := .run, cntxtId := 0x20#16, base := 0x60000#64, cap := 64, needed := 63, owner := 1 }

/-- A posted class-0 buffer. -/
def posted (h a : Nat) : FlSlot := { own := .posted { buf := h, addr := BitVec.ofNat 64 a, bcls := 0 }, mapCls := some 0 }

/-- Bytes as numbers, written to memory from an address on. -/
def poke (a : Nat) (l : List Nat) (s : State) : State :=
  s.setMem (Memory.setBytes s.mem (BitVec.ofNat 64 a) (l.map (BitVec.ofNat 8)))

/-- A 64-byte ingress entry: payload bytes 0 to 5, the word at bytes 52 to 55, byte 56. -/
def entry (a : Nat) (p : List Nat) (lenqid : List Nat) (typeGen : Nat) (s : State) : State :=
  poke (a + 56) [typeGen] (poke (a + 52) lenqid (poke a p s))

/-- All queues of sections 2 and 3 running, nothing in memory. -/
def base : State :=
  ((((State.reset.setIq 0 iq0).setIq 1 iq1).setIq 2 iq2).setFl 0 fl0).setEq 0 eq0

/-- The status word of `EQ[0]` with a consumer index (R106). -/
def withHw (c : Nat) (s : State) : State := poke 0x12004 [c / 256, c % 256] s

/-- Answers for HOST. -/
def hostMaps (l : List MapAnswer) (s : State) : State := s.setHost { s.host with mapLoad := l }

/-! ### Ingress -/

/-- IQ-1: the reserved bit 6 of byte 8 takes no part. -/
theorem test_iqCheck_new_and_stale :
    (ran (.iqCheck 0#10) (entry 0x20000 [] [] 0xD0 base)).res = { rc := .ok, value := 1 } ∧
    (ran (.iqCheck 0#10) (entry 0x20000 [] [] 0x10 base)).res = { rc := .empty, value := 0 } := by decide +kernel

/-- IQ-15. -/
theorem test_iqCheck_wrong_state :
    (ran (.iqCheck 0#10) (base.setIq 0 { iq0 with st := .reg })).res = { rc := .badCmd, value := 0 } := by decide +kernel

/-- IQ-5: a 60-byte frame is copied, its buffer retained, the metadata and counters set. -/
theorem test_iqConsume_copies_frame :
    let s := (entry 0x30000 [0x3B, 0x0A, 0x12, 0x34, 0x00, 0x64] [0x80, 0, 0, 0x3C] 0x80 base).setFl 0
      { fl0 with needed := 0, sd := [(0, posted 9 0x70000)] }
    let t := ran (.iqConsume 1#10) s
    (t.fl 0).slot 0 = { own := .retained { buf := 9, addr := 0x70000#64, bcls := 0 }, mapCls := some 0 } ∧
    (t.fl 0).cidx = 1 ∧ (t.fl 0).needed = 1 ∧ (t.iq 1).rxPkts = 1 ∧ (t.iq 1).rxcsum = 1 ∧ (t.iq 1).vlanExtraction = 1 ∧
    (t.iq 1).cidx = 1 ∧ (t.iq 1).ncons = 1 ∧ t.res = { rc := .ok, value := 0 } ∧
    t.out = [.deliver (.copy (List.replicate 60 0))
      (some { csumCalc := true, csum := 0x1234#16, vlanEx := true, vlan := 0x64#16 })] := by decide +kernel

/-- IQ-13: an unexpected type faults; RES and the cursor stay. -/
theorem test_iqConsume_faults :
    let s := (entry 0x50000 [] [] 0xB0 base).finish .ok 5
    let t := ran (.iqConsume 2#10) s
    t.fault = 0x80010002#32 ∧ t.res = { rc := .ok, value := 5 } ∧ t.iqs = s.iqs := by decide +kernel

/-- IQ-7: progress clears `flush_out` and asks for a resume. -/
theorem test_iqConsume_progress :
    let s := ((entry 0x20000 [0xA5, 0, 0, 0x40] [] 0x90 base).setQmap [(0x40, selEq 0)]).setEq 0
      { eq0 with stalled := true, flushOut := true }
    let t := ran (.iqConsume 0#10) s
    (t.eq 0).flushOut = false ∧ (t.eq 0).resumeReq = true ∧ (t.eq 0).avail = 127 ∧ t.out = [.resume 0] ∧
    t.res = { rc := .ok, value := 1 } := by decide +kernel

/-- IQ-8: a forwarded interrupt. -/
theorem test_iqConsume_forwards :
    let t := ran (.iqConsume 2#10) ((entry 0x50000 [] [0, 0, 0, 0x11] 0xA0 base).setQmap [(0x11, selIq 1)])
    (t.iq 1).svcReq = true ∧ (t.iq 2).cidx = 1 ∧ (t.iq 1).cidx = 0 ∧ t.res = { rc := .ok, value := 2 } := by decide +kernel

/-- IQ-3: a credit return, then a pure rearm. -/
theorem test_iqCredit :
    let t := ran (.iqCredit 2#10) (base.setIq 2 { iq2 with ncons := 5 })
    doorbells .gts t = [0x00124005#32] ∧ (t.iq 2).ncons = 0 ∧ t.res = { rc := .ok, value := 5 } ∧
    doorbells .gts (ran (.iqCredit 2#10) t) = [0x00124005#32, 0x00124000#32] := by decide +kernel

/-- IQ-9 and IQ-10: three replies, without and with a budget of two. -/
theorem test_iqService_budget :
    let r := fun k s => entry (0x20000 + 64 * k) [0xC0] [] 0x90 s
    let s := (r 0 (r 1 (r 2 base))).setIq 0 { iq0 with svcReq := true }
    let t := ran (.iqService 0#10 0#32) s
    let u := ran (.iqService 0#10 2#32) s
    doorbells .gts t = [0x00100003#32] ∧ (t.iq 0).cidx = 3 ∧ (t.iq 0).svcReq = false ∧ t.res = { rc := .ok, value := 3 } ∧
    doorbells .gts u = [0x00100002#32] ∧ (u.iq 0).cidx = 2 ∧ (u.iq 0).svcReq = true ∧ u.res = { rc := .ok, value := 2 } := by
  decide +kernel

/-- IQ-12: an empty RX queue is rearmed and its free list refilled. -/
theorem test_iqService_empty :
    let s := base.setFl 0 { fl0 with needed := 1, pidx := 5, sd := [(5, { own := .retained { buf := 3, addr := 0x70000#64, bcls := 0 }, mapCls := some 0 })] }
    let t := ran (.iqService 1#10 0#32) s
    doorbells .gts t = [0x00113000#32] ∧ (t.fl 0).pidx = 6 ∧ (t.fl 0).needed = 0 ∧ t.res = { rc := .empty, value := 0 } := by
  decide +kernel

/-! ### Free list -/

/-- FL-1. -/
theorem test_flSelect :
    ([1500, 4064, 9184, 9500].map fun m => (ran (.flSelect 0#10 (BitVec.ofNat 32 m)) base).res.value) = [0, 1, 2, 2] := by
  decide +kernel

/-- Answers for fresh buffers. -/
def hostBufs (l : List (Option Nat)) (s : State) : State :=
  s.setHost { s.host with mapCreate := [true, true, true], bufAlloc := l, bufMap := [some 0x70010#64, some 0x70020#64] }

/-- FL-4: the refill stops on exhaustion. -/
theorem test_flRefill_stops :
    let s := hostBufs [some 1, some 2, none] (base.setFl 0 { fl0 with needed := 10, pidx := 20, cidx := 30 })
    let t := ran (.flRefill 0#10 5#32) s
    (t.fl 0).pidx = 22 ∧ (t.fl 0).needed = 8 ∧ (t.fl 0).pending = 2 ∧ (t.fl 0).allocFail = 1 ∧
    ((t.fl 0).slot 22).own = .empty ∧ doorbells .kdb t = [] ∧ t.res = { rc := .noBuf, value := 2 } ∧
    flitsWritten t = [0x70010#64, 0x70020#64] := by decide +kernel

/-- FL-6: a retained buffer of a stale class is given back, and the slot filled with a fresh one of class 1. -/
theorem test_flRefill_reclass :
    let s := hostBufs [some 7] (base.setFl 0
      { fl0 with needed := 1, cls := 1, cidx := 1, sd := [(0, { own := .retained { buf := 3, addr := 0#64, bcls := 0 }, mapCls := some 0 })] })
    let t := ran (.flRefill 0#10 1#32) s
    t.out = [.unmap (.rx 3), .release (.rx 3), .mapCreate 1, .bufAlloc 1, .bufMap 7, .memWrite 0x60000#64 0x70011#64] ∧
    t.res = { rc := .ok, value := 1 } := by decide +kernel

/-- FL-7: a frame over three buffers. -/
theorem test_flTake_multi :
    let s := base.setFl 0 { fl0 with needed := 60, cidx := 10, sd := [(10, posted 1 0), (11, posted 2 0), (12, posted 3 0)] }
    let t := ran (.flTake 0#10 5000#32) s
    (t.fl 0).cidx = 13 ∧ (t.fl 0).needed = 63 ∧ ((t.fl 0).slot 12).own = .empty ∧ t.res = { rc := .ok, value := 3 } ∧
    t.out = [.unmap (.rx 1), .unmap (.rx 2), .unmap (.rx 3), .deliver (.refs [(1, 2048), (2, 2048), (3, 904)]) none] := by
  decide +kernel

/-- FL-9: nothing published. -/
theorem test_flTake_underrun :
    let s := base.setFl 0 { fl0 with needed := 62, pending := 1, sd := [(0, posted 1 0)] }
    (ran (.flTake 0#10 60#32) s) = { s with fault := 0x80030400#32 } := by decide +kernel

/-- FL-3. -/
theorem test_flDoorbell_threshold :
    let s := fun n => base.setFl 0 { fl0 with needed := 40, pending := n }
    let t := ran (.flDoorbell 0#10 true) (s 7)
    (ran (.flDoorbell 0#10 false) (s 7)).out = [] ∧ t.out = [.barrier, .regWrite .kdb 0x00100007#32] ∧
    (t.fl 0).pending = 0 ∧ t.res = { rc := .ok, value := 7 } ∧
    doorbells .kdb (ran (.flDoorbell 0#10 false) (s 8)) = [0x00100008#32] ∧ (ran (.flDoorbell 0#10 true) (s 0)).out = [] := by
  decide +kernel

/-! ### Egress -/

/-- TX-3: ten 40-byte packets make one work request and one doorbell. -/
theorem test_eqTx_coalesces :
    let s := hostMaps (List.replicate 10 (.ok [seg 0x10000 40])) (base.setSrc 0 (List.replicate 10 (.ready (pkt 5 40))))
    let t := ran (.eqTx 0#10 0#32) s
    ringFlit 0 t = 0x090000004000001F#64 ∧ ringFlit 1 t = 0x01900A0800000000#64 ∧ ringFlit 2 t = 0x0D00000000000003#64 ∧
    ringFlit 61 t = 0x10000#64 ∧ (t.eq 0).slot 0 = { descUsed := 8, mapsUsed := 10 } ∧ (t.eq 0).pidx = 8 ∧
    (t.eq 0).avail = 119 ∧ (t.eq 0).mapAvail = 246 ∧ (t.eq 0).batch.accepting = false ∧
    doorbells .kdb t = [0x00200008#32] ∧ t.res = { rc := .ok, value := 10 } := by decide +kernel

/-- TX-7: a stall with a flush work request. -/
theorem test_eqTx_stalls :
    let s := (base.setEq 0
      { eq0 with cap := 8, txMaps := 16, pidx := 6, avail := 1, statAddr := 0x10200#64, mapPidx := 3, mapAvail := 13
                 sd := [(0, ⟨2, 1⟩), (2, ⟨2, 1⟩), (4, ⟨2, 1⟩)] }).setSrc 0 [.ready (pkt 5 40)]
    let t := ran (.eqTx 0#10 0#32) s
    (t.eq 0).held = some (pkt 5 40) ∧ (t.eq 0).stalled = true ∧ (t.eq 0).flushOut = true ∧ (t.eq 0).avail = 0 ∧
    (t.eq 0).pidx = 7 ∧ (t.eq 0).stats.noDesc = 1 ∧ ringFlit 48 t = 0x1B000000C0000001#64 ∧
    doorbells .kdb t = [0x00200001#32] ∧ t.res = { rc := .stalled, value := 0 } := by decide +kernel

/-- R511: the packet SGL_BUILD left in the register is sent, with the flits of TX-1's form, by the next EQ_TX. -/
theorem test_eqTx_sends_register :
    let t := ran (.eqTx 0#10 0#32) (base.setEq 0 (eq0sgl (pkt 1 40) [seg 0x1000 40]))
    ringFlit 0 t = 0x0800001040000003#64 ∧ ringFlit 2 t = 0xEE00000000000028#64 ∧ ringFlit 4 t = 0x8200000100000028#64 ∧
    (t.eq 0).sgl.valid = false ∧ (t.eq 0).stats.drops = 0 ∧ (t.eq 0).mapAvail = 255 ∧ doorbells .kdb t = [0x00200001#32] ∧
    t.res = { rc := .ok, value := 1 } := by decide +kernel

/-- TX-2: three segments and offloads. -/
theorem test_eqWrPkt :
    let p := { pkt 5 1500 with csum := { ip := true, l4 := true, ctype := 2#4 }, vlan := some 100#16 }
    let t := ran (.eqWrPkt 0#10) (base.setEq 0 (eq0sgl p [seg 0x1000 500, seg 0x2000 500, seg 0x3000 500]))
    flitsWritten t = [0x0800001040000005#64, 0, 0xEE000000000005DC#64, 0x0000020100000064#64, 0x82000003000001F4#64, 0x1000,
      0x000001F4000001F4#64, 0x2000, 0x3000, 0] ∧
    Tab.find (t.eq 0).maps 0 = some p ∧ (t.eq 0).mapPidx = 1 ∧ (t.eq 0).mapAvail = 255 ∧ (t.eq 0).sgl.valid = false ∧
    (t.eq 0).slot 0 = { descUsed := 2, mapsUsed := 1 } ∧ (t.eq 0).avail = 125 ∧ (t.eq 0).stats.sglWrs = 1 ∧
    (t.eq 0).stats.txcsum = 1 ∧ (t.eq 0).stats.vlanInsertion = 1 ∧ t.res = { rc := .ok, value := 2 } := by decide +kernel

/-- R285, R510: without credit nothing is written, the SGL is kept, and `eq.held` is its packet. -/
theorem test_eqWrPkt_noCredit :
    let e := { eq0sgl (pkt 1 40) [seg 0x1000 40] with cap := 8, txMaps := 16, pidx := 7, avail := 0, mapAvail := 16, sd := [(0, ⟨7, 0⟩)] }
    let t := ran (.eqWrPkt 0#10) (base.setEq 0 e)
    (t.eq 0).heldPkt = some (pkt 1 40) ∧ (t.eq 0).sgl.valid = true ∧ (t.eq 0).sgl.mapHeld = true ∧ (t.eq 0).sgl.segs = [seg 0x1000 40] ∧
    t.out = [] ∧ t.res = { rc := .noDesc, value := 0 } := by decide +kernel

/-- The offload packet of TX-6. -/
def lsoPkt : Packet := { pkt 6 9000 with lso := some { mss := 1448#16, ehLen := 14, ipHl := 20, tcpHl := 20, ipv6 := false } }

/-- TX-6: an offload packet behind three coalesced ones flushes their batch and goes on its own. -/
theorem test_eqTx_flushes_before_lso :
    let s := hostMaps (List.replicate 3 (.ok [seg 0x10000 40]) ++ [.ok [seg 0x90000 9000]])
      (base.setSrc 0 (List.replicate 3 (.ready (pkt 5 40)) ++ [.ready lsoPkt]))
    let t := ran (.eqTx 0#10 0#32) s
    ringFlit 0 t = 0x090000004000000A#64 ∧ ringFlit 24 t = 0x0800002040000004#64 ∧ (t.eq 0).slot 0 = { descUsed := 3, mapsUsed := 3 } ∧
    (t.eq 0).slot 3 = { descUsed := 1, mapsUsed := 1 } ∧ (t.eq 0).stats.tsoWrs = 1 ∧
    doorbells .kdb t = [0x00200003#32, 0x00200001#32] ∧ t.res = { rc := .ok, value := 4 } := by decide +kernel

/-- R280, R510: a stall keeps the packet of the register in `eq.held`, its map given back. -/
theorem test_eqTx_holds_register :
    let t := ran (.eqTx 0#10 0#32) (base.setEq 0
      { eq0sgl (pkt 1 40) [seg 0x1000 40] with
        cap := 8, txMaps := 16, pidx := 7, avail := 0
        statAddr := 0x10200#64, mapAvail := 16, sd := [(0, ⟨7, 0⟩)] })
    (t.eq 0).held = some (pkt 1 40) ∧ (t.eq 0).sgl.valid = false ∧ (t.eq 0).sgl.mapHeld = false ∧ (t.eq 0).stats.drops = 0 ∧
    (t.eq 0).stats.noDesc = 1 ∧ t.out = [.unmap (.pkt (pkt 1 40))] ∧ t.res = { rc := .stalled, value := 0 } := by decide +kernel

/-- R5: two answers of `peek` with no `dequeue` between may differ: the first puts the packet of the register in a batch, the
second finds nothing behind the held packet, and the next `dequeue` may still take one. -/
theorem test_eqTx_peeks_apart :
    let s := (base.setEq 0 { eq0sgl (pkt 1 40) [seg 0x1000 40] with held := some (pkt 2 40) }).setSrc 0
      [.glance (some (pkt 3 40)), .glance none, .late (pkt 4 40)]
    let t := ran (.eqTx 0#10 2#32) (hostMaps [.ok [seg 0x10000 40]] s)
    (s.peek 0).1 = some (pkt 3 40) ∧ ((s.peek 0).2.peek 0).1 = none ∧ (t.eq 0).stats.txpktsPkts = 2 ∧
    (t.eq 0).held = some (pkt 4 40) ∧ t.src 0 = [] ∧ t.res = { rc := .ok, value := 2 } := by decide +kernel

/-- R13: a packet the last `peek` answered is the one `dequeue` returns. -/
theorem test_dequeue_after_peek :
    let s := base.setSrc 0 [.glance none, .glance (some (pkt 3 40)), .late (pkt 4 40)]
    let t := ((s.peek 0).2.peek 0).2
    (t.dequeue 0).1 = some (pkt 3 40) ∧ ((t.dequeue 0).2.dequeue 0).1 = some (pkt 4 40) := by decide +kernel

/-- TX-6, flits 24 to 31, at slot 3. -/
theorem test_eqWrLso :
    let t := ran (.eqWrLso 0#10) (base.setEq 0 { eq0sgl lsoPkt [seg 0x90000 9000] with pidx := 3, avail := 124 })
    flitsWritten t = [0x0800002040000004#64, 0, 0xEDC00055000005A8#64, 0x2328#64, 0xEE00000000002328#64,
      0xC000000000000000#64, 0x8200000100002328#64, 0x90000#64] ∧
    ringFlit 24 t = 0x0800002040000004#64 ∧ (t.eq 0).slot 3 = { descUsed := 1, mapsUsed := 1 } ∧
    (t.eq 0).stats.tsoWrs = 1 ∧ t.res = { rc := .ok, value := 1 } := by decide +kernel

/-- TX-12: a packet without an offload request is refused. -/
theorem test_eqWrLso_refuses :
    let s := base.setEq 0 (eq0sgl (pkt 5 40) [seg 0x1000 40])
    ran (.eqWrLso 0#10) s = s.badCmd := by decide +kernel

/-- TX-1: 40 bytes of immediate data, with known payload bytes. -/
theorem test_eqWrImm :
    let p := { pkt 5 40 with data := (List.range 40).map (BitVec.ofNat 8) }
    let t := ran (.eqWrImm 0#10) (base.setEq 0 { eq0 with held := some p })
    flitsWritten t = [0x0800003840000005#64, 0, 0xEE00000000000028#64, 0xC000000000000000#64, 0x0001020304050607#64,
      0x08090A0B0C0D0E0F#64, 0x1011121314151617#64, 0x18191A1B1C1D1E1F#64, 0x2021222324252627#64, 0] ∧
    (t.eq 0).slot 0 = { descUsed := 2, mapsUsed := 0 } ∧ (t.eq 0).pidx = 2 ∧ (t.eq 0).avail = 125 ∧
    (t.eq 0).held = none ∧ (t.eq 0).stats.immWrs = 1 ∧ t.res = { rc := .ok, value := 2 } := by decide +kernel

/-- TX-12: a 200-byte packet is held. R290, R510: a held packet that the SGL register has goes once, and its map is given back. -/
theorem test_eqWrImm_held :
    let t := ran (.eqWrImm 0#10) (base.setSrc 0 [.ready (pkt 5 200)])
    let u := ran (.eqWrImm 0#10) (sglHold 0 (base.setEq 0 (eq0sgl (pkt 1 40) [seg 0x1000 40])))
    ((t.eq 0).heldPkt = some (pkt 5 200) ∧ t.res = { rc := .badCmd, value := 0 } ∧ t.out = []) ∧
    (u.eq 0).heldPkt = none ∧ (u.eq 0).sgl.valid = false ∧ (u.eq 0).stats.immWrs = 1 ∧ u.out.head? = some (.unmap (.pkt (pkt 1 40))) ∧
    u.out.getLast? = some (.release (.pkt (pkt 1 40))) ∧ u.res = { rc := .ok, value := 2 } := by decide +kernel

/-- TX-13: at the ring end. -/
theorem test_eqWrFlush :
    let t := ran (.eqWrFlush 0#10) (base.setEq 0 { eq0 with pidx := 127, avail := 5 })
    ringFlit 1016 t = 0x1B000000C0000001#64 ∧ (t.eq 0).slot 127 = { descUsed := 1, mapsUsed := 0 } ∧ (t.eq 0).pidx = 0 ∧
    (t.eq 0).avail = 4 ∧ (t.eq 0).flushOut = true ∧ t.res = { rc := .ok, value := 1 } := by decide +kernel

/-- TX-14. -/
theorem test_eqDoorbell :
    let s := base.setEq 0 { eq0 with pending := 5, avail := 88 }
    let t := ran (.eqDoorbell 0#10 true) s
    t.out = [.barrier, .regWrite .kdb 0x00200005#32] ∧ (t.eq 0).pending = 0 ∧ t.res = { rc := .ok, value := 5 } ∧
    (ran (.eqDoorbell 0#10 false) s).out = [] ∧ (ran (.eqDoorbell 0#10 false) s).res = { rc := .ok, value := 0 } := by
  decide +kernel

/-! ### Reclaim -/

/-- RC-1, with the wrap. -/
theorem test_eqReclaimable :
    (ran (.eqReclaimable 0#10) (withHw 20 (base.setEq 0 { eq0 with cidx := 10, avail := 100 }))).res
      = { rc := .ok, value := 10 } ∧
    (ran (.eqReclaimable 0#10) (withHw 4 (base.setEq 0 { eq0 with cidx := 120, avail := 100 }))).res
      = { rc := .ok, value := 12 } := by decide +kernel

/-- RC-7 and RC-8. -/
theorem test_eqReclaimable_faults :
    (ran (.eqReclaimable 0#10) (withHw 40 (base.setEq 0 { eq0 with cidx := 10, avail := 100 }))).fault = 0x80040800#32 ∧
    (ran (.eqReclaimable 0#10) (withHw 200 base)).fault = 0x80060800#32 := by decide +kernel

/-- The queue of RC-2. -/
def eqRc2 : EQ :=
  { eq0 with
    cidx := 5, pidx := 12, avail := 120, sd := [(5, ⟨2, 1⟩), (7, ⟨3, 4⟩), (10, ⟨2, 1⟩)], mapCidx := 20, mapPidx := 26
    mapAvail := 250
    maps := [(20, pkt 20 1), (21, pkt 21 1), (22, pkt 22 1), (23, pkt 23 1), (24, pkt 24 1), (25, pkt 25 1)] }

/-- RC-2: exactly three work requests. -/
theorem test_eqReclaim_three :
    let t := ran (.eqReclaim 0#10 1#16 1000#32) (withHw 12 (base.setEq 0 eqRc2))
    (t.eq 0).cidx = 12 ∧ (t.eq 0).avail = 127 ∧ (t.eq 0).mapAvail = 256 ∧ (t.eq 0).mapCidx = 26 ∧ (t.eq 0).maps = [] ∧
    t.out = [20, 21, 22, 23, 24, 25].flatMap (fun h => [.unmap (.pkt (pkt h 1)), .release (.pkt (pkt h 1))]) ∧
    t.res = { rc := .ok, value := 7 } := by decide +kernel

/-- RC-6 and RC-3: a consumer index inside a work request, and the hard maximum. -/
theorem test_eqReclaim_edges :
    (ran (.eqReclaim 0#10 0#16 1000#32) (withHw 9 (base.setEq 0 eqRc2))).fault = 0x80050800#32 ∧
    (let t := ran (.eqReclaim 0#10 4#16 5#32)
        (withHw 6 (base.setEq 0 { eq0 with pidx := 6, avail := 121, sd := [(0, ⟨3, 1⟩), (3, ⟨3, 1⟩)] }))
     (t.eq 0).cidx = 3 ∧ t.res = { rc := .ok, value := 3 }) := by decide +kernel

/-! ### SGL builder and coalescing -/

/-- SG-8: a compaction that succeeds. -/
theorem test_sglBuild_compacts :
    let s := base.setSrc 0 [.late (pkt 5 3000)]
    let s := s.setHost { s.host with mapLoad := [.tooMany, .ok [seg 0x1000 1000, seg 0x2000 1000, seg 0x3000 1000]], compact := [some (pkt 9 3000)] }
    let t := ran (.sglBuild 0#10) s
    (t.eq 0).sgl = { valid := true, mapHeld := true, pkt := pkt 9 3000, segs := [seg 0x1000 1000, seg 0x2000 1000, seg 0x3000 1000] } ∧
    (t.eq 0).stats.defrags = 1 ∧ t.res = { rc := .ok, value := 5 } := by decide +kernel

/-- SG-8: no resource keeps the packet. -/
theorem test_sglBuild_no_map :
    let t := ran (.sglBuild 0#10) (hostMaps [.noResource] (base.setSrc 0 [.ready (pkt 5 3000)]))
    (t.eq 0).held = some (pkt 5 3000) ∧ t.res = { rc := .noMap, value := 0 } := by decide +kernel

/-- SG-3: across the ring end. -/
theorem test_sglWrite_wraps :
    let t := ran (.sglWrite 0#10 30#32) (base.setEq 0
      { eq0sgl (pkt 5 600) [seg 0x1000 100, seg 0x2000 200, seg 0x3000 300] with cap := 4, pidx := 3, cidx := 3, avail := 3 })
    ringFlit 30 t = 0x8200000300000064#64 ∧ ringFlit 31 t = 0x1000#64 ∧ ringFlit 0 t = 0x000000C80000012C#64 ∧
    ringFlit 1 t = 0x2000#64 ∧ ringFlit 2 t = 0x3000#64 ∧ ringFlit 3 t = 0 ∧ t.res = { rc := .ok, value := 6 } := by
  decide +kernel

/-- SG-9: an odd index. -/
theorem test_sglWrite_refuses :
    let s := base.setEq 0 (eq0sgl (pkt 5 100) [seg 0x1000 100])
    ran (.sglWrite 0#10 3#32) s = s.badCmd := by decide +kernel

/-- CO-1. -/
theorem test_txpktsAdd :
    let t := ran (.txpktsAdd 0#10) (base.setEq 0 (eq0sgl (pkt 5 40) [seg 0x10000 40]))
    flitsWritten t = [0x0D00000000000003#64, 0x8100000000000010#64, 0xEE00000000000028#64, 0xC000000000000000#64,
      0x8200000100000028#64, 0x10000#64] ∧ ringFlit 2 t = 0x0D00000000000003#64 ∧
    (t.eq 0).batch = { accepting := true, npkt := 1, nflits := 8, plen := 40, cur := 8, nmaps := 1 } ∧
    (t.eq 0).mapAvail = 255 ∧ (t.eq 0).sgl.valid = false ∧ t.res = { rc := .ok, value := 1 } := by decide +kernel

/-- CO-2 and CO-4: an offload packet, and the length budget. -/
theorem test_txpktsAdd_rejects :
    let s := base.setEq 0 (eq0sgl lsoPkt [seg 0x10000 9000])
    let u := base.setEq 0 { eq0sgl (pkt 5 1) [seg 0 1] with
      batch := { accepting := true, npkt := 2, nflits := 14, plen := 65535, cur := 14, nmaps := 2 } }
    ran (.txpktsAdd 0#10) s = s.finish .reject 0 ∧ ran (.txpktsAdd 0#10) u = u.finish .reject 0 := by decide +kernel

/-- CO-7. -/
theorem test_txpktsFlush :
    let t := ran (.txpktsFlush 0#10) (base.setEq 0
      { eq0 with batch := { accepting := true, npkt := 2, nflits := 18, plen := 1540, cur := 18, nmaps := 2 } })
    flitsWritten t = [0x0900000040000009#64, 0x0604020300000000#64] ∧
    (t.eq 0).slot 0 = { descUsed := 3, mapsUsed := 2 } ∧ (t.eq 0).pidx = 3 ∧ (t.eq 0).avail = 124 ∧ (t.eq 0).pending = 3 ∧
    doorbells .kdb t = [] ∧ t.res = { rc := .ok, value := 2 } := by decide +kernel

/-! ### Lifecycle -/

/-- Answers for an allocation. -/
def hostAlloc (a : Nat) (r : PeerAnswer) (s : State) : State :=
  s.setHost { s.host with dmaAlloc := [some (BitVec.ofNat 64 a)], peer := [r] }

/-- LC-1. -/
theorem test_qAllocIq :
    let t := ran (.qAllocIq 1#10 .fwEvt 1#3 7#3 .b64 false 255#16 3#10) (hostAlloc 0x4000 (.ok 0x11#17) State.reset)
    (t.iq 1).st = .reg ∧ (t.iq 1).cidx = 0 ∧ (t.iq 1).gen = true ∧ (t.iq 1).creditBatch = 64 ∧
    t.lookup 0x11 = some (selIq 1) ∧ t.res = { rc := .ok, value := 0x11 } ∧
    t.out = [.dmaAlloc 16384, .zeroFill 0x4000#64 16384, .peerCmd (.allocIq 0x4000#64 256 64 .fwEvt false 3#16 1#3 7#3)] := by
  decide +kernel

/-- LC-3: a refused handshake leaves the queue in `MEM`. -/
theorem test_qAllocIq_refused :
    let t := ran (.qAllocIq 1#10 .fwEvt 1#3 7#3 .b64 false 255#16 3#10) (hostAlloc 0x4000 (.err 0x1234#32) State.reset)
    (t.iq 1).st = .mem ∧ t.qmap = [] ∧ t.res = { rc := .cmdFail, value := 0x1234 } := by decide +kernel

/-- P1 step 4. -/
theorem test_qAllocFl :
    let t := ran (.qAllocFl 0#10 63#16 1#10)
      (hostAlloc 0x4000 (.ok 0x20#17) (State.reset.setIq 1 { iq1 with st := .reg, fl := none }))
    (t.fl 0).st = .reg ∧ (t.fl 0).needed = 63 ∧ (t.fl 0).owner = 1 ∧ (t.iq 1).fl = some 0 ∧
    t.res = { rc := .ok, value := 0x20 } := by decide +kernel

/-- LC-2. -/
theorem test_qAllocEq :
    let t := ran (.qAllocEq 0#10 127#16 2#10)
      (hostAlloc 0x8000 (.ok 0x40#17) (State.reset.setIq 2 { iq2 with st := .reg, role := .rx }))
    (t.eq 0).st = .reg ∧ (t.eq 0).statAddr = 0xA000#64 ∧ (t.eq 0).avail = 127 ∧ (t.eq 0).mapAvail = 256 ∧
    t.res = { rc := .ok, value := 0x40 } ∧ t.out.head? = some (.dmaAlloc 8256) := by decide +kernel

/-- LC-5: a live id. -/
theorem test_qAllocEq_reused_id :
    let t := ran (.qAllocEq 0#10 127#16 0#10)
      (hostAlloc 0x8000 (.ok 0x10#17) ((State.reset.setIq 0 iq0).setQmap [(0x10, selIq 0)]))
    (t.eq 0).st = .mem ∧ t.res = { rc := .cmdFail, value := 0 } ∧ t.qmap = [(0x10, selIq 0)] := by decide +kernel

def peerSays (l : List PeerAnswer) (s : State) : State := s.setHost { s.host with peer := l }

/-- LC-11 and LC-6. -/
theorem test_qStart :
    let t := ran (.qStart 0#10 .iq) (peerSays [.ok 0] (base.setIq 0 { iq0 with st := .reg }))
    let u := (base.setFl 0 { fl0 with st := .reg }).setIq 1 { iq1 with st := .reg }
    doorbells .gts t = [0x00100000#32] ∧ (t.iq 0).st = .run ∧ t.res = { rc := .ok, value := 0 } ∧
    ran (.qStart 1#10 .iq) u = u.badCmd := by decide +kernel

/-- LC-8: a stop discards the batch, the SGL register and the held packet. -/
theorem test_qStop_discards :
    let s := peerSays [.ok 0] (base.setEq 0
      { eq0sgl (pkt 3 30) [seg 0 30] with
        held := some (pkt 4 40), mapPidx := 2, mapAvail := 254, maps := [(0, pkt 1 10), (1, pkt 2 20)]
        batch := { accepting := true, npkt := 2, nflits := 14, plen := 30, cur := 14, nmaps := 2 } })
    let t := ran (.qStop 0#10 .eq) s
    (t.eq 0).st = .reg ∧ (t.eq 0).mapPidx = 0 ∧ (t.eq 0).mapAvail = 256 ∧ (t.eq 0).maps = [] ∧
    (t.eq 0).batch.accepting = false ∧ (t.eq 0).held = none ∧ (t.eq 0).stats.drops = 0 ∧ t.res = { rc := .ok, value := 0 } ∧
    t.out = [.peerCmd (.stop .eq 0x40#17), .unmap (.pkt (pkt 2 20)), .release (.pkt (pkt 2 20)), .unmap (.pkt (pkt 1 10)),
      .release (.pkt (pkt 1 10)), .unmap (.pkt (pkt 3 30)), .release (.pkt (pkt 3 30)), .release (.pkt (pkt 4 40))] := by
  decide +kernel

/-- LC-11 and LC-7. -/
theorem test_qFree :
    let t := ran (.qFree 0#10 .eq) (peerSays [.ok 0] ((base.setEq 0 { eq0 with st := .reg }).setQmap [(0x40, selEq 0)]))
    let u := base.setIq 0 { iq0 with st := .reg }
    t.qmap = [] ∧ (t.eq 0).st = .mem ∧ t.res = { rc := .ok, value := 0 } ∧ ran (.qFree 0#10 .iq) u = u.badCmd := by
  decide +kernel

/-- LC-9: teardown goes on after a failed stop. -/
theorem test_qTeardown_eq :
    let s := peerSays [.err 7, .ok 0] ((base.setEq 0 { eq0 with maps := [(0, pkt 1 10)], mapPidx := 1, mapAvail := 255 }).setQmap
      [(0x40, selEq 0)])
    let t := ran (.qTeardown 0#10 .eq) s
    (t.eq 0).st = .uninit ∧ t.qmap = [] ∧ t.res = { rc := .ok, value := 1 } ∧
    t.out = [.peerCmd (.stop .eq 0x40#17), .log (.stop .eq 0x40#17) .eq 0 7, .peerCmd (.free .eq 0x40#17),
      .unmap (.pkt (pkt 1 10)), .release (.pkt (pkt 1 10)), .dmaFree 0x10000#64] := by decide +kernel

/-- LC-10, LC-7: teardown of a free list, and its check of the owner. -/
theorem test_qTeardown_fl :
    let f := { fl0 with needed := 62, sd := [(0, posted 9 0), (3, { own := .retained { buf := 8, addr := 0, bcls := 0 }, mapCls := some 0 })] }
    let s := peerSays [.ok 0, .ok 0] (((base.setFl 0 f).setIq 1 { iq1 with st := .reg }).setQmap [(0x20, selFl 0)])
    let t := ran (.qTeardown 0#10 .fl) s
    (t.fl 0).st = .uninit ∧ (t.iq 1).fl = none ∧ t.res = { rc := .ok, value := 0 } ∧
    t.out.drop 2 = [.unmap (.rx 9), .release (.rx 9), .unmap (.rx 8), .release (.rx 8), .dmaFree 0x60000#64] ∧
    ran (.qTeardown 0#10 .fl) base = base.badCmd := by decide +kernel

/-! ### PEER -/

/-- R114, R106, R154: PEER finishes a published flush request, writes its status word, and owes one notification. -/
theorem test_peer_finishes :
    let s := ran (.eqDoorbell 0#10 true) (ran (.eqWrFlush 0#10) base)
    let t := peerFinish 0 false s
    let u := peerNotify 0 [] t
    t.read64 0x12000 = 0x00010001#64 ∧ t.peerEqOf 0 = { hwPidx := 1, hwCidx := 1, owed := 1 } ∧ peerFinish 0 true t = t ∧
    u.read64 0x20000 = 0xA500004000010001#64 ∧ u.readByte 0x20038 = 0x90#8 ∧ (u.peerEqOf 0).owed = 0 ∧
    peerNotify 0 [] u = u := by decide +kernel

/-- R520, R151: an armed forwarded queue with an entry gets its interrupt through the forwarding queue. -/
theorem test_peer_forwards_interrupt :
    let p : PeerIq := { PeerIq.reset with armed := true }
    let s := ((base.setIq 1 { iq1 with fwd := true, tgt := 2#10 }).setPeerIq 1 { p with written := 1 }).setPeerIq 2 p
    let t := peerInterrupt 1 [] s
    t.read32 (0x50000 + 52) = 0x11#32 ∧ t.readByte (0x50000 + 56) = 0xA0#8 ∧ (t.iq 2).svcReq = true ∧
    (t.peerIqOf 1).armed = false ∧ (t.peerIqOf 2).armed = false ∧ (t.peerIqOf 2).written = 1 := by decide +kernel

/-- R115, R150: a frame goes into a fresh published buffer, and the entry that reports it comes after. -/
theorem test_peer_frame :
    let s := (poke 0x60000 [0, 0, 0, 0, 0, 7, 0, 0] base).setPeerFl 0 { cidx := 0, avail := 1 }
    let t := peerFrame 1 [1, 2, 3] [] s
    t.readBytes 0x70000 3 = [1, 2, 3] ∧ t.readByte 0x30000 = 0x3B#8 ∧ t.read32 (0x30000 + 52) = 3#32 ∧
    t.readByte (0x30000 + 56) = 0x80#8 ∧ t.peerFlOf 0 = { cidx := 1, avail := 0 } ∧ peerFrame 1 [1] [] t = t := by decide +kernel

/-! ### The block -/

/-- F-1: the latch refuses a word of any kind, before decoding. -/
theorem test_latch :
    let s := base.raiseFault .unexpectedRsp (selIq 2)
    let r := s.finish .faulted 0
    s.fault = 0x80010002#32 ∧
    step (s.withFetchWord 64 0x0400000000000000) = .next r ∧ step (s.withFetchWord 64 0) = .next r := by
  refine ⟨by decide +kernel, rfl, rfl⟩

/-- The first command after reset: the queue is UNINIT (F-5). -/
theorem test_first_command :
    step (State.reset.withFetchWord 64 0x0400000000000000) = .next State.reset.badCmd := rfl

end Sys2Proof.Tests
end

