-- ==== Sys2Proof/Tests/Witnesses.lean ====
section
/-! SUPPORT. For every obligation with hypotheses, a concrete state and operands that meet them, clause by clause, at boundary
values where the clauses have ranges. -/

namespace Sys2Proof.Tests

-- one test at a time, so that the kernel evaluations do not each hold a thread
set_option Elab.async false

open Sys2Proof.Machine

/-! ### Laws of concrete records, checked -/

theorem listed {β : Type} (d : β) (t : Tab β) (j : Nat) : Tab.get d t j = d ∨ (j, Tab.get d t j) ∈ t := by
  induction t with
  | nil => exact .inl rfl
  | cons c t ih =>
    obtain ⟨a, b⟩ := c
    by_cases h : a = j
    · exact .inr (by simp [Tab.get, h])
    · rcases ih with h' | h'
      · exact .inl (by simp [Tab.get, h, h'])
      · exact .inr (by simp [Tab.get, h, h'])

/-- The free-list law, evaluated. -/
def flLawB (f : FL) : Bool :=
  decide (2 ≤ f.cap ∧ f.cap ≤ 65536 ∧ f.cidx < f.cap ∧ f.needed ≤ f.cap - 1 ∧
    f.pidx = (f.cidx + (f.cap - 1 - f.needed)) % f.cap ∧ f.pending ≤ f.cap - 1 - f.needed) &&
  f.sd.all (fun c => decide (c.1 < f.cap)) &&
  (List.range f.cap).all (fun j => (f.slot j).own.isPosted == decide (subMod j f.cidx f.cap < f.cap - 1 - f.needed))

theorem flLawB_sound {f : FL} (h : flLawB f = true) : f.Law := by
  simp only [flLawB, Bool.and_eq_true, decide_eq_true_eq, List.all_eq_true, List.mem_range, beq_iff_eq] at h
  obtain ⟨⟨⟨h1, h2, h3, h4, h5, h6⟩, h7⟩, h8⟩ := h
  refine ⟨h1, h2, h3, h4, h5, h6, fun j => ?_⟩
  by_cases hj : j < f.cap
  · rw [h8 j hj]; simp [hj]
  · have : f.slot j = FlSlot.reset := by
      rcases listed FlSlot.reset f.sd j with e | e
      · exact e
      · exact absurd (by simpa using h7 _ e) hj
    rw [this]; simp [hj, FlSlot.reset, Own.isPosted]

/-- The egress law, evaluated. -/
def eqLawB (e : EQ) : Bool :=
  decide (2 ≤ e.cap ∧ e.cap ≤ 16384 ∧ e.cidx < e.cap ∧ e.avail ≤ e.cap - 1 ∧ e.pidx = (e.cidx + e.inUse) % e.cap ∧
    e.cap < e.txMaps ∧ e.mapCidx < e.txMaps ∧ e.mapAvail ≤ e.txMaps ∧
    e.mapPidx = (e.mapCidx + (e.txMaps - e.mapAvail)) % e.txMaps ∧
    (wrMaps e e.inUse e.cidx e.inUse).map (e.mapAvail + e.batch.nmaps + ·) = some e.txMaps ∧
    (e.sgl.valid = true → e.sgl.mapHeld = true ∧ 1 ≤ e.mapAvail)) &&
  e.maps.all (fun c => decide (c.1 < e.txMaps)) &&
  (List.range e.txMaps).all
    (fun k => (Tab.find e.maps k).isSome == decide (subMod k e.mapCidx e.txMaps < e.txMaps - e.mapAvail))

theorem eqLawB_sound {e : EQ} (h : eqLawB e = true) : e.Law := by
  simp only [eqLawB, Bool.and_eq_true, decide_eq_true_eq, List.all_eq_true, List.mem_range, beq_iff_eq] at h
  obtain ⟨⟨⟨h1, h2, h3, h4, h5, h6, h7, h8, h9, h10, h11⟩, h12⟩, h13⟩ := h
  refine ⟨h1, h2, h3, h4, h5, h6, h7, h8, h9, ?_, fun k => ?_, h11⟩
  · obtain ⟨m, hm, he⟩ := Option.map_eq_some_iff.1 h10
    exact ⟨m, hm, he⟩
  · by_cases hk : k < e.txMaps
    · rw [h13 k hk]; simp [hk]
    · cases hf : Tab.find e.maps k with
      | none => simp [hk]
      | some p => exact absurd (by simpa using h12 _ (Tab.find_some_mem hf)) hk

/-- The batch budgets, evaluated. -/
def batchLawB (c : Config) (e : EQ) : Bool :=
  let b := e.batch
  if b.accepting then
    decide ((b.nflits ≤ c.maxWrFlits ∧ ndesc b.nflits ≤ e.avail) ∧ b.plen < c.coalPlenLimit ∧ (1 ≤ b.npkt ∧ b.nmaps = b.npkt ∧ 2 + 6 * b.npkt ≤ b.nflits) ∧
      b.nflits % 2 = 0 ∧ b.cur = (8 * e.pidx + b.nflits) % (8 * e.cap))
  else decide (b.npkt = 0 ∧ b.nflits = 0 ∧ b.plen = 0 ∧ b.nmaps = 0)

theorem batchLawB_sound {c : Config} {e : EQ} (h : batchLawB c e = true) : BatchLaw c e := by
  cases ha : e.batch.accepting <;> simp only [batchLawB, ha, if_true, if_false, Bool.false_eq_true, decide_eq_true_eq] at h
  · exact ⟨by simp [ha], by simp [ha], by simp [ha], by simp [ha], fun _ => h⟩
  · exact ⟨fun _ => h.1, fun _ => h.2.1, fun _ => h.2.2.1, fun _ => h.2.2.2, by simp [ha]⟩

/-- The ingress bounds, evaluated. -/
def iqLawB (q : IQ) : Bool :=
  decide (2 ≤ q.cap ∧ q.cap ≤ 65536 ∧ (q.esize = 16 ∨ q.esize = 32 ∨ q.esize = 64 ∨ q.esize = 128) ∧ q.cidx < q.cap ∧
    (1 ≤ q.creditBatch ∧ q.creditBatch ≤ 4095) ∧ q.ncons < q.creditBatch)

theorem iqLawB_sound {q : IQ} (h : iqLawB q = true) : q.Law := by
  simp only [iqLawB, decide_eq_true_eq] at h
  exact ⟨h.1, h.2.1, h.2.2.1, h.2.2.2.1, h.2.2.2.2.1, h.2.2.2.2.2⟩

theorem flInv_of {s : State} (h : s.fls.all (fun c => flLawB c.2) = true) : FlInv s := fun j hj => by
  rcases listed FL.reset s.fls j with e | e
  · exact absurd (congrArg FL.st e) hj
  · exact flLawB_sound (List.all_eq_true.1 h _ e)

theorem eqInv_of {s : State} (h : s.eqs.all (fun c => eqLawB c.2) = true) : EqInv s := fun j hj => by
  rcases listed EQ.reset s.eqs j with e | e
  · exact absurd (congrArg EQ.st e) hj
  · exact eqLawB_sound (List.all_eq_true.1 h _ e)

theorem batchInv_of {s : State} (h : s.eqs.all (fun c => batchLawB s.cfg c.2) = true) : BatchInv s := fun j hj => by
  rcases listed EQ.reset s.eqs j with e | e
  · exact absurd (congrArg EQ.st e) hj
  · exact batchLawB_sound (List.all_eq_true.1 h _ e)

theorem iqInv_of {s : State} (h : s.iqs.all (fun c => iqLawB c.2) = true) : IqInv s := fun j hj => by
  rcases listed IQ.reset s.iqs j with e | e
  · exact absurd (congrArg IQ.st e) hj
  · exact iqLawB_sound (List.all_eq_true.1 h _ e)

/-! ### A whole machine that meets every invariant -/

/-- `EQ[0]` with an open batch of two packets, one reclaimable work request, and pending slots. -/
def eq0busy : EQ :=
  { eq0 with
    pidx := 2, avail := 125, pending := 1, sd := [(0, ⟨2, 1⟩)], mapPidx := 3, mapAvail := 253
    maps := [(0, pkt 1 40), (1, pkt 2 40), (2, pkt 3 40)]
    batch := { accepting := true, npkt := 2, nflits := 14, plen := 80, cur := 30, nmaps := 2 } }

/-- The queues of the test vectors registered and running, `IQ[1]` forwarding to `IQ[2]`, buffers posted, work in flight. -/
def wired : State :=
  ((((base.setIq 1 { iq1 with fwd := true, tgt := 2#10 }).setFl 0
    { fl0 with needed := 61, pidx := 2, pending := 1, sd := [(0, posted 1 0x70000), (1, posted 2 0x71000)] }).setEq 0
      eq0busy).setQmap [(0x10, selIq 0), (0x11, selIq 1), (0x12, selIq 2), (0x20, selFl 0), (0x40, selEq 0)]).setInbox
    [.command (encode (.eqDoorbell 0#10 true))]

theorem wired_tables : wired.iqs.map Prod.fst = [0, 1, 2] ∧ wired.fls.map Prod.fst = [0] ∧ wired.eqs.map Prod.fst = [0] := by
  decide +kernel

theorem wired_iq (j : Nat) (h : (wired.iq j).st ≠ .uninit) : j = 0 ∨ j = 1 ∨ j = 2 := by
  rcases listed IQ.reset wired.iqs j with e | e
  · exact absurd (congrArg IQ.st e) h
  · simpa [wired_tables.1] using List.mem_map_of_mem (f := Prod.fst) e

theorem wired_fl (j : Nat) (h : (wired.fl j).st ≠ .uninit) : j = 0 := by
  rcases listed FL.reset wired.fls j with e | e
  · exact absurd (congrArg FL.st e) h
  · simpa [wired_tables.2.1] using List.mem_map_of_mem (f := Prod.fst) e

theorem wired_eq (j : Nat) (h : (wired.eq j).st ≠ .uninit) : j = 0 := by
  rcases listed EQ.reset wired.eqs j with e | e
  · exact absurd (congrArg EQ.st e) h
  · simpa [wired_tables.2.2] using List.mem_map_of_mem (f := Prod.fst) e

theorem registered_ne {st : QState} (h : st.registered = true) : st ≠ .uninit := by rintro rfl; cases h

/-- The state has a queue of every type and the invariants hold of it. -/
theorem witness_invariants : FaultLegal wired.fault ∧ Memory.wf wired.mem ∧ FlInv wired ∧ EqInv wired ∧ BatchInv wired ∧
    IqInv wired ∧ wired.cfg.wf = true ∧ ∃ t, step wired = .next t := by
  refine ⟨.inl rfl, ?_, flInv_of ?_, eqInv_of ?_, batchInv_of ?_, iqInv_of ?_, ?_, step_total _⟩
  · exact ⟨List.Pairwise.nil, fun _ h => nomatch h⟩
  all_goals decide +kernel

/-- What a test command leaves. -/
theorem exec_ran (i : Instr) (s : State) : exec i s = .next (ran i s) := by
  obtain ⟨t, h⟩ := exec_total i s
  unfold ran; rw [h]

/-- StepKeepsDependencies: two queues with memory, given by HOST one after the other. -/
theorem witness_blocksApart :
    let s := ran (.qAllocIq 1#10 .rx 1#3 7#3 .b64 false 255#16 3#10) (hostAlloc 0x4000 (.ok 0x11#17) State.reset)
    let t := ran (.qAllocFl 0#10 63#16 1#10) (hostAlloc 0x8000 (.ok 0x20#17) s)
    BlocksApart t ∧ (t.iq 1).st = .reg ∧ (t.fl 0).st = .reg := by
  have h0 : BlocksApart State.reset := fun ty k _ _ _ hu => absurd (by cases ty <;> rfl) hu
  have h1 : BlocksApart (hostAlloc 0x4000 (.ok 0x11#17) State.reset) := h0
  have h2 := exec_apart h1 (exec_ran (.qAllocIq 1#10 .rx 1#3 7#3 .b64 false 255#16 3#10) _)
  have h3 : BlocksApart (hostAlloc 0x8000 (.ok 0x20#17) (ran (.qAllocIq 1#10 .rx 1#3 7#3 .b64 false 255#16 3#10)
    (hostAlloc 0x4000 (.ok 0x11#17) State.reset))) := h2
  exact ⟨exec_apart h3 (exec_ran _ _), by decide +kernel⟩

/-- StepKeepsCreditLaw: pending slots in use, and a status word that claims only published ones, none and one of two. -/
theorem witness_pendLaw : ∀ h ∈ [0, 1], let s := withHw h wired
    ∀ j, (s.eq j).st ≠ .uninit → (s.eq j).PendLaw ∧ StatusPublished j s := by
  intro h hh s j hj
  obtain rfl := wired_eq j hj
  simp only [List.mem_cons, List.not_mem_nil, or_false] at hh
  rcases hh with rfl | rfl <;> unfold EQ.PendLaw StatusPublished <;> decide +kernel

theorem witness_stepKeepsQueueMap : QmapInv wired := by
  intro id t j
  constructor
  · intro h
    have := Tab.find_some_mem h
    simp only [wired, State.setInbox, State.setQmap, List.mem_cons, Prod.mk.injEq, List.not_mem_nil, or_false, selIq, selFl, selEq,
      Sel.mk.injEq] at this
    rcases this with ⟨rfl, rfl, rfl⟩ | ⟨rfl, rfl, rfl⟩ | ⟨rfl, rfl, rfl⟩ | ⟨rfl, rfl, rfl⟩ | ⟨rfl, rfl, rfl⟩ <;> decide +kernel
  · rintro ⟨h, rfl⟩
    cases t
    · rcases wired_iq j (registered_ne h) with rfl | rfl | rfl <;> decide +kernel
    · obtain rfl := wired_fl j (registered_ne h); decide +kernel
    · obtain rfl := wired_eq j (registered_ne h); decide +kernel

theorem witness_stepKeepsDependencies : DepInv wired := by
  constructor
  · intro f h; obtain rfl := wired_fl f h; decide +kernel
  · intro i f h hf
    have h0 : (wired.iq 0).fl = none ∧ (wired.iq 1).fl = some 0 ∧ (wired.iq 2).fl = none := by decide +kernel
    rcases wired_iq i h with rfl | rfl | rfl
    · rw [h0.1] at hf; cases hf
    · rw [h0.2.1] at hf; obtain rfl := Option.some.inj hf; decide +kernel
    · rw [h0.2.2] at hf; cases hf
  · intro i h hr
    rcases wired_iq i (by rw [h]; decide) with rfl | rfl | rfl
    · exact absurd hr (by decide +kernel)
    · exact ⟨0, by decide +kernel⟩
    · exact absurd hr (by decide +kernel)
  · intro e h; obtain rfl := wired_eq e h; decide +kernel
  · intro i h hf
    rcases wired_iq i h with rfl | rfl | rfl
    · exact absurd hf (by decide +kernel)
    · decide +kernel
    · exact absurd hf (by decide +kernel)

/-! ### Encoding, steps, faults and reset -/

/-- DecodeEncodeRoundTrip, at the largest value of every operand, and the smallest ring. -/
theorem witness_decodeEncodeRoundTrip :
    Instr.wf Config.default (.qAllocIq 1023#10 .rx 5#3 3#3 .b128 true 65535#16 1023#10) = true ∧
    Instr.wf Config.default (.qAllocEq 1023#10 16383#16 1023#10) = true ∧
    Instr.wf Config.default (.qAllocFl 0#10 1#16 0#10) = true ∧
    Instr.wf Config.default (.flTake 0#10 0x7FFFFFFF#32) = true ∧
    Instr.wf Config.default (.eqReclaim 1023#10 0xFFFF#16 0xFFFFFFFF#32) = true := by decide

/-- DecodedWordIsTheEncoding. -/
theorem witness_decodedWordIsTheEncoding :
    decode Config.default 0xA00102E5000300FF#64 = .instr (.qAllocIq 1#10 .fwEvt 1#3 7#3 .b64 false 255#16 3#10) := by decide

/-- IllegalWordIsRefused: word 0, which no command encodes. -/
theorem witness_illegalWordIsRefused :
    (placeCommand 0 State.reset).inbox = .command 0 :: [] ∧ faultValid State.reset.fault = false ∧
    ∀ i : Instr, i.wf State.reset.cfg = true → encode i ≠ 0 := by
  refine ⟨rfl, by decide, fun i _ h => ?_⟩
  have h0 : opOf (encode i) = 0 := by rw [h]; decide
  cases i <;> simp [encode, opOf_packWord, Instr.opcode] at h0

/-- StepRunsDecodedCommand: a legal word pending; nothing pending; a well-formed command to place. -/
theorem witness_stepRunsDecodedCommand :
    (wired.inbox = .command 0x5400000100000000#64 :: [] ∧ faultValid wired.fault = false ∧
      decode wired.cfg 0x5400000100000000#64 = .instr (.eqDoorbell 0#10 true)) ∧
    base.inbox = [] ∧ Instr.wf base.cfg (.eqTx 0#10 5#32) = true ∧ faultValid base.fault = false := by decide +kernel

/-- LatchRefusesEveryCommand. -/
theorem witness_latchRefusesEveryCommand :
    (wired.raiseFault .badStatus (selEq 0)).inbox = .command 0x5400000100000000#64 :: [] ∧
    faultValid (wired.raiseFault .badStatus (selEq 0)).fault = true := by decide +kernel

/-- WrongStateIsRefused: a queue without memory, and an allocation of a queue that has some. -/
theorem witness_wrongStateIsRefused :
    State.reset.qst (Instr.iqCheck 0#10).qtype 0 ∉ legalIn (.iqCheck 0#10) ∧
    base.qst (Instr.qAllocEq 0#10 7#16 0#10).qtype 0 ∉ legalIn (.qAllocEq 0#10 7#16 0#10) := by decide +kernel

/-- StepKeepsParameters: a step exists from every state. -/
theorem witness_stepKeepsParameters : ∃ t, step wired = .next t := step_total _

/-- FaultRegisterFields, at the largest index. -/
theorem witness_faultRegisterFields : (1023 : Nat) < 1024 ∧ faultWord .badStatus (selEq 1023) = 0x80060BFF#32 := by decide

/-- FaultLeavesResult: a command that faults. -/
theorem witness_faultLeavesResult :
    ∃ t, exec (.eqReclaimable 0#10) (withHw 200 base) = .next t ∧ t.fault ≠ (withHw 200 base).fault := ⟨_, rfl, by decide +kernel⟩

/-- OnlyResetClearsFault: a latched fault with a command pending, and a reset pending. -/
theorem witness_onlyResetClearsFault :
    (let s := wired.raiseFault .badStatus (selEq 0)
     faultValid s.fault = true ∧ (∃ t, step s = .next t) ∧ ∀ rest, s.inbox ≠ .reset :: rest) ∧
    (base.setInbox [.reset]).inbox = .reset :: [] ∧ ∃ t, step (base.setInbox [.reset]) = .next t :=
  ⟨⟨by decide +kernel, step_total _, fun _ h => by cases h⟩, rfl, step_total _⟩

/-- BlockResetClearsTheBlock: a reset of a machine with running queues and a latched fault. -/
theorem witness_blockReset :
    ((wired.raiseFault .badStatus (selEq 0)).setInbox [.reset, .interrupt 0 []]).inbox = .reset :: [.interrupt 0 []] := rfl

/-! ### Ingress -/

/-- CursorWrapLaw: the smallest capacity, and a real ring at slot 0. -/
theorem witness_cursorWrapLaw : (1 ≤ ({ iq0 with cap := 1 } : IQ).cap ∧ ({ iq0 with cap := 1 } : IQ).cidx = 0) ∧
    1 ≤ iq0.cap ∧ iq0.cidx = 0 := by decide

/-- A reply at the cursor of `IQ[0]`. -/
def reply (op : Nat) : State := entry 0x20000 [op] [] 0x90 base

/-- IqCheckComparesGeneration: a new and a stale entry. -/
theorem witness_iqCheck :
    let b (s : State) := s.readByte (slotAddr (s.iq 0).base (s.iq 0).esize (s.iq 0).cidx + BitVec.ofNat 64 ((s.iq 0).esize - 16) + 8)
    ((reply 0xC0).iq 0).st = .run ∧ (b (reply 0xC0)).getLsbD 7 = ((reply 0xC0).iq 0).gen ∧ (base.iq 0).st = .run ∧
    (b base).getLsbD 7 ≠ (base.iq 0).gen := by decide +kernel

/-- IqCreditReturnsCount. -/
theorem witness_iqCredit : (base.iq 2).st = .run := by decide +kernel

/-- The premises of a reply: both opcodes, below the batch threshold and at it. -/
theorem witness_iqConsumeDeliversReply :
    (∀ op ∈ [0xC0, 0xE0], let s := reply op
      (s.iq 0).st = .run ∧ (s.iq 0).role = .fwEvt ∧ (ctrlOf 0 s).gen = (s.iq 0).gen ∧ (ctrlOf 0 s).type = 1#2 ∧
      (payloadByte 0 0 s = 0xC0#8 ∨ payloadByte 0 0 s = 0xE0#8)) ∧
    iq0.ncons + 1 ≠ iq0.creditBatch ∧ ({ iq0 with ncons := 63 } : IQ).ncons + 1 = iq0.creditBatch := by decide +kernel

theorem witness_iqLaws : iq0.Law ∧ IQ.Law { iq0 with ncons := 63, cidx := 255 } ∧ iq1.Law ∧ iq2.Law :=
  ⟨iqLawB_sound (by decide), iqLawB_sound (by decide), iqLawB_sound (by decide), iqLawB_sound (by decide)⟩

/-- IqConsumeForwardsInterrupt: another queue, and the forwarding queue itself. -/
theorem witness_iqConsumeForwards : ∀ k ∈ [1, 2],
    let s := (entry 0x50000 [] [0, 0, 0, 0x10 + k] 0xA0 base).setQmap [(0x11, selIq 1), (0x12, selIq 2)]
    (s.iq 2).st = .run ∧ (s.iq 2).role = .intrFwd ∧ (ctrlOf 2 s).gen = (s.iq 2).gen ∧ (ctrlOf 2 s).type = 2#2 ∧
    s.lookup (ctrlOf 2 s).qid = some { type := .iq, index := k } ∧ (s.iq k).st = .run := by decide +kernel

/-- IqConsumeReportsProgress: on a firmware queue and on a receive queue, the EQ stalled or not, registered or running. -/
theorem witness_iqConsumeReports : ∀ st ∈ [QState.reg, .run], ∀ b ∈ [true, false],
    let s := (entry 0x30000 [0xA5, 0, 0, 0x40] [] 0x90 (entry 0x20000 [0xA5, 0, 0, 0x40] [] 0x90
      (base.setEq 0 { eq0 with st := st, stalled := b }))).setQmap [(0x40, selEq 0)]
    ∀ j ∈ [0, 1], (s.iq j).st = .run ∧ ((s.iq j).role = .fwEvt ∨ (s.iq j).role = .rx) ∧ (ctrlOf j s).gen = (s.iq j).gen ∧
      (ctrlOf j s).type = 1#2 ∧ payloadByte j 0 s = 0xA5#8 ∧ s.lookup (egrQid j s) = some { type := .eq, index := 0 } ∧
      ((s.eq 0).st = .reg ∨ (s.eq 0).st = .run) := by decide +kernel

/-- IqConsumeReceivesFrame: a frame at the copy threshold, one above it, and one that fills its buffer. -/
theorem witness_iqConsumeReceives : ∀ len ∈ [128, 129, 2048],
    let s := (entry 0x30000 [0x3B, 0x0A] [0x80, 0, len / 256, len % 256] 0x80 base).setFl 0
      { fl0 with needed := 62, pidx := 1, sd := [(0, posted 9 0x70000)] }
    (s.iq 1).st = .run ∧ (s.iq 1).role = .rx ∧ (s.iq 1).fl = some 0 ∧ (ctrlOf 1 s).gen = (s.iq 1).gen ∧
    (ctrlOf 1 s).type = 0#2 ∧ payloadByte 1 0 s = 0x3B#8 ∧ 1 ≤ (ctrlOf 1 s).len ∧ 1 ≤ (s.fl 0).published ∧
    ((s.fl 0).slot (s.fl 0).cidx).own = .posted { buf := 9, addr := 0x70000#64, bcls := 0 } ∧
    (ctrlOf 1 s).len ≤ classSize s.cfg 0 ∧ ((ctrlOf 1 s).len ≤ s.cfg.rxCopyThresh ↔ len = 128) := by decide +kernel

/-- IqConsumeFaultsUnconsumed: for each role an entry it does not handle; a notification of an unknown queue. -/
theorem witness_iqConsumeFaults :
    (let s := entry 0x30000 [0x3C] [0, 0, 0, 1] 0x80 base
     (s.iq 1).st = .run ∧ (ctrlOf 1 s).gen = (s.iq 1).gen ∧ (s.iq 1).role = .rx ∧ (ctrlOf 1 s).type = 0#2 ∧
     payloadByte 1 0 s ≠ 0x3B#8) ∧
    (let s := entry 0x30000 [0x3B] [0, 0, 0, 0] 0x80 base
     (ctrlOf 1 s).gen = (s.iq 1).gen ∧ (ctrlOf 1 s).type = 0#2 ∧ (ctrlOf 1 s).len = 0) ∧
    (∀ b ∈ [0xA0, 0xB0], let s := entry 0x30000 [] [] b base
     (ctrlOf 1 s).gen = (s.iq 1).gen ∧ ((ctrlOf 1 s).type = 2#2 ∨ (ctrlOf 1 s).type = 3#2)) ∧
    (let s := reply 0xC1
     (s.iq 0).st = .run ∧ (ctrlOf 0 s).gen = (s.iq 0).gen ∧ (s.iq 0).role = .fwEvt ∧ payloadByte 0 0 s ≠ 0xC0#8 ∧
     payloadByte 0 0 s ≠ 0xE0#8 ∧ payloadByte 0 0 s ≠ 0xA5#8) ∧
    (let s := entry 0x50000 [] [] 0xB0 base
     (s.iq 2).st = .run ∧ (ctrlOf 2 s).gen = (s.iq 2).gen ∧ (s.iq 2).role = .intrFwd ∧ (ctrlOf 2 s).type ≠ 2#2) := by
  decide +kernel

theorem witness_iqConsumeFaults_badQid :
    (let s := entry 0x50000 [] [0, 0, 0, 9] 0xA0 base
     (ctrlOf 2 s).gen = (s.iq 2).gen ∧ (ctrlOf 2 s).type = 2#2 ∧ s.lookup (ctrlOf 2 s).qid = none) ∧
    (let s := entry 0x20000 [0xA5, 0, 0, 9] [] 0x90 base
     (ctrlOf 0 s).gen = (s.iq 0).gen ∧ (ctrlOf 0 s).type = 1#2 ∧ payloadByte 0 0 s = 0xA5#8 ∧ s.lookup (egrQid 0 s) = none) ∧
    (let s := (entry 0x20000 [0xA5, 0, 0, 0x40] [] 0x90 (base.setEq 0 { eq0 with st := .mem })).setQmap [(0x40, selEq 0)]
     s.lookup (egrQid 0 s) = some { type := .eq, index := 0 } ∧ (s.eq 0).st ≠ .reg ∧ (s.eq 0).st ≠ .run) := by decide +kernel

/-- IqServiceRunsItsLoop: a stale entry, with and without a free list; a reply; a budget that a command obeys. -/
theorem witness_iqService :
    ((base.iq 0).st = .run ∧ (ctrlOf 0 base).gen ≠ (base.iq 0).gen ∧ (base.iq 0).role ≠ .rx) ∧
    ((base.iq 1).st = .run ∧ (ctrlOf 1 base).gen ≠ (base.iq 1).gen ∧ (base.iq 1).role = .rx ∧ (base.iq 1).fl = some 0) ∧
    (1#32 : BitVec 32) ≠ 0 ∧ faultValid (reply 0xC0).fault = false ∧
    (ran (.iqService 0#10 1#32) (reply 0xC0)).fault = (reply 0xC0).fault := by decide +kernel

/-- IqServiceRunsItsLoop, one turn: an entry that is consumed and one that faults; on a queue that is no RX queue, and on an RX
queue with a free list. -/
theorem witness_iqServiceTurn :
    (let s := reply 0xC0
     (s.iq 0).st = .run ∧ (ctrlOf 0 s).gen = (s.iq 0).gen ∧ faultValid s.fault = false ∧
     (ran (.iqConsume 0#10) s).fault = s.fault ∧ (s.iq 0).role ≠ .rx) ∧
    (let s := reply 0x01
     (s.iq 0).st = .run ∧ (ctrlOf 0 s).gen = (s.iq 0).gen ∧ (ran (.iqConsume 0#10) s).fault ≠ s.fault) ∧
    (let s := (entry 0x30000 [0xA5, 0, 0, 0x40] [] 0x90 base).setQmap [(0x40, selEq 0)]
     (s.iq 1).st = .run ∧ (ctrlOf 1 s).gen = (s.iq 1).gen ∧ faultValid s.fault = false ∧
     (ran (.iqConsume 1#10) s).fault = s.fault ∧ (s.iq 1).role = .rx ∧ (s.iq 1).fl = some 0) := by decide +kernel

/-- CreditAccounting: a run of three commands that consumes two replies. -/
theorem witness_creditAccounting : ∃ t, IngressRun 0#10 (entry 0x20040 [0xC0] [] 0x90 (reply 0xC0)) 2 t :=
  ⟨_, .more (.iqConsume 0#10) _ _ _ 1 (.inl rfl) rfl (by decide +kernel)
    (.more (.iqCredit 0#10) _ _ _ 1 (.inr (.inl rfl)) rfl (by decide +kernel)
      (.more (.iqService 0#10 0#32) _ _ _ 0 (.inr (.inr ⟨_, rfl⟩)) rfl (by decide +kernel) (.done _)))⟩

/-! ### Free lists -/

/-- `FL[0]` with two posted buffers, published. -/
def fl0two : FL := { fl0 with needed := 61, pidx := 2, sd := [(0, posted 1 0x70000), (1, posted 2 0x71000)] }

/-- FlSelectChoosesLeastClass: an MTU of class 0 at its edge, and one no class covers. -/
theorem witness_flSelect : (base.fl 0).st ≠ .uninit ∧ 1 ≤ base.cfg.classSizes.length ∧
    2016 + base.cfg.flHdrMargin = classSize base.cfg 0 ∧ classSize base.cfg 2 < 9185 + base.cfg.flHdrMargin := by decide +kernel

/-- FlDoorbellPublishesPending: nothing pending, one below the threshold unforced, one forced, the threshold itself. -/
theorem witness_flDoorbell : (∀ n ∈ [0, 1, 7, 8], ((base.setFl 0 { fl0 with pending := n }).fl 0).st = .run) ∧
    base.cfg.flDbThresh = 8 := by decide +kernel

/-- FlRefillPostsInOrder: a list with some slots needed and a ring inside the address space, at its very end too. -/
theorem witness_flRefill : (fl0.st = .reg ∨ fl0.st = .run) ∧ fl0.Law ∧ fl0two.Law ∧ fl0.base.toNat + 8 * fl0.cap ≤ 2 ^ 64 ∧
    (BitVec.ofNat 64 (2 ^ 64 - 512)).toNat + 8 * fl0.cap ≤ 2 ^ 64 := by
  refine ⟨by decide, flLawB_sound (by decide +kernel), flLawB_sound (by decide +kernel), by decide, by decide⟩

/-- FlRefillPostsInOrder: HOST's answers for two empty slots, and two retained buffers of the active class. -/
theorem witness_flRefillAnswers :
    HostFills { HostIn.none with
      mapCreate := [true, true], bufAlloc := [some 1, some 2], bufMap := [some 0x70000#64, some 0x71000#64] } 2 ∧
    (min (2#32).toNat fl0.needed = 2 ∧ ∀ i, i < 2 → (fl0.slot ((fl0.pidx + i) % fl0.cap)).own = .empty) ∧
    (let f := { fl0 with sd := [(0, { posted 1 0x70000 with own := .retained { buf := 1, addr := 0x70000, bcls := 0 } }),
        (1, { posted 2 0x71000 with own := .retained { buf := 2, addr := 0x71000, bcls := 0 } })] }
     f.Law ∧ ∀ i, i < 2 → ∃ b, (f.slot ((f.pidx + i) % f.cap)).own = .retained b ∧ b.bcls = f.cls) := by
  refine ⟨⟨by decide, fun i hi => ?_, fun i hi => ?_⟩, by decide, flLawB_sound (by decide +kernel), fun i hi => ?_⟩
  · match i, hi with
    | 0, _ => exact ⟨1, rfl⟩
    | 1, _ => exact ⟨2, rfl⟩
  · match i, hi with
    | 0, _ => exact ⟨0x70000#64, rfl, by decide⟩
    | 1, _ => exact ⟨0x71000#64, rfl, by decide⟩
  · match i, hi with
    | 0, _ => exact ⟨_, rfl, rfl⟩
    | 1, _ => exact ⟨_, rfl, rfl⟩

/-- FlTakeOneBuffer: a copied frame at the threshold, an attached one, the whole buffer; nothing published. -/
theorem witness_flTakeOneBuffer : (∀ n ∈ [128, 129, 2048], let s := base.setFl 0 fl0two
      (s.fl 0).st = .run ∧ 1 ≤ n ∧ 1 ≤ (s.fl 0).published ∧
      ((s.fl 0).slot (s.fl 0).cidx).own = .posted { buf := 1, addr := 0x70000#64, bcls := 0 } ∧ n ≤ classSize s.cfg 0 ∧
      (n ≤ s.cfg.rxCopyThresh ↔ n = 128)) ∧
    (base.fl 0).st = .run ∧ (base.fl 0).published = 0 := by decide +kernel

/-- FlTakeSpansBuffers: frames of one copied buffer, of one attached buffer, of both to their last byte, and one byte more. -/
theorem witness_flTakeSpans : let s := base.setFl 0 fl0two
    let b : Nat → RxBuf := fun i => { buf := i + 1, addr := BitVec.ofNat 64 (0x70000 + 0x1000 * i), bcls := 0 }
    (s.fl 0).st = .run ∧ (s.fl 0).Law ∧ (s.fl 0).published = 2 ∧
    (∀ i, i < 2 → ((s.fl 0).slot (((s.fl 0).cidx + i) % (s.fl 0).cap)).own = .posted (b i)) ∧
    (1 ≤ (4096#32).toNat ∧ (4096#32).toNat ≤ bufBytes s.cfg b 2 ∧ bufBytes s.cfg b 2 < (4097#32).toNat) ∧
    (bufBytes s.cfg b 1 = 2048 ∧ s.cfg.rxCopyThresh = 128) :=
  ⟨by decide +kernel, flLawB_sound (by decide +kernel), by decide +kernel, by decide +kernel, by decide +kernel,
    by decide +kernel⟩

/-- FreeListLawCountsBuffers. -/
theorem witness_freeListLaw : fl0two.Law := flLawB_sound (by decide +kernel)

/-! ### Egress -/

theorem witness_eqLaw : eq0.Law ∧ eq0.ringFits ∧ eq0busy.Law ∧ BatchLaw Config.default eq0 ∧ BatchLaw Config.default eq0busy :=
  ⟨eqLawB_sound (by decide +kernel), by unfold EQ.ringFits; decide, eqLawB_sound (by decide +kernel),
    batchLawB_sound (by decide +kernel), batchLawB_sound (by decide +kernel)⟩

/-- EqDoorbellBacksOff: the formula at both ends of a step, nothing pending, below the threshold of 4 in-use slots, at it. -/
theorem witness_eqDoorbell : Config.default.dbBackoff = .formula ∧ (1 ≤ 3 ∧ 2 ^ (2 * 3 - 1) ≤ 32 ∧ 127 < 2 ^ (2 * 3 + 1)) ∧
    (∀ n ∈ [0, 1, 2], let s := base.setEq 0 { eq0 with avail := 123, pending := n }
      (s.eq 0).st = .run ∧ ((s.eq 0).pending < backoff s.cfg ((s.eq 0).cap - (s.eq 0).avail) ↔ n ≠ 2)) := by decide +kernel

/-- SglSizeAndRoundTrip: 1 and 64 segments, at an even flit close to the ring end. -/
theorem witness_sglRoundTrip : (base.eq 0).ringFits ∧ ∀ n ∈ [1, 64], let l := List.replicate n (seg 0x1000 64)
    1 ≤ l.length ∧ l.length ≤ 64 ∧ 1022 % 2 = 0 ∧ sglFlits l.length + sglFlits l.length % 2 ≤ 8 * (base.eq 0).cap :=
  ⟨by unfold EQ.ringFits; decide +kernel, by decide +kernel⟩

/-- PeerReadsCommittedSlots: the largest packet of each form. -/
theorem witness_peerReads : (1 ≤ (List.replicate 36 (seg 0 1)).length ∧ (List.replicate 36 (seg 0 1)).length ≤ 36) ∧
    (pkt 1 128).len.toNat ≤ 128 ∧ ({ Batch.empty 0 with nflits := 64 } : Batch).nflits ≤ 64 ∧
    ({ Batch.empty 0 with nflits := 64 } : Batch).nflits % 2 = 0 := by decide

/-- PeerReadsCommittedSlots: the shortest Ethernet header that has a stated field. -/
theorem witness_lsoFields : ∃ o, lsoPkt.lso = some o ∧ 14 ≤ o.ehLen := ⟨_, rfl, by decide⟩

/-- The refused forms of the single-WR, SGL and batch commands: a batch open, a register empty and full, the wrong kind of
packet, and a full ring. -/
theorem witness_refusedForms :
    (eq0busy.st = .run ∧ eq0busy.batch.accepting = true) ∧ (eq0.st = .run ∧ eq0.sgl.valid = false) ∧
    (eq0sgl (pkt 1 40) [seg 0 40]).sgl.valid = true ∧ (eq0sgl lsoPkt [seg 0 40]).sgl.pkt.lso ≠ none ∧
    ({ eq0sgl lsoPkt [seg 0 40] with avail := 0 } : EQ).avail < ndesc (6 + sglFlits 1 + sglFlits 1 % 2) := by decide

/-- The premises the single-WR statements share, with a packet in the SGL register. -/
theorem witness_eqWr (p : Packet) : let e := eq0sgl p [seg 0x1000 40]
    e.st = .run ∧ e.batch.accepting = false ∧ e.sgl.valid = true ∧ e.sgl.segs ≠ [] ∧ e.Law ∧ e.ringFits := by
  refine ⟨rfl, rfl, rfl, by simp [eq0sgl], ?_, witness_eqLaw.2.1⟩
  refine (EQ.law_iff _).2 ⟨((EQ.law_iff _).1 witness_eqLaw.1).1.congr rfl rfl rfl rfl rfl rfl rfl rfl rfl rfl, fun _ => ⟨rfl, ?_⟩⟩
  show 1 ≤ 256
  decide

/-- EqWrFlushWritesOneSlot, EqWrPktSendsRegister: a full ring, and a ring with the credit. -/
theorem witness_eqWrCredit : EQ.Law { eq0 with avail := 0, pidx := 127, sd := [(0, ⟨127, 0⟩)] } ∧ 1 ≤ eq0.avail ∧
    ndesc (4 + sglFlits 1 + sglFlits 1 % 2) ≤ eq0.avail ∧ ¬ ndesc (4 + sglFlits 1 + sglFlits 1 % 2) ≤ 0 :=
  ⟨eqLawB_sound (by decide +kernel), by decide⟩

/-- EqWrPktSendsRegister, EqWrLsoSendsRegister: a packet without and one with an offload request. -/
theorem witness_eqWrKinds : (pkt 1 40).lso = none ∧ ∃ o, lsoPkt.lso = some o := ⟨rfl, _, rfl⟩

/-- EqWrImmSendsOrKeeps: the held packet is in the SGL register, which a WR command without credit left so. -/
theorem witness_eqWrImmRegister : let s := sglHold 0 (base.setEq 0 (eq0sgl (pkt 1 40) [seg 0x1000 40]))
    ((s.eq 0).st = .run ∧ (s.eq 0).batch.accepting = false ∧ (s.eq 0).Law) ∧
    ImmTakes 0 s (s.eq 0).sgl.pkt { s.eq 0 with sgl := { (s.eq 0).sgl with mapHeld := false, valid := false } } (s.eq 0) :=
  ⟨⟨by decide +kernel, by decide +kernel, eqLawB_sound (by decide +kernel)⟩, .register (by decide +kernel)⟩

/-- EqWrImmSendsOrKeeps: no packet; a packet held, one from the source, of the largest immediate length, one above it, with an offload
request; without credit. -/
theorem witness_eqWrImm : (base.eq 0).heldInSgl = false ∧ (takePacket 0 base).1 = none ∧
    (let s := base.setEq 0 { eq0 with held := some (pkt 1 128) }
     (s.eq 0).st = .run ∧ (s.eq 0).batch.accepting = false ∧ (takePacket 0 s).1 = some (pkt 1 128) ∧ (pkt 1 128).lso = none ∧
     (pkt 1 128).len.toNat = s.cfg.txImmMax ∧ ndesc (4 + 2 * ceilDiv 128 16) ≤ (s.eq 0).avail) ∧
    (takePacket 0 (base.setSrc 0 [.late (pkt 1 129)])).1 = some (pkt 1 129) ∧ base.cfg.txImmMax < (pkt 1 129).len.toNat ∧
    (takePacket 0 (base.setSrc 0 [.ready lsoPkt])).1 = some lsoPkt ∧ lsoPkt.lso ≠ none ∧
    ({ eq0 with avail := 2 } : EQ).avail < ndesc (4 + 2 * ceilDiv 128 16) := by decide +kernel

/-- SglBuildFollowsHost: no packet; no map left; each answer of HOST, and each after a compaction. -/
theorem witness_sglBuild :
    (let s := base
     (s.eq 0).st = .run ∧ (s.eq 0).sgl.valid = false ∧ (takePacket 0 s).1 = none) ∧
    (let s := base.setSrc 0 [.ready (pkt 1 40)]
     (takePacket 0 s).1 = some (pkt 1 40) ∧ 1 ≤ (s.eq 0).mapAvail ∧
     (((hostMaps [.ok [seg 0 40]] s).mapLoad (pkt 1 40)).1 = .ok [seg 0 40]) ∧
     (((hostMaps [.noResource] s).mapLoad (pkt 1 40)).1 = .noResource) ∧
     (let a := (hostMaps [.tooMany, .ok [seg 0 40]] s).mapLoad (pkt 1 40)
      a.1 = .tooMany ∧ ((a.2.setHost { a.2.host with compact := [some (pkt 1 40)] }).compact (pkt 1 40)).1 = some (pkt 1 40) ∧
      ((a.2.setHost { a.2.host with compact := [none] }).compact (pkt 1 40)).1 = none ∧
      (((a.2.setHost { a.2.host with compact := [some (pkt 1 40)] }).compact (pkt 1 40)).2.mapLoad (pkt 1 40)).1
        = .ok [seg 0 40])) ∧
    ({ eq0 with mapAvail := 0 } : EQ).mapAvail = 0 := by decide +kernel

/-- SglWriteStaysInFreeRegion: a flit where the SGL fits to the last free flit, and the next even flit, where it does not. -/
theorem witness_sglWrite : let e := eq0sgl (pkt 1 40) [seg 0x1000 40]
    (e.st = .run ∧ e.sgl.segs ≠ []) ∧
    (e.batch.accepting = false ∧ e.sgl.valid = true ∧ 1014 % 2 = 0 ∧ 1014 < 8 * e.cap ∧
      (1014 + 8 * e.cap - 8 * e.pidx) % (8 * e.cap) + 2 ≤ 8 * e.avail) ∧
    ¬ (1016 + 8 * e.cap - 8 * e.pidx) % (8 * e.cap) + 2 ≤ 8 * e.avail := by decide

/-- SglWriteStaysInFreeRegion: the refused form of a queue just allocated. -/
theorem witness_sglWriteRefused : eq0.st = .run ∧ eq0.sgl.valid = false ∧ eq0.sgl.segs = [] := by decide

/-- TxpktsAddChecksBudgets: each budget at its last value, and one past the length budget. -/
theorem witness_txpktsAdd : let e := eq0sgl (pkt 1 40) [seg 0x1000 40]
    let c := Config.default
    (e.st = .run ∧ e.sgl.valid = true ∧ e.sgl.segs ≠ [] ∧ e.sgl.pkt.lso = none ∧ BatchLaw c e) ∧
    (58 + (4 + sglFlits 1 + sglFlits 1 % 2) = c.maxWrFlits ∧ ceilDiv 64 8 ≤ e.avail ∧ 65495 + e.sgl.pkt.len.toNat < c.coalPlenLimit ∧
      ¬ 65496 + e.sgl.pkt.len.toNat < c.coalPlenLimit) ∧
    BatchLaw c { e with batch := { accepting := true, npkt := 2, nflits := 58, plen := 65495, cur := 58, nmaps := 2 } } :=
  ⟨⟨rfl, rfl, by simp [eq0sgl], rfl, batchLawB_sound (by decide +kernel)⟩, by decide, batchLawB_sound (by decide +kernel)⟩

/-- TxpktsFlushCommitsBatch: no batch, and an open one. -/
theorem witness_txpktsFlush : (eq0.st = .run ∧ eq0.batch.accepting = false) ∧ eq0busy.batch.accepting = true ∧
    eq0busy.st = .run ∧ eq0busy.Law ∧ BatchLaw Config.default eq0busy ∧ eq0busy.ringFits :=
  ⟨by decide, rfl, rfl, witness_eqLaw.2.2.1, witness_eqLaw.2.2.2.2, by unfold EQ.ringFits; decide⟩

/-- EqTxSendsLonePacket: no packet, and one packet of the largest immediate length. -/
theorem witness_eqTxLone :
    ((base.eq 0).st = .run ∧ (base.eq 0).batch.accepting = false ∧ base.cfg.txLowCredit ≤ (base.eq 0).avail ∧
      (takePacket 0 base).1 = none) ∧
    (let s := base.setSrc 0 [.ready (pkt 1 128)]
     (takePacket 0 s).1 = some (pkt 1 128) ∧ (takePacket 0 s).2.src 0 = [] ∧ (pkt 1 128).lso = none ∧
     (pkt 1 128).len.toNat ≤ s.cfg.txImmMax ∧ (pkt 1 128).len.toNat ≤ 65535 ∧
     ndesc (4 + 2 * ceilDiv 128 16) ≤ (s.eq 0).avail) ∧
    (let s := base.setEq 0 (eq0sgl (pkt 1 65535) [seg 0x1000 65535])
     (s.eq 0).st = .run ∧ (s.eq 0).batch.accepting = false ∧ (s.eq 0).sgl.valid = true ∧ (takePacket 0 (s.peek 0).2).1 = none ∧
     (s.eq 0).sgl.pkt.lso = none ∧ (s.eq 0).sgl.pkt.len.toNat ≤ 65535 ∧ (s.eq 0).sgl.segs ≠ [] ∧
     s.cfg.txLowCredit ≤ (s.eq 0).avail ∧ ndesc (4 + sglFlits 1 + sglFlits 1 % 2) ≤ (s.eq 0).avail) := by decide +kernel

/-- EqTxSendsLonePacket, the turns that take a packet: one that fails the precheck, one built and one dropped in a coalescing
context, and one sent as immediate data. -/
theorem witness_eqTxTakes :
    let inHand := fun s => eqHold 0 (takePacket 0 s).1 ((takePacket 0 s).2.peek 0).2
    (base.eq 0).sgl.valid = false ∧ (takePacket 0 (base.setSrc 0 [.ready (pkt 1 65536)])).1 = some (pkt 1 65536) ∧
    precheck (pkt 1 65536) = false ∧
    (let s := fun a => hostMaps a (base.setSrc 0 [.ready (pkt 1 40), .ready (pkt 2 40)])
     let ok := s [.ok [seg 0x1000 40]]; let bad := (s [.tooMany]).setHost { (s [.tooMany]).host with compact := [none] }
     coalescing 0 (takePacket 0 ok).2 = true ∧ precheck (pkt 1 40) = true ∧ (ran (.sglBuild 0#10) (inHand ok)).res.rc = .ok ∧
     (ran (.sglBuild 0#10) (inHand bad)).res.rc = .dropped) ∧
    (let s := base.setSrc 0 [.ready (pkt 1 40), .pause]
     coalescing 0 (takePacket 0 s).2 = false ∧ immOk s.cfg (pkt 1 40) = true ∧ (ran (.eqWrImm 0#10) (inHand s)).res.rc = .ok ∧
     s.cfg.txLowCredit ≤ ((eqDoorbell 0 false (ran (.eqWrImm 0#10) (inHand s))).2.eq 0).avail) := by decide +kernel

/-- EqTxSendsLonePacket, the turns on the register: a packet that fails the precheck, one that joins the batch, one that
the open batch has no room for, and one with an offload request behind an open batch. -/
theorem witness_eqTxRegister :
    (let s := base.setEq 0 (eq0sgl (pkt 1 65536) [seg 0x1000 65536])
     (s.eq 0).st = .run ∧ (s.eq 0).sgl.valid = true ∧ precheck (s.eq 0).sgl.pkt = false ∧ s.cfg.txLowCredit ≤ (s.eq 0).avail) ∧
    (let s := (base.setEq 0 (eq0sgl (pkt 1 40) [seg 0x1000 40])).setSrc 0 [.ready (pkt 2 40)]
     coalescing 0 s = true ∧ s.cfg.txLowCredit ≤ (ran (.txpktsAdd 0#10) (s.peek 0).2 |>.eq 0).avail ∧
     (ran (.txpktsAdd 0#10) (s.peek 0).2).res.rc = .ok) ∧
    (let p := pkt 4 65535
     let s := (base.setEq 0 { eq0busy with sgl := { valid := true, mapHeld := true, pkt := p, segs := [seg 0x1000 65535] } }).setSrc 0
       [.ready (pkt 5 40)]
     coalescing 0 s = true ∧ precheck p = true ∧ (ran (.txpktsAdd 0#10) (s.peek 0).2).res = { rc := .reject, value := 0 } ∧
     (ran (.eqWrPkt 0#10) (flushFirst 0 (s.peek 0).2)).res.rc = .ok) ∧
    (let e := { eq0busy with sgl := { valid := true, mapHeld := true, pkt := lsoPkt, segs := [seg 0x90000 9000] } }
     let s := base.setEq 0 e
     e.batch.accepting = true ∧ lsoPkt.lso ≠ none ∧ precheck lsoPkt = true ∧
     (ran (.eqWrLso 0#10) (flushFirst 0 (s.peek 0).2)).res.rc = .ok) := by decide +kernel

/-- EqTxLeavesNothingPending: an invocation that sends, with a limit, and a byte outside the free flits. -/
theorem witness_eqTxPending :
    (let s := base.setSrc 0 [.ready (pkt 1 40), .ready (pkt 2 40)]
     (s.eq 0).st = .run ∧ faultValid s.fault = false ∧ s.cfg.txLowCredit ≤ (s.eq 0).avail) ∧
    ¬ (base.eq 0).inFlits (8 * (base.eq 0).pidx)
      (8 * ((base.eq 0).cap - 1 - subMod (base.eq 0).pidx (base.eq 0).cidx (base.eq 0).cap)) 0x12000 :=
  ⟨by decide +kernel, by unfold EQ.inFlits; decide +kernel⟩

/-- EqTxLeavesNothingPending: the queue stalls for want of credit, without a fault. -/
theorem witness_eqTxStalls :
    let s := (base.setEq 0
      { eq0 with cap := 8, txMaps := 16, pidx := 6, avail := 1, statAddr := 0x10200#64, mapPidx := 3, mapAvail := 13
                 sd := [(0, ⟨2, 1⟩), (2, ⟨2, 1⟩), (4, ⟨2, 1⟩)] }).setSrc 0 [.ready (pkt 5 40)]
    (ran (.eqTx 0#10 1#32) s).fault = s.fault ∧ (ran (.eqTx 0#10 1#32) s).res.rc = .stalled := by decide +kernel

/-! ### Reclaim -/

/-- EqReclaimableReadsStatusWord: an index outside the ring, one past what was produced, and the last one produced. -/
theorem witness_eqReclaimable : let e := eqRc2
    (e.st = .reg ∨ e.st = .run) ∧ e.cap ≤ 128 ∧ (13 < e.cap ∧ e.cap - 1 - e.avail < (13 + e.cap - e.cidx) % e.cap) ∧
    (12 < e.cap ∧ (12 + e.cap - e.cidx) % e.cap = e.cap - 1 - e.avail) := by decide

/-- EqReclaimReturnsWholeRequests: nothing reclaimable, too little, a torn record, whole records with and without a limit. -/
theorem witness_eqReclaim : eqRc2.Law ∧ (5 + eqRc2.cap - eqRc2.cidx) % eqRc2.cap = 0 ∧
    ((12 + eqRc2.cap - eqRc2.cidx) % eqRc2.cap < (8#16).toNat) ∧ wrMaps eqRc2 4 eqRc2.cidx 4 = none ∧
    wrMaps eqRc2 7 eqRc2.cidx 7 = some 6 ∧ (4#32).toNat < 2 + (eqRc2.slot ((eqRc2.cidx + 2) % eqRc2.cap)).descUsed ∧
    (4#32).toNat < (5#16).toNat :=
  ⟨eqLawB_sound (by decide +kernel), by decide +kernel⟩

/-! ### Lifecycle -/

/-- QAllocIqRegisters: an unused queue, with and without a forwarding queue; no memory, a base, each answer of PEER; a base inside
a live ring, and one that entries of 128 bytes do not allow. -/
theorem witness_qAllocIq :
    (State.reset.iq 1).st = .uninit ∧
    ((base.iq 3).st = .uninit ∧ (base.iq 2).role = .intrFwd ∧ ((base.iq 2).st = .reg ∨ (base.iq 2).st = .run)) ∧
    ((State.reset.setHost { HostIn.none with dmaAlloc := [none] }).dmaAlloc 16384 64).1 = none ∧
    ((hostAlloc 0x4000 (.ok 0x11#17) State.reset).dmaAlloc 16384 64).1 = some 0x4000#64 ∧
    ((hostAlloc 0x4000 (.ok 0x11#17) State.reset).dmaAlloc 16384 64).2.host.peer = [.ok 0x11#17] ∧
    ((hostAlloc 0x10000 (.ok 0x11#17) base).dmaAlloc 16384 64).1 = none ∧
    (let s := { hostAlloc 0x4040 (.ok 0x11#17) State.reset with cfg := { Config.default with ringAlign := 64 } }
     (s.dmaAlloc 1024 64).1 = some 0x4040#64 ∧ (s.dmaAlloc 1024 128).1 = none) ∧
    State.reset.lookup 0x11 = none ∧ (wired.lookup 0x11).isSome = true ∧
    ¬ ((base.iq 0).role = .intrFwd ∧ ((base.iq 0).st = .reg ∨ (base.iq 0).st = .run)) := by decide +kernel

/-- QAllocFlRegisters: an unused free list, and an RX queue in `MEM` and in `REG` without one. -/
theorem witness_qAllocFl : ∀ st ∈ [QState.mem, .reg], let s := State.reset.setIq 1 { iq1 with st := st, fl := none }
    (s.fl 0).st = .uninit ∧ (s.iq 1).role = .rx ∧ ((s.iq 1).st = .mem ∨ (s.iq 1).st = .reg) ∧ (s.iq 1).fl = none ∧
    (s.iq 0).role ≠ .rx := by decide +kernel

/-- QAllocEqRegisters: an unused egress queue, and a queue to notify. -/
theorem witness_qAllocEq : (base.eq 1).st = .uninit ∧ (∀ i ∈ [0, 1], ((base.iq i).role = .fwEvt ∨ (base.iq i).role = .rx) ∧
    ((base.iq i).st = .reg ∨ (base.iq i).st = .run)) ∧ Tab.find base.cfg.txMaps 1 = none ∧
    ¬ ((base.iq 2).role = .fwEvt ∨ (base.iq 2).role = .rx) := by decide +kernel

/-- QStartRunsQueue: each type in `REG`; an RX queue whose free list runs, and one whose free list does not. -/
theorem witness_qStart :
    (let s := (base.setIq 1 { iq1 with st := .reg })
     s.qst .iq 1 = .reg ∧ (s.iq 1).role = .rx ∧ (s.iq 1).fl = some 0 ∧ (s.fl 0).st = .run) ∧
    (let s := ((base.setIq 1 { iq1 with st := .reg }).setFl 0 { fl0 with st := .reg }).setEq 0 { eq0 with st := .reg }
     s.qst .iq 1 = .reg ∧ (s.fl 0).st ≠ .run ∧ s.qst .fl 0 = .reg ∧ s.qst .eq 0 = .reg) ∧
    ((peerSays [.err 7] base).peerCmd (.start .eq 0)).1 = .err 7 ∧ ((peerSays [.ok 0] base).peerCmd (.start .eq 0)).1 = .ok 0 := by
  decide +kernel

/-- QStopAndQFreeStepDown, and the refused forms of QTeardownReleasesAfterDisabling: each type in `RUN` and in `REG`, with the owner running and not, with and without dependents. -/
theorem witness_qStopFree :
    (base.qst .iq 0 = .run ∧ base.qst .fl 0 = .run ∧ base.qst .eq 0 = .run ∧ (base.iq (base.fl 0).owner).st = .run) ∧
    (let s := base.setIq 1 { iq1 with st := .reg }
     s.qst .fl 0 = .run ∧ (s.iq (s.fl 0).owner).st ≠ .run ∧ s.qst .iq 1 = .reg ∧ (s.fl 0).st ≠ .uninit ∧ (s.fl 0).owner = 1) ∧
    (let s := (base.setIq 1 { iq1 with st := .reg }).setFl 0 { fl0 with st := .reg }
     s.qst .fl 0 = .reg ∧ (s.iq (s.fl 0).owner).st ≠ .run) ∧
    (let s := base.setIq 0 { iq0 with st := .reg }
     s.qst .iq 0 = .reg ∧ (s.eq 0).st ≠ .uninit ∧ (s.eq 0).iq = 0) ∧
    (let s := wired.setIq 2 { iq2 with st := .reg }
     s.qst .iq 2 = .reg ∧ (s.iq 1).st ≠ .uninit ∧ (s.iq 1).fwd = true ∧ (s.iq 1).tgt.toNat = 2) := by decide +kernel

/-- QStopAndQFreeStepDown: a running EQ with an open batch, a held packet, and PEER agreeing. -/
theorem witness_qStopEq : let s := peerSays [.ok 0] (base.setEq 0 { eq0busy with held := some (pkt 7 40) })
    s.qst .eq 0 = .run ∧ (s.peerCmd (.stop .eq 0x40)).1 = .ok 0 ∧ (s.eq 0).Law ∧ (s.eq 0).batch.nmaps = 2 :=
  ⟨by decide +kernel, by decide +kernel, eqLawB_sound (by decide +kernel), by decide +kernel⟩

/-- QStopAndQFreeStepDown, QTeardownReleasesAfterDisabling: an IQ that no record depends on. -/
theorem witness_noDependents : let s := base.setIq 2 { iq2 with st := .reg }
    s.qst .iq 2 = .reg ∧ (∀ f, (s.fl f).st ≠ .uninit → (s.fl f).owner ≠ 2) ∧ (∀ e, (s.eq e).st ≠ .uninit → (s.eq e).iq ≠ 2) ∧
      ∀ i, (s.iq i).st ≠ .uninit → (s.iq i).fwd = true → (s.iq i).tgt.toNat ≠ 2 := by
  refine ⟨by decide +kernel, fun f hf => ?_, fun e he => ?_, fun i hi hw => ?_⟩
  · obtain rfl : f = 0 := by
      rcases listed FL.reset base.fls f with e | e
      · exact absurd (congrArg FL.st e) hf
      · simpa [base, State.setEq, State.setFl, State.setIq, State.reset, Tab.put] using List.mem_map_of_mem (f := Prod.fst) e
    decide +kernel
  · obtain rfl : e = 0 := by
      rcases listed EQ.reset base.eqs e with h | h
      · exact absurd (congrArg EQ.st h) he
      · simpa [base, State.setEq, State.setFl, State.setIq, State.reset, Tab.put] using List.mem_map_of_mem (f := Prod.fst) h
    decide +kernel
  · have hf : ∀ c ∈ (base.setIq 2 { iq2 with st := .reg }).iqs, c.2.fwd = false := by decide +kernel
    rcases listed IQ.reset (base.setIq 2 { iq2 with st := .reg }).iqs i with e | e
    · exact absurd (congrArg IQ.st e) hi
    · exact absurd hw (by rw [show ((base.setIq 2 { iq2 with st := .reg }).iq i).fwd = false from hf _ e]; decide)

/-- QTeardownReleasesAfterDisabling: a queue without memory, and one of each other state. -/
theorem witness_qTeardown : State.reset.qst .eq 0 = .uninit ∧ (∀ st ∈ [QState.mem, .reg, .run],
    (base.setEq 0 { eq0 with st := st }).qst .eq 0 ≠ .uninit) ∧
    (let s := base.setIq 1 { iq1 with st := .reg }
     s.qst .fl 0 ≠ .uninit ∧ (s.iq (s.fl 0).owner).st ≠ .run) := by decide +kernel

/-- LifecycleTransitions: a command that moves its queue. -/
theorem witness_lifecycleTransitions : let s := peerSays [.ok 0] (base.setEq 0 { eq0 with st := .reg })
    ∃ t, exec (.qStart 0#10 .eq) s = .next t ∧ t.qst .eq 0 ≠ s.qst .eq 0 := ⟨_, rfl, by decide +kernel⟩

end Sys2Proof.Tests
end

section
/-! PROOFS. 00_scope.md: the parameters (R10, R11). -/

namespace Sys2Proof.Machine

/-- The parameters stay at one value under the recorded actions, the memory writes and the draws. -/
theorem cfg_closedOut (c : Config) : ClosedOut (fun s => s.cfg = c) where
  emit _ _ h := h
  writeFlit _ _ _ h := h
  drew _ _ _ _ _ h := h
  draws _ _ h := h

/-- The parameters stay at one value under every update a command is made of. -/
theorem cfg_closed (c : Config) : ClosedCmd (fun s => s.cfg = c) where
  toClosed := (cfg_closedOut c).noRecords (fun _ _ _ _ _ _ _ _ _ h => h) (fun _ _ _ h => h)
  finish _ _ _ h := h
  raise _ _ _ h := h

/-- No command, the lifecycle commands among them, changes the parameters. -/
theorem exec_cfg {i : Instr} {s t : State} (h : exec i s = .next t) : t.cfg = s.cfg := by
  obtain ⟨u, hu, hcfg⟩ := exec_keeps (cfg_closed s.cfg) i rfl
  cases hu.symm.trans h
  exact hcfg

/-- Settles O8: a step that runs no command writes `RES`, resets the block, which keeps the parameters (R600), or is an
action of HOST or PEER, and a command keeps them by `exec_cfg`. -/
theorem stepKeepsParameters : Obligations.StepKeepsParameters := by
  intro s t h
  refine step_keeps (P := fun u => u.cfg = s.cfg) ?command ?refused ?taken ?reset ?environment rfl h
  case command => exact fun _ _ _ _ hu _ he => (exec_cfg he).trans hu
  case refused => exact fun u rc hu => (u.finish_cfg rc 0).trans hu
  case taken => exact fun u l hu => (u.setInbox_cfg l).trans hu
  case reset => exact fun u hu => u.blockReset_cfg.trans hu
  case environment => exact fun _ _ he hu => he.cfg.trans hu

end Sys2Proof.Machine
end

section
/-! PROOFS. 10_state.md, the registers: `FAULT` and `RES` (R42, R44), and the lifecycle states a command needs (R61). -/

namespace Sys2Proof.Machine

/-! ### The fault register (R42, R501) -/

/-- The codes of R501 are 1 to 6. -/
theorem FaultCode.code_range (c : FaultCode) : 1 ≤ c.code.toNat ∧ c.code.toNat ≤ 6 := by cases c <;> decide

/-- The fields of a queue selector (R42). -/
theorem Sel.word_fields (q : Sel) : q.word.extractLsb' 12 4 = 0 ∧ q.word.extractLsb' 10 2 = q.type.code ∧
    q.word.extractLsb' 0 10 = BitVec.ofNat 10 q.index := by
  unfold Sel.word
  refine ⟨?_, ?_, ?_⟩
  · rw [extract_append_hi _ (BitVec.ofNat 10 q.index) _ (by omega), extract_append_hi _ q.type.code _ (by omega)]
    exact extract_all _
  · rw [extract_append_hi _ (BitVec.ofNat 10 q.index) _ (by omega), extract_append_lo _ q.type.code (by omega)]
    exact extract_all _
  · rw [extract_append_lo _ (BitVec.ofNat 10 q.index) (by omega)]
    exact extract_all _

/-- The upper half of a `FAULT` value: valid, seven zero bits, the code (R42). -/
theorem faultWord_high (c : FaultCode) (q : Sel) :
    (faultWord c q).extractLsb' 24 7 = 0 ∧ (faultWord c q).extractLsb' 16 8 = c.code := by
  unfold faultWord
  refine ⟨?_, ?_⟩
  · rw [extract_append_hi _ q.word _ (by omega), extract_append_hi _ c.code _ (by omega), extract_append_lo _ 0#7 (by omega)]
    exact extract_all _
  · rw [extract_append_hi _ q.word _ (by omega), extract_append_lo _ c.code (by omega)]
    exact extract_all _

/-- A field inside the lower half of a `FAULT` value is a field of the selector (R42). -/
theorem faultWord_low (c : FaultCode) (q : Sel) {n l : Nat} (h : n + l ≤ 16) :
    (faultWord c q).extractLsb' n l = q.word.extractLsb' n l := extract_append_lo _ q.word h

/-- Settles O9: the fields of the concatenation, the selector's fields read through its lower half. -/
theorem faultRegisterFields : Obligations.FaultRegisterFields := by
  intro c t j hj
  obtain ⟨hzero, hcode⟩ := faultWord_high c { type := t, index := j }
  obtain ⟨hpad, htype, hindex⟩ := Sel.word_fields { type := t, index := j }
  refine ⟨faultValid_faultWord c _, hzero, hcode, ?pad, ?type, ?index, c.code_range⟩
  case pad => rw [faultWord_low c _ (by omega), hpad]
  case type => rw [faultWord_low c _ (by omega), htype]
  case index =>
    rw [faultWord_low c _ (by omega), hindex, BitVec.toNat_ofNat]
    exact Nat.mod_eq_of_lt hj

/-- The selector holds 10 bits of the index, so whatever queue raises a fault, the value names one the block can have. -/
theorem faultLegal_faultWord (c : FaultCode) (q : Sel) : FaultLegal (faultWord c q) := by
  have hword : (Sel.mk q.type (q.index % 1024)).word = q.word :=
    congrArg (fun x => (0#4 ++ q.type.code) ++ x) (BitVec.eq_of_toNat_eq (by simp))
  refine .inr ⟨c, { type := q.type, index := q.index % 1024 }, Nat.mod_lt _ (by omega), ?_⟩
  unfold faultWord
  rw [hword]

/-- A legal `FAULT` stays legal under every update a command is made of: only a raised fault writes it. -/
theorem faultLegal_closed : ClosedCmd (fun s => FaultLegal s.fault) where
  toClosed := ClosedOut.noRecords ⟨fun _ _ h => h, fun _ _ _ h => h, fun _ _ _ _ _ h => h, fun _ _ h => h⟩
    (fun _ _ _ _ _ _ _ _ _ h => h) (fun _ _ _ h => h)
  finish _ _ _ h := h
  raise _ c q _ := faultLegal_faultWord c q

/-- Settles O14: a command writes `FAULT` only by raising a fault, a reset writes 0, and no other event writes it. -/
theorem stepKeepsFaultLegal : Obligations.StepKeepsFaultLegal := by
  intro s t hs h
  refine step_keeps (P := fun u => FaultLegal u.fault) ?command ?refused ?taken ?reset ?environment hs h
  case command =>
    intro i u t _ hu _ he
    obtain ⟨t', he', ht⟩ := exec_keeps faultLegal_closed i hu
    cases he'.symm.trans he
    exact ht
  case refused => exact fun _ _ hu => hu
  case taken => exact fun _ _ hu => hu
  case reset => exact fun _ _ => .inl rfl
  case environment => exact fun _ _ he hu => he.fault ▸ hu

/-! ### The result register (R44) -/

/-- Before a command ends, `FAULT` and `RES` are as they were. -/
theorem registers_closed (s : State) : Closed (fun u => u.fault = s.fault ∧ u.res = s.res) :=
  ClosedOut.noRecords ⟨fun _ _ h => h, fun _ _ _ h => h, fun _ _ _ _ _ h => h, fun _ _ h => h⟩
    (fun _ _ _ _ _ _ _ _ _ h => h) (fun _ _ _ h => h)

/-- Settles O10: a command ends either with a result, and then `FAULT` is as it was, or with a fault, and then `RES` is. -/
theorem faultLeavesResult : Obligations.FaultLeavesResult := by
  intro i s t he hne
  obtain ⟨t', he', hend⟩ := exec_ends (registers_closed s) i (s := s) ⟨rfl, rfl⟩
  cases he'.symm.trans he
  obtain ⟨u, rc, v, hu, rfl⟩ | ⟨u, c, q, hu, rfl⟩ := hend
  · exact absurd hu.1 hne
  · exact hu.2

/-! ### The lifecycle states of a command (R61, R431) -/

/-- A command whose guard fails is refused. -/
theorem refused_of_not {c : Prop} [Decidable c] (h : ¬ c) (t s : State) :
    (Host.Outcome.next (if c then t else s.badCmd) : Host.Outcome State Fault Refusal) =
      .next { s with res := { rc := .badCmd, value := 0 } } := congrArg _ (if_neg h)

/-- `SGL_WRITE` needs a running queue (R365). -/
theorem sglWriteOk_run {e : EQ} {f : Nat} (h : sglWriteOk e f = true) : e.st = .run := by
  simp only [sglWriteOk, Bool.and_eq_true, decide_eq_true_eq] at h
  exact h.1.1.1.1.1

/-- A queue is registered in `REG` and `RUN` alone. -/
theorem not_registered {st : QState} (h : st ∉ [.reg, .run]) : ¬ st.registered = true := by
  rw [registered_iff]
  simpa using h

/-- Settles O7: every command tests the lifecycle state of its queue before anything else, in the guard that refuses it. -/
theorem wrongStateIsRefused : Obligations.WrongStateIsRefused := by
  intro i s h
  have only {st a : QState} (h : st ∉ [a]) : st ≠ a := fun e => h (List.mem_singleton.2 e)
  cases i with
  | iqCheck q | iqConsume q | iqCredit q | iqService q b => exact refused_of_not (only h) _ s
  | flTake q n => exact refused_of_not (only h) _ s
  | flSelect q m =>
    have hst : (s.fl q.toNat).st = .uninit := by
      change (s.fl q.toNat).st ∉ [.mem, .reg, .run] at h
      revert h
      cases (s.fl q.toNat).st <;> decide
    exact congrArg Host.Outcome.next (if_pos hst)
  | flRefill q n | flDoorbell q b => exact refused_of_not (not_registered h) _ s
  | eqTx q l | eqDoorbell q b | txpktsFlush q => exact refused_of_not (only h) _ s
  | eqWrPkt q | eqWrImm q | eqWrFlush q | sglBuild q | txpktsAdd q => exact refused_of_not (fun g => only h g.1) _ s
  | eqWrLso q =>
    show execEqWrLso q s = _
    unfold execEqWrLso
    dsimp only
    cases (s.eq q.toNat).sgl.pkt.lso with
    | none => rfl
    | some l => exact refused_of_not (fun g => only h g.1) _ s
  | sglWrite q f => exact refused_of_not (fun g => only h (sglWriteOk_run g)) _ s
  | eqReclaimable q => exact refused_of_not (not_registered h) _ s
  | eqReclaim q a m => exact refused_of_not (fun g => not_registered h g.1) _ s
  | qAllocIq q role tmr pktc esize fwd capM1 tgt => exact refused_of_not (fun g => only h g.1) _ s
  | qAllocFl q capM1 iq | qAllocEq q capM1 iq => exact refused_of_not (fun g => only h g.1) _ s
  | qStart q ty | qStop q ty | qFree q ty => exact refused_of_not (fun g => only h g.1) _ s
  | qTeardown q ty =>
    change s.qst ty q.toNat ∉ [.uninit, .mem, .reg, .run] at h
    revert h
    cases s.qst ty q.toNat <;> simp

end Sys2Proof.Machine
end

section
/-! PROOFS. 10_state.md, the laws of the queue records, from step to step: ingress bounds (R45), free lists (R53), egress
credit (R57). -/

namespace Sys2Proof.Machine

/-! ### Ingress queues (R45) -/

/-- No action of HOST or PEER writes a field that the bounds read. -/
theorem EnvStep.iqInv {s t : State} (he : EnvStep s t) (h : IqInv s) : IqInv t := fun k hk => by
  obtain ⟨b, hb⟩ := he.iq k
  rw [hb] at hk ⊢
  exact (h k hk).congr rfl rfl rfl rfl (.inl rfl)

/-- Settles O27: every command keeps the bounds under well-formed parameters, which every step keeps with them. -/
theorem stepKeepsIngressBounds : Obligations.StepKeepsIngressBounds := by
  intro s t hcfg hs h
  refine (step_keeps (P := fun u => u.cfg.wf = true ∧ IqInv u) ?command ?refused ?taken ?reset ?environment ⟨hcfg, hs⟩ h).2
  case command =>
    rintro i u t hw ⟨hc, hu⟩ _ he
    exact ⟨exec_cfg he ▸ hc, exec_iqInv hc hw hu he⟩
  case refused => exact fun _ _ hu => hu
  case taken => exact fun _ _ hu => hu
  case reset => exact fun _ hu => ⟨hu.1, fun _ hk => absurd rfl hk⟩
  case environment => exact fun _ _ he hu => ⟨he.cfg ▸ hu.1, he.iqInv hu.2⟩

/-! ### Free lists (R53) -/

/-- Settles O34: every command keeps the law, a reset leaves no free list with memory, and no action of HOST or PEER writes a
free-list record. -/
theorem stepKeepsFreeListLaw : Obligations.StepKeepsFreeListLaw := by
  intro s t hs h
  refine step_keeps (P := FlInv) ?command ?refused ?taken ?reset ?environment hs h
  case command => exact fun _ _ _ hw hu _ he => exec_flInv hw hu he
  case refused => exact fun _ _ hu => hu
  case taken => exact fun _ _ hu => hu
  case reset => exact fun _ _ _ hk => absurd rfl hk
  case environment => exact fun _ _ he hu => hu.congr he.fl

/-- The posted slots are the `cap − 1 − needed` slots from `cidx` on, each listed once. -/
theorem FL.Law.posted_perm {f : FL} (h : f.Law) : ((List.range f.cap).filter fun j => (f.slot j).own.isPosted).Perm
    ((List.range (f.cap - 1 - f.needed)).map fun i => (f.cidx + i) % f.cap) := by
  have hpos := h.cap_pos
  have hwin : ((List.range (f.cap - 1 - f.needed)).map fun i => (f.cidx + i) % f.cap).Nodup := by
    refine List.Nodup.map_on (fun i hi k hk e => ?_) List.nodup_range
    rw [List.mem_range] at hi hk
    exact add_mod_inj h.cidx_lt (by omega) (by omega) e
  refine (List.perm_ext_iff_of_nodup (List.nodup_range.filter _) hwin).2 fun j => ?_
  simp only [List.mem_filter, List.mem_map, List.mem_range, h.window]
  constructor
  · rintro ⟨hj, -, hd⟩
    exact ⟨subMod j f.cidx f.cap, hd, add_subMod hj h.cidx_lt⟩
  · rintro ⟨i, hi, rfl⟩
    have hlt := Nat.mod_lt (f.cidx + i) hpos
    exact ⟨hlt, hlt, by rw [subMod_add h.cidx_lt (by omega)]; exact hi⟩

/-- The number of posted slots under the law (R53). -/
theorem FL.Law.postedCount_eq {f : FL} (h : f.Law) : f.postedCount = f.cap - 1 - f.needed :=
  h.posted_perm.length_eq.trans (by simp)

/-- Settles O33: the posted slots are counted by the window of the law. -/
theorem freeListLawCountsBuffers : Obligations.FreeListLawCountsBuffers := by
  intro f h
  have hneeded := h.needed_le
  rw [h.postedCount_eq]
  exact ⟨by omega, h.pend_le⟩

/-! ### Egress queues (R57, R343) -/

/-- Every step keeps the credit law, the map law and the batch budgets of every EQ. -/
theorem step_eqAll {s t : State} (hs : EqAll s) (h : step s = .next t) : EqAll t := by
  refine step_keeps (P := EqAll) ?command ?refused ?taken ?reset ?environment hs h
  case command => exact fun _ _ _ hw hu _ he => exec_eqAll hw hu he
  case refused => exact fun _ _ hu => hu
  case taken => exact fun _ _ hu => hu
  case reset => exact fun _ _ _ hk => absurd rfl hk
  case environment => exact fun _ _ he hu => hu.congr he.eq he.cfg

/-! ### Pending slots (R57): commands of other queues and the lifecycle -/

/-- The pending slots of every EQ with memory are in use (R57). -/
def PendInv (s : State) : Prop := ∀ j, (s.eq j).st ≠ .uninit → (s.eq j).PendLaw

/-- The fields the bound on pending reads. -/
def EQ.credit (e : EQ) : Nat × Nat × Nat := (e.cap, e.avail, e.pending)

theorem EQ.PendLaw.congr {e g : EQ} (h : e.PendLaw) (hc : g.credit = e.credit) : g.PendLaw := by
  simp only [EQ.credit, Prod.mk.injEq] at hc
  obtain ⟨hcap, havail, hpend⟩ := hc
  rw [EQ.PendLaw, EQ.inUse, hcap, havail, hpend]
  exact h

theorem PendInv.congr {s t : State} (h : PendInv s) (he : ∀ k, t.eq k = s.eq k) : PendInv t := fun j hj => by
  rw [he] at hj ⊢
  exact h j hj

theorem PendInv.one {s t : State} (h : PendInv s) (j : Nat) (he : ∀ k, k ≠ j → t.eq k = s.eq k)
    (hj : (t.eq j).st ≠ .uninit → (t.eq j).PendLaw) : PendInv t := fun k hk => by
  by_cases hkj : k = j
  · subst hkj; exact hj hk
  · rw [he k hkj] at hk ⊢; exact h k hk

/-- The bound after an operation on one EQ that moves no credit. -/
theorem PendInv.after {s t : State} {j : Nat} (h : PendInv s) (ho : OnlyEq j s t) (hc : (t.eq j).credit = (s.eq j).credit) :
    PendInv t := h.one j (fun k hk => ho.1.eqs k (.inr hk)) fun hj => (h j (ho.st ▸ hj)).congr hc

theorem eqProgress_credit (j : Nat) (s : State) : ((eqProgress j s).eq j).credit = (s.eq j).credit := by
  unfold eqProgress
  dsimp only
  split
  · rw [State.emit_get_eq, State.setEq_same, State.setEq_same]; rfl
  · rw [State.setEq_same]; rfl

theorem pendInv_fl (j : Nat) : ClosedFl j PendInv where
  emit _ _ h := h
  writeFlit _ _ _ h := h
  drew _ _ _ _ _ h := h
  draws _ _ h := h
  setFl _ _ _ h := h
  setPeerFl _ _ h := h

theorem pendInv_iq (j : Nat) : ClosedIq j PendInv where
  emit _ _ h := h
  writeFlit _ _ _ h := h
  drew _ _ _ _ _ h := h
  draws _ _ h := h
  setIq _ _ _ h := h
  setPeerIq _ _ h := h

theorem pendInv_ingress : ClosedIngress PendInv where
  emit _ _ h := h
  progress j s h := h.after ((onlyEq_closed j s).eqProgress (OnlyEq.refl j s)) (eqProgress_credit j s)
  take j n _ h := (pendInv_fl j).flTake h n
  refill j n _ h := (pendInv_fl j).flRefill h n
  doorbell j b _ h := (pendInv_fl j).flDoorbell h b
  svc _ _ _ h := h
  count _ _ _ h := h
  consume j _ h := (pendInv_iq j).consumed h
  credit j _ h := (pendInv_iq j).creditReturn h

/-- A command that ends with the bound, by its result or by its fault, ends in a state with the bound. -/
theorem pendInv_of_ends {i : Instr} {s t : State} (h : ∃ t, exec i s = .next t ∧ Ends PendInv t) (he : exec i s = .next t) :
    PendInv t := by
  obtain ⟨t', he', hend⟩ := h
  cases he'.symm.trans he
  obtain ⟨u, rc, v, hu, rfl⟩ | ⟨u, c, q, hu, rfl⟩ := hend <;> exact hu

theorem allocEnd_pendInv (t : QType) (j : Nat) (r : PeerReq) {s : State} (h : PendInv s) (hj : t = .eq → (s.eq j).PendLaw) :
    PendInv (allocEnd t j r s) := by
  obtain ⟨u, hc, ⟨v, e⟩ | ⟨id0, _, e⟩⟩ := allocEnd_cases t j r s
  · rw [e]; exact h.congr hc.eqr
  · rw [e]
    have hu : PendInv u := h.congr hc.eqr
    have hf := register_frame t j (ctxIdFor t id0) u
    show PendInv (register t j (ctxIdFor t id0) u)
    by_cases ht : t = .eq
    · subst ht
      refine hu.one j (fun k hk => hf.eqs k (.inr hk)) fun _ => ?_
      rw [register_eq, if_pos rfl, hc.eqr]
      exact (hj rfl).congr rfl
    · exact hu.congr fun k => hf.eqs k (.inl ht)

theorem setSt_pendInv (t : QType) (j : Nat) (st : QState) {s : State} (h : PendInv s) (hj : s.qst t j ≠ .uninit) :
    PendInv (s.setSt t j st) := by
  cases t with
  | iq | fl => exact h
  | eq =>
    refine h.one (t := s.setEq j _) j (fun k hk => State.setEq_ne _ _ hk) fun _ => ?_
    rw [State.setEq_same]
    exact (h j hj).congr rfl

theorem started_pendInv (t : QType) (j : Nat) {s : State} (h : PendInv s) : PendInv (started t j s).2 := by
  cases t with
  | iq => exact (pendInv_iq j).creditReturn h
  | fl => exact (pendInv_fl j).flDoorbell ((pendInv_fl j).flRefill h _) _
  | eq => exact h

theorem discardFor_pendInv (t : QType) (j : Nat) {s : State} (h : PendInv s) (hl : t = .eq → (s.eq j).Law) :
    PendInv (discardFor t j s) := by
  cases t with
  | iq | fl => exact h
  | eq =>
    refine h.after ((onlyEq_closed j s).discardTx (OnlyEq.refl j s)) ?_
    show ((discardTx j s).eq j).credit = _
    rw [discardTx_eq (hl rfl)]
    rfl

/-- A fresh EQ has nothing pending (R426). -/
theorem exec_qAllocEq_pendInv {q : Qid} {capM1 : BitVec 16} {iq : Qid} {s t : State} (h : PendInv s)
    (he : exec (.qAllocEq q capM1 iq) s = .next t) : PendInv t := by
  rcases execQAllocEq_cases he with rfl | ⟨_, _, ⟨u, hu, rfl⟩ | ⟨base, cur, u, v, r, -, hu, rfl, rfl⟩⟩
  · exact h
  · exact h.congr hu.eqr
  · have hfresh : ∀ v : State, ((v.setEq q.toNat (freshEq (s.eq q.toNat) base (capM1.toNat + 1) iq.toNat
        (txMapsFor s.cfg q.toNat (capM1.toNat + 1)) cur)).eq q.toNat).PendLaw := fun v => by
      rw [State.setEq_same]
      exact Nat.zero_le _
    have hu' : PendInv u := h.congr hu.eqr
    exact allocEnd_pendInv _ _ _ (hu'.one q.toNat (fun k hk => State.setEq_ne _ _ hk) fun _ => hfresh _) fun _ => hfresh _

theorem exec_qStart_pendInv {q : Qid} {ty : QType} {s t : State} (h : PendInv s) (he : exec (.qStart q ty) s = .next t) :
    PendInv t := by
  rcases execQStart_cases he with rfl | ⟨hst, _, u, hu, ⟨v, rfl⟩ | rfl⟩
  · exact h
  · exact h.congr hu.eqr
  · have hmem : u.qst ty q.toNat ≠ .uninit := by rw [hu.sameFixed.qst, hst]; decide
    exact started_pendInv ty q.toNat (setSt_pendInv ty q.toNat .run (h.congr hu.eqr) hmem)

theorem exec_qStop_pendInv {q : Qid} {ty : QType} {s t : State} (hl : EqInv s) (h : PendInv s)
    (he : exec (.qStop q ty) s = .next t) : PendInv t := by
  rcases execQStop_cases he with rfl | ⟨hst, _, u, hu, ⟨v, rfl⟩ | rfl⟩
  · exact h
  · exact h.congr hu.eqr
  · have hmem : u.qst ty q.toNat ≠ .uninit := by rw [hu.sameFixed.qst, hst]; decide
    refine discardFor_pendInv ty q.toNat (setSt_pendInv ty q.toNat .reg (h.congr hu.eqr) hmem) ?_
    rintro rfl
    have hlaw : (u.eq q.toNat).Law := by
      rw [hu.eqr]
      exact hl q.toNat (hu.eqr q.toNat ▸ hmem)
    show ((u.setEq q.toNat _).eq q.toNat).Law
    rw [State.setEq_same]
    exact hlaw.same rfl hlaw.sg_map

theorem exec_qFree_pendInv {q : Qid} {ty : QType} {s t : State} (h : PendInv s) (he : exec (.qFree q ty) s = .next t) :
    PendInv t := by
  rcases execQFree_cases he with rfl | ⟨hst, _, u, hu, ⟨v, rfl⟩ | rfl⟩
  · exact h
  · exact h.congr hu.eqr
  · have hmem : u.qst ty q.toNat ≠ .uninit := by rw [hu.sameFixed.qst, hst]; decide
    have hu' : PendInv u := h.congr hu.eqr
    exact setSt_pendInv ty q.toNat .mem (s := u.setQmap _) hu' hmem

theorem exec_qTeardown_pendInv {q : Qid} {ty : QType} {s t : State} (h : PendInv s)
    (he : exec (.qTeardown q ty) s = .next t) : PendInv t := by
  rcases execQTeardown_cases he with rfl | ⟨_, rfl⟩ | ⟨_, _, _, u, n, hd, rfl⟩
  · exact h
  · exact h
  · show PendInv u
    by_cases ht : ty = .eq
    · subst ht
      exact h.one q.toNat (fun k hk => hd.eqs k (.inr hk)) fun hj => absurd hd.gone hj
    · exact h.congr fun k => hd.eqs k (.inl ht)

/-- A command of an IQ, of a free list or of the lifecycle moves no credit of an EQ with memory. -/
theorem exec_pendInv_of_not_egress {i : Instr} (hi : ¬ Instr.isEgress i = true) {s t : State} (hl : EqInv s) (h : PendInv s)
    (he : exec i s = .next t) : PendInv t := by
  by_cases hfl : Instr.isFreeList i = true
  · exact pendInv_of_ends (exec_ends_fl hfl (pendInv_fl _) h) he
  cases i with
  | iqCheck q =>
    cases he
    split
    · split <;> exact h
    · exact h
  | iqConsume q => exact pendInv_of_ends (iqConsume_ends pendInv_ingress q h) he
  | iqCredit q =>
    cases he
    split
    · exact (pendInv_iq q.toNat).creditReturn h
    · exact h
  | iqService q b => exact pendInv_of_ends (iqService_ends pendInv_ingress q b h) he
  | qAllocIq q role tmr pktc esize fwd capM1 tgt =>
    rcases execQAllocIq_cases he with rfl | ⟨_, _, ⟨u, hu, rfl⟩ | ⟨base, u, v, r, -, hu, rfl, rfl⟩⟩
    · exact h
    · exact h.congr hu.eqr
    · exact allocEnd_pendInv _ _ _ (h.congr hu.eqr) (by simp)
  | qAllocFl q capM1 iq =>
    rcases execQAllocFl_cases he with rfl | ⟨_, _, ⟨u, hu, rfl⟩ | ⟨base, u, v, r, -, hu, rfl, rfl⟩⟩
    · exact h
    · exact h.congr hu.eqr
    · exact allocEnd_pendInv _ _ _ (h.congr hu.eqr) (by simp)
  | qAllocEq q capM1 iq => exact exec_qAllocEq_pendInv h he
  | qStart q ty => exact exec_qStart_pendInv h he
  | qStop q ty => exact exec_qStop_pendInv hl h he
  | qFree q ty => exact exec_qFree_pendInv h he
  | qTeardown q ty => exact exec_qTeardown_pendInv h he
  | flSelect _ _ | flRefill _ _ | flTake _ _ | flDoorbell _ _ => exact absurd rfl hfl
  | _ => exact absurd rfl hi

/-! ### Pending slots (R57): every step -/

/-- An egress command leaves every other EQ and the lifecycle state of its own. -/
theorem exec_egress_frame {i : Instr} (hi : Instr.isEgress i = true) {s t : State} (he : exec i s = .next t) :
    (t.eq i.qid.toNat).st = (s.eq i.qid.toNat).st ∧ ∀ k, k ≠ i.qid.toNat → t.eq k = s.eq k := by
  obtain ⟨t', he', hend⟩ := exec_ends_eq hi (onlyEq_closed _ s) (OnlyEq.refl _ s)
  cases he'.symm.trans he
  obtain ⟨u, rc, v, hu, rfl⟩ | ⟨u, c, q, hu, rfl⟩ := hend <;> exact ⟨hu.st, fun k hk => hu.1.eqs k (.inr hk)⟩

/-- Every command keeps the pending slots in use while PEER claims only published ones (R114). -/
theorem exec_pendInv {i : Instr} {s t : State} (ha : EqAll s) (h : PendInv s)
    (hs : ∀ j, (s.eq j).st ≠ .uninit → StatusPublished j s) (he : exec i s = .next t) : PendInv t := by
  by_cases hi : Instr.isEgress i = true
  · obtain ⟨hst, hothers⟩ := exec_egress_frame hi he
    refine h.one i.qid.toNat hothers fun hj => ?_
    rw [hst] at hj
    exact exec_pend hi (ha _ hj) (h _ hj) (hs _ hj) he
  · exact exec_pendInv_of_not_egress hi ((eqAll_iff s).1 ha).1 h he

/-- Every step keeps the pending slots in use while PEER claims only published ones (R114). -/
theorem step_pendInv {s t : State} (ha : EqAll s) (h : PendInv s) (hs : ∀ j, (s.eq j).st ≠ .uninit → StatusPublished j s)
    (hstep : step s = .next t) : PendInv t := by
  rcases step_cases hstep with ⟨_, rfl⟩ | ⟨w, rest, _, hrun⟩ | ⟨rest, _, rfl⟩ | ⟨e, rest, _, henv, _⟩
  · exact h
  · rcases runCommand_cases hrun with ⟨rc, rfl⟩ | ⟨_, i, _, hexec⟩
    · exact h
    · exact exec_pendInv (s := s.setInbox rest) ha h hs hexec
  · exact fun _ hk => absurd rfl hk
  · exact h.congr henv.eq

/-- Settles O50: the laws from step to step by `step_eqAll`, the bound on pending by `step_pendInv`. -/
theorem stepKeepsCreditLaw : Obligations.StepKeepsCreditLaw := by
  intro s t hlaw hbatch h
  have hall : EqAll s := (eqAll_iff s).2 ⟨hlaw, hbatch⟩
  refine ⟨((eqAll_iff t).1 (step_eqAll hall h)).1, fun hp => ?_⟩
  exact step_pendInv hall (fun j hj => (hp j hj).1) (fun j hj => (hp j hj).2) h

end Sys2Proof.Machine
end

section
/-! PROOFS. 20_memory.md: bus memory (R100) and the byte order of a flit (R103). -/

namespace Sys2Proof.Machine

/-- Every command keeps the memory canonical: its only writes are flits and zero-fills. -/
theorem exec_memWf {i : Instr} {s t : State} (h : Memory.wf s.mem) (he : exec i s = .next t) : Memory.wf t.mem := by
  obtain ⟨t', he', ht'⟩ := exec_keeps mem_wf_closed i h
  cases he'.symm.trans he
  exact ht'

/-- Settles O15: a command writes by `writeFlit` and `zeroFill`, PEER byte by byte, and each keeps the canonical form; a
reset and a result do not touch memory. -/
theorem stepKeepsMemoryCanonical : Obligations.StepKeepsMemoryCanonical := by
  intro s t hs h
  refine step_keeps (P := fun u => Memory.wf u.mem) ?command ?refused ?taken ?reset ?environment hs h
  case command => exact fun _ _ _ _ hu _ he => exec_memWf hu he
  case refused => exact fun _ _ hu => hu
  case taken => exact fun _ _ hu => hu
  case reset => exact fun _ hu => hu
  case environment => exact fun _ _ he hu => he.memwf hu

/-- Settles O16: the written list is the bytes of the flit in address order, and the flit of these bytes is the flit again. -/
theorem flitStoreIsBigEndian : Obligations.FlitStoreIsBigEndian := by
  intro s a v
  refine ⟨?readBack, ?bytes, ?frame⟩
  case readBack => exact read64_writeFlit s a v
  case bytes => exact fun _ hk => readByte_writeFlit s a v hk
  case frame => exact fun _ hx => readByte_writeFlit_ne s a v hx

end Sys2Proof.Machine
end

section
/-! PROOFS. 30_encoding.md: the command word (R140 to R146) and the step that runs it (R140, R502). -/

namespace Sys2Proof

/-! ### Operand codes and packed operand fields: a field is a packing exactly when its parts read back (R142 to R145).
The parts lie side by side, which the closing `rfl`s check, so they join to the whole field. -/

theorem decodeRole_eq_some {c : BitVec 2} {r : Role} : decodeRole c = some r ↔ c = r.code := by
  revert c; cases r <;> decide

theorem decodeQType_eq_some {c : BitVec 2} {t : QType} : decodeQType c = some t ↔ c = t.code := by
  revert c; cases t <;> decide

theorem decodeESize_eq {c : BitVec 2} {e : ESize} : decodeESize c = e ↔ c = e.code := by
  revert c; cases e <;> decide

/-- A single bit as a field. -/
theorem ofBool_getLsbD {n : Nat} (x : BitVec n) (k : Nat) : BitVec.ofBool (x.getLsbD k) = x.extractLsb' k 1 := by
  apply BitVec.eq_of_getLsbD_eq
  intro i hi
  obtain rfl : i = 0 := by omega
  simp

theorem eq_packForce_iff {a : BitVec 16} {b : Bool} :
    a = packForce b ↔ a.extractLsb' 1 15 = 0 ∧ a.getLsbD 0 = b := by
  constructor
  · rintro rfl; exact packForce_fields b
  · rintro ⟨hz, rfl⟩
    show a = 0#15 ++ BitVec.ofBool (a.getLsbD 0)
    rw [ofBool_getLsbD, ← BitVec.ofNat_eq_ofNat, ← hz]
    rw [BitVec.extractLsb'_append_extractLsb'_eq_extractLsb']
    · exact (extract_all a).symm
    all_goals rfl

theorem eq_packType_iff {a : BitVec 16} {t : QType} :
    a = packType t ↔ a.extractLsb' 2 14 = 0 ∧ a.extractLsb' 0 2 = t.code := by
  constructor
  · rintro rfl; exact packType_fields t
  · rintro ⟨hz, ht⟩
    show a = 0#14 ++ t.code
    rw [← ht, ← BitVec.ofNat_eq_ofNat, ← hz]
    rw [BitVec.extractLsb'_append_extractLsb'_eq_extractLsb']
    · exact (extract_all a).symm
    all_goals rfl

theorem eq_packAllocB_iff {b : BitVec 32} {capM1 : BitVec 16} {x : Qid} :
    b = packAllocB capM1 x ↔ b.extractLsb' 26 6 = 0 ∧ b.extractLsb' 0 16 = capM1 ∧ b.extractLsb' 16 10 = x := by
  constructor
  · rintro rfl; exact packAllocB_fields capM1 x
  · rintro ⟨hz, rfl, rfl⟩
    unfold packAllocB
    rw [← BitVec.ofNat_eq_ofNat, ← hz]
    iterate 2 rw [BitVec.extractLsb'_append_extractLsb'_eq_extractLsb']
    · exact (extract_all b).symm
    all_goals rfl

theorem eq_packAllocIqA_iff {a : BitVec 16} {role : Role} {tmr pktc : BitVec 3} {esize : ESize} {fwd : Bool} :
    a = packAllocIqA role tmr pktc esize fwd ↔
      a.extractLsb' 11 5 = 0 ∧ a.extractLsb' 0 2 = role.code ∧ a.extractLsb' 2 3 = tmr ∧ a.extractLsb' 5 3 = pktc ∧
      a.extractLsb' 8 2 = esize.code ∧ a.getLsbD 10 = fwd := by
  constructor
  · rintro rfl; exact packAllocIqA_fields role tmr pktc esize fwd
  · rintro ⟨hz, hrole, rfl, rfl, hesize, rfl⟩
    unfold packAllocIqA
    rw [← hrole, ← hesize, ofBool_getLsbD, ← BitVec.ofNat_eq_ofNat, ← hz]
    iterate 5 rw [BitVec.extractLsb'_append_extractLsb'_eq_extractLsb']
    · exact (extract_all a).symm
    all_goals rfl

/-! ### Operand shapes: when each is accepted, and the command it gives -/

theorem shapeQ_eq_instr {w : CmdWord} {i j : Instr} : shapeQ w i = .instr j ↔ aOf w = 0 ∧ bOf w = 0 ∧ i = j := by
  unfold shapeQ
  split <;> simp_all

theorem shapeQB_eq_instr {w : CmdWord} {f : BitVec 32 → Instr} {j : Instr} :
    shapeQB w f = .instr j ↔ aOf w = 0 ∧ f (bOf w) = j := by
  unfold shapeQB
  split <;> simp_all

theorem shapeQF_eq_instr {w : CmdWord} {f : Bool → Instr} {j : Instr} :
    shapeQF w f = .instr j ↔ ∃ b, aOf w = packForce b ∧ bOf w = 0 ∧ f b = j := by
  unfold shapeQF
  simp only [eq_packForce_iff]
  split <;> simp_all

theorem shapeAllocRing_eq_instr {w : CmdWord} {f : BitVec 16 → Qid → Instr} {j : Instr} :
    shapeAllocRing w f = .instr j ↔ ∃ capM1 x, aOf w = 0 ∧ bOf w = packAllocB capM1 x ∧ f capM1 x = j := by
  unfold shapeAllocRing
  simp only [eq_packAllocB_iff]
  split <;> simp_all

theorem shapeLife_eq_instr {w : CmdWord} {f : QType → Instr} {j : Instr} :
    shapeLife w f = .instr j ↔ ∃ t, aOf w = packType t ∧ bOf w = 0 ∧ f t = j := by
  unfold shapeLife
  simp only [eq_packType_iff, ← decodeQType_eq_some]
  split
  · split <;> simp_all
  · simp_all

theorem shapeAllocIq_eq_instr {w : CmdWord} {j : Instr} :
    shapeAllocIq w = .instr j ↔ ∃ role tmr pktc esize fwd capM1 tgt, aOf w = packAllocIqA role tmr pktc esize fwd ∧
      bOf w = packAllocB capM1 tgt ∧ .qAllocIq (qidOf w) role tmr pktc esize fwd capM1 tgt = j := by
  unfold shapeAllocIq
  simp only [eq_packAllocIqA_iff, eq_packAllocB_iff, ← decodeRole_eq_some, ← decodeESize_eq]
  split
  · split <;> simp_all
  · simp_all

/-! ### The opcode map: a word gives a command exactly when it is the word of that command -/

/-- A word whose four fields are those of a command is its word (R140). -/
theorem encode_eq_of_fields {i : Instr} {w : CmdWord} (hop : (opOf w).toNat = i.opcode.toNat) (hqid : qidOf w = i.qid)
    (ha : aOf w = i.aField) (hb : bOf w = i.bField) : encode i = w := by
  unfold encode
  rw [← BitVec.eq_of_toNat_eq hop, ← hqid, ← ha, ← hb]
  exact packWord_fields w

/-- The opcode map inverts the encoder, by the operand shape of each opcode (R141). -/
theorem encode_of_decodeFields {w : CmdWord} {i : Instr} (h : decodeFields w = .instr i) : encode i = w := by
  unfold decodeFields at h
  split at h <;> rename_i hop
  -- the commands without operands
  case h_1 | h_2 | h_3 | h_10 | h_11 | h_12 | h_13 | h_15 | h_17 | h_19 | h_20 =>
    obtain ⟨ha, hb, rfl⟩ := shapeQ_eq_instr.1 h
    exact encode_eq_of_fields hop rfl ha hb
  -- the commands with an operand in `B`
  case h_4 | h_5 | h_6 | h_7 | h_9 | h_18 =>
    obtain ⟨ha, rfl⟩ := shapeQB_eq_instr.1 h
    exact encode_eq_of_fields hop rfl ha rfl
  -- the doorbells
  case h_8 | h_14 =>
    obtain ⟨force, ha, hb, rfl⟩ := shapeQF_eq_instr.1 h
    exact encode_eq_of_fields hop rfl ha hb
  -- `EQ_RECLAIM`
  case h_16 =>
    cases h
    exact encode_eq_of_fields hop rfl rfl rfl
  -- `Q_ALLOC_IQ`
  case h_21 =>
    obtain ⟨role, tmr, pktc, esize, fwd, capM1, tgt, ha, hb, rfl⟩ := shapeAllocIq_eq_instr.1 h
    exact encode_eq_of_fields hop rfl ha hb
  -- `Q_ALLOC_FL`, `Q_ALLOC_EQ`
  case h_22 | h_23 =>
    obtain ⟨capM1, iq, ha, hb, rfl⟩ := shapeAllocRing_eq_instr.1 h
    exact encode_eq_of_fields hop rfl ha hb
  -- the lifecycle commands
  case h_24 | h_25 | h_26 | h_27 =>
    obtain ⟨t, ha, hb, rfl⟩ := shapeLife_eq_instr.1 h
    exact encode_eq_of_fields hop rfl ha hb
  -- a reserved opcode
  case h_28 => cases h

/-- The opcode map gives back every command, also one whose operands are out of range (R141). -/
theorem decodeFields_encode (i : Instr) : decodeFields (encode i) = .instr i := by
  have hop : opOf (encode i) = i.opcode := opOf_packWord _ _ _ _
  have hqid : qidOf (encode i) = i.qid := qidOf_packWord _ _ _ _
  have ha : aOf (encode i) = i.aField := aOf_packWord _ _ _ _
  have hb : bOf (encode i) = i.bField := bOf_packWord _ _ _ _
  unfold decodeFields
  rw [hop, hqid]
  cases i with
  | iqCheck q | iqConsume q | iqCredit q | eqWrPkt q | eqWrLso q | eqWrImm q | eqWrFlush q | eqReclaimable q | sglBuild q
  | txpktsAdd q | txpktsFlush q => exact shapeQ_eq_instr.2 ⟨ha, hb, rfl⟩
  | iqService q n | flSelect q n | flRefill q n | flTake q n | eqTx q n | sglWrite q n =>
    exact shapeQB_eq_instr.2 ⟨ha, by rw [hb]; rfl⟩
  | flDoorbell q force | eqDoorbell q force => exact shapeQF_eq_instr.2 ⟨force, ha, hb, rfl⟩
  | eqReclaim q atleast howmany => rw [ha, hb]; rfl
  | qAllocIq q role tmr pktc esize fwd capM1 tgt =>
    exact shapeAllocIq_eq_instr.2 ⟨role, tmr, pktc, esize, fwd, capM1, tgt, ha, hb, by rw [hqid]; rfl⟩
  | qAllocFl q capM1 iq | qAllocEq q capM1 iq => exact shapeAllocRing_eq_instr.2 ⟨capM1, iq, ha, hb, rfl⟩
  | qStart q t | qStop q t | qFree q t | qTeardown q t => exact shapeLife_eq_instr.2 ⟨t, ha, hb, rfl⟩

/-- The range checks refuse a command or leave it as the opcode map gave it. -/
theorem decodeFields_of_decode {c : Config} {w : CmdWord} {i : Instr} (h : decode c w = .instr i) :
    decodeFields w = .instr i := by
  unfold decode at h
  split at h
  · cases h
  · rename_i j hfields
    split at h
    · split at h
      · exact hfields.trans h
      · cases h
    · cases h

/-- R146: a word decodes to a command exactly when the command is well formed and the word is its encoding. -/
theorem decode_eq_instr {c : Config} {w : CmdWord} {i : Instr} : decode c w = .instr i ↔ i.wf c = true ∧ encode i = w := by
  constructor
  · exact fun h => ⟨Machine.decode_wf h, encode_of_decodeFields (decodeFields_of_decode h)⟩
  · rintro ⟨hwf, rfl⟩
    obtain ⟨hqid, hoperands⟩ := Bool.and_eq_true_iff.1 hwf
    unfold decode
    rw [decodeFields_encode]
    exact (if_pos hqid).trans (if_pos hoperands)

/-- Settles O1: the word of a well-formed command decodes to it, one direction of `decode_eq_instr`. -/
theorem decodeEncodeRoundTrip : Obligations.DecodeEncodeRoundTrip :=
  fun _ _ hwf => decode_eq_instr.2 ⟨hwf, rfl⟩

/-- Settles O2: the other direction of `decode_eq_instr`. -/
theorem decodedWordIsTheEncoding : Obligations.DecodedWordIsTheEncoding :=
  fun _ _ _ h => decode_eq_instr.1 h

/-- Settles O3, by evaluating the decoder on the nine words. -/
theorem sampleWordsDecode : Obligations.SampleWordsDecode := by
  unfold Obligations.SampleWordsDecode
  decide

end Sys2Proof

namespace Sys2Proof.Machine

/-! ### The step of a command word -/

/-- A pending command word is taken off the event list and run. -/
theorem step_command {s : State} {w : CmdWord} {rest : List Event} (hin : s.inbox = .command w :: rest) :
    step s = runCommand w (s.setInbox rest) := by
  unfold step
  rw [hin]
  rfl

theorem runCommand_instr {w : CmdWord} {s : State} {i : Instr} (hf : faultValid s.fault = false)
    (hd : decode s.cfg w = .instr i) : runCommand w s = exec i s := by
  unfold runCommand
  rw [hf, hd]
  rfl

theorem runCommand_rejected {w : CmdWord} {s : State} {e : DecodeError} (hf : faultValid s.fault = false)
    (hd : decode s.cfg w = .rejected e) : runCommand w s = .next s.badCmd := by
  unfold runCommand
  rw [hf, hd]
  rfl

/-- The low 64 bits of a command's word are the word. -/
theorem withFetchWord_encode (s : State) (i : Instr) :
    s.withFetchWord 64 (encode i).toNat = placeCommand (encode i) s := by
  unfold State.withFetchWord
  rw [Nat.mod_eq_of_lt (encode i).isLt, BitVec.ofNat_toNat, BitVec.setWidth_eq]

/-- Settles O4: a word that decoded to a command would be the encoding of a well-formed one, by `decode_eq_instr`. -/
theorem illegalWordIsRefused : Obligations.IllegalWordIsRefused := by
  intro s w rest hin hf hillegal
  rw [step_command hin]
  cases hd : decode s.cfg w with
  | instr i =>
    obtain ⟨hwf, hw⟩ := decode_eq_instr.1 hd
    exact absurd hw (hillegal i hwf)
  | rejected e => exact runCommand_rejected (s := s.setInbox rest) hf hd

/-- Settles O5: with no fault latched `runCommand` is `exec` of the decoded command, and the word of a well-formed command decodes
to it. -/
theorem stepRunsDecodedCommand : Obligations.StepRunsDecodedCommand := by
  refine ⟨?decoded, ?waits, ?placed⟩
  case decoded =>
    intro s w rest i hin hf hd
    exact (step_command hin).trans (runCommand_instr (s := s.setInbox rest) hf hd)
  case waits =>
    intro s hin
    unfold step
    rw [hin]
  case placed =>
    intro s i hwf hf
    rw [withFetchWord_encode]
    exact (step_command rfl).trans (runCommand_instr (s := s) hf (decode_eq_instr.2 ⟨hwf, rfl⟩))

end Sys2Proof.Machine
end

section
/-! PROOFS. 30_encoding.md: the flits of the work requests (R161 to R168) and the slots PEER reads from them (R174). -/

namespace Sys2Proof.Machine

/-! ### The fields of the flits: each is the part of the concatenation at its place -/

theorem hdr0_fields (op : Byte) (immdlen : Nat) (equiq : Bool) (len16 : Nat) :
    hdrFields op immdlen equiq len16 (hdr0 op immdlen equiq len16) := by
  unfold hdrFields hdr0
  simp [↓extract_append_hi, ↓extract_append_lo, ↓BitVec.getLsbD_append]

theorem core0_fields (len : BitVec 32) : coreFields len (core0 len) := by
  unfold coreFields core0
  simp [↓extract_append_hi, ↓extract_append_lo]

theorem ctrl1_fields (p : Packet) : ctrlFields p (ctrl1 p) := by
  unfold ctrlFields ctrl1
  simp [↓extract_append_hi, ↓extract_append_lo, ↓BitVec.getLsbD_append]

theorem ethHdrLen_of_le {n : Nat} (h : 14 ≤ n) : ethHdrLen n = BitVec.ofNat 4 ((n - 14) / 4) := if_neg (by omega)

theorem lso0_fields (o : Lso) : lsoFields o (lso0 o) := by
  unfold lsoFields lso0
  simp +contextual [↓extract_append_hi, ↓extract_append_lo, ↓BitVec.getLsbD_append, ethHdrLen_of_le]

/-- The first flit of an SGL (R165). -/
theorem sglBody_cons_fields (g : Segment) (l : List Segment) :
    ∃ v rest, sglBody (g :: l) = v :: g.addr :: rest ∧ v.extractLsb' 56 8 = 0x82#8 ∧ v.extractLsb' 48 8 = 0 ∧
      v.extractLsb' 32 16 = BitVec.ofNat 16 (l.length + 1) ∧ v.extractLsb' 0 32 = g.len := by
  refine ⟨_, _, rfl, ?_⟩
  simp [↓extract_append_hi, ↓extract_append_lo]

/-! ### `LEN16` and the slots the DRC commits -/

/-- From the header of a work request of `n` flits, a number of whole 16-byte units, PEER reads the slots of `n` flits (R161,
R174). -/
theorem peerWrSlots_hdr0 (op : Byte) (immdlen : Nat) (equiq : Bool) {n : Nat} (heven : n % 2 = 0) (hmax : n < 512) :
    peerWrSlots (hdr0 op immdlen equiq (n / 2)) = ndesc n := by
  obtain ⟨-, -, -, -, -, -, hlen16⟩ := hdr0_fields op immdlen equiq (n / 2)
  unfold peerWrSlots ndesc ceilDiv Config.slotFlits
  rw [hlen16, BitVec.toNat_ofNat]
  omega

/-- An SGL of up to 36 segments with its pad is a number of whole 16-byte units (R366). -/
theorem sglFlits_padded {n : Nat} (h : n ≤ 36) :
    (sglFlits n + sglFlits n % 2) % 2 = 0 ∧ sglFlits n + sglFlits n % 2 ≤ 56 := by
  unfold sglFlits
  omega

theorem pktWr_slots (p : Packet) {l : List Segment} (hne : l ≠ []) (hmax : l.length ≤ 36) :
    ((pktWr p l).map peerWrSlots).head? = some (ndesc (pktWr p l).length) := by
  obtain ⟨heven, hle⟩ := sglFlits_padded hmax
  have hn : pktWrFlits l = 4 + (sglFlits l.length + sglFlits l.length % 2) := Nat.add_assoc _ _ _
  rw [pktWr_length p hne]
  exact congrArg some (peerWrSlots_hdr0 _ _ _ (by omega) (by omega))

theorem lsoWr_slots (p : Packet) (o : Lso) {l : List Segment} (hne : l ≠ []) (hmax : l.length ≤ 36) :
    ((lsoWr p o l).map peerWrSlots).head? = some (ndesc (lsoWr p o l).length) := by
  obtain ⟨heven, hle⟩ := sglFlits_padded hmax
  have hn : lsoWrFlits l = 6 + (sglFlits l.length + sglFlits l.length % 2) := Nat.add_assoc _ _ _
  rw [lsoWr_length p o hne]
  exact congrArg some (peerWrSlots_hdr0 _ _ _ (by omega) (by omega))

theorem immWr_slots (p : Packet) (hmax : p.len.toNat ≤ 128) :
    ((immWr p).map peerWrSlots).head? = some (ndesc (immWr p).length) := by
  have hn : immWrFlits p.len.toNat = 4 + 2 * ((p.len.toNat + 15) / 16) := rfl
  rw [immWr_length]
  exact congrArg some (peerWrSlots_hdr0 _ _ _ (by omega) (by omega))

theorem flushWr_slots : (flushWr.map peerWrSlots).head? = some (ndesc flushWr.length) :=
  congrArg some (peerWrSlots_hdr0 wrEqFlush 0 true (n := 2) rfl (by decide))

theorem batchHdr_slots {b : Batch} (heven : b.nflits % 2 = 0) (hmax : b.nflits ≤ 64) :
    ((batchHdr b).map peerWrSlots).head? = some (ndesc b.nflits) :=
  congrArg some (peerWrSlots_hdr0 _ _ _ heven (by omega))

/-- Settles O37: the fields of each flit by its own lemma; every header takes `LEN16` from an even number of flits below 512, so
`peerWrSlots_hdr0` gives the slots. -/
theorem peerReadsCommittedSlots : Obligations.PeerReadsCommittedSlots := by
  refine ⟨?header, core0_fields, ctrl1_fields, lso0_fields, sglBody_cons_fields, ?sgl, ?immediate, flushWr_slots, ?batch⟩
  case header => exact fun op n k b => hdr0_fields op n b k
  case sgl =>
    intro p l hpos hmax
    have hne : l ≠ [] := List.length_pos_iff.1 hpos
    exact ⟨pktWr_slots p hne hmax, fun o => lsoWr_slots p o hne hmax⟩
  case immediate => exact fun p hmax => immWr_slots p hmax
  case batch => exact fun b hmax heven => batchHdr_slots heven hmax

end Sys2Proof.Machine
end

section
/-! PROOFS. 41_ingress.md: the cursor (R201, R202), the comparator (R200), credit (R210), and what IQ_CONSUME makes of each
entry (R203 to R208). -/

namespace Sys2Proof.Machine

/-! ### The cursor (R201, R202) -/

theorem decide_succ_mod_two (a : Nat) : decide ((a + 1) % 2 = 1) = !decide (a % 2 = 1) := by
  rcases Nat.mod_two_eq_zero_or_one a with h | h <;> simp [Nat.add_mod, h]

/-- From slot 0, the cursor and the generation count the advances in base `cap`; the ring keeps its capacity. -/
theorem advance_iterate {q : IQ} (hcap : 1 ≤ q.cap) (h0 : q.cidx = 0) (k : Nat) :
    (advance^[k] q).cap = q.cap ∧ (advance^[k] q).cidx = k % q.cap ∧
      (advance^[k] q).gen = (q.gen ^^ decide (k / q.cap % 2 = 1)) := by
  induction k with
  | zero => simp [h0]
  | succ k ih =>
    obtain ⟨hc, hx, hg⟩ := ih
    have hlt : k % q.cap < q.cap := Nat.mod_lt _ hcap
    have hdiv : k % q.cap + q.cap * (k / q.cap) = k := Nat.mod_add_div k q.cap
    rw [Function.iterate_succ_apply', advance_eq (by rw [hc, hx]; exact hlt)]
    simp only [hc, hx, hg, true_and]
    by_cases hwrap : k % q.cap = q.cap - 1
    · obtain ⟨hd, hm⟩ := (Nat.div_mod_unique hcap).2
        (show 0 + q.cap * (k / q.cap + 1) = k + 1 ∧ 0 < q.cap from ⟨by rw [Nat.mul_succ]; omega, hcap⟩)
      rw [if_pos hwrap, if_pos hwrap, hd, hm, decide_succ_mod_two, Bool.xor_not]
      exact ⟨rfl, rfl⟩
    · obtain ⟨hd, hm⟩ := (Nat.div_mod_unique hcap).2
        (show k % q.cap + 1 + q.cap * (k / q.cap) = k + 1 ∧ k % q.cap + 1 < q.cap by omega)
      rw [if_neg hwrap, if_neg hwrap, hd, hm]
      exact ⟨rfl, rfl⟩

/-- Settles O17, by induction on the number of advances: each counts one more in base `cap`. -/
theorem cursorWrapLaw : Obligations.CursorWrapLaw :=
  fun _ k hcap h0 => (advance_iterate hcap h0 k).2

/-! ### The comparator and the credit (R200, R210) -/

/-- An entry is new when bit 7 of byte 8 of its control word is the queue's generation (R200). -/
theorem isNew_iff (j : Nat) (s : State) : isNew j s = true ↔ (ctrlOf j s).gen = (s.iq j).gen := beq_iff_eq

theorem isNew_false_iff (j : Nat) (s : State) : isNew j s = false ↔ (ctrlOf j s).gen ≠ (s.iq j).gen := beq_eq_false_iff_ne

/-- IQ_CONSUME on a stale entry (R203). -/
theorem execIqConsume_stale {q : Qid} {s : State} (hst : (s.iq q.toNat).st = .run) (hn : isNew q.toNat s = false) :
    exec (.iqConsume q) s = .next (s.finish .empty 0) := by
  show execIqConsume q s = _
  simp only [execIqConsume, hst, hn, if_true, Bool.false_eq_true, if_false]

theorem execIqCheck_run {q : Qid} {s : State} (hst : (s.iq q.toNat).st = .run) :
    exec (.iqCheck q) s = .next (if isNew q.toNat s then s.finish .ok 1 else s.finish .empty 0) :=
  congrArg Host.Outcome.next (if_pos hst)

theorem execIqCredit_run {q : Qid} {s : State} (hst : (s.iq q.toNat).st = .run) :
    exec (.iqCredit q) s = .next ((creditReturn q.toNat s).finish .ok (s.iq q.toNat).ncons) :=
  congrArg Host.Outcome.next (if_pos hst)

/-- Settles O18: the two commands test `isNew`, which is the comparison of R200. -/
theorem iqCheckComparesGeneration : Obligations.IqCheckComparesGeneration := by
  intro q s r hst b
  constructor
  · intro hgen
    rw [execIqCheck_run hst, (isNew_iff _ s).2 hgen]
    rfl
  · intro hgen
    have hold : isNew q.toNat s = false := (isNew_false_iff _ s).2 hgen
    rw [execIqCheck_run hst, hold, execIqConsume_stale hst hold]
    exact ⟨rfl, rfl⟩

/-- Settles O19: the command is one credit return. -/
theorem iqCreditReturnsCount : Obligations.IqCreditReturnsCount := by
  intro q s j r hst
  exact ⟨_, _, execIqCredit_run hst, creditReturn_out j s, gtsWord_fields r r.ncons, creditReturn_iq_same j s, rfl,
    creditReturn_peer j s, (creditReturn_frame j s).finish _ _, rfl, rfl⟩

/-! ### IQ_CONSUME on an entry that its dispatch handles (R203) -/

/-- IQ_CONSUME ends in `t` on an entry of queue `j` whose dispatch left `u`: the cursor and the count move on, credit goes back
at the batch threshold, and nothing else changes. -/
structure EntryConsumed (q : Qid) (s u t : State) : Prop where
  exec  : exec (.iqConsume q) s = .next t
  iq    : t.iq q.toNat = afterEntry (u.iq q.toNat)
  out   : t.out = u.out ++ creditWrite (u.iq q.toNat)
  res   : t.res = { rc := .ok, value := BitVec.ofNat 32 (ctrlOf q.toNat s).type.toNat }
  frame : Untouched .iq q.toNat u t
  qmap  : t.qmap = u.qmap
  mem   : t.mem = u.mem

theorem iqConsume_of_dispatch {q : Qid} {s u : State} (hst : (s.iq q.toNat).st = .run)
    (hgen : (ctrlOf q.toNat s).gen = (s.iq q.toNat).gen) (hd : dispatch q.toNat s = .done () u)
    (hc : (u.iq q.toNat).cidx < (u.iq q.toNat).cap) : ∃ t, EntryConsumed q s u t := by
  obtain ⟨hiq, hout, hframe, hqmap, hmem, -⟩ := consumed_spec hc
  refine ⟨(consumed q.toNat u).finish .ok (ctrlOf q.toNat s).type.toNat, ?_, hiq, hout, rfl, hframe.finish _ _, hqmap, hmem⟩
  rw [execIqConsume_new hst ((isNew_iff _ s).2 hgen), consumeOne_done hd]
  rfl

/-- The result of IQ_CONSUME is the type of the entry. -/
theorem EntryConsumed.res_of_type {q : Qid} {s u t : State} (h : EntryConsumed q s u t) {ty : BitVec 2}
    (hty : (ctrlOf q.toNat s).type = ty) : t.res = { rc := .ok, value := BitVec.ofNat 32 ty.toNat } := hty ▸ h.res

/-- Settles O20: dispatch hands over the payload and leaves the record alone. -/
theorem iqConsumeDeliversReply : Obligations.IqConsumeDeliversReply := by
  intro q s j r hst hlaw hrole hgen htype hop
  obtain ⟨t, h⟩ := iqConsume_of_dispatch hst hgen (dispatch_reply hrole htype hop) hlaw.cidx_lt
  refine ⟨t, h.exec, h.iq, ?out, h.res_of_type htype, ?frame, h.qmap, h.mem⟩
  case out =>
    refine h.out.trans ?_
    show (s.out ++ [_]) ++ _ = _
    rw [List.append_assoc]
    rfl
  case frame => exact ((untouched_out .iq j s).emit _ _ (Untouched.refl _ _ _)).trans h.frame

/-- Settles O21: dispatch sets the service request of the queue named, which may be the forwarding queue itself. -/
theorem iqConsumeForwardsInterrupt : Obligations.IqConsumeForwardsInterrupt := by
  intro q k s j r hst hlaw hrole hgen htype hlookup hk
  have hrec : (s.setIq k { s.iq k with svcReq := true }).iq j = if k = j then { r with svcReq := true } else r := by
    rw [State.setIq_get]
    split
    · subst k; rfl
    · rfl
  obtain ⟨t, h⟩ := iqConsume_of_dispatch hst hgen (dispatch_forward hrole htype hlookup hk) (by
    rw [hrec]
    split <;> exact hlaw.cidx_lt)
  have hiq := h.iq
  have hout := h.out
  rw [hrec] at hiq hout
  refine ⟨t, h.exec, ?out, h.res_of_type htype, fun hne => ⟨?own, ?target⟩, fun he => ?both, fun l hj hl => ?others,
    fun l => h.frame.fls l (.inl (by decide)), fun l => h.frame.eqs l (.inl (by decide)), h.frame.fault, h.qmap, h.mem⟩
  case out =>
    refine hout.trans ?_
    split <;> rfl
  case own => rw [hiq, if_neg hne]
  case target => exact (h.frame.iqs k (.inr hne)).trans (State.setIq_same _ _ _)
  case both => rw [hiq, if_pos he]; rfl
  case others => exact (h.frame.iqs l (.inr hj)).trans (State.setIq_ne _ _ hl)

/-- The record of an EQ after a progress notification, and the resume it asks for (R207, R300). -/
theorem eqProgress_spec (k : Nat) (s : State) :
    (eqProgress k s).eq k = { s.eq k with flushOut := false, resumeReq := (s.eq k).stalled || (s.eq k).resumeReq } ∧
    (eqProgress k s).out = s.out ++ (if (s.eq k).stalled then [.resume k] else []) ∧ (eqProgress k s).mem = s.mem := by
  unfold eqProgress
  cases hs : (s.eq k).stalled <;> simp [hs]

/-- Settles O22: dispatch is `eqProgress`, which is the EQ's own affair. -/
theorem iqConsumeReportsProgress : Obligations.IqConsumeReportsProgress := by
  intro q k s j r e hst hlaw hrole hgen htype hop hlookup hk
  have hd : dispatch j s = .done () (eqProgress k s) :=
    (dispatch_progress hrole htype hop).trans (egressProgress_done hlookup hk)
  obtain ⟨heq, hout, hmem⟩ := eqProgress_spec k s
  have hframe : Untouched .eq k s (eqProgress k s) := (untouched_eq k s).eqProgress (Untouched.refl _ _ _)
  have hqmap : (eqProgress k s).qmap = s.qmap := (qmap_eq k s.qmap).eqProgress rfl
  have hrec : ∀ l, (eqProgress k s).iq l = s.iq l := fun l => hframe.iqs l (.inl (by decide))
  obtain ⟨t, h⟩ := iqConsume_of_dispatch hst hgen hd (by rw [hrec]; exact hlaw.cidx_lt)
  refine ⟨t, h.exec, ?own, (h.frame.eqs k (.inl (by decide))).trans heq, ?out, h.res_of_type htype,
    fun l hl => (h.frame.iqs l (.inr hl)).trans (hrec l),
    fun l => (h.frame.fls l (.inl (by decide))).trans (hframe.fls l (.inl (by decide))),
    fun l hl => (h.frame.eqs l (.inl (by decide))).trans (hframe.eqs l (.inr hl)),
    h.frame.fault.trans hframe.fault, h.qmap.trans hqmap, h.mem.trans hmem⟩
  case own => rw [h.iq, hrec]
  case out => rw [h.out, hout, hrec]

/-- Dispatch of a frame that the free list hands over (R204). -/
theorem dispatch_taken {j f n : Nat} {fr : Frame} {s v : State} (hrole : (s.iq j).role = .rx) (hfl : (s.iq j).fl = some f)
    (htype : (ctrlOf j s).type = typeFlbuf) (hop : payloadByte j 0 s = cplRxPkt) (hlen : 1 ≤ (ctrlOf j s).len)
    (htake : flTake f (ctrlOf j s).len s = .done (fr, n) v) :
    dispatch j s = .done () ((v.emit (.deliver fr (some (rxMeta j s)))).setIq j (rxCount (rxMeta j s) (v.iq j))) := by
  rw [dispatch_frame hrole htype hop hlen, rxFrame, hfl]
  dsimp only
  rw [htake]
  rfl

/-- IQ_CONSUME on a frame that the free list hands over: delivered with its metadata, counted, and nothing else changed (R203,
R204). -/
theorem iqConsume_frame {q : Qid} {f n : Nat} {fr : Frame} {s v : State} (hst : (s.iq q.toNat).st = .run)
    (hlaw : (s.iq q.toNat).Law) (hrole : (s.iq q.toNat).role = .rx) (hfl : (s.iq q.toNat).fl = some f)
    (hgen : (ctrlOf q.toNat s).gen = (s.iq q.toNat).gen) (htype : (ctrlOf q.toNat s).type = typeFlbuf)
    (hop : payloadByte q.toNat 0 s = cplRxPkt) (hlen : 1 ≤ (ctrlOf q.toNat s).len)
    (htake : flTake f (ctrlOf q.toNat s).len s = .done (fr, n) v) :
    ∃ t, exec (.iqConsume q) s = .next t ∧ t.fl f = v.fl f ∧
      t.out = v.out ++ .deliver fr (some (rxMeta q.toNat s)) :: creditWrite (s.iq q.toNat) ∧
      t.iq q.toNat = afterEntry (rxCount (rxMeta q.toNat s) (s.iq q.toNat)) ∧ t.res = { rc := .ok, value := 0 } ∧
      (∀ l, l ≠ q.toNat → t.iq l = s.iq l) ∧ (∀ l, l ≠ f → t.fl l = s.fl l) ∧ (∀ l, t.eq l = s.eq l) ∧
      t.fault = s.fault ∧ t.qmap = s.qmap ∧ t.mem = s.mem := by
  have hframe : Ran.Holds (Untouched .fl f s) (flTake f (ctrlOf q.toNat s).len s) :=
    (untouched_fl f s).flTake (Untouched.refl _ _ _) _
  have hqmap : Ran.Holds (fun u => u.qmap = s.qmap) (flTake f (ctrlOf q.toNat s).len s) := (qmap_fl f s.qmap).flTake rfl _
  have hmem : v.mem = s.mem := flTakeLoop_mem _ _ _ _ _ _ htake
  rw [htake] at hframe hqmap
  replace hframe : Untouched .fl f s v := hframe
  have hrec : ∀ l, v.iq l = s.iq l := fun l => hframe.iqs l (.inl (by decide))
  have hd := dispatch_taken hrole hfl htype hop hlen htake
  rw [hrec] at hd
  obtain ⟨t, h⟩ := iqConsume_of_dispatch hst hgen hd (by rw [State.setIq_same]; exact hlaw.cidx_lt)
  have hiq := h.iq
  have hout := h.out
  rw [State.setIq_same] at hiq hout
  refine ⟨t, h.exec, h.frame.fls f (.inl (by decide)), ?out, hiq, h.res_of_type htype,
    fun l hl => ((h.frame.iqs l (.inr hl)).trans (State.setIq_ne _ _ hl)).trans (hrec l),
    fun l hl => (h.frame.fls l (.inl (by decide))).trans (hframe.fls l (.inr hl)),
    fun l => (h.frame.eqs l (.inl (by decide))).trans (hframe.eqs l (.inl (by decide))),
    h.frame.fault.trans hframe.fault, h.qmap.trans hqmap, h.mem.trans hmem⟩
  case out =>
    refine hout.trans ?_
    show (v.out ++ [_]) ++ _ = _
    rw [List.append_assoc]
    rfl

/-- Settles O23: one published buffer holds the frame, so `flTake` copies it below the copy threshold and attaches it above. -/
theorem iqConsumeReceivesFrame : Obligations.IqConsumeReceivesFrame := by
  intro q f b s j r len hst hlaw hrole hfl hgen htype hop hlen hpub hown hsz md
  have htake := flTake_one hlen hpub hown hsz
  by_cases hcopy : len ≤ s.cfg.rxCopyThresh
  · rw [if_pos hcopy] at htake
    obtain ⟨t, he, hslot, hout, rest⟩ := iqConsume_frame hst hlaw hrole hfl hgen htype hop hlen htake
    exact ⟨t, he, fun _ => ⟨hslot.trans (flTaken_fl f _ s), hout⟩, fun h => absurd hcopy (by omega), rest⟩
  · rw [if_neg hcopy] at htake
    obtain ⟨t, he, hslot, hout, rest⟩ := iqConsume_frame hst hlaw hrole hfl hgen htype hop hlen htake
    refine ⟨t, he, fun h => absurd h hcopy, fun _ => ⟨hslot.trans (flTaken_fl f _ (s.emit _)), hout.trans ?_⟩, rest⟩
    show (s.out ++ [_]) ++ _ = _
    rw [List.append_assoc]
    rfl

/-! ### IQ_CONSUME on an entry that its dispatch refuses (R204 to R208) -/

/-- A fault that dispatch raises ends IQ_CONSUME with `FAULT` written and nothing else changed. -/
theorem iqConsume_of_raise {q : Qid} {s : State} {c : FaultCode} (hst : (s.iq q.toNat).st = .run)
    (hgen : (ctrlOf q.toNat s).gen = (s.iq q.toNat).gen) (hd : dispatch q.toNat s = Ran.raise s c (selIq q.toNat)) :
    exec (.iqConsume q) s = .next { s with fault := faultWord c { type := .iq, index := q.toNat } } := by
  rw [execIqConsume_new hst ((isNew_iff _ s).2 hgen), consumeOne_raised hd]
  rfl

/-- A progress notification that names no registered EQ (R207). -/
theorem egressProgress_bad {j id : Nat} {s : State}
    (h : ∀ k, s.lookup id = some { type := .eq, index := k } → (s.eq k).st ≠ .reg ∧ (s.eq k).st ≠ .run) :
    egressProgress j id s = Ran.raise s .badQid (selIq j) := by
  unfold egressProgress
  cases hl : s.lookup id with
  | none => rfl
  | some t =>
    obtain ⟨ty, k⟩ := t
    refine if_neg fun ⟨hty, hreg⟩ => ?_
    obtain rfl : ty = .eq := hty
    obtain ⟨hr, hn⟩ := h k hl
    exact ((registered_iff _).1 hreg).elim hr hn

/-- A forwarded notification that names no running IQ (R206). -/
theorem dispatch_forward_bad {j : Nat} {s : State} (hrole : (s.iq j).role = .intrFwd) (htype : (ctrlOf j s).type = typeIntr)
    (h : ∀ k, s.lookup (ctrlOf j s).qid = some { type := .iq, index := k } → (s.iq k).st ≠ .run) :
    dispatch j s = Ran.raise s .badQid (selIq j) := by
  unfold dispatch dispatchFwd
  rw [hrole]
  dsimp only
  rw [if_neg (not_not.2 htype)]
  cases hl : s.lookup (ctrlOf j s).qid with
  | none => rfl
  | some t =>
    obtain ⟨ty, k⟩ := t
    refine if_neg fun ⟨hty, hrun⟩ => ?_
    obtain rfl : ty = .iq := hty
    exact h k hl hrun

/-- What an RX queue does not handle (R204). -/
theorem dispatch_rx_unexpected {j : Nat} {s : State} (hrole : (s.iq j).role = .rx)
    (h : ((ctrlOf j s).type = 0#2 ∧ (payloadByte j 0 s ≠ 0x3B#8 ∨ (ctrlOf j s).len = 0)) ∨
      ((ctrlOf j s).type = 1#2 ∧ payloadByte j 0 s ≠ 0xA5#8) ∨ (ctrlOf j s).type = 2#2 ∨ (ctrlOf j s).type = 3#2) :
    dispatch j s = Ran.raise s .unexpectedRsp (selIq j) := by
  unfold dispatch
  rw [hrole]
  show dispatchRx j s = _
  unfold dispatchRx
  dsimp only
  obtain ⟨hty, hbad⟩ | ⟨hty, hop⟩ | hty | hty := h
  · exact (if_pos hty).trans (if_pos hbad)
  · rw [hty]
    exact if_neg hop
  · rw [hty]
    rfl
  · rw [hty]
    rfl

/-- What a firmware event queue does not handle (R205). -/
theorem dispatch_fw_unexpected {j : Nat} {s : State} (hrole : (s.iq j).role = .fwEvt)
    (h : (ctrlOf j s).type ≠ 1#2 ∨
      (payloadByte j 0 s ≠ 0xC0#8 ∧ payloadByte j 0 s ≠ 0xE0#8 ∧ payloadByte j 0 s ≠ 0xA5#8)) :
    dispatch j s = Ran.raise s .unexpectedRsp (selIq j) := by
  unfold dispatch
  rw [hrole]
  show dispatchFw j s = _
  unfold dispatchFw
  split
  · rfl
  · rename_i hty
    obtain ⟨h4, h6, hegr⟩ := h.resolve_left hty
    exact (if_neg (not_or.2 ⟨h4, h6⟩)).trans (if_neg hegr)

/-- What a forwarding queue does not handle (R206). -/
theorem dispatch_fwd_unexpected {j : Nat} {s : State} (hrole : (s.iq j).role = .intrFwd) (h : (ctrlOf j s).type ≠ 2#2) :
    dispatch j s = Ran.raise s .unexpectedRsp (selIq j) := by
  unfold dispatch
  rw [hrole]
  exact if_pos h

/-- Settles O24: each of the entries makes dispatch raise its fault before it changes anything. -/
theorem iqConsumeFaultsUnconsumed : Obligations.IqConsumeFaultsUnconsumed := by
  intro q s j r ty op hst hgen
  refine ⟨fun h => iqConsume_of_raise hst hgen ?unexpected, fun h => iqConsume_of_raise hst hgen ?badQid⟩
  case unexpected =>
    obtain ⟨hrole, h⟩ | ⟨hrole, h⟩ | ⟨hrole, h⟩ := h
    · exact dispatch_rx_unexpected hrole h
    · exact dispatch_fw_unexpected hrole h
    · exact dispatch_fwd_unexpected hrole h
  case badQid =>
    obtain ⟨hrole, htype, h⟩ | ⟨hrole, htype, hop, h⟩ := h
    · exact dispatch_forward_bad hrole htype h
    · exact (dispatch_progress hrole htype hop).trans (egressProgress_bad h)

end Sys2Proof.Machine
end

section
/-! PROOFS. 41_ingress.md: the loop of IQ_SERVICE (R212) and the credit account of a run of ingress commands (R213). -/

namespace Sys2Proof.Machine

/-! ### What a turn of the loop is (R212) -/

theorem serviceLoop_stale {j b f : Nat} {s : State} (hn : isNew j s = false) :
    serviceLoop j b (f + 1) 0 s = .done (0, true) s := by
  rw [serviceLoop, if_neg (fun h => h.1 h.2.symm), hn]
  rfl

theorem serviceLoop_new {j b f : Nat} {s : State} (hn : isNew j s = true) :
    serviceLoop j b (f + 1) 0 s = (consumeOne j s).bind fun _ s => serviceLoop j b f 1 s := by
  rw [serviceLoop, if_neg (fun h => h.1 h.2.symm), hn]
  rfl

/-- At the budget the loop ends. -/
theorem serviceLoop_spent {j b : Nat} (f : Nat) (s : State) (hb : b ≠ 0) : serviceLoop j b f b s = .done (b, false) s := by
  cases f with
  | zero => rfl
  | succ f => rw [serviceLoop, if_pos ⟨hb, rfl⟩]

/-- A budget bounds the entries of the loop. -/
theorem serviceLoop_le {j b : Nat} (hb : b ≠ 0) (f n : Nat) {s u : State} {r : Nat × Bool} (hn : n ≤ b)
    (h : serviceLoop j b f n s = .done r u) : r.1 ≤ b := by
  induction f generalizing n s with
  | zero => cases h; exact hn
  | succ f ih =>
    rw [serviceLoop] at h
    split at h
    · cases h; exact hn
    · rename_i hleft
      split at h
      · cases hc : consumeOne j s with
        | raised v => rw [hc] at h; cases h
        | done a v =>
          rw [hc] at h
          exact ih (n + 1) (by omega) h
      · cases h; exact hn

/-! ### What follows the loop (R212) -/

theorem serviceRefill_rx {j f : Nat} {s : State} (hrole : (s.iq j).role = .rx) (hfl : (s.iq j).fl = some f) :
    serviceRefill j s = (flDoorbell f false (flRefill f (s.fl f).needed s).2).2 := by
  rw [serviceRefill, hrole, hfl]

theorem serviceRefill_none {j : Nat} {s : State} (h : (s.iq j).role ≠ .rx ∨ (s.iq j).fl = none) : serviceRefill j s = s := by
  unfold serviceRefill
  split
  · rename_i hrole hfl
    rcases h with h | h
    · exact absurd hrole h
    · rw [h] at hfl; cases hfl
  · rfl

/-- A refill and its doorbell are the free list's own affair. -/
theorem refillDoorbell_frame (f n : Nat) (s : State) : Untouched .fl f s (flDoorbell f false (flRefill f n s).2).2 ∧
    (flDoorbell f false (flRefill f n s).2).2.qmap = s.qmap :=
  ⟨(untouched_fl f s).flDoorbell ((untouched_fl f s).flRefill (Untouched.refl _ _ _) n) false,
    (qmap_fl f s.qmap).flDoorbell ((qmap_fl f s.qmap).flRefill rfl n) false⟩

/-- The refill after a service leaves the queues and the registers alone. -/
theorem serviceRefill_frame (j : Nat) (s : State) : (∀ k, (serviceRefill j s).iq k = s.iq k) ∧
    (∀ k, (serviceRefill j s).eq k = s.eq k) ∧ (serviceRefill j s).fault = s.fault ∧ (serviceRefill j s).qmap = s.qmap := by
  by_cases h : (s.iq j).role = .rx ∧ ∃ f, (s.iq j).fl = some f
  · obtain ⟨hrole, f, hfl⟩ := h
    obtain ⟨hframe, hqmap⟩ := refillDoorbell_frame f (s.fl f).needed s
    rw [serviceRefill_rx hrole hfl]
    exact ⟨fun k => hframe.iqs k (.inl (by decide)), fun k => hframe.eqs k (.inl (by decide)), hframe.fault, hqmap⟩
  · have hnone : (s.iq j).role ≠ .rx ∨ (s.iq j).fl = none := by
      by_contra hc
      obtain ⟨hrole, hfl⟩ := not_or.1 hc
      exact h ⟨not_not.1 hrole, Option.ne_none_iff_exists'.1 hfl⟩
    rw [serviceRefill_none hnone]
    exact ⟨fun _ => rfl, fun _ => rfl, rfl, rfl⟩

theorem serviceEnd_true (j : Nat) (s : State) : serviceEnd j true s =
    (serviceRefill j (creditReturn j s)).setIq j { (serviceRefill j (creditReturn j s)).iq j with svcReq := false } := rfl

theorem serviceEnd_false (j : Nat) (s : State) : serviceEnd j false s = serviceRefill j (creditReturn j s) := rfl

/-- The record after a service: no count, and no service request when the loop ended on a stale entry. -/
theorem serviceEnd_iq (j : Nat) (stale : Bool) (s : State) : (serviceEnd j stale s).iq j =
    { s.iq j with ncons := 0, svcReq := if stale then false else (s.iq j).svcReq } := by
  have hiq := (serviceRefill_frame j (creditReturn j s)).1 j
  cases stale with
  | true => rw [serviceEnd_true, State.setIq_same, hiq, creditReturn_iq_same]; rfl
  | false => rw [serviceEnd_false, hiq, creditReturn_iq_same]; rfl

/-! ### The two commands, by what their bodies do -/

/-- One consumed entry writes neither `FAULT` nor `RES`, unless it raises a fault. -/
theorem consumeOne_registers (j : Nat) (s : State) :
    (consumeOne j s).Holds (fun u => u.fault = s.fault ∧ u.res = s.res) :=
  (registers_closed s).ingress.consumeOne ⟨rfl, rfl⟩ j

theorem execIqService_done {q : Qid} {b : BitVec 32} {s u : State} {r : Nat × Bool} (hst : (s.iq q.toNat).st = .run)
    (h : serviceLoop q.toNat b.toNat ((s.iq q.toNat).cap + 2) 0 s = .done r u) :
    exec (.iqService q b) s = .next ((serviceEnd q.toNat r.2 u).finish (if r.1 = 0 then .empty else .ok) r.1) := by
  refine congrArg Host.Outcome.next ((if_pos hst).trans ?_)
  rw [h]
  rfl

theorem execIqService_raised {q : Qid} {b : BitVec 32} {s u : State} (hst : (s.iq q.toNat).st = .run)
    (h : serviceLoop q.toNat b.toNat ((s.iq q.toNat).cap + 2) 0 s = .raised u) : exec (.iqService q b) s = .next u := by
  refine congrArg Host.Outcome.next ((if_pos hst).trans ?_)
  rw [h]
  rfl

/-- IQ_SERVICE that raises no fault is its loop and what follows it. -/
theorem iqService_of_noFault {q : Qid} {b : BitVec 32} {s t : State} (hst : (s.iq q.toNat).st = .run)
    (hvalid : faultValid s.fault = false) (he : exec (.iqService q b) s = .next t) (hf : t.fault = s.fault) :
    ∃ r u, serviceLoop q.toNat b.toNat ((s.iq q.toNat).cap + 2) 0 s = .done r u ∧
      t = (serviceEnd q.toNat r.2 u).finish (if r.1 = 0 then .empty else .ok) r.1 := by
  have hreg := (registers_closed s).ingress.serviceLoop (s := s) ⟨rfl, rfl⟩ q.toNat b.toNat ((s.iq q.toNat).cap + 2) 0
  cases hl : serviceLoop q.toNat b.toNat ((s.iq q.toNat).cap + 2) 0 s with
  | done r u =>
    rw [execIqService_done hst hl] at he
    cases he
    exact ⟨r, u, rfl, rfl⟩
  | raised u =>
    rw [execIqService_raised hst hl] at he
    cases he
    rw [hl] at hreg
    obtain ⟨v, c, x, -, rfl⟩ := hreg
    exact absurd hf (raiseFault_ne hvalid v c x)

/-- IQ_CONSUME on a new entry that raises no fault is one consumed entry. -/
theorem iqConsume_of_noFault {q : Qid} {s t : State} (hst : (s.iq q.toNat).st = .run) (hn : isNew q.toNat s = true)
    (hvalid : faultValid s.fault = false) (he : exec (.iqConsume q) s = .next t) (hf : t.fault = s.fault) :
    ∃ u, consumeOne q.toNat s = .done () u ∧ u.res = s.res ∧ t = u.finish .ok (ctrlOf q.toNat s).type.toNat := by
  have hreg := consumeOne_registers q.toNat s
  rw [execIqConsume_new hst hn] at he
  cases hc : consumeOne q.toNat s with
  | done a u =>
    rw [hc] at he hreg
    cases he
    exact ⟨u, rfl, hreg.2, rfl⟩
  | raised u =>
    rw [hc] at he hreg
    cases he
    obtain ⟨v, c, x, -, rfl⟩ := hreg
    exact absurd hf (raiseFault_ne hvalid v c x)

/-- IQ_CONSUME on a new entry that changes `FAULT` is the raised fault of the entry. -/
theorem iqConsume_of_fault {q : Qid} {s t : State} (hst : (s.iq q.toNat).st = .run) (hn : isNew q.toNat s = true)
    (he : exec (.iqConsume q) s = .next t) (hf : t.fault ≠ s.fault) : consumeOne q.toNat s = .raised t := by
  have hreg := consumeOne_registers q.toNat s
  rw [execIqConsume_new hst hn] at he
  cases hc : consumeOne q.toNat s with
  | done a u =>
    rw [hc] at he hreg
    cases he
    exact absurd hreg.1 hf
  | raised u =>
    rw [hc] at he
    cases he
    rfl

/-! ### IQ_SERVICE goes on (R212) -/

/-- The budget that is left after one entry. -/
theorem budget_left {b c : BitVec 32} (h : b ≠ 1) (hc : c = if b = 0 then 0 else b - 1) :
    b.toNat = 0 ∧ c.toNat = 0 ∨ b.toNat = c.toNat + 1 ∧ c.toNat ≠ 0 := by
  subst hc
  split
  · rename_i h0
    exact .inl ⟨by rw [h0]; rfl, rfl⟩
  · right
    bv_omega

/-- After one entry the loop is that of a service with the budget that is left. -/
theorem serviceLoop_goesOn {j b c : Nat} {s v : State} (h : b = 0 ∧ c = 0 ∨ b = c + 1 ∧ c ≠ 0) (hlaw : (s.iq j).Law)
    (hn : isNew j s = true) (hc : consumeOne j s = .done () v) :
    serviceLoop j b ((s.iq j).cap + 2) 0 s =
      (serviceLoop j c ((v.iq j).cap + 2) 0 v).bind fun r u => .done (r.1 + 1, r.2) u := by
  obtain ⟨-, hlaw', hcap⟩ := consumeOne_accounts hlaw hc
  have hturn : serviceLoop j b ((s.iq j).cap + 2) 0 s = serviceLoop j b ((s.iq j).cap + 1) 1 v := by
    rw [serviceLoop_new hn, hc]
    rfl
  rw [hturn, serviceLoop_shift h, hcap, serviceLoop_fuel (f := (s.iq j).cap + 1) (g := (s.iq j).cap + 2) 0 hlaw'.cidx_lt
    (by omega) (by omega)]

/-- One consumed entry leaves the fields that only the lifecycle writes. -/
theorem consumeOne_fixed {j : Nat} {s v : State} (hc : consumeOne j s = .done () v) : (v.iq j).fixed = (s.iq j).fixed := by
  have h : Ran.Holds (SameFixed s) (consumeOne j s) := (sameFixed_closed s).ingress.consumeOne (SameFixed.refl s) j
  rw [hc] at h
  exact SameFixed.iq h j

theorem consumeOne_role {j : Nat} {s v : State} (hc : consumeOne j s = .done () v) :
    (v.iq j).role = (s.iq j).role ∧ (v.iq j).fl = (s.iq j).fl := by
  have h := consumeOne_fixed hc
  simp only [IQ.fixed, Prod.mk.injEq] at h
  obtain ⟨-, -, -, -, -, hrole, -, -, -, hfl, -⟩ := h
  exact ⟨hrole, hfl⟩

/-- IQ_SERVICE with budget left after one entry (R212). -/
theorem iqService_goesOn {q : Qid} {b c : BitVec 32} {s v : State}
    (h : b.toNat = 0 ∧ c.toNat = 0 ∨ b.toNat = c.toNat + 1 ∧ c.toNat ≠ 0) (hst : (s.iq q.toNat).st = .run)
    (hlaw : (s.iq q.toNat).Law) (hn : isNew q.toNat s = true) (hvalid : faultValid s.fault = false)
    (hc : consumeOne q.toNat s = .done () v) :
    ∃ t, exec (.iqService q c) v = .next t ∧ exec (.iqService q b) s =
      .next (if t.fault = s.fault then { t with res := { rc := .ok, value := t.res.value + 1 } } else t) := by
  have hloop := serviceLoop_goesOn h hlaw hn hc
  have hv := consumeOne_registers q.toNat s
  rw [hc] at hv
  obtain ⟨hfault, -⟩ : v.fault = s.fault ∧ v.res = s.res := hv
  have hst' : (v.iq q.toNat).st = .run := (congrArg Prod.fst (consumeOne_fixed hc)).trans hst
  have hreg := (registers_closed v).ingress.serviceLoop (s := v) ⟨rfl, rfl⟩ q.toNat c.toNat ((v.iq q.toNat).cap + 2) 0
  cases hl : serviceLoop q.toNat c.toNat ((v.iq q.toNat).cap + 2) 0 v with
  | done r u =>
    rw [hl] at hloop hreg
    have hend : (serviceEnd q.toNat r.2 u).fault = s.fault :=
      ((registers_closed v).ingress.serviceEnd hreg q.toNat r.2).1.trans hfault
    refine ⟨_, execIqService_done hst' hl, (execIqService_done hst hloop).trans ?_⟩
    rw [State.finish_fault, if_pos hend, if_neg (Nat.succ_ne_zero r.1)]
    simp only [State.finish, BitVec.ofNat_add]
    rfl
  | raised u =>
    rw [hl] at hloop hreg
    obtain ⟨w, d, x, -, rfl⟩ := hreg
    refine ⟨_, execIqService_raised hst' hl, (execIqService_raised hst hloop).trans ?_⟩
    rw [if_neg (raiseFault_ne hvalid w d x)]

/-- IQ_SERVICE with a budget of 1 ends after one entry (R212). -/
theorem iqService_one {q : Qid} {s v : State} (hst : (s.iq q.toNat).st = .run) (hn : isNew q.toNat s = true)
    (hc : consumeOne q.toNat s = .done () v) :
    exec (.iqService q 1#32) s = .next ((serviceRefill q.toNat (creditReturn q.toNat v)).finish .ok 1) := by
  refine execIqService_done (r := (1, false)) hst ?_
  rw [serviceLoop_new hn, hc]
  exact serviceLoop_spent _ v (by decide)

/-- IQ_SERVICE on an entry that faults (R212). -/
theorem iqService_fault {q : Qid} {b : BitVec 32} {s v : State} (hst : (s.iq q.toNat).st = .run)
    (hn : isNew q.toNat s = true) (hc : consumeOne q.toNat s = .raised v) : exec (.iqService q b) s = .next v := by
  refine execIqService_raised hst ?_
  rw [serviceLoop_new hn, hc]
  rfl

/-- IQ_SERVICE on a stale entry (R212). -/
theorem iqService_stale {q : Qid} (b : BitVec 32) {s : State} (hst : (s.iq q.toNat).st = .run)
    (hn : isNew q.toNat s = false) :
    exec (.iqService q b) s = .next ((serviceEnd q.toNat true s).finish .empty 0) :=
  execIqService_done (r := (0, true)) hst (serviceLoop_stale hn)

/-- The service of a stale entry leaves the other queues and the registers alone. -/
theorem serviceEnd_true_frame (j : Nat) (s : State) : (∀ k, k ≠ j → (serviceEnd j true s).iq k = s.iq k) ∧
    (∀ k, (serviceEnd j true s).eq k = s.eq k) ∧ (serviceEnd j true s).fault = s.fault ∧
    (serviceEnd j true s).qmap = s.qmap := by
  obtain ⟨hiq, heq, hfault, hqmap⟩ := serviceRefill_frame j (creditReturn j s)
  rw [serviceEnd_true]
  refine ⟨fun k hk => ?_, heq, hfault, hqmap⟩
  exact ((State.setIq_ne _ _ hk).trans (hiq k)).trans ((creditReturn_frame j s).iqs k (.inr hk))

/-- Of a queue that is no RX queue, the service of a stale entry is one credit return. -/
theorem serviceEnd_true_other {j : Nat} {s : State} (h : (s.iq j).role ≠ .rx) :
    (serviceEnd j true s).out =
      s.out ++ [.regWrite .gts (gtsWord (s.iq j).cntxtId (s.iq j).tmrIdx (s.iq j).pktcIdx (s.iq j).ncons)] ∧
    Untouched .iq j s (serviceEnd j true s) ∧ (serviceEnd j true s).mem = s.mem := by
  rw [serviceEnd_true, serviceRefill_none (s := creditReturn j s) (.inl (by rw [creditReturn_iq_same]; exact h))]
  exact ⟨creditReturn_out j s, (untouched_iq j s).setIq _ _ (by rfl) (creditReturn_frame j s), rfl⟩

/-- Of an RX queue, the service of a stale entry is a credit return, a refill and its doorbell. -/
theorem serviceEnd_true_rx {j f : Nat} {s u : State} (hrole : (s.iq j).role = .rx) (hfl : (s.iq j).fl = some f)
    (hu : (flDoorbell f false (flRefill f (s.fl f).needed (creditReturn j s)).2).2 = u) :
    (∀ k, k ≠ f → (serviceEnd j true s).fl k = s.fl k) ∧ (serviceEnd j true s).fl f = u.fl f ∧
      (serviceEnd j true s).mem = u.mem ∧ (serviceEnd j true s).out = u.out := by
  have hrefill : serviceRefill j (creditReturn j s) = u := by
    rw [serviceRefill_rx (f := f) (by rw [creditReturn_iq_same]; exact hrole) (by rw [creditReturn_iq_same]; exact hfl),
      creditReturn_fl, hu]
  have hframe := (refillDoorbell_frame f (s.fl f).needed (creditReturn j s)).1
  rw [hu] at hframe
  rw [serviceEnd_true, hrefill]
  exact ⟨fun k hk => hframe.fls k (.inr hk), rfl, rfl, rfl⟩

/-- IQ_SERVICE with a budget of 1, of a queue without a free list to refill (R212). -/
theorem iqService_one_none {q : Qid} {s v : State} (hst : (s.iq q.toNat).st = .run) (hn : isNew q.toNat s = true)
    (hc : consumeOne q.toNat s = .done () v) (h : (s.iq q.toNat).role ≠ .rx ∨ (s.iq q.toNat).fl = none) :
    exec (.iqService q 1#32) s = .next ((creditReturn q.toNat v).finish .ok 1) := by
  obtain ⟨hrole, hfl⟩ := consumeOne_role hc
  rw [iqService_one hst hn hc, serviceRefill_none]
  rw [creditReturn_iq_same]
  exact h.imp hrole.trans_ne hfl.trans

/-- IQ_SERVICE with a budget of 1, of an RX queue (R212). -/
theorem iqService_one_rx {q : Qid} {f : Nat} {s v : State} (hst : (s.iq q.toNat).st = .run) (hn : isNew q.toNat s = true)
    (hc : consumeOne q.toNat s = .done () v) (hrx : (s.iq q.toNat).role = .rx) (hsome : (s.iq q.toNat).fl = some f) :
    exec (.iqService q 1#32) s = .next ((flDoorbell f false (flRefill f ((creditReturn q.toNat v).fl f).needed
      (creditReturn q.toNat v)).2).2.finish .ok 1) := by
  obtain ⟨hrole, hfl⟩ := consumeOne_role hc
  rw [iqService_one hst hn hc, serviceRefill_rx (f := f)]
  · rw [creditReturn_iq_same]
    exact hrole.trans hrx
  · rw [creditReturn_iq_same]
    exact hfl.trans hsome

/-- IQ_SERVICE with a budget of 1 on a firmware reply: the entry is consumed and the service request kept (R212). -/
theorem iqService_reply {q : Qid} {s : State} (hst : (s.iq q.toNat).st = .run) (hlaw : (s.iq q.toNat).Law)
    (hrole : (s.iq q.toNat).role = .fwEvt) (hn : isNew q.toNat s = true) (htype : (ctrlOf q.toNat s).type = typeCpl)
    (hop : payloadByte q.toNat 0 s = cplFw4Msg ∨ payloadByte q.toNat 0 s = cplFw6Msg) :
    ∃ t, exec (.iqService q 1#32) s = .next t ∧ t.iq q.toNat = { afterEntry (s.iq q.toNat) with ncons := 0 } ∧
      t.res = { rc := .ok, value := 1 } ∧ Untouched .iq q.toNat s t ∧ t.qmap = s.qmap ∧ t.mem = s.mem := by
  have hc := consumeOne_done (dispatch_reply hrole htype hop)
  have hreply := (untouched_out .iq q.toNat s).emit _ (.cmdReply (payload q.toNat s)) (Untouched.refl _ _ _)
  obtain ⟨hiq, -, hframe, hqmap, hmem, -⟩ :=
    consumed_spec (j := q.toNat) (s := s.emit (.cmdReply (payload q.toNat s))) hlaw.cidx_lt
  generalize consumed q.toNat (s.emit (.cmdReply (payload q.toNat s))) = v at hc hiq hframe hqmap hmem
  refine ⟨_, iqService_one_none hst hn hc (.inl (by rw [hrole]; decide)), ?_, rfl,
    ((hreply.trans hframe).trans (creditReturn_frame _ v)).finish _ _, hqmap, hmem⟩
  rw [State.finish_get_iq, creditReturn_iq_same, hiq]
  rfl

/-- A budget bounds the result of IQ_SERVICE (R212). -/
theorem iqService_le {q : Qid} {b : BitVec 32} {s t : State} (hst : (s.iq q.toNat).st = .run) (hb : b ≠ 0)
    (hvalid : faultValid s.fault = false) (he : exec (.iqService q b) s = .next t) (hf : t.fault = s.fault) :
    t.res.value.toNat ≤ b.toNat := by
  obtain ⟨r, u, hl, rfl⟩ := iqService_of_noFault hst hvalid he hf
  have hb' : b.toNat ≠ 0 := fun e => hb (BitVec.eq_of_toNat_eq e)
  calc (BitVec.ofNat 32 r.1).toNat ≤ r.1 := by rw [BitVec.toNat_ofNat]; exact Nat.mod_le _ _
    _ ≤ b.toNat := serviceLoop_le hb' _ 0 (Nat.zero_le _) hl

/-- Settles O25: a stale entry ends the loop at once; at a new one a turn is one consumed entry, which ends the service with its
fault or with its budget, or goes on as the loop of the budget left. -/
theorem iqServiceRunsItsLoop : Obligations.IqServiceRunsItsLoop := by
  refine ⟨?stale, ?reply, fun q b s t hst hb hvalid he hf => iqService_le hst hb hvalid he hf, ?turn⟩
  case stale =>
    intro q b s j r hst hold
    obtain ⟨hiq, heq, hfault, hqmap⟩ := serviceEnd_true_frame j s
    refine ⟨_, iqService_stale b hst ((isNew_false_iff j s).2 hold), serviceEnd_iq j true s, rfl, hiq, heq, hfault, hqmap,
      fun hrole => ?_, fun f hrole hfl => serviceEnd_true_rx hrole hfl rfl⟩
    obtain ⟨hout, hframe, hmem⟩ := serviceEnd_true_other hrole
    exact ⟨hout, hframe.finish _ _, hmem⟩
  case reply =>
    intro q s j r hst hlaw hrole hgen htype hop
    exact iqService_reply hst hlaw hrole ((isNew_iff j s).2 hgen) htype hop
  case turn =>
    intro q b s u j r hst hlaw hgen hvalid he
    have hn := (isNew_iff j s).2 hgen
    refine ⟨fun hf => iqService_fault hst hn (iqConsume_of_fault hst hn he hf), fun hf => ?_⟩
    obtain ⟨v, hc, hv, rfl⟩ := iqConsume_of_noFault hst hn hvalid he hf
    have hback : { v.finish .ok (ctrlOf j s).type.toNat with res := s.res } = v := by
      rw [← hv]
      rfl
    rw [hback]
    refine ⟨fun hb => iqService_goesOn (budget_left hb rfl) hst hlaw hn hvalid hc, ?_⟩
    rintro rfl
    refine ⟨iqService_one_none hst hn hc, fun f hrx hsome => ?_⟩
    have hlast := iqService_one_rx hst hn hc hrx hsome
    -- as a variable, the refilled state is compared by name and not evaluated
    generalize flDoorbell f false _ = w at hlast ⊢
    exact hlast

/-! ### The account of a run (R213) -/

/-- The entries of a service, at most `cap + 2`, fit its result. -/
theorem toNat_result {n : Nat} (h : n ≤ 65538) : (BitVec.ofNat 32 n).toNat = n := by
  rw [BitVec.toNat_ofNat]
  exact Nat.mod_eq_of_lt (by omega)

theorem Accounts.refl (j : Nat) (s : State) : Accounts j s 0 s := (NoCredit.refl s).accounts rfl

/-- IQ_CONSUME keeps the account and the bounds. -/
theorem iqConsume_accounts {q : Qid} {s u : State} (hst : (s.iq q.toNat).st = .run) (hlaw : (s.iq q.toNat).Law)
    (hvalid : faultValid s.fault = false) (he : exec (.iqConsume q) s = .next u) (hf : u.fault = s.fault) :
    Accounts q.toNat s (consumedBy (.iqConsume q) u) u ∧ (u.iq q.toNat).Law := by
  cases hn : isNew q.toNat s with
  | false =>
    rw [execIqConsume_stale hst hn] at he
    cases he
    exact ⟨Accounts.refl q.toNat s, hlaw⟩
  | true =>
    obtain ⟨v, hc, -, rfl⟩ := iqConsume_of_noFault hst hn hvalid he hf
    obtain ⟨hacc, hlaw', -⟩ := consumeOne_accounts hlaw hc
    exact ⟨hacc, hlaw'⟩

/-- IQ_CREDIT keeps the account and the bounds. -/
theorem iqCredit_accounts {q : Qid} {s u : State} (hst : (s.iq q.toNat).st = .run) (hlaw : (s.iq q.toNat).Law)
    (he : exec (.iqCredit q) s = .next u) : Accounts q.toNat s (consumedBy (.iqCredit q) u) u ∧ (u.iq q.toNat).Law := by
  rw [execIqCredit_run hst] at he
  cases he
  have hncons := hlaw.ncons_lt
  have hbatch := hlaw.credit.2
  refine ⟨creditReturn_accounts (s := s) (by omega), ?_⟩
  rw [State.finish_get_iq, creditReturn_iq_same]
  exact hlaw.congr rfl rfl rfl rfl (.inr rfl)

/-- IQ_SERVICE keeps the account and the bounds. -/
theorem iqService_accounts {q : Qid} {b : BitVec 32} {s u : State} (hst : (s.iq q.toNat).st = .run)
    (hlaw : (s.iq q.toNat).Law) (hvalid : faultValid s.fault = false) (he : exec (.iqService q b) s = .next u)
    (hf : u.fault = s.fault) : Accounts q.toNat s (consumedBy (.iqService q b) u) u ∧ (u.iq q.toNat).Law := by
  obtain ⟨r, v, hl, rfl⟩ := iqService_of_noFault hst hvalid he hf
  obtain ⟨k, hr, hk, hacc, hlaw', -⟩ := serviceLoop_accounts _ 0 hlaw (fun _ => Nat.zero_le _) hl
  have hcap := hlaw.cap_max
  have hcount : consumedBy (.iqService q b) ((serviceEnd q.toNat r.2 v).finish (if r.1 = 0 then .empty else .ok) r.1) = k :=
    (toNat_result (by omega)).trans (by omega)
  refine ⟨?_, ?_⟩
  · rw [hcount]
    exact hacc.trans (serviceEnd_accounts r.2 hlaw')
  · rw [State.finish_get_iq, serviceEnd_iq]
    exact hlaw'.congr rfl rfl rfl rfl (.inr rfl)

/-- Settles O26, by induction on the run: each command keeps the account and what the next one needs. -/
theorem creditAccounting : Obligations.CreditAccounting := by
  intro q s t n hst hlaw hvalid hrun
  show Accounts q.toNat s n t
  induction hrun with
  | done s => exact Accounts.refl q.toNat s
  | more i s u t n hi he hf _ ih =>
    have hcmd : Accounts q.toNat s (consumedBy i u) u ∧ (u.iq q.toNat).Law := by
      obtain rfl | rfl | ⟨b, rfl⟩ := hi
      · exact iqConsume_accounts hst hlaw hvalid he hf
      · exact iqCredit_accounts hst hlaw he
      · exact iqService_accounts hst hlaw hvalid he hf
    have hlife : Instr.isLifecycle i = false := by obtain rfl | rfl | ⟨b, rfl⟩ := hi <;> rfl
    obtain ⟨u', he', hfixed⟩ := exec_sameFixed hlife s
    cases he'.symm.trans he
    have hst' : (u.iq q.toNat).st = .run := (congrArg Prod.fst (hfixed.iq q.toNat)).trans hst
    exact hcmd.1.trans (ih hst' hcmd.2 (hf ▸ hvalid))

end Sys2Proof.Machine
end

section
/-! PROOFS. 42_freelist.md: size-class selection (R240), the doorbell (R255), refill (R242 to R247) and consumption (R250, R252). -/

namespace Sys2Proof.Machine

/-! ### FL_SELECT (R240) -/

/-- The size of a listed class. -/
theorem classSize_eq_getElem {c : Config} {k : Nat} (h : k < c.classSizes.length) : classSize c k = c.classSizes[k] := by
  simp [classSize, h]

/-- The class FL_SELECT chooses: the least that covers the MTU and the margin, the last if none does. -/
theorem selectClass_spec (c : Config) (mtu : Nat) :
    (selectClass c mtu < c.classSizes.length ∧ mtu + c.flHdrMargin ≤ classSize c (selectClass c mtu) ∧
      ∀ k, k < selectClass c mtu → classSize c k < mtu + c.flHdrMargin) ∨
    (selectClass c mtu = c.classSizes.length - 1 ∧ ∀ k, k < c.classSizes.length → classSize c k < mtu + c.flHdrMargin) := by
  unfold selectClass
  cases hfind : c.classSizes.findIdx? fun n => decide (mtu + c.flHdrMargin ≤ n) with
  | none =>
    refine .inr ⟨rfl, fun k hk => ?_⟩
    have hsmall := List.findIdx?_eq_none_iff.1 hfind _ (List.getElem_mem hk)
    rw [classSize_eq_getElem hk]
    simpa using hsmall
  | some i =>
    obtain ⟨hi, hcovers, hbefore⟩ := List.findIdx?_eq_some_iff_getElem.1 hfind
    refine .inl ⟨hi, ?_, fun k hk => ?_⟩
    · show _ ≤ classSize c i
      rw [classSize_eq_getElem hi]
      simpa using hcovers
    · have hk' : k < i := hk
      rw [classSize_eq_getElem (by omega)]
      simpa using hbefore k hk'

/-- Settles O28: the command stores the class that `selectClass` finds. -/
theorem flSelectChoosesLeastClass : Obligations.FlSelectChoosesLeastClass := by
  intro q mtu s j n hst _
  refine ⟨selectClass s.cfg mtu.toNat, _, ?_, rfl, selectClass_spec s.cfg mtu.toNat⟩
  show execFlSelect q mtu s = _
  rw [execFlSelect, if_neg hst]
  rfl

/-! ### FL_DOORBELL (R255) -/

/-- `FL_DOORBELL` on a registered free list is `flDoorbell`. -/
theorem execFlDoorbell_registered {q : Qid} {s : State} (force : Bool)
    (hst : (s.fl q.toNat).st = .reg ∨ (s.fl q.toNat).st = .run) :
    exec (.flDoorbell q force) s = .next ((flDoorbell q.toNat force s).2.finish .ok (flDoorbell q.toNat force s).1) := by
  show execFlDoorbell q force s = _
  rw [execFlDoorbell, if_pos ((registered_iff _).2 hst)]

/-- Settles O29: the two cases of `flDoorbell_cases`, each increment written as the `KDB` word that carries it. -/
theorem flDoorbellPublishesPending : Obligations.FlDoorbellPublishesPending := by
  intro q force s j f hst
  rw [execFlDoorbell_registered force hst]
  rcases flDoorbell_cases j force s with ⟨hquiet, heq⟩ | ⟨hring, hvalue, hmem, hfl, havail, incs, hsum, hbounds, hout⟩
  case inl =>
    refine ⟨fun _ => by rw [heq]; rfl, fun hpend hforce => ?_⟩
    obtain ⟨hunforced, hlow⟩ := hquiet.resolve_left hpend
    exact absurd (hforce.resolve_left (by simp [hunforced])) (Nat.not_le.2 hlow)
  case inr =>
    refine ⟨fun h => absurd h hring, fun _ _ => ⟨_, incs, incs.map (kdbWord (f.cntxtId.setWidth 17)), rfl, hsum, hbounds,
      ?out, ?fields, hfl, by rw [State.finish_res, hvalue], havail,
      ((untouched_fl j s).flDoorbell (Untouched.refl _ _ _) force).finish _ _, (qmap_fl j s.qmap).flDoorbell rfl force, hmem⟩⟩
    case out =>
      rw [List.map_map]
      exact hout
    case fields => exact List.forall₂_map_right_iff.2 (List.forall₂_same.2 fun n _ => kdbWord_fields _ n)

/-! ### FL_REFILL (R242 to R247) -/

/-- `FL_REFILL` on a registered free list is `flRefill`. -/
theorem execFlRefill_registered {q : Qid} {s : State} (want : BitVec 32)
    (hst : (s.fl q.toNat).st = .reg ∨ (s.fl q.toNat).st = .run) :
    exec (.flRefill q want) s =
      .next ((flRefill q.toNat want.toNat s).2.finish (flRefill q.toNat want.toNat s).1.1 (flRefill q.toNat want.toNat s).1.2) := by
  show execFlRefill q want s = _
  rw [execFlRefill, if_pos ((registered_iff _).2 hst)]

/-- A refill is its loop, which ends in some `t` with `n` of the slots asked for and needed filled, and an unforced doorbell,
which changes `pending` alone of what the list and the memory hold. -/
theorem flRefill_spec {j : Nat} {s : State} (hlaw : (s.fl j).Law) (want : Nat) :
    ∃ n t u, flRefill j want s = ((if n = min want (s.fl j).needed then .ok else .noBuf, n), u) ∧
      n ≤ min want (s.fl j).needed ∧ Refilled j s n t ∧ Refills j (min want (s.fl j).needed) s n t ∧
      u.fl j = { t.fl j with pending := if (t.fl j).pending < s.cfg.flDbThresh then (t.fl j).pending else 0 } ∧
      u.mem = t.mem ∧ Untouched .fl j s u ∧ u.qmap = s.qmap := by
  obtain ⟨hdone, hle⟩ := flRefillLoop_refilled hlaw (min want (s.fl j).needed) 0 (Refilled.zero hlaw) (by omega)
  have hfills := flRefillLoop_refills hlaw (min want (s.fl j).needed) 0 (Refilled.zero hlaw) (Tally.zero j s) (by omega)
  rw [Nat.zero_add] at hle hfills
  have hcfg := ((untouched_fl j s).flRefillLoop (Untouched.refl _ _ _) (min want (s.fl j).needed) 0).cfg
  refine ⟨_, _, _, rfl, hle, hdone, hfills, ?fl, (flDoorbell_fl j false _).2,
    (untouched_fl j s).flRefill (Untouched.refl _ _ _) want, (qmap_fl j s.qmap).flRefill rfl want⟩
  case fl =>
    rw [(flDoorbell_fl j false _).1, hcfg]
    by_cases h0 : ((flRefillLoop j (min want (s.fl j).needed) 0 s).2.fl j).pending = 0 <;> simp [h0]

/-- A refill that ended as `SoftFail` says counted nothing if it filled every slot, one failure if it did not. -/
theorem SoftFail.of_count {n k : Nat} {f g : FL} (h : SoftFail (decide (n = k)) f g) :
    (n = k → g.allocFail = f.allocFail ∧ g.mapFail = f.mapFail) ∧
    (n < k → (g.allocFail = f.allocFail + 1 ∧ g.mapFail = f.mapFail) ∨
      (g.allocFail = f.allocFail ∧ g.mapFail = f.mapFail + 1)) := by
  refine ⟨fun hn => ?_, fun hn => ?_⟩
  · rw [decide_eq_true hn] at h; exact h
  · rw [decide_eq_false (Nat.ne_of_lt hn)] at h; exact h

/-- Settles O30: `Refilled` says what the loop wrote, `Refills` which slots it filled and how it ended, and the doorbell after it
changes `pending` alone. -/
theorem flRefillPostsInOrder : Obligations.FlRefillPostsInOrder := by
  intro q want s j f hst hlaw hring k at_
  obtain ⟨n, t, u, hrefill, hle, hdone, hfills, hfl, hmem, hframe, hqmap⟩ := flRefill_spec hlaw want.toNat
  obtain ⟨hkept, hcounted⟩ := hfills.count.of_count
  refine ⟨u.finish (if n = k then .ok else .noBuf) n, n, ?exec, hle, rfl, ?_⟩
  case exec => rw [execFlRefill_registered want hst, hrefill]
  simp only [State.finish_get_fl, State.finish_get_readByte, State.finish_qmap, hfl]
  refine ⟨hkept, fun hn => ⟨hfills.empty hn, hcounted hn⟩, hfills.again, hfills.fills, hfills.host, ?needed, ?pidx, ?cidx,
    ?pending, ?st, ?cls, ?base, ?cap, ?owner, ?cntxtId, ?posted, hdone.others, ?mem, hframe.finish _ _, hqmap⟩
  case posted =>
    intro i hi
    obtain ⟨b, hown, hcls, hptr⟩ := hdone.posted i hi
    refine ⟨b, hown, hcls, ?_⟩
    rw [← flPointer, ← hptr hring]
    exact read64_congr fun _ _ => congrArg (Memory.get · _) hmem
  case mem =>
    intro a ha
    exact (congrArg (Memory.get · a.toNat) hmem).trans (hdone.mem a ha)
  all_goals rw [hdone.keep]

/-! ### FL_TAKE (R250, R252) -/

/-- `FL_TAKE` delivers the frame that `flTake` hands over, and leaves alone what does not belong to the free list. -/
theorem execFlTake_done {q : Qid} {len : BitVec 32} {s v : State} {fr : Frame} {k : Nat} (hst : (s.fl q.toNat).st = .run)
    (htake : flTake q.toNat len.toNat s = .done (fr, k) v) :
    ∃ t, exec (.flTake q len) s = .next t ∧ t.res = { rc := .ok, value := BitVec.ofNat 32 k } ∧
      t.fl q.toNat = v.fl q.toNat ∧ t.out = v.out ++ [.deliver fr none] ∧
      Untouched .fl q.toNat s t ∧ t.qmap = s.qmap ∧ t.mem = s.mem := by
  have hframe := (untouched_fl q.toNat s).flTake (Untouched.refl _ _ _) len.toNat
  have hqmap := (qmap_fl q.toNat s.qmap).flTake rfl len.toNat
  have hmem : v.mem = s.mem := flTakeLoop_mem _ _ _ _ _ _ htake
  rw [htake] at hframe hqmap
  refine ⟨(v.emit (.deliver fr none)).finish .ok k, ?_, rfl, rfl, rfl,
    ((untouched_out .fl q.toNat s).emit _ _ hframe).finish _ _, hqmap, hmem⟩
  show execFlTake q len s = _
  rw [execFlTake, if_pos hst, htake]
  rfl

/-- `FL_TAKE` ends in the fault that `flTake` raises. -/
theorem execFlTake_raised {q : Qid} {len : BitVec 32} {s v : State} (hst : (s.fl q.toNat).st = .run)
    (htake : flTake q.toNat len.toNat s = .raised v) : exec (.flTake q len) s = .next v := by
  show execFlTake q len s = _
  rw [execFlTake, if_pos hst, htake]
  rfl

/-- With no published buffer there is nothing to take. -/
theorem flTake_empty {j len : Nat} {s : State} (hl : 1 ≤ len) (hp : (s.fl j).published = 0) :
    flTake j len s = Ran.raise s .flUnderrun (selFl j) := by
  rw [flTake, hp, flTakeLoop, if_neg (by omega)]

/-- Settles O31: `flTake_one` for the frame that fits, `flTake_empty` for the empty list. -/
theorem flTakeOneBuffer : Obligations.FlTakeOneBuffer := by
  refine ⟨?_, fun q len s hst hlen hpub => execFlTake_raised hst (flTake_empty hlen hpub)⟩
  intro q len b s j f n hst hlen hpub hown hsz
  have htake := flTake_one hlen hpub hown hsz
  by_cases hcopy : n ≤ s.cfg.rxCopyThresh
  · rw [if_pos hcopy] at htake
    obtain ⟨t, hexec, hres, hfl, hout, hrest⟩ := execFlTake_done hst htake
    exact ⟨t, hexec, hres, fun _ => ⟨hfl.trans (flTaken_fl j _ s), hout⟩, fun h => absurd hcopy (by omega), hrest⟩
  · rw [if_neg hcopy] at htake
    obtain ⟨t, hexec, hres, hfl, hout, hrest⟩ := execFlTake_done hst htake
    refine ⟨t, hexec, hres, fun h => absurd h hcopy, fun _ => ⟨hfl.trans (flTaken_fl j _ (s.emit _)), hout.trans ?_⟩, hrest⟩
    show (s.out ++ [_]) ++ _ = _
    rw [List.append_assoc]
    rfl

theorem bufBytes_one (c : Config) (b : Nat → RxBuf) : bufBytes c b 1 = classSize c (b 0).bcls := by
  rw [bufBytes_succ, bufBytes_zero, Nat.zero_add]

/-- More buffers hold at least as much. -/
theorem bufBytes_mono (c : Config) (b : Nat → RxBuf) : Monotone (bufBytes c b) :=
  monotone_nat_of_le_succ fun n => by rw [bufBytes_succ]; exact Nat.le_add_right _ _

/-- The fields of a free list after `k` slots were taken, the ones a take does not write among them. -/
theorem Taken.fields {f g : FL} {k : Nat} (h : Taken f k g) :
    g.cidx = (f.cidx + k) % f.cap ∧ g.needed = f.needed + k ∧ g.pidx = f.pidx ∧ g.pending = f.pending := by
  refine ⟨?_, ?_, ?_, ?_⟩ <;> rw [h.keep]

section spans
variable {j len : Nat} {b : Nat → RxBuf} {s : State} (hlaw : (s.fl j).Law)
  (hb : ∀ i, i < (s.fl j).published → ((s.fl j).slot (((s.fl j).cidx + i) % (s.fl j).cap)).own = .posted (b i))
include hlaw hb

/-- The first published buffer is the one at `cidx`. -/
theorem posted_at_cidx (hpub : 1 ≤ (s.fl j).published) : ((s.fl j).slot (s.fl j).cidx).own = .posted (b 0) := by
  have h0 := hb 0 hpub
  rwa [Nat.add_zero, Nat.mod_eq_of_lt hlaw.cidx_lt] at h0

/-- A frame that is not copied is attached from as many buffers as hold it (R250). -/
theorem flTake_attach (hlen : 1 ≤ len) (hcopy : ¬ (len ≤ s.cfg.rxCopyThresh ∧ len ≤ classSize s.cfg (b 0).bcls))
    (hfits : len ≤ bufBytes s.cfg b (s.fl j).published) :
    ∃ k v, flTake j len s = .done (.refs (frameParts s.cfg b len k), k) v ∧ Spanning j len b s k v ∧ 1 ≤ k ∧
      len ≤ bufBytes s.cfg b k := by
  obtain ⟨k, v, htake, hspan, -, hk, hholds⟩ := (flTakeLoop_attach hlaw hb (s.fl j).published 0 (Spanning.zero hlaw)
    (Nat.zero_add _) fun _ => ⟨hlen, hcopy⟩).1 hfits
  exact ⟨k, v, htake, hspan, hk, hholds⟩

/-- A frame that the published buffers do not hold faults once they are all taken (R250, R252). -/
theorem flTake_underrun (hshort : bufBytes s.cfg b (s.fl j).published < len) :
    ∃ v, flTake j len s = Ran.raise v .flUnderrun (selFl j) ∧ Spanning j len b s (s.fl j).published v := by
  by_cases hpub : (s.fl j).published = 0
  · refine ⟨s, flTake_empty (by omega) hpub, ?_⟩
    rw [hpub]
    exact Spanning.zero hlaw
  · refine (flTakeLoop_attach hlaw hb (s.fl j).published 0 (Spanning.zero hlaw) (Nat.zero_add _)
      fun _ => ⟨by omega, ?_⟩).2 hshort
    rintro ⟨-, hsz⟩
    have hfirst := bufBytes_mono s.cfg b (Nat.one_le_iff_ne_zero.2 hpub)
    rw [bufBytes_one] at hfirst
    omega

end spans

/-- Settles O32: a frame is copied (`flTake_copy`), attached (`flTake_attach`), or not held by the published buffers
(`flTake_underrun`). -/
theorem flTakeSpansBuffers : Obligations.FlTakeSpansBuffers := by
  intro q len b s j f n at_ hst hlaw hlen hb
  refine ⟨fun hfits => ?_, fun hshort => ?_⟩
  · have hpub : 1 ≤ f.published := Nat.one_le_iff_ne_zero.2 fun h0 => by
      rw [h0, bufBytes_zero] at hfits
      omega
    by_cases hcopy : n ≤ s.cfg.rxCopyThresh ∧ n ≤ classSize s.cfg (b 0).bcls
    case pos =>
      obtain ⟨hshort, hsz⟩ := hcopy
      obtain ⟨t, hexec, hres, hfl, hout, hrest⟩ :=
        execFlTake_done hst (flTake_copy hlen hpub (posted_at_cidx hlaw hb hpub) hshort hsz)
      replace hfl : t.fl j = afterTake f (.retained (b 0)) := hfl.trans (flTaken_fl j _ s)
      have htaken : Taken f 1 (t.fl j) := hfl ▸ (Taken.zero hlaw).next hpub rfl
      obtain ⟨hcidx, hneeded, hpidx, hpend⟩ := htaken.fields
      refine ⟨t, 1, hexec, hres, Nat.le_refl _, hpub, ?holds, ?least, fun _ _ => ⟨?own, hout⟩,
        fun h => absurd hshort (Nat.not_le.2 (h.resolve_left (· rfl))), hcidx, hneeded, hpidx, hpend, htaken.others, hrest⟩
      case holds => rw [bufBytes_one]; exact hsz
      case least => exact hlen
      case own => rw [hfl, afterTake_slot, if_pos rfl]
    case neg =>
      obtain ⟨k, v, htake, hspan, hk, hholds⟩ := flTake_attach hlaw hb hlen hcopy hfits
      obtain ⟨t, hexec, hres, hfl, hout, hrest⟩ := execFlTake_done hst htake
      have htaken : Taken f k (t.fl j) := hfl ▸ hspan.taken
      obtain ⟨hcidx, hneeded, hpidx, hpend⟩ := htaken.fields
      refine ⟨t, k, hexec, hres, hk, htaken.le, hholds, hspan.part (by omega), ?single, fun _ => ⟨?taken, ?sent⟩,
        hcidx, hneeded, hpidx, hpend, htaken.others, hrest⟩
      case single =>
        intro h1 hshort
        rw [h1, bufBytes_one] at hholds
        exact absurd ⟨hshort, hholds⟩ hcopy
      case taken => rw [hfl]; exact hspan.empty
      case sent => rw [hout, hspan.out]; rfl
  · obtain ⟨v, htake, hspan⟩ := flTake_underrun hlaw hb hshort
    have hres := (res_fl j s.res).flTake rfl n
    rw [htake] at hres
    obtain ⟨u, c, x, hu, hv⟩ := hres
    obtain ⟨hcidx, hneeded, -, -⟩ := hspan.taken.fields
    exact ⟨_, execFlTake_raised hst htake, rfl, (congrArg State.res hv).trans hu, hcidx, hneeded, hspan.mem⟩

end Sys2Proof.Machine
end

section
/-! PROOFS. 43_egress_tx.md, the doorbell (R296, R297) and the single work requests (R281, R282, R285, R288, R290, R293). -/

namespace Sys2Proof.Machine

/-! ### The back-off formula (R297) -/

theorem backoff_formula {c : Config} (h : c.dbBackoff = .formula) (x : Nat) : backoff c x = 2 ^ (fls x / 2) := by
  unfold backoff
  rw [h]

/-- `fls` is the width of its argument in bits. -/
theorem fls_eq_size (x : Nat) : fls x = Nat.size x := by
  unfold fls
  split
  case isTrue h => rw [h, Nat.size_zero]
  case isFalse h =>
    refine le_antisymm (Nat.lt_size.2 (Nat.log2_self_le h)) (Nat.size_le.2 Nat.lt_log2_self)

theorem fls_mono : Monotone fls := fun x y h => by
  rw [fls_eq_size, fls_eq_size]
  exact Nat.size_le_size h

/-- The occupancies of R297's table: from `2 ^ (2 k - 1)` to below `2 ^ (2 k + 1)` the threshold is `2 ^ k`. -/
theorem fls_half {k x : Nat} (hk : 1 ≤ k) (hlow : 2 ^ (2 * k - 1) ≤ x) (hhigh : x < 2 ^ (2 * k + 1)) : fls x / 2 = k := by
  have h1 : 2 * k - 1 < Nat.size x := Nat.lt_size.2 hlow
  have h2 : Nat.size x ≤ 2 * k + 1 := Nat.size_le.2 hhigh
  rw [fls_eq_size]
  omega

/-! ### The doorbell (R296) -/

/-- The barrier and the doorbell that publish everything pending of a queue, none where nothing is pending (R113, R170). -/
def EQ.doorbell (e : EQ) : List Effect :=
  if e.pending = 0 then [] else [.barrier, .regWrite .kdb (kdbWord e.cntxtId e.pending)]

/-- The doorbell of R296 stays silent: nothing is pending, or it is not forced and below the threshold of R297. -/
def EQ.quiet (c : Config) (force : Bool) (e : EQ) : Prop :=
  e.pending = 0 ∨ (force = false ∧ e.pending < backoff c (e.cap - e.avail))

theorem EQ.quiet_forced {c : Config} {e : EQ} : e.quiet c true ↔ e.pending = 0 := by simp [EQ.quiet]

theorem eqDoorbell_quiet {j : Nat} {force : Bool} {s : State} (h : (s.eq j).quiet s.cfg force) :
    eqDoorbell j force s = (0, s) := if_pos h

/-- What a doorbell that rings does, its record aside. -/
theorem eqDoorbell_rings {j : Nat} {force : Bool} {s : State} (h : ¬ (s.eq j).quiet s.cfg force) :
    (eqDoorbell j force s).1 = (s.eq j).pending ∧ (eqDoorbell j force s).2.eq j = { s.eq j with pending := 0 } ∧
    (eqDoorbell j force s).2.out = s.out ++ (s.eq j).doorbell ∧
    (eqDoorbell j force s).2.peerEqOf j =
      { s.peerEqOf j with hwPidx := ((s.peerEqOf j).hwPidx + (s.eq j).pending) % (s.eq j).cap } := by
  have hp : (s.eq j).pending ≠ 0 := fun h0 => h (.inl h0)
  have he : eqDoorbell j force s = ((s.eq j).pending, State.setEq ((s.emit .barrier).kdbEq j (s.eq j).pending) j
      { ((s.emit .barrier).kdbEq j (s.eq j).pending).eq j with pending := 0 }) := if_neg h
  rw [he]
  refine ⟨rfl, State.setEq_same _ _ _, ?_, ?_⟩
  · rw [EQ.doorbell, if_neg hp]
    exact List.append_assoc _ _ _
  · exact (State.setPeerEq_get _ _ _ _).trans (if_pos rfl)

theorem eqDoorbell_mem (j : Nat) (force : Bool) (s : State) : (eqDoorbell j force s).2.mem = s.mem := by
  unfold eqDoorbell
  dsimp only
  split <;> rfl

/-- A forced doorbell publishes what is pending. -/
theorem eqDoorbell_forced_out (j : Nat) (s : State) : (eqDoorbell j true s).2.out = s.out ++ (s.eq j).doorbell := by
  by_cases h : (s.eq j).quiet s.cfg true
  · rw [eqDoorbell_quiet h, EQ.doorbell, if_pos (EQ.quiet_forced.1 h), List.append_nil]
  · exact (eqDoorbell_rings h).2.2.1

theorem exec_eqDoorbell {q : Qid} {s : State} (force : Bool) (hst : (s.eq q.toNat).st = .run) :
    exec (.eqDoorbell q force) s = .next ((eqDoorbell q.toNat force s).2.finish .ok (eqDoorbell q.toNat force s).1) :=
  congrArg Host.Outcome.next (if_pos hst)

/-- Settles O35: the formula by the width of the occupancy in bits, the two outcomes by `eqDoorbell_quiet` and
`eqDoorbell_rings`. -/
theorem eqDoorbellBacksOff : Obligations.EqDoorbellBacksOff := by
  refine ⟨fun c hc => ⟨?one, fun k x hk hlow hhigh => ?steps, fun x y hxy => ?mono⟩, ?_⟩
  case one => exact backoff_formula hc 1
  case steps => rw [backoff_formula hc, fls_half hk hlow hhigh]
  case mono =>
    rw [backoff_formula hc, backoff_formula hc]
    exact Nat.pow_le_pow_right (by decide) (Nat.div_le_div_right (fls_mono hxy))
  intro q force s j e hst
  refine ⟨fun hquiet => ?quiet, fun hpend hring => ?rings⟩
  case quiet => rw [exec_eqDoorbell force hst, eqDoorbell_quiet hquiet]; rfl
  case rings =>
    have hloud : ¬ e.quiet s.cfg force := by
      rintro (h | ⟨hf, hlt⟩)
      · exact hpend h
      · rcases hring with h | h
        · rw [h] at hf; cases hf
        · exact Nat.not_le.2 hlt h
    obtain ⟨hn, heq, hout, hpeer⟩ := eqDoorbell_rings hloud
    refine ⟨_, kdbWord e.cntxtId e.pending, exec_eqDoorbell force hst, ?_, kdbWord_fields _ _, heq, ?_, hpeer,
      ((untouched_eq j s).eqDoorbell (Untouched.refl _ _ _) force).finish _ _, (qmap_eq j s.qmap).eqDoorbell rfl force,
      eqDoorbell_mem j force s⟩
    · rw [EQ.doorbell, if_neg hpend] at hout
      exact hout
    · rw [State.finish_res, hn]

/-! ### What a work request writes (R281) -/

/-- Every action of a list is a write of the bus memory. -/
def OnlyWrites (l : List Effect) : Prop := ∀ x ∈ l, ∃ a v, x = .memWrite a v

/-- Writing flits does nothing to the outside but the writes. -/
theorem wflits_out (j f : Nat) (fs : List Flit) (s : State) : ∃ l, (wflits j f fs s).out = s.out ++ l ∧ OnlyWrites l := by
  induction fs generalizing f s with
  | nil => exact ⟨[], (List.append_nil _).symm, by simp [OnlyWrites]⟩
  | cons v fs ih =>
    obtain ⟨l, hout, hl⟩ := ih (f + 1) (wflit j f v s)
    refine ⟨.memWrite (flitAddr (s.eq j).base (s.eq j).cap f) v :: l, hout.trans (List.append_assoc _ [_] l), ?_⟩
    rw [OnlyWrites, List.forall_mem_cons]
    exact ⟨⟨_, _, rfl⟩, hl⟩

/-- A request of `n` flits whose slots the credit covers fits the ring. -/
theorem EQ.Law.fits {e : EQ} (h : e.Law) {n : Nat} (hn : ndesc n ≤ e.avail) : n ≤ 8 * e.cap := by
  obtain ⟨hle, hlt⟩ := h.room hn
  omega

/-! ### EQ_WR_FLUSH (R293) -/

/-- EQ_WR_FLUSH with no batch open. -/
theorem exec_eqWrFlush {q : Qid} {s : State} (hst : (s.eq q.toNat).st = .run) (hb : (s.eq q.toNat).batch.accepting = false) :
    exec (.eqWrFlush q) s = .next (if (writeFlush q.toNat s).1 then (writeFlush q.toNat s).2.finish .ok 1
      else (writeFlush q.toNat s).2.finish .noDesc 0) := congrArg Host.Outcome.next (if_pos ⟨hst, hb⟩)

theorem writeFlush_none {j : Nat} {s : State} (h : (s.eq j).avail = 0) : writeFlush j s = (false, s) :=
  if_pos (by omega)

theorem writeFlush_written {j : Nat} {s : State} (h : 1 ≤ (s.eq j).avail) : (writeFlush j s).1 = true := by
  unfold writeFlush
  dsimp only
  rw [if_neg (by omega)]

/-- Settles O38: the flush request is two flits in one slot of the ring (`writeFlush_eq`, `writeFlush_mem`). -/
theorem eqWrFlushWritesOneSlot : Obligations.EqWrFlushWritesOneSlot := by
  intro q s j e hst
  refine ⟨fun hb => ?refused, fun hb ha => ?noCredit, fun hb hlaw hfit ha => ?written⟩
  case refused => exact refused_of_not (fun g => by rw [hb] at g; exact nomatch g.2) _ s
  case noCredit => rw [exec_eqWrFlush hst hb, writeFlush_none ha]; rfl
  case written =>
    have hring := wflits_ringWritten j (8 * e.pidx) flushWr s hfit (hlaw.fits (n := 2) ha)
    refine ⟨(writeFlush j s).2.finish .ok 1, ?_, rfl, hring.of_mem rfl (writeFlush_mem j s ha) rfl rfl, writeFlush_eq j s ha,
      ((untouched_eq j s).writeFlush (Untouched.refl _ _ _)).finish _ _, (qmap_eq j s.qmap).writeFlush rfl⟩
    rw [exec_eqWrFlush hst hb, if_pos (writeFlush_written ha)]

/-! ### EQ_WR_PKT and EQ_WR_LSO (R285, R288) -/

theorem writePkt_none {j : Nat} {s : State} (h : (s.eq j).avail < ndesc (pktWrFlits (s.eq j).sgl.segs)) :
    writePkt j s = (none, s) := if_pos h

theorem writePkt_some {j : Nat} {s : State} (h : ndesc (pktWrFlits (s.eq j).sgl.segs) ≤ (s.eq j).avail) :
    writePkt j s = (some (ndesc (pktWrFlits (s.eq j).sgl.segs)), sendSgl j (pktWr (s.eq j).sgl.pkt (s.eq j).sgl.segs)
      (pktWrFlits (s.eq j).sgl.segs) (fun c => { c with sglWrs := c.sglWrs + 1 }) s) := if_neg (Nat.not_lt.2 h)

theorem writeLso_none {j : Nat} {o : Lso} {s : State} (h : (s.eq j).avail < ndesc (lsoWrFlits (s.eq j).sgl.segs)) :
    writeLso j o s = (none, s) := if_pos h

theorem writeLso_some {j : Nat} {o : Lso} {s : State} (h : ndesc (lsoWrFlits (s.eq j).sgl.segs) ≤ (s.eq j).avail) :
    writeLso j o s = (some (ndesc (lsoWrFlits (s.eq j).sgl.segs)), sendSgl j (lsoWr (s.eq j).sgl.pkt o (s.eq j).sgl.segs)
      (lsoWrFlits (s.eq j).sgl.segs) (fun c => { c with tsoWrs := c.tsoWrs + 1 }) s) := if_neg (Nat.not_lt.2 h)

/-- EQ_WR_PKT on a packet without an offload request, no batch open. -/
theorem exec_eqWrPkt {q : Qid} {s : State} (hst : (s.eq q.toNat).st = .run) (hb : (s.eq q.toNat).batch.accepting = false)
    (hv : (s.eq q.toNat).sgl.valid = true) (hl : (s.eq q.toNat).sgl.pkt.lso = none) :
    exec (.eqWrPkt q) s = .next (wrResult q.toNat (writePkt q.toNat s)) :=
  congrArg Host.Outcome.next (if_pos ⟨hst, hb, hv, by rw [hl]; rfl⟩)

/-- EQ_WR_LSO on a packet with an offload request, no batch open. -/
theorem exec_eqWrLso {q : Qid} {s : State} {o : Lso} (hst : (s.eq q.toNat).st = .run)
    (hb : (s.eq q.toNat).batch.accepting = false) (hv : (s.eq q.toNat).sgl.valid = true)
    (hl : (s.eq q.toNat).sgl.pkt.lso = some o) :
    exec (.eqWrLso q) s = .next (wrResult q.toNat (writeLso q.toNat o s)) := by
  show execEqWrLso q s = _
  unfold execEqWrLso
  simp only [hl]
  rw [if_pos ⟨hst, hb, hv⟩]

/-- A WR command without credit keeps the SGL, whose packet is then in `eq.held` (R285, R510). -/
theorem keepsInRegister {j : Nat} {s : State} (hv : (s.eq j).sgl.valid = true) :
    KeepsInRegister j s (.next (wrResult j (none, s))) :=
  ⟨_, rfl, rfl, fun hh => heldPkt_sglHold hv hh⟩

/-- What sending the packet of the register leaves: its flits in the ring, and everything of other queues as it was. -/
theorem sendSgl_written {j n : Nat} {fs : List Flit} {s : State} (hfit : (s.eq j).ringFits)
    (hroom : fs.length ≤ 8 * (s.eq j).cap) (c : EqStats → EqStats) :
    RingWritten (s.eq j) (8 * (s.eq j).pidx) fs s (sendSgl j fs n c s) ∧ Untouched .eq j s (sendSgl j fs n c s) ∧
    (sendSgl j fs n c s).qmap = s.qmap ∧ ∃ l, (sendSgl j fs n c s).out = s.out ++ l ∧ OnlyWrites l :=
  ⟨wflits_ringWritten j _ fs s hfit hroom, (untouched_eq j s).sendSgl (Untouched.refl _ _ _) _ _ _,
    (qmap_eq j s.qmap).sendSgl rfl _ _ _, wflits_out j _ fs s⟩

/-- Settles O39: `writePkt` keeps the register where the credit is short, and otherwise sends it (`sendSgl_eq`,
`sendSgl_written`). -/
theorem eqWrPktSendsRegister : Obligations.EqWrPktSendsRegister := by
  intro q s j e p n hst
  refine ⟨fun hno => ?refused, fun hb hv hl ha => ?noCredit, fun hb hv hl hne hlaw hfit ha => ?sent⟩
  case refused =>
    refine refused_of_not (fun ⟨_, hb, hv, hl⟩ => ?_) _ s
    rcases hno with h | h | h
    · rw [hb] at h; cases h
    · rw [hv] at h; cases h
    · exact h (Option.isNone_iff_eq_none.1 hl)
  case noCredit =>
    rw [exec_eqWrPkt hst hb hv hl, writePkt_none ha]
    exact keepsInRegister hv
  case sent =>
    obtain ⟨hring, hframe, hqmap, -⟩ := sendSgl_written (n := n) hfit
      ((pktWr_length p hne).trans_le (hlaw.fits ha)) (fun c => { c with sglWrs := c.sglWrs + 1 })
    have hexec : exec (.eqWrPkt q) s = _ := exec_eqWrPkt hst hb hv hl
    rw [writePkt_some ha] at hexec
    exact ⟨_, hexec, rfl, hring, sendSgl_eq j _ n _ s, hframe.finish _ _, hqmap⟩

/-- Settles O40: as `eqWrPktSendsRegister`, with the offload request of the packet. -/
theorem eqWrLsoSendsRegister : Obligations.EqWrLsoSendsRegister := by
  intro q s j e p n hst
  refine ⟨fun hno => ?refused, fun hb hv hl ha => ?noCredit, fun o hb hv hl hne hlaw hfit ha => ?sent⟩
  case refused =>
    show execEqWrLso q s = _
    unfold execEqWrLso
    dsimp only
    cases hl : (s.eq q.toNat).sgl.pkt.lso with
    | none => rfl
    | some o =>
      refine refused_of_not (fun ⟨_, hb, hv⟩ => ?_) _ s
      rcases hno with h | h | h
      · rw [hb] at h; cases h
      · rw [hv] at h; cases h
      · rw [hl] at h; cases h
  case noCredit =>
    obtain ⟨o, ho⟩ := Option.ne_none_iff_exists'.1 hl
    rw [exec_eqWrLso hst hb hv ho, writeLso_none ha]
    exact keepsInRegister hv
  case sent =>
    obtain ⟨hring, hframe, hqmap, -⟩ := sendSgl_written (n := n) hfit
      ((lsoWr_length p o hne).trans_le (hlaw.fits ha)) (fun c => { c with tsoWrs := c.tsoWrs + 1 })
    have hexec : exec (.eqWrLso q) s = _ := exec_eqWrLso hst hb hv hl
    rw [writeLso_some ha] at hexec
    exact ⟨_, hexec, rfl, hring, sendSgl_eq j _ n _ s, hframe.finish _ _, hqmap⟩

end Sys2Proof.Machine
end

section
/-! PROOFS. 43_egress_tx.md, EQ_WR_IMM (R290). -/

namespace Sys2Proof.Machine

/-! ### EQ_WR_IMM (R290) -/

/-- What taking a packet leaves, whether there was one or not: `eq.held` empty, and nothing sent or written. -/
theorem takePacket_spec (j : Nat) (s : State) :
    (takePacket j s).2.eq j = { s.eq j with held := none } ∧ (takePacket j s).2.out = s.out ∧
    (takePacket j s).2.mem = s.mem ∧ (takePacket j s).2.cfg = s.cfg := by
  unfold takePacket
  split
  · exact ⟨State.setEq_same _ _ _, rfl, rfl, rfl⟩
  · rename_i h
    exact ⟨by rw [dequeue_eq, ← h], rfl, rfl, rfl⟩

theorem immOk_iff {c : Config} {p : Packet} : immOk c p = true ↔ p.lso = none ∧ p.len.toNat ≤ c.txImmMax := by
  simp [immOk]

theorem writeImm_none {j : Nat} {p : Packet} {s : State} (h : (s.eq j).avail < ndesc (immWrFlits p.len.toNat)) :
    writeImm j p s = (none, s) := if_pos h

/-- Without credit nothing is written, with it the slots of the request are the answer. -/
theorem writeImm_fst (j : Nat) (p : Packet) (s : State) : (writeImm j p s).1 =
    if (s.eq j).avail < ndesc (immWrFlits p.len.toNat) then none else some (ndesc (immWrFlits p.len.toNat)) := by
  unfold writeImm
  dsimp only
  split <;> rfl

/-- What sending a packet as immediate data leaves: its flits in the ring, its packet released, and everything of other queues as
it was. -/
theorem writeImm_written {j : Nat} {p : Packet} {s : State} (hfit : (s.eq j).ringFits)
    (hroom : immWrFlits p.len.toNat ≤ 8 * (s.eq j).cap) (ha : ndesc (immWrFlits p.len.toNat) ≤ (s.eq j).avail) :
    RingWritten (s.eq j) (8 * (s.eq j).pidx) (immWr p) s (writeImm j p s).2 ∧
    Untouched .eq j s (writeImm j p s).2 ∧ (writeImm j p s).2.qmap = s.qmap ∧
    ∃ l, (writeImm j p s).2.out = s.out ++ l ++ [.release (.pkt p)] ∧ OnlyWrites l := by
  obtain ⟨l, hout, hl⟩ := wflits_out j (8 * (s.eq j).pidx) (immWr p) s
  refine ⟨?_, (untouched_eq j s).writeImm (Untouched.refl _ _ _) p, (qmap_eq j s.qmap).writeImm rfl p, l, ?_, hl⟩
  · exact (wflits_ringWritten j _ _ s hfit ((immWr_length p).trans_le hroom)).of_mem rfl
      (writeImm_mem j p s (Nat.not_lt.2 ha)) rfl rfl
  · unfold writeImm
    rw [if_neg (Nat.not_lt.2 ha), ← hout]
    rfl

/-- EQ_WR_IMM with the held packet in the SGL register. -/
theorem exec_eqWrImm_register {q : Qid} {s : State} (hst : (s.eq q.toNat).st = .run)
    (hb : (s.eq q.toNat).batch.accepting = false) (hh : (s.eq q.toNat).heldInSgl = true) :
    exec (.eqWrImm q) s = .next (immHeld q.toNat s) := by
  show execEqWrImm q s = _
  unfold execEqWrImm
  dsimp only
  rw [if_pos ⟨hst, hb⟩, if_pos hh]

section hand
variable {q : Qid} {s t : State} {p : Packet} (hst : (s.eq q.toNat).st = .run) (hb : (s.eq q.toNat).batch.accepting = false)
  (hh : (s.eq q.toNat).heldInSgl = false)
include hst hb hh

/-- EQ_WR_IMM with no packet to take. -/
theorem exec_eqWrImm_empty (ht : takePacket q.toNat s = (none, t)) : exec (.eqWrImm q) s = .next (t.finish .empty 0) := by
  show execEqWrImm q s = _
  simp [execEqWrImm, hst, hb, hh, ht]

/-- EQ_WR_IMM with a packet in hand that cannot go as immediate data. -/
theorem exec_eqWrImm_badCmd (ht : takePacket q.toNat s = (some p, t)) (hno : ¬ immOk s.cfg p = true) :
    exec (.eqWrImm q) s = .next (eqHold q.toNat (some p) t).badCmd := by
  show execEqWrImm q s = _
  simp [execEqWrImm, hst, hb, hh, ht, hno]

/-- EQ_WR_IMM with a packet in hand and too little credit for it. -/
theorem exec_eqWrImm_noDesc (ht : takePacket q.toNat s = (some p, t)) (hok : immOk s.cfg p = true)
    (hw : (writeImm q.toNat p t).1 = none) :
    exec (.eqWrImm q) s = .next ((eqHold q.toNat (some p) (writeImm q.toNat p t).2).finish .noDesc 0) := by
  show execEqWrImm q s = _
  simp [execEqWrImm, hst, hb, hh, ht, hok, hw]

/-- EQ_WR_IMM with a packet in hand that it sends. -/
theorem exec_eqWrImm_sent {n : Nat} (ht : takePacket q.toNat s = (some p, t)) (hok : immOk s.cfg p = true)
    (hw : (writeImm q.toNat p t).1 = some n) :
    exec (.eqWrImm q) s = .next ((writeImm q.toNat p t).2.finish .ok n) := by
  show execEqWrImm q s = _
  simp [execEqWrImm, hst, hb, hh, ht, hok, hw]

end hand

/-- `t` ends EQ_WR_IMM on `s` with a code that keeps the packet: the record is `back`, nothing was sent or written, and everything of
other queues is as it was. -/
structure ImmKept (j : Nat) (s : State) (back : EQ) (rc : RC) (t : State) : Prop where
  res   : t.res = { rc := rc, value := 0 }
  eq    : t.eq j = back
  out   : t.out = s.out
  mem   : t.mem = s.mem
  frame : Untouched .eq j s t
  qmap  : t.qmap = s.qmap

theorem ImmKept.hand (j : Nat) (p : Packet) (rc : RC) (s : State) :
    ImmKept j s { s.eq j with held := some p } rc ((eqHold j (some p) (takePacket j s).2).finish rc 0) := by
  obtain ⟨heq, hout, hmem, -⟩ := takePacket_spec j s
  refine ⟨rfl, ?_, hout, hmem, ((untouched_eq j s).eqHold ((untouched_eq j s).takePacket (Untouched.refl _ _ _)) _).finish _ _,
    (qmap_eq j s.qmap).eqHold ((qmap_eq j s.qmap).takePacket rfl) (some p)⟩
  show (State.setEq _ j _).eq j = _
  rw [State.setEq_same, heq]

theorem ImmKept.register (j : Nat) (rc : RC) (s : State) : ImmKept j s (s.eq j) rc (s.finish rc 0) :=
  ⟨rfl, rfl, rfl, rfl, (Untouched.refl _ _ _).finish _ _, rfl⟩

/-- `immHeld` where the packet cannot go as immediate data, where the credit is short, and where it is sent. -/
theorem immHeld_badCmd {j : Nat} {s : State} (h : ¬ immOk s.cfg (s.eq j).sgl.pkt = true) : immHeld j s = s.badCmd := if_neg h

theorem immHeld_noDesc {j : Nat} {s : State} (h : immOk s.cfg (s.eq j).sgl.pkt = true)
    (hw : (writeImm j (s.eq j).sgl.pkt (sglRelease j s)).1 = none) : immHeld j s = s.finish .noDesc 0 := by
  unfold immHeld
  dsimp only
  rw [if_pos h, hw]

theorem immHeld_sent {j n : Nat} {s : State} (h : immOk s.cfg (s.eq j).sgl.pkt = true)
    (hw : (writeImm j (s.eq j).sgl.pkt (sglRelease j s)).1 = some n) :
    immHeld j s = (writeImm j (s.eq j).sgl.pkt (sglRelease j s)).2.finish .ok n := by
  unfold immHeld
  dsimp only
  rw [if_pos h, hw]

/-- A packet that EQ_WR_IMM cannot send, by its kind or for want of credit, is kept. -/
theorem ImmTakes.kept {q : Qid} {s : State} {p : Packet} {taken back : EQ} (h : ImmTakes q.toNat s p taken back)
    (hst : (s.eq q.toNat).st = .run) (hb : (s.eq q.toNat).batch.accepting = false) {rc : RC}
    (hrc : rc = .badCmd ∧ ¬ immOk s.cfg p = true ∨
      rc = .noDesc ∧ immOk s.cfg p = true ∧ (s.eq q.toNat).avail < ndesc (immWrFlits p.len.toNat)) :
    ∃ t, exec (.eqWrImm q) s = .next t ∧ ImmKept q.toNat s back rc t := by
  cases h with
  | hand p hh ht =>
    refine ⟨_, ?_, ImmKept.hand q.toNat p rc s⟩
    have ht' : takePacket q.toNat s = (some p, (takePacket q.toNat s).2) := Prod.ext ht rfl
    obtain ⟨heq, -⟩ := takePacket_spec q.toNat s
    rcases hrc with ⟨rfl, hno⟩ | ⟨rfl, hok, ha⟩
    · exact exec_eqWrImm_badCmd hst hb hh ht' hno
    · have hw := writeImm_none (j := q.toNat) (p := p) (s := (takePacket q.toNat s).2) (by rw [heq]; exact ha)
      rw [exec_eqWrImm_noDesc hst hb hh ht' hok (by rw [hw]), hw]
  | register hh =>
    refine ⟨_, ?_, ImmKept.register q.toNat rc s⟩
    rw [exec_eqWrImm_register hst hb hh]
    rcases hrc with ⟨rfl, hno⟩ | ⟨rfl, hok, ha⟩
    · rw [immHeld_badCmd hno]; rfl
    · rw [immHeld_noDesc hok (by rw [writeImm_none (by rw [sglRelease_eq]; exact ha)])]

/-- EQ_WR_IMM that sends its packet writes the request from a state `u` with the packet taken: a held packet of the SGL register has
left it and given its map back. -/
theorem ImmTakes.sent {q : Qid} {s : State} {p : Packet} {taken back : EQ} (h : ImmTakes q.toNat s p taken back)
    (hst : (s.eq q.toNat).st = .run) (hb : (s.eq q.toNat).batch.accepting = false) (hlaw : (s.eq q.toNat).Law)
    (hok : immOk s.cfg p = true) (ha : ndesc (immWrFlits p.len.toNat) ≤ (s.eq q.toNat).avail) :
    ∃ u, exec (.eqWrImm q) s = .next ((writeImm q.toNat p u).2.finish .ok (ndesc (immWrFlits p.len.toNat))) ∧
      u.eq q.toNat = taken ∧ u.mem = s.mem ∧ Untouched .eq q.toNat s u ∧ u.qmap = s.qmap ∧
      u.out = s.out ++ (if (s.eq q.toNat).heldInSgl then [.unmap (.pkt p)] else []) := by
  cases h with
  | hand p hh ht =>
    obtain ⟨heq, hout, hmem, -⟩ := takePacket_spec q.toNat s
    refine ⟨(takePacket q.toNat s).2, ?_, heq, hmem, (untouched_eq _ s).takePacket (Untouched.refl _ _ _),
      (qmap_eq _ s.qmap).takePacket rfl, ?_⟩
    · refine exec_eqWrImm_sent hst hb hh (Prod.ext ht rfl) hok ?_
      rw [writeImm_fst, if_neg (by rw [heq]; exact Nat.not_lt.2 ha)]
    · rw [hh, hout]
      exact (List.append_nil _).symm
  | register hh =>
    have hv : (s.eq q.toNat).sgl.valid = true := by
      unfold EQ.heldInSgl at hh
      simp only [Bool.and_eq_true] at hh
      exact hh.1.2
    refine ⟨sglRelease q.toNat s, ?_, sglRelease_eq _ _, ?_, (untouched_eq _ s).sglRelease (Untouched.refl _ _ _),
      (qmap_eq _ s.qmap).sglRelease rfl, ?_⟩
    · rw [exec_eqWrImm_register hst hb hh,
        immHeld_sent hok (by rw [writeImm_fst, if_neg (by rw [sglRelease_eq]; exact Nat.not_lt.2 ha)])]
    · unfold sglRelease; dsimp only; split <;> rfl
    · rw [if_pos hh]
      unfold sglRelease
      dsimp only
      rw [if_pos (hlaw.sg_map hv).1]
      rfl

/-- The record with the packet taken differs from the old one in `held` and the SGL register alone. -/
theorem ImmTakes.taken_keeps {j : Nat} {s : State} {p : Packet} {taken back : EQ} (h : ImmTakes j s p taken back) :
    taken = { s.eq j with held := taken.held, sgl := taken.sgl } := by
  cases h <;> rfl

/-- Settles O41: a packet in hand is kept (`ImmTakes.kept`) or sent (`ImmTakes.sent`), whichever place it came from. -/
theorem eqWrImmSendsOrKeeps : Obligations.EqWrImmSendsOrKeeps := by
  intro q s s1 j e hst
  refine ⟨fun hb => ?refused, fun hb hh ht => exec_eqWrImm_empty hst hb hh ht, ?_⟩
  case refused => exact refused_of_not (fun g => by rw [hb] at g; exact nomatch g.2) _ s
  intro p taken back hb hlaw hfit h n d
  refine ⟨?sent, ?noCredit, ?badCmd⟩
  case sent =>
    intro hl hlen ha
    obtain ⟨u, hexec, hu, hmem, hframe, hqmap, hout⟩ := h.sent hst hb hlaw (immOk_iff.2 ⟨hl, hlen⟩) ha
    have htaken := h.taken_keeps
    rw [htaken] at hu
    have hwritten := writeImm_eq j p u (by rw [hu]; exact Nat.not_lt.2 ha)
    obtain ⟨hring, hframe', hqmap', l, hout', hl'⟩ := writeImm_written (j := j) (p := p) (s := u)
      (by rw [hu]; exact hfit) (by rw [hu]; exact hlaw.fits ha) (by rw [hu]; exact ha)
    rw [hu] at hring hwritten
    refine ⟨_, hexec, rfl, hring.of_mem hmem.symm rfl rfl rfl, ?_, ⟨l, ?_, hl'⟩, (hframe.trans hframe').finish _ _,
      hqmap'.trans hqmap⟩
    · rw [htaken]; exact hwritten
    · rw [← hout]; exact hout'
  case noCredit =>
    intro hl hlen ha
    obtain ⟨t, hexec, hkept⟩ := h.kept hst hb (.inr ⟨rfl, immOk_iff.2 ⟨hl, hlen⟩, ha⟩)
    exact ⟨t, hexec, hkept.res, hkept.eq, hkept.out, hkept.mem, hkept.frame, hkept.qmap⟩
  case badCmd =>
    intro hno
    obtain ⟨t, hexec, hkept⟩ := h.kept hst hb (.inl ⟨rfl, fun hok => by
      obtain ⟨hl, hlen⟩ := immOk_iff.1 hok
      rcases hno with hno | hno
      · exact hno hl
      · exact absurd hlen (Nat.not_le.2 hno)⟩)
    exact ⟨t, hexec, hkept.res, hkept.eq, hkept.out, hkept.mem, hkept.frame, hkept.qmap⟩

end Sys2Proof.Machine
end

section
/-! PROOFS. 43_egress_tx.md, one turn of EQ_TX by the commands it consists of (R280). -/

namespace Sys2Proof.Machine

/-- The state on which EQ_TX does its transmit part: the resume request is cleared (R280). -/
def txStart (j : Nat) (s : State) : State := s.setEq j { s.eq j with resumeReq := false }

theorem txStart_eq (j : Nat) (s : State) : (txStart j s).eq j = { s.eq j with resumeReq := false } :=
  State.setEq_same _ _ _

/-- The result register written and put back. -/
theorem State.finish_back {u : State} {r : Res} (h : u.res = r) (rc : RC) (n : Nat) :
    { u.finish rc n with res := r } = u := by
  rw [← h]
  rfl

theorem writeImm_kept (j : Nat) (p : Packet) (s : State) : ((writeImm j p s).2.eq j).kept = (s.eq j).kept := by
  by_cases ha : (s.eq j).avail < ndesc (immWrFlits p.len.toNat)
  · rw [writeImm_none ha]
  · rw [writeImm_eq j p s ha]; rfl

/-- `u` stands between two packets of an EQ_TX on `s`: the queue runs with no resume request and no packet in `eq.held`. -/
structure Between (j : Nat) (s u : State) : Prop where
  placed : Placed j u
  st     : (u.eq j).st = .run
  resume : (u.eq j).resumeReq = false
  held   : (u.eq j).held = none
  cfg    : u.cfg = s.cfg
  res    : u.res = s.res

theorem Between.steady {j : Nat} {s u v : State} (h : Between j s u) (hv : Steady j u v) : Between j s v :=
  ⟨hv.placed h.placed, hv.st.trans h.st, hv.resume.trans h.resume, hv.held.trans h.held, hv.cfg.trans h.cfg, hv.res.trans h.res⟩

theorem Between.peek {j : Nat} {s u : State} (h : Between j s u) : Between j s (u.peek j).2 :=
  ⟨placed_of_eqs h.placed rfl, h.st, h.resume, h.held, h.cfg, h.res⟩

/-- A packet in hand leaves `eq.held` empty. -/
theorem Between.taken {j : Nat} {s s1 : State} {m : Packet} (hst : (s.eq j).st = .run)
    (ht : takePacket j (txStart j s) = (some m, s1)) : Between j s s1 := by
  obtain ⟨hheld, hrun, hresume, hcfg, hres, hplaced, -⟩ := takePacket_cases ht
  rw [txStart_eq] at hrun hresume
  exact ⟨hplaced (placed_setEq _ _ _), hrun.trans hst, hresume, hheld, hcfg, hres⟩

/-- Putting a packet in `eq.held` and taking it gives back the state and the packet. -/
theorem takePacket_eqHold {j : Nat} {u : State} (m : Packet) (hp : Placed j u) (hh : (u.eq j).held = none) :
    takePacket j (eqHold j (some m) u) = (some m, u) := by
  have hget : (eqHold j (some m) u).eq j = { u.eq j with held := some m } := State.setEq_same _ _ _
  have hback : eqHold j none (eqHold j (some m) u) = u := by
    refine Eq.trans ?_ hp
    show State.setEq _ j { (eqHold j (some m) u).eq j with held := none } = _
    rw [hget, ← hh]
    unfold eqHold State.setEq
    rw [Tab.put_put]
  unfold takePacket
  rw [hget]
  exact congrArg (Prod.mk _) hback

/-- A packet in hand between two packets, put in `eq.held` for the command that takes it. -/
theorem Between.inHand {j : Nat} {s u : State} (h : Between j s u) (m : Packet) :
    ((eqHold j (some m) u).eq j).st = .run ∧ ((eqHold j (some m) u).eq j).heldInSgl = false ∧
    ((eqHold j (some m) u).eq j).sgl = (u.eq j).sgl ∧ ((eqHold j (some m) u).eq j).batch = (u.eq j).batch ∧
    (eqHold j (some m) u).cfg = s.cfg ∧ takePacket j (eqHold j (some m) u) = (some m, u) := by
  have hget : (eqHold j (some m) u).eq j = { u.eq j with held := some m } := State.setEq_same _ _ _
  rw [hget]
  exact ⟨h.st, by simp [EQ.heldInSgl], rfl, rfl, h.cfg, takePacket_eqHold m h.placed h.held⟩

/-! ### The first packet of the loop -/

section turn
variable {j : Nat} {s0 s1 u : State} {m : Packet} (hv : (s0.eq j).sgl.valid = false)
  (ht : takePacket j s0 = (some m, s1))
include hv ht

theorem txPackets_dropped (hone : txOne j m s1 = .dropped u) (hh : (u.eq j).held = none) (l : Nat) :
    txPackets j l (txFirst j s0) = txFrom j l 0 u := by
  have hsrc := txOne_src j m s1
  rw [hone] at hsrc
  rw [txPackets_take hv ht, txLoop_turn, hone]
  exact txFrom_dequeue hh hsrc

theorem txPackets_coalesced (hone : txOne j m s1 = .coalesced u) (hh : (u.eq j).held = none) (l : Nat) :
    txPackets j l (txFirst j s0) = txFrom j l 1 u := by
  have hsrc := txOne_src j m s1
  rw [hone] at hsrc
  rw [txPackets_take hv ht, txLoop_turn, hone]
  exact txFrom_dequeue hh hsrc

theorem txPackets_sent (hone : txOne j m s1 = .sent u) (hh : (u.eq j).held = none) (l : Nat) :
    txPackets j l (txFirst j s0) = txFrom j l 1 (eqDoorbell j false u).2 := by
  have hsrc := txOne_src j m s1
  have hd := (Steady.refl j u).eqDoorbell false
  rw [hone] at hsrc
  rw [txPackets_take hv ht, txLoop_turn, hone]
  exact txFrom_dequeue (hd.held.trans hh) (by rw [hd.src]; exact hsrc)

end turn

/-- The packet of the register joins the batch or is sent. -/
theorem txFirst_coalesced {j : Nat} {s v : State} (hv : (s.eq j).sgl.valid = true) (hm : precheck (s.eq j).sgl.pkt = true)
    (hone : txBuilt j (coalescing j s) (s.eq j).sgl.pkt (s.peek j).2 = .coalesced v) :
    txFirst j s = { sent := 1, stall := none, s := v } := by
  unfold txFirst
  dsimp only
  rw [if_pos hv, if_pos hm, hone]

theorem txFirst_sent {j : Nat} {s v : State} (hv : (s.eq j).sgl.valid = true) (hm : precheck (s.eq j).sgl.pkt = true)
    (hone : txBuilt j (coalescing j s) (s.eq j).sgl.pkt (s.peek j).2 = .sent v) :
    txFirst j s = { sent := 1, stall := none, s := (eqDoorbell j false v).2 } := by
  unfold txFirst
  dsimp only
  rw [if_pos hv, if_pos hm, hone]

/-- The turn of a packet that passes the checks and goes through the SGL path. -/
theorem txOne_sgl {j : Nat} {m : Packet} {s : State} (hm : precheck m = true)
    (hc : coalescing j s = true ∨ immOk s.cfg m = false) : txOne j m s = txSgl j (coalescing j s) m (s.peek j).2 := by
  unfold txOne
  rw [if_pos hm]
  refine if_neg ?_
  rcases hc with hc | hc
  · rw [hc]; exact Bool.false_ne_true
  · rw [show (s.peek j).2.cfg = s.cfg from rfl, hc, Bool.and_false]; exact Bool.false_ne_true

/-- The turn of a small packet alone that there is credit for. -/
theorem txOne_imm {j n : Nat} {m : Packet} {s : State} (hm : precheck m = true) (hc : coalescing j s = false)
    (hok : immOk s.cfg m = true) (hw : (writeImm j m (s.peek j).2).1 = some n) :
    txOne j m s = .sent (writeImm j m (s.peek j).2).2 := by
  unfold txOne
  rw [if_pos hm]
  dsimp only
  rw [hc, show (s.peek j).2.cfg = s.cfg from rfl, hok, hw]
  rfl

section build
variable {q : Qid} {s t : State} {m : Packet} (hst : (s.eq q.toNat).st = .run)
  (hv : (s.eq q.toNat).sgl.valid = false) (ht : takePacket q.toNat s = (some m, t))
include hst hv ht

/-- SGL_BUILD with an empty register and a packet to take, which is loaded. -/
theorem exec_sglBuild_ok (hrc : (sglBuildPkt q.toNat m t).rc = .ok) : exec (.sglBuild q) s =
    .next ((sglBuildPkt q.toNat m t).s.finish .ok ((sglBuildPkt q.toNat m t).s.eq q.toNat).sgl.nflits) := by
  show execSglBuild q s = _
  simp [execSglBuild, hst, hv, ht, hrc]

/-- SGL_BUILD with a packet for which HOST has no map. -/
theorem exec_sglBuild_noMap (hrc : (sglBuildPkt q.toNat m t).rc = .noMap) : exec (.sglBuild q) s =
    .next ((eqHold q.toNat (some (sglBuildPkt q.toNat m t).pkt) (sglBuildPkt q.toNat m t).s).finish .noMap 0) := by
  show execSglBuild q s = _
  simp [execSglBuild, hst, hv, ht, hrc]

/-- SGL_BUILD with a packet that it drops. -/
theorem exec_sglBuild_dropped (hrc : (sglBuildPkt q.toNat m t).rc = .dropped) : exec (.sglBuild q) s =
    .next ((sglBuildPkt q.toNat m t).s.finish .dropped 0) := by
  show execSglBuild q s = _
  simp [execSglBuild, hst, hv, ht, hrc]

end build

/-! ### The commands of a turn -/

section commands
variable {q : Qid} {limit : BitVec 32} {s : State} (hst : (s.eq q.toNat).st = .run)
  (hc : s.cfg.txLowCredit ≤ (s.eq q.toNat).avail)
include hst hc

/-- If the packets of EQ_TX on `s` are those of the loop from a state between two packets, EQ_TX is EQ_TX on that state. -/
theorem Between.eqTx_same {v : State} (h : Between q.toNat s v) (hv : (v.eq q.toNat).sgl.valid = false)
    (ha : (v.eq q.toNat).avail = (s.eq q.toNat).avail)
    (hp : ∀ l, txPackets q.toNat l (txFirst q.toNat (txStart q.toNat s)) = txFrom q.toNat l 0 v) :
    exec (.eqTx q limit) s = exec (.eqTx q limit) v :=
  Machine.eqTx_same hst hc (fun l => (hp l).trans (txPackets_empty hv).symm) h.placed h.resume h.st
    (by rw [h.cfg, ha]; exact hc)

/-- A packet that the turn drops: EQ_TX goes on as if the packet had not been there. -/
theorem eqTx_dropped {m : Packet} {s1 u : State} (hv : (s.eq q.toNat).sgl.valid = false)
    (ht : takePacket q.toNat (txStart q.toNat s) = (some m, s1)) (hone : txOne q.toNat m s1 = .dropped u)
    (hu : Between q.toNat s u) (hsgl : (u.eq q.toNat).sgl = (s1.eq q.toNat).sgl)
    (havail : (u.eq q.toNat).avail = (s1.eq q.toNat).avail) : exec (.eqTx q limit) s = exec (.eqTx q limit) u := by
  obtain ⟨-, -, -, -, -, -, hsgl1, havail1, -⟩ := takePacket_cases ht
  rw [txStart_eq] at hsgl1 havail1
  refine hu.eqTx_same hst hc (by rw [hsgl, hsgl1]; exact hv) (havail.trans havail1) ?_
  exact txPackets_dropped (by rw [txStart_eq]; exact hv) ht hone hu.held

/-- The turn of a packet in hand that goes through the SGL path (R280, R362). -/
theorem eqTx_builds {m : Packet} {s1 u : State} (hv : (s.eq q.toNat).sgl.valid = false)
    (ht : takePacket q.toNat (txStart q.toNat s) = (some m, s1)) (hm : precheck m = true)
    (hpath : coalescing q.toNat s1 = true ∨ immOk s.cfg m = false)
    (hb : exec (.sglBuild q) (eqHold q.toNat (some m) (s1.peek q.toNat).2) = .next u) :
    (u.res.rc = .dropped → exec (.eqTx q limit) s = exec (.eqTx q limit) { u with res := s.res }) ∧
    (u.res.rc = .ok → TxRegisterGoes q limit s (coalescing q.toNat s1) { u with res := s.res }) := by
  have htaken := Between.taken hst ht
  obtain ⟨-, -, -, -, -, -, hsgl1, -⟩ := takePacket_cases ht
  have hstart : ((txStart q.toNat s).eq q.toNat).sgl.valid = false := by rw [txStart_eq]; exact hv
  have hpeek := htaken.peek
  have hbetween := hpeek.steady ((Steady.refl _ _).sglBuildPkt m)
  have hone := txOne_sgl hm (htaken.cfg ▸ hpath)
  unfold txSgl at hone
  dsimp only at hone
  obtain ⟨havail, -, hok, hdropped, hrc⟩ := sglBuildPkt_cases q.toNat m (s1.peek q.toNat).2
  obtain ⟨hst', -, hsgl', -, -, ht'⟩ := hpeek.inHand m
  have hv' : ((eqHold q.toNat (some m) (s1.peek q.toNat).2).eq q.toNat).sgl.valid = false := by
    rw [hsgl', peek_eq, hsgl1]; exact hstart
  obtain hrc | hrc | hrc := hrc
  case inl =>
    rw [exec_sglBuild_ok hst' hv' ht' hrc] at hb
    rw [if_pos hrc] at hone
    rw [← Host.Outcome.next.inj hb, State.finish_back hbetween.res]
    refine ⟨fun h => (nomatch h), fun _ => ?_⟩
    obtain ⟨hvalid, hpkt⟩ := hok hrc
    rw [← hpkt] at hone
    refine txRegisterGoes hst hc hbetween.st hvalid hbetween.placed hbetween.resume hbetween.cfg hbetween.res ?_ ?_
    · exact fun l v hone' hsteady =>
        txPackets_coalesced hstart ht (hone.trans hone') (hsteady.held.trans hbetween.held) l
    · exact fun l v hone' hsteady =>
        txPackets_sent hstart ht (hone.trans hone') (hsteady.held.trans hbetween.held) l
  case inr.inl =>
    rw [exec_sglBuild_dropped hst' hv' ht' hrc] at hb
    rw [hrc] at hone
    rw [← Host.Outcome.next.inj hb, State.finish_back hbetween.res]
    exact ⟨fun _ => eqTx_dropped hst hc hv ht hone hbetween (hdropped hrc) havail, fun h => nomatch h⟩
  case inr.inr =>
    rw [exec_sglBuild_noMap hst' hv' ht' hrc] at hb
    rw [← Host.Outcome.next.inj hb]
    exact ⟨fun h => (nomatch h), fun h => (nomatch h)⟩

/-- The turn of a small packet alone (R280, R290). -/
theorem eqTx_sendsImm {m : Packet} {s1 u : State} (hv : (s.eq q.toNat).sgl.valid = false)
    (ht : takePacket q.toNat (txStart q.toNat s) = (some m, s1)) (hm : precheck m = true)
    (halone : coalescing q.toNat s1 = false) (hok : immOk s.cfg m = true)
    (hx : exec (.eqWrImm q) (eqHold q.toNat (some m) (s1.peek q.toNat).2) = .next u) (hrc : u.res.rc = .ok) :
    TxGoesOn q limit s (eqDoorbell q.toNat false { u with res := s.res }).2 := by
  have htaken := Between.taken hst ht
  obtain ⟨-, -, -, -, -, -, hsgl1, -⟩ := takePacket_cases ht
  have hstart : ((txStart q.toNat s).eq q.toNat).sgl.valid = false := by rw [txStart_eq]; exact hv
  have hvalid : (s1.eq q.toNat).sgl.valid = false := hsgl1 ▸ hstart
  have hpeek := htaken.peek
  obtain ⟨hst', hh', -, hbatch', hcfg, ht'⟩ := hpeek.inHand m
  have hb' : ((eqHold q.toNat (some m) (s1.peek q.toNat).2).eq q.toNat).batch.accepting = false := by
    rw [hbatch']; exact (Bool.or_eq_false_iff.1 halone).1
  cases hw : (writeImm q.toNat m (s1.peek q.toNat).2).1 with
  | none =>
    rw [exec_eqWrImm_noDesc hst' hb' hh' ht' (hcfg ▸ hok) hw] at hx
    rw [← Host.Outcome.next.inj hx] at hrc
    cases hrc
  | some n =>
    rw [exec_eqWrImm_sent hst' hb' hh' ht' (hcfg ▸ hok) hw] at hx
    have hsent := hpeek.steady ((Steady.refl _ _).writeImm m)
    have hdoor := hsent.steady ((Steady.refl _ _).eqDoorbell false)
    rw [← Host.Outcome.next.inj hx, State.finish_back hsent.res]
    refine txGoesOn hst hc ?_ hdoor.placed ?_ hdoor.resume hdoor.st hdoor.cfg
    · exact fun l => txPackets_sent hstart ht (txOne_imm hm halone (htaken.cfg ▸ hok) hw) hsent.held l
    · have hkept := (eqDoorbell_kept q.toNat false _).trans (writeImm_kept q.toNat m (s1.peek q.toNat).2)
      exact (congrArg (fun k => k.1.valid) hkept).trans hvalid

/-- A packet of the register that fails the checks is dropped and leaves it (R283; log entry 18). -/
theorem eqTx_dropsRegister (hv : (s.eq q.toNat).sgl.valid = true) (hm : precheck (s.eq q.toNat).sgl.pkt = false) :
    exec (.eqTx q limit) s =
      exec (.eqTx q limit) (eqDrop q.toNat (s.eq q.toNat).sgl.pkt (sglRelease q.toNat (txStart q.toNat s))) := by
  have hstart := txStart_eq q.toNat s
  have hdrop := (Steady.refl q.toNat (txStart q.toNat s)).sglRelease.eqDrop (s.eq q.toNat).sgl.pkt
  have hempty := congrArg SglReg.valid (eqDrop_sgl q.toNat (s.eq q.toNat).sgl.pkt (sglRelease q.toNat (txStart q.toNat s)))
  rw [sglRelease_eq] at hempty
  refine eqTx_same hst hc (fun l => ?_) (hdrop.placed (placed_setEq _ _ _)) ?_ ?_ ?_
  · refine congrArg (txPackets q.toNat l) (Eq.trans ?_ ((txFirst_cases q.toNat _).2.1 hempty).symm)
    show txFirst q.toNat (txStart q.toNat s) = _
    unfold txFirst
    dsimp only
    rw [hstart, if_pos hv, hm]
    rfl
  · rw [hdrop.resume, hstart]
  · rw [hdrop.st, hstart]; exact hst
  · rw [eqDrop_avail, sglRelease_eq, hstart, hdrop.cfg]; exact hc

/-- The packet of the register goes first (log entry 18). -/
theorem eqTx_sendsRegister (hv : (s.eq q.toNat).sgl.valid = true) (hm : precheck (s.eq q.toNat).sgl.pkt = true) :
    TxRegisterGoes q limit s (coalescing q.toNat (txStart q.toNat s)) ((txStart q.toNat s).peek q.toNat).2 := by
  have hstart := txStart_eq q.toNat s
  have hpeek := peek_eq q.toNat (txStart q.toNat s) q.toNat
  have hv0 : ((txStart q.toNat s).eq q.toNat).sgl.valid = true := by rw [hstart]; exact hv
  have hm0 : precheck ((txStart q.toNat s).eq q.toNat).sgl.pkt = true := by rw [hstart]; exact hm
  refine txRegisterGoes hst hc (by rw [hpeek, hstart]; exact hst) (by rw [hpeek, hstart]; exact hv)
    (placed_of_eqs (placed_setEq _ _ _) rfl) (by rw [hpeek, hstart]) rfl rfl ?_ ?_
  · exact fun l v hone _ => congrArg (txPackets q.toNat l) (txFirst_coalesced hv0 hm0 hone)
  · exact fun l v hone _ => congrArg (txPackets q.toNat l) (txFirst_sent hv0 hm0 hone)

end commands

/-! ### The packet of a whole EQ_TX (R280, R284, R301) -/

/-- Whether there is a packet to take depends on `eq.held` and the source alone. -/
theorem takePacket_fst {j : Nat} {s t : State} (hh : (t.eq j).held = (s.eq j).held) (hsrc : t.src j = s.src j) :
    (takePacket j t).1 = (takePacket j s).1 := by
  unfold takePacket
  rw [hh]
  split
  · rfl
  · show (dequeueSrc (t.src j)).1 = (dequeueSrc (s.src j)).1
    rw [hsrc]

/-- So does the source that taking a packet leaves. -/
theorem takePacket_src {j : Nat} {s t : State} (hh : (t.eq j).held = (s.eq j).held) (hsrc : t.src j = s.src j) :
    (takePacket j t).2.src j = (takePacket j s).2.src j := by
  unfold takePacket
  rw [hh]
  split
  · exact hsrc
  · show (State.setSrc _ _ _).src j = (State.setSrc _ _ _).src j
    rw [State.setSrc_get, State.setSrc_get, hsrc]

theorem takePacket_of_src_nil {j : Nat} {s : State} (hh : (s.eq j).held = none) (hsrc : s.src j = []) :
    (takePacket j s).1 = none := by
  unfold takePacket
  rw [hh]
  show (dequeueSrc (s.src j)).1 = none
  rw [hsrc]
  rfl

/-- No packet to take behind a `peek`: it answered none. -/
theorem peek_none {j : Nat} {s : State} (h : ((s.peek j).2.dequeue j).1 = none) : (s.peek j).1 = none :=
  Option.eq_none_iff_forall_ne_some.2 fun m hm => by
    rw [dequeue_of_peek hm] at h
    exact nomatch h

theorem takePacket_none {j : Nat} {s : State} (h : (takePacket j s).1 = none) :
    (s.eq j).held = none ∧ (s.dequeue j).1 = none := by
  unfold takePacket at h
  split at h
  · exact nomatch h
  · exact ⟨by assumption, h⟩

/-- A loop with no packet to take ends where it is. -/
theorem txFrom_nothing {j l n : Nat} {v : State} (h : (takePacket j v).1 = none) :
    txFrom j l n v = { sent := n, stall := none, s := (takePacket j v).2 } := by
  unfold txFrom
  dsimp only
  rw [h]
  rfl

/-- The end of EQ_TX without a stall and with no batch open clears `eq.stalled` and publishes what is pending. -/
theorem txEnd_clears {j : Nat} {u : State} (hb : (u.eq j).batch.accepting = false) :
    (txEnd j none u).eq j = { u.eq j with stalled := false, pending := 0 } ∧
    (txEnd j none u).out = u.out ++ (u.eq j).doorbell ∧ (txEnd j none u).mem = u.mem := by
  have hflush : (txpktsFlush j u).2 = u := by
    unfold txpktsFlush
    dsimp only
    rw [if_neg (by rw [hb]; exact Bool.false_ne_true)]
  unfold txEnd
  dsimp only
  rw [hflush]
  refine ⟨?_, ?_, eqDoorbell_mem _ _ _⟩
  · rw [eqDoorbell_forced, State.setEq_same]
  · rw [eqDoorbell_forced_out, State.setEq_same]
    rfl

/-- A doorbell that is checked, and a forced one behind it, publish everything pending in one doorbell (R296). -/
theorem eqDoorbell_then_forced (j : Nat) (force : Bool) (w : State) :
    (eqDoorbell j force w).2.out ++ ((eqDoorbell j force w).2.eq j).doorbell = w.out ++ (w.eq j).doorbell := by
  by_cases h : (w.eq j).quiet w.cfg force
  · rw [eqDoorbell_quiet h]
  · obtain ⟨-, heq, hout, -⟩ := eqDoorbell_rings h
    rw [heq, hout]
    exact List.append_nil _

theorem eqDoorbell_cleared (j : Nat) (force : Bool) (w : State) :
    { (eqDoorbell j force w).2.eq j with pending := 0 } = { w.eq j with pending := 0 } := by
  rw [eqDoorbell_eq]
  split <;> rfl

section ends
variable {q : Qid} {limit : BitVec 32} {s : State} (hst : (s.eq q.toNat).st = .run)
  (hc : s.cfg.txLowCredit ≤ (s.eq q.toNat).avail)
include hst hc

/-- EQ_TX whose packets end in `v` with nothing more to take. -/
theorem eqTx_ends {n : Nat} {v : State}
    (hp : txPackets q.toNat limit.toNat (txFirst q.toNat (txStart q.toNat s)) = txFrom q.toNat limit.toNat n v)
    (hnone : (takePacket q.toNat v).1 = none) (hb : (v.eq q.toNat).batch.accepting = false) :
    ∃ t, exec (.eqTx q limit) s = .next t ∧ t.res = { rc := .ok, value := BitVec.ofNat 32 n } ∧
      t.eq q.toNat = { v.eq q.toNat with held := none, stalled := false, pending := 0 } ∧ t.mem = v.mem ∧
      t.out = v.out ++ (v.eq q.toNat).doorbell ∧ Untouched .eq q.toNat s t ∧ t.qmap = s.qmap := by
  obtain ⟨heq, hout, hmem, -⟩ := takePacket_spec q.toNat v
  obtain ⟨heq', hout', hmem'⟩ := txEnd_clears (j := q.toNat) (u := (takePacket q.toNat v).2) (by rw [heq]; exact hb)
  have hrun : txRun q.toNat limit.toNat (txStart q.toNat s) = ((.ok, n), txEnd q.toNat none (takePacket q.toNat v).2) := by
    unfold txRun
    rw [hp, txFrom_nothing hnone]
    rfl
  have hframe := (untouched_eq q.toNat s).txRun ((untouched_eq q.toNat s).setEq s
    { s.eq q.toNat with resumeReq := false } rfl (Untouched.refl _ _ _)) limit.toNat
  have hqmap := (qmap_eq q.toNat s.qmap).txRun ((qmap_eq q.toNat s.qmap).setEq s
    { s.eq q.toNat with resumeReq := false } rfl rfl) limit.toNat
  refine ⟨_, exec_eqTx q limit s hst hc, ?_⟩
  dsimp only
  change txRun _ _ (s.setEq _ _) = _ at hrun
  rw [hrun] at hframe hqmap ⊢
  refine ⟨rfl, heq'.trans (by rw [heq]), hmem'.trans hmem, hout'.trans ?_, hframe.finish _ _, hqmap⟩
  rw [heq, hout]
  rfl

/-- EQ_TX that sends one packet, which leaves `w`, and has nothing more to take. -/
theorem eqTx_endsSent {w : State}
    (hp : txPackets q.toNat limit.toNat (txFirst q.toNat (txStart q.toNat s)) =
      txFrom q.toNat limit.toNat 1 (eqDoorbell q.toNat false w).2)
    (hnone : (takePacket q.toNat w).1 = none) (hb : (w.eq q.toNat).batch.accepting = false) :
    ∃ t, exec (.eqTx q limit) s = .next t ∧ t.res = { rc := .ok, value := 1 } ∧
      t.eq q.toNat = { w.eq q.toNat with held := none, stalled := false, pending := 0 } ∧ t.mem = w.mem ∧
      t.out = w.out ++ (w.eq q.toNat).doorbell ∧ Untouched .eq q.toNat s t ∧ t.qmap = s.qmap := by
  have hd := (Steady.refl q.toNat w).eqDoorbell false
  have hbatch : ((eqDoorbell q.toNat false w).2.eq q.toNat).batch = (w.eq q.toNat).batch := by
    rw [eqDoorbell_eq]
    split <;> rfl
  obtain ⟨t, hexec, hres, heq, hmem, hout, hframe, hqmap⟩ := eqTx_ends (limit := limit) hst hc hp
    ((takePacket_fst hd.held hd.src).trans hnone) (by rw [hbatch]; exact hb)
  refine ⟨t, hexec, hres, heq.trans ?_, hmem.trans (eqDoorbell_mem _ _ _),
    hout.trans (eqDoorbell_then_forced _ _ _), hframe, hqmap⟩
  exact congrArg (fun e : EQ => { e with held := none, stalled := false }) (eqDoorbell_cleared q.toNat false w)

/-- EQ_TX with an empty register and no packet to take. -/
theorem eqTx_nothing (hb : (s.eq q.toNat).batch.accepting = false) (hv : (s.eq q.toNat).sgl.valid = false)
    (hnone : (takePacket q.toNat s).1 = none) :
    ∃ t, exec (.eqTx q limit) s = .next t ∧ t.res = { rc := .ok, value := 0 } ∧
      t.eq q.toNat = { s.eq q.toNat with held := none, resumeReq := false, stalled := false, pending := 0 } ∧ t.mem = s.mem ∧
      t.out = s.out ++ (s.eq q.toNat).doorbell ∧ Untouched .eq q.toNat s t ∧ t.qmap = s.qmap := by
  have hstart := txStart_eq q.toNat s
  obtain ⟨t, hexec, hres, heq, hmem, hout, hframe, hqmap⟩ := eqTx_ends (limit := limit) (v := txStart q.toNat s) hst hc
    (txPackets_empty (by rw [hstart]; exact hv)) (hnone ▸ takePacket_fst (by rw [hstart]) rfl)
    (by rw [hstart]; exact hb)
  rw [hstart] at heq hout
  exact ⟨t, hexec, hres, heq, hmem, hout, hframe, hqmap⟩

end ends

/-- The turn of a packet of the register that needs no offload, alone and with no batch open, is its own WR. -/
theorem txBuilt_alone {j n : Nat} {s : State} (hb : (s.eq j).batch.accepting = false) (hl : (s.eq j).sgl.pkt.lso = none)
    (hw : (writePkt j s).1 = some n) : txBuilt j false (s.eq j).sgl.pkt s = .sent (writePkt j s).2 := by
  have hflush : flushFirst j s = s := if_neg (by rw [hb]; exact Bool.false_ne_true)
  have hone : writeOne j s = writePkt j s := by
    unfold writeOne
    rw [hl]
  unfold txBuilt txSingle
  dsimp only
  rw [Bool.false_and, if_neg Bool.false_ne_true, hflush, hone, hw]

theorem precheck_of_no_lso {p : Packet} (hl : p.lso = none) (hlen : p.len.toNat ≤ 65535) : precheck p = true := by
  simp [precheck, hl, hlen]

/-- No packet behind the one in hand, and no batch open: no coalescing context (R284). -/
theorem coalescing_alone {j : Nat} {s : State} (hb : (s.eq j).batch.accepting = false) (hp : (s.peek j).1 = none) :
    coalescing j s = false := by
  unfold coalescing
  rw [hb, hp]
  rfl

/-- What one doorbell of everything pending sends where something is. -/
theorem EQ.doorbell_of_pos {e : EQ} (h : 1 ≤ e.pending) :
    e.doorbell = [.barrier, .regWrite .kdb (kdbWord e.cntxtId e.pending)] := if_neg (by omega)

/-- What a WR of the register's packet leaves (R285). -/
theorem writePkt_written {j : Nat} {s : State} (hfit : (s.eq j).ringFits)
    (hroom : pktWrFlits (s.eq j).sgl.segs ≤ 8 * (s.eq j).cap) (hne : (s.eq j).sgl.segs ≠ [])
    (ha : ndesc (pktWrFlits (s.eq j).sgl.segs) ≤ (s.eq j).avail) :
    let e := s.eq j; let d := ndesc (pktWrFlits e.sgl.segs)
    (writePkt j s).1 = some d ∧ RingWritten e (8 * e.pidx) (pktWr e.sgl.pkt e.sgl.segs) s (writePkt j s).2 ∧
    (writePkt j s).2.eq j = { e.mapTaken.committed d 1 with
      sgl := { e.sgl with mapHeld := false, valid := false }
      stats := countOffloads e.sgl.pkt { e.stats with sglWrs := e.stats.sglWrs + 1 } } ∧
    ∃ l, (writePkt j s).2.out = s.out ++ l ∧ OnlyWrites l := by
  intro e d
  rw [writePkt_some ha]
  obtain ⟨hring, -, -, hout⟩ := sendSgl_written (n := pktWrFlits e.sgl.segs) hfit
    ((pktWr_length e.sgl.pkt hne).trans_le hroom) (fun c => { c with sglWrs := c.sglWrs + 1 })
  exact ⟨rfl, hring, sendSgl_eq _ _ _ _ _, hout⟩

section whole
variable {q : Qid} {limit : BitVec 32} {s : State} (hst : (s.eq q.toNat).st = .run)
  (hc : s.cfg.txLowCredit ≤ (s.eq q.toNat).avail) (hb : (s.eq q.toNat).batch.accepting = false) (hlaw : (s.eq q.toNat).Law)
  (hfit : (s.eq q.toNat).ringFits)
include hst hc hb hlaw hfit

/-- EQ_TX with the only packet in the register (R285; log entry 18). -/
theorem eqTx_sendsAlone (hv : (s.eq q.toNat).sgl.valid = true)
    (hnone : (takePacket q.toNat (s.peek q.toNat).2).1 = none) (hl : (s.eq q.toNat).sgl.pkt.lso = none)
    (hlen : (s.eq q.toNat).sgl.pkt.len.toNat ≤ 65535) (hne : (s.eq q.toNat).sgl.segs ≠ [])
    (ha : ndesc (pktWrFlits (s.eq q.toNat).sgl.segs) ≤ (s.eq q.toNat).avail) :
    let e := s.eq q.toNat; let d := ndesc (pktWrFlits e.sgl.segs)
    ∃ t l, exec (.eqTx q limit) s = .next t ∧ t.res = { rc := .ok, value := 1 } ∧
      RingWritten e (8 * e.pidx) (pktWr e.sgl.pkt e.sgl.segs) s t ∧
      t.eq q.toNat = { e.mapTaken.committed d 1 with
        resumeReq := false, stalled := false, pending := 0
        sgl := { e.sgl with mapHeld := false, valid := false }
        stats := countOffloads e.sgl.pkt { e.stats with sglWrs := e.stats.sglWrs + 1 } } ∧
      t.out = s.out ++ l ++ [.barrier, .regWrite .kdb (kdbWord e.cntxtId (e.pending + d))] ∧
      OnlyWrites l ∧ Untouched .eq q.toNat s t ∧ t.qmap = s.qmap := by
  intro e d
  let u := ((txStart q.toNat s).peek q.toNat).2
  have hstart := txStart_eq q.toNat s
  obtain ⟨hheld, hdeq⟩ := takePacket_none hnone
  have halone : coalescing q.toNat (txStart q.toNat s) = false :=
    coalescing_alone (by rw [hstart]; exact hb) (peek_none (j := q.toNat) (s := s) hdeq)
  have hu : u.eq q.toNat = { e with resumeReq := false } := hstart
  obtain ⟨hfst, hring, hsent, l, hout, hl'⟩ := writePkt_written (j := q.toNat) (s := u) (by rw [hu]; exact hfit)
    (by rw [hu]; exact hlaw.fits ha) (by rw [hu]; exact hne) (by rw [hu]; exact ha)
  have hfirst : txFirst q.toNat (txStart q.toNat s) =
      { sent := 1, stall := none, s := (eqDoorbell q.toNat false (writePkt q.toNat u).2).2 } := by
    refine txFirst_sent (by rw [hstart]; exact hv) (by rw [hstart]; exact precheck_of_no_lso hl hlen) ?_
    rw [halone]
    exact txBuilt_alone (s := u) (by rw [hu]; exact hb) (by rw [hu]; exact hl) hfst
  have hsteady := (Steady.refl q.toNat u).writePkt
  obtain ⟨t, hexec, hres, heq, hmem, houtT, hframe, hqmap⟩ := eqTx_endsSent (limit := limit) hst hc
    (congrArg (txPackets q.toNat limit.toNat) hfirst)
    (hnone ▸ takePacket_fst (hsteady.held.trans (by rw [hu]; rfl)) hsteady.src) (by rw [hsent, hu]; exact hb)
  rw [hu] at hring hsent
  have hpos : 1 ≤ d := ndesc_pos (by unfold pktWrFlits Config.txpktHdrFlits; omega)
  have hbell : ((writePkt q.toNat u).2.eq q.toNat).doorbell =
      [.barrier, .regWrite .kdb (kdbWord e.cntxtId (e.pending + d))] := by
    rw [hsent]
    exact EQ.doorbell_of_pos (Nat.le_add_left_of_le hpos)
  refine ⟨t, l, hexec, hres, hring.of_mem rfl hmem rfl rfl, heq.trans ?_, ?_, hl', hframe, hqmap⟩
  · rw [hsent, ← hheld]
    rfl
  · rw [houtT, hout, hbell]
    rfl

/-- EQ_TX with one small packet and nothing behind it (R284, R290). -/
theorem eqTx_sendsSmall {s1 : State} {p : Packet} (hv : (s.eq q.toNat).sgl.valid = false)
    (ht : takePacket q.toNat s = (some p, s1)) (hsrc : s1.src q.toNat = []) (hl : p.lso = none)
    (himm : p.len.toNat ≤ s.cfg.txImmMax) (hlen : p.len.toNat ≤ 65535)
    (ha : ndesc (immWrFlits p.len.toNat) ≤ (s.eq q.toNat).avail) :
    let e := s.eq q.toNat; let d := ndesc (immWrFlits p.len.toNat)
    ∃ t l, exec (.eqTx q limit) s = .next t ∧ t.res = { rc := .ok, value := 1 } ∧
      RingWritten e (8 * e.pidx) (immWr p) s t ∧
      t.eq q.toNat = { e.committed d 0 with
        held := none, resumeReq := false, stalled := false, pending := 0
        stats := countOffloads p { e.stats with immWrs := e.stats.immWrs + 1 } } ∧
      t.out = s.out ++ l ++ [.release (.pkt p), .barrier, .regWrite .kdb (kdbWord e.cntxtId (e.pending + d))] ∧
      OnlyWrites l ∧ Untouched .eq q.toNat s t ∧ t.qmap = s.qmap := by
  intro e d
  have hstart := txStart_eq q.toNat s
  have hheld : ((txStart q.toNat s).eq q.toNat).held = (s.eq q.toNat).held := by rw [hstart]
  let u := ((takePacket q.toNat (txStart q.toNat s)).2.peek q.toNat).2
  have ht' : takePacket q.toNat (txStart q.toNat s) = (some p, (takePacket q.toNat (txStart q.toNat s)).2) :=
    Prod.ext ((takePacket_fst hheld rfl).trans (by rw [ht])) rfl
  have hsrc' : (takePacket q.toNat (txStart q.toNat s)).2.src q.toNat = [] :=
    (takePacket_src hheld rfl).trans (by rw [ht]; exact hsrc)
  obtain ⟨heq1, hout1, hmem1, hcfg1⟩ := takePacket_spec q.toNat (txStart q.toNat s)
  rw [hstart] at heq1
  have hu : u.eq q.toNat = { e with resumeReq := false, held := none } := heq1
  have hfst : (writeImm q.toNat p u).1 = some d := by
    rw [writeImm_fst, hu, if_neg (Nat.not_lt.2 ha)]
  have hsent := writeImm_eq q.toNat p u (by rw [hu]; exact Nat.not_lt.2 ha)
  obtain ⟨hring, -, -, l, hout, hl'⟩ := writeImm_written (j := q.toNat) (p := p) (s := u) (by rw [hu]; exact hfit)
    (by rw [hu]; exact hlaw.fits ha) (by rw [hu]; exact ha)
  have halone : coalescing q.toNat (takePacket q.toNat (txStart q.toNat s)).2 = false := by
    refine coalescing_alone (by rw [heq1]; exact hb) ?_
    show (peekSrc _).1 = none
    rw [hsrc']
    rfl
  have hone := txOne_imm (precheck_of_no_lso hl hlen) halone (by rw [hcfg1]; exact immOk_iff.2 ⟨hl, himm⟩) hfst
  have hsteady := (Steady.refl q.toNat u).writeImm p
  have hheld' : ((writeImm q.toNat p u).2.eq q.toNat).held = none := hsteady.held.trans (by rw [hu])
  have husrc : u.src q.toNat = [] := by
    show (State.setSrc _ _ _).src q.toNat = []
    rw [State.setSrc_get, if_pos rfl, hsrc']
    rfl
  obtain ⟨t, hexec, hres, heq, hmem, houtT, hframe, hqmap⟩ := eqTx_endsSent (limit := limit) hst hc
    (txPackets_sent (by rw [hstart]; exact hv) ht' hone hheld' limit.toNat)
    (takePacket_of_src_nil hheld' (hsteady.src.trans husrc)) (by rw [hsent, hu]; exact hb)
  rw [hu] at hring hsent
  have hpos : 1 ≤ d := ndesc_pos (by unfold immWrFlits Config.txpktHdrFlits; omega)
  have hbell : ((writeImm q.toNat p u).2.eq q.toNat).doorbell =
      [.barrier, .regWrite .kdb (kdbWord e.cntxtId (e.pending + d))] := by
    rw [hsent]
    exact EQ.doorbell_of_pos (Nat.le_add_left_of_le hpos)
  refine ⟨t, l, hexec, hres, hring.of_mem hmem1.symm hmem rfl rfl, heq.trans ?_, ?_, hl', hframe, hqmap⟩
  · rw [hsent]
    rfl
  · rw [houtT, hout, hbell, show u.out = s.out from hout1, List.append_assoc, List.append_assoc, List.append_assoc]
    rfl

end whole

/-- Settles O46: the turn by the lemmas of its commands (`eqTx_dropped`, `eqTx_builds`, `eqTx_sendsImm`, `eqTx_dropsRegister`,
`eqTx_sendsRegister`), the three whole runs by `eqTx_nothing`, `eqTx_sendsAlone` and `eqTx_sendsSmall`. -/
theorem eqTxSendsLonePacket : Obligations.EqTxSendsLonePacket := by
  refine ⟨?turn, ?whole⟩
  case turn =>
    intro q limit s j e s0 p back hst hc
    refine ⟨fun m s1 hv ht => ?_, eqTx_dropsRegister hst hc, eqTx_sendsRegister hst hc⟩
    refine ⟨fun hm => ?_, fun u hm hpath hb => eqTx_builds hst hc hv ht hm hpath hb,
      fun u hm halone hok hx hrc => eqTx_sendsImm hst hc hv ht hm halone hok hx hrc⟩
    exact eqTx_dropped hst hc hv ht (if_neg (by rw [hm]; exact Bool.false_ne_true))
      ((Between.taken hst ht).steady ((Steady.refl _ _).eqDrop m)) (eqDrop_sgl _ _ _) (eqDrop_avail _ _ _)
  case whole =>
    intro q limit s s1 j e hst hb hlaw hfit hc
    refine ⟨fun hv ht => ?nothing, fun hv ht hl hlen hne => ?register, fun p hv ht hsrc hl himm hlen => ?small⟩
    case nothing =>
      have hnone : (takePacket j s).1 = none := by rw [ht]
      obtain ⟨hheld, -⟩ := takePacket_none hnone
      obtain ⟨t, hexec, hres, heq, hmem, hout, hframe, hqmap⟩ := eqTx_nothing (limit := limit) hst hc hb hv hnone
      rw [← hheld] at heq
      exact ⟨t, hexec, hres, heq, hmem, hframe, hqmap, hout⟩
    case register => exact fun ha => eqTx_sendsAlone hst hc hb hlaw hfit hv (by rw [ht]) hl hlen hne ha
    case small => exact fun ha => eqTx_sendsSmall hst hc hb hlaw hfit hv ht hsrc hl himm hlen ha

end Sys2Proof.Machine
end

section
/-! PROOFS. 43_egress_tx.md, how every EQ_TX ends (R280, R298, R301, R612). -/

namespace Sys2Proof.Machine

/-! ### The reclaim of EQ_TX keeps the packets (R342) -/

theorem mapReturns_kept (j n : Nat) (s : State) : ((mapReturns j n s).eq j).kept = (s.eq j).kept := by
  induction n generalizing s with
  | zero => rfl
  | succ n ih =>
    refine (ih (mapReturn j s)).trans ?_
    unfold mapReturn
    dsimp only
    rw [State.setEq_same]
    split <;> rfl

theorem reclaimOne_kept (j : Nat) (s : State) : ((reclaimOne j s).eq j).kept = (s.eq j).kept := by
  unfold reclaimOne
  dsimp only
  rw [State.setEq_same]
  exact mapReturns_kept _ _ _

theorem reclaimLoop_kept (j r m n got : Nat) (s : State) : ((reclaimLoop j r m n got s).2.eq j).kept = (s.eq j).kept := by
  induction n generalizing got s with
  | zero => rfl
  | succ n ih =>
    unfold reclaimLoop
    dsimp only
    split
    · exact (ih _ _).trans (reclaimOne_kept j s)
    · rfl

theorem reclaim_kept {j a m n : Nat} {s u : State} (h : reclaim j a m s = .done n u) : (u.eq j).kept = (s.eq j).kept := by
  unfold reclaim at h
  rcases reclaimable_cases j s with ⟨c, hr⟩ | ⟨r, hr, -⟩ <;> rw [hr] at h
  · cases h
  · simp only [Ran.bind] at h
    split at h
    · cases h; rfl
    · split at h
      · cases h; exact reclaimLoop_kept _ _ _ _ _ _
      · cases h

theorem txReclaim_kept {j : Nat} {s u : State} (h : txReclaim j s = .done () u) : (u.eq j).kept = (s.eq j).kept := by
  unfold txReclaim at h
  split at h
  · cases hr : reclaim j 0 s.cfg.txReclaimBatch s with
    | done n v =>
      rw [hr] at h
      cases h
      exact reclaim_kept hr
    | raised v =>
      rw [hr] at h
      cases h
  · cases h; rfl

/-- With credit to spare EQ_TX reclaims nothing. -/
theorem txReclaim_idle {j : Nat} {s : State} (h : s.cfg.txLowCredit ≤ (s.eq j).avail) : txReclaim j s = .done () s :=
  if_neg (Nat.not_lt.2 h)

/-! ### A transmit run keeps the resume request cleared -/

theorem takePacket_resume (j : Nat) (s : State) : ((takePacket j s).2.eq j).resumeReq = (s.eq j).resumeReq := by
  rw [(takePacket_spec j s).1]

theorem eqHold_resume (j : Nat) (p : Option Packet) (s : State) : ((eqHold j p s).eq j).resumeReq = (s.eq j).resumeReq := by
  unfold eqHold
  rw [State.setEq_same]

theorem txOne_resume (j : Nat) (p : Packet) (s : State) : ((txOne j p s).state.eq j).resumeReq = (s.eq j).resumeReq := by
  have hpeek := Steady.refl j (s.peek j).2
  unfold txOne
  dsimp only
  split
  · split
    · split <;> exact (hpeek.writeImm p).resume
    · exact (hpeek.txSgl _ p).resume
  · exact ((Steady.refl j s).eqDrop p).resume

theorem txLoop_resume (j limit n : Nat) (p : Option Packet) (k : Nat) (s : State) :
    ((txLoop j limit n p k s).s.eq j).resumeReq = (s.eq j).resumeReq := by
  induction n generalizing p k s with
  | zero =>
    cases p with
    | none => rfl
    | some p => exact eqHold_resume _ _ _
  | succ n ih =>
    cases p with
    | none => rfl
    | some p =>
      have hone := txOne_resume j p s
      unfold txLoop
      split
      · split
        case h_1 he => rw [he] at hone; exact (ih _ _ _).trans hone
        case h_2 he => rw [he] at hone; exact (ih _ _ _).trans hone
        case h_3 he => rw [he] at hone; exact (ih _ _ _).trans (((Steady.refl j _).eqDoorbell false).resume.trans hone)
        case h_4 he =>
          rw [he] at hone
          exact (eqHold_resume _ _ _).trans ((Steady.refl j _).sglRelease.resume.trans hone)
      · exact eqHold_resume _ _ _

theorem txKeep_resume (j : Nat) (p : Packet) (s : State) : ((txKeep j p s).eq j).resumeReq = (s.eq j).resumeReq := by
  unfold txKeep
  split
  · exact (eqHold_resume _ _ _).trans (Steady.refl j s).sglRelease.resume
  · rfl

theorem txFirst_resume (j : Nat) (s : State) : ((txFirst j s).s.eq j).resumeReq = (s.eq j).resumeReq := by
  have hbuilt := (Steady.refl j (s.peek j).2).txBuilt (coalescing j s) (s.eq j).sgl.pkt
  unfold txFirst
  dsimp only
  split
  · split
    · split
      case h_1 he => rw [he] at hbuilt; exact hbuilt.resume
      case h_2 he => rw [he] at hbuilt; exact hbuilt.resume
      case h_3 he => rw [he] at hbuilt; exact (hbuilt.eqDoorbell false).resume
      case h_4 he => rw [he] at hbuilt; exact (txKeep_resume _ _ _).trans hbuilt.resume
    · exact ((Steady.refl j s).sglRelease.eqDrop _).resume
  · rfl

theorem txPackets_resume (j limit : Nat) (e : TxEnd) : ((txPackets j limit e).s.eq j).resumeReq = (e.s.eq j).resumeReq := by
  unfold txPackets
  split
  · rfl
  · exact (txLoop_resume _ _ _ _ _ _).trans (takePacket_resume _ _)

/-! ### The end of a transmit run (R298) -/

/-- A stall marks the queue, and leaves the batch and the resume request. -/
theorem stallFlush_marks (j : Nat) (noMap : Bool) (s : State) :
    ((stallFlush j noMap s).eq j).stalled = true ∧ ((stallFlush j noMap s).eq j).batch = (s.eq j).batch ∧
    ((stallFlush j noMap s).eq j).resumeReq = (s.eq j).resumeReq := by
  unfold stallFlush
  dsimp only
  generalize (fun c : EqStats => if noMap = true then _ else _) = f
  have hmark := eqStats_eq j f (s.setEq j { s.eq j with stalled := true })
  rw [State.setEq_same] at hmark
  split
  case isTrue h =>
    rw [writeFlush_eq _ _ h.2, hmark]
    exact ⟨rfl, rfl, rfl⟩
  case isFalse => rw [hmark]; exact ⟨rfl, rfl, rfl⟩

/-- The end of a transmit run leaves nothing pending and no batch open, and marks the queue stalled exactly on a stall. -/
theorem txEnd_marks (j : Nat) (stall : Option Bool) (s : State) :
    ((txEnd j stall s).eq j).pending = 0 ∧ ((txEnd j stall s).eq j).batch.accepting = false ∧
    ((txEnd j stall s).eq j).stalled = stall.isSome ∧ ((txEnd j stall s).eq j).resumeReq = (s.eq j).resumeReq := by
  have hclosed := txpktsFlush_closed j s
  have hresume := (Steady.refl j s).txpktsFlush.resume
  cases stall with
  | none =>
    have heq : (txEnd j none s).eq j = { (txpktsFlush j s).2.eq j with stalled := false, pending := 0 } := by
      unfold txEnd
      rw [eqDoorbell_forced, State.setEq_same]
    rw [heq]
    exact ⟨rfl, hclosed, rfl, hresume⟩
  | some noMap =>
    obtain ⟨hstalled, hbatch, hresume'⟩ := stallFlush_marks j noMap (txpktsFlush j s).2
    have heq : (txEnd j (some noMap) s).eq j = { (stallFlush j noMap (txpktsFlush j s).2).eq j with pending := 0 } := by
      unfold txEnd
      rw [eqDoorbell_forced]
    rw [heq]
    exact ⟨rfl, (congrArg Batch.accepting hbatch).trans hclosed, hstalled, hresume'.trans hresume⟩

/-- A transmit run sends no more than its limit. -/
theorem txPackets_limit {j limit : Nat} (s : State) (h : limit ≠ 0) : (txPackets j limit (txFirst j s)).sent ≤ limit := by
  obtain ⟨hsent, -⟩ := txFirst_cases j s
  unfold txPackets
  split
  · omega
  · exact txLoop_limit _ _ _ _ _ h (by omega)

theorem txRun_marks (j limit : Nat) (s : State) :
    ((txRun j limit s).1.1 = .ok ∨ (txRun j limit s).1.1 = .stalled) ∧ ((txRun j limit s).2.eq j).pending = 0 ∧
    ((txRun j limit s).2.eq j).batch.accepting = false ∧
    (((txRun j limit s).2.eq j).stalled = true ↔ (txRun j limit s).1.1 = .stalled) ∧
    ((txRun j limit s).2.eq j).resumeReq = (s.eq j).resumeReq := by
  unfold txRun
  dsimp only
  generalize hp : txPackets j limit (txFirst j s) = e
  obtain ⟨hpending, hclosed, hstalled, hresume⟩ := txEnd_marks j e.stall e.s
  have hresume' : (e.s.eq j).resumeReq = (s.eq j).resumeReq := by
    rw [← hp]
    exact (txPackets_resume _ _ _).trans (txFirst_resume _ _)
  rw [hstalled]
  refine ⟨?_, hpending, hclosed, ?_, hresume.trans hresume'⟩ <;> cases e.stall <;> simp

/-! ### EQ_TX -/

/-- EQ_TX on a running queue either reclaims and transmits, or its reclaim faults, which it can only with little credit. -/
theorem exec_eqTx_cases {q : Qid} {limit : BitVec 32} {s t : State} (hst : (s.eq q.toNat).st = .run)
    (hx : exec (.eqTx q limit) s = .next t) :
    (∃ u, txReclaim q.toNat (txStart q.toNat s) = .done () u ∧
      t = (txRun q.toNat limit.toNat u).2.finish (txRun q.toNat limit.toNat u).1.1 (txRun q.toNat limit.toNat u).1.2) ∨
    (s.eq q.toNat).avail < s.cfg.txLowCredit ∧ ∃ (u : State) (c : FaultCode) (x : Sel), t = u.raiseFault c x := by
  have hrun : exec (.eqTx q limit) s = .next (((txReclaim q.toNat (txStart q.toNat s)).bind fun _ u =>
      .done (txRun q.toNat limit.toNat u).1 (txRun q.toNat limit.toNat u).2).finish id) :=
    congrArg Host.Outcome.next (if_pos hst)
  have ht := Host.Outcome.next.inj (hx.symm.trans hrun)
  cases hr : txReclaim q.toNat (txStart q.toNat s) with
  | done a u =>
    rw [hr] at ht
    exact .inl ⟨u, rfl, ht⟩
  | raised v =>
    rw [hr] at ht
    have hraised := (untouched_eq q.toNat _).txReclaim (Untouched.refl .eq q.toNat (txStart q.toNat s))
    rw [hr] at hraised
    obtain ⟨u, c, x, -, hv⟩ := hraised
    refine .inr ⟨Nat.lt_of_not_le fun hc => ?_, u, c, x, ht.trans hv⟩
    rw [txReclaim_idle (by rw [txStart_eq]; exact hc)] at hr
    exact nomatch hr

/-- What the reclaim of EQ_TX leaves of the state EQ_TX began on. -/
structure TxReclaimed (j : Nat) (s u : State) : Prop where
  frame  : OnlyEq j s u
  mem    : u.mem = s.mem
  pidx   : (u.eq j).pidx = (s.eq j).pidx
  kept   : (u.eq j).kept = (s.eq j).kept
  resume : (u.eq j).resumeReq = false

theorem txReclaim_reclaimed {j : Nat} {s u : State} (h : txReclaim j (txStart j s) = .done () u) : TxReclaimed j s u := by
  have hframe := (onlyEq_closed j s).txReclaim ((onlyEq_closed j s).setEq s { s.eq j with resumeReq := false } rfl
    (OnlyEq.refl j s))
  change (txReclaim j (txStart j s)).Holds _ at hframe
  rw [h] at hframe
  obtain ⟨hmem, hpidx, hresume⟩ := txReclaim_mem h
  have hkept := txReclaim_kept h
  rw [txStart_eq] at hpidx hresume hkept
  exact ⟨hframe, hmem, hpidx, hkept, hresume⟩

/-- The free slots, counted from the indices (R57). -/
theorem EQ.Law.free_eq {e : EQ} (h : e.Law) : e.cap - 1 - subMod e.pidx e.cidx e.cap = e.avail := by
  have hcap := h.cap_min
  have havail := h.avail_le
  rw [h.pidx_eq, subMod_add h.cidx_lt (by unfold EQ.inUse; omega)]
  unfold EQ.inUse
  omega

/-- EQ_TX writes only slots that hold no unreclaimed work (R612): `txRun_sends`, and the credit after the reclaim counted from the
indices. -/
theorem eqTx_writes {j limit : Nat} {s u : State} (h : txReclaim j (txStart j s) = .done () u) (hok : EqOk j s) {a : Nat}
    (ha : ¬ (s.eq j).inFlits (8 * (s.eq j).pidx)
      (8 * ((s.eq j).cap - 1 - subMod (s.eq j).pidx ((txRun j limit u).2.eq j).cidx (s.eq j).cap)) a) :
    Memory.get (txRun j limit u).2.mem a = Memory.get s.mem a := by
  have hstart : EqOk j (txStart j s) := hok.keep rfl (by rw [txStart_eq]; rfl) (by rw [txStart_eq])
  have hreclaimed := txReclaim_ok hstart
  rw [h] at hreclaimed
  have hsends := txRun_sends hreclaimed limit
  have hkeeps := txReclaim_reclaimed h
  have hfixed := hkeeps.frame.2.eq j
  simp only [EQ.fixed, Prod.mk.injEq] at hfixed
  obtain ⟨-, -, hbase, hcap, -⟩ := hfixed
  rw [← hkeeps.mem]
  refine hsends.mem a fun hin => ha ?_
  rw [hsends.cidx, ← hcap, ← hkeeps.pidx, hreclaimed.1.free_eq]
  unfold EQ.inFlits at hin ⊢
  rw [← hbase, ← hcap]
  exact hin

/-- Settles O47: a reclaim that faults raises a fault (`raiseFault_ne`); after one that does not, the queue ends as `txRun_marks`,
`txRun_stall`, `txPackets_limit` and `eqTx_writes` say. -/
theorem eqTxLeavesNothingPending : Obligations.EqTxLeavesNothingPending := by
  intro q limit s t j hst hfault hx
  obtain ⟨u, hr, rfl⟩ | ⟨hlow, u, c, x, rfl⟩ := exec_eqTx_cases hst hx
  case inr => exact ⟨fun hc => absurd hlow (Nat.not_lt.2 hc), fun hf => absurd hf (raiseFault_ne hfault u c x)⟩
  have hkeeps := txReclaim_reclaimed hr
  obtain ⟨hframe, hfixed⟩ := (onlyEq_closed j s).txRun hkeeps.frame limit.toNat
  obtain ⟨hrc, hpending, hclosed, hstalled, hresume⟩ := txRun_marks j limit.toNat u
  refine ⟨fun _ => hframe.fault, fun _ => ⟨hrc, hpending, hclosed, hresume.trans hkeeps.resume, hstalled, fun hstall => ?kept,
    fun hlimit => ?limit, hframe.finish _ _, hfixed.qmap, fun hlaw hbatch a ha => eqTx_writes hr ⟨hlaw, hbatch⟩ ha⟩⟩
  case kept =>
    obtain ⟨hheld, hfull⟩ := txRun_stall j limit.toNat u hstall
    obtain ⟨hsgl, hheld'⟩ := Prod.mk.inj hkeeps.kept
    refine ⟨hheld, fun hv => ?_⟩
    obtain ⟨hv', hh', hsame⟩ := hfull hv
    obtain ⟨h1, h2⟩ := Prod.mk.inj (hsame.trans hkeeps.kept)
    exact ⟨hsgl ▸ hv', hheld' ▸ hh', h1, h2⟩
  case limit =>
    have hle := txPackets_limit (j := j) u (limit := limit.toNat) (fun h0 => hlimit (BitVec.eq_of_toNat_eq h0))
    exact (BitVec.toNat_ofNat _ _).trans_le ((Nat.mod_le _ _).trans hle)

end Sys2Proof.Machine
end

section
/-! PROOFS. 44_reclaim.md: what is reclaimable (R340), and the reclaim walk (R341). -/

namespace Sys2Proof.Machine

/-! ### The snapshot of the status word (R340) -/

theorem reclaimable_outside {j : Nat} {s : State} (hout : (s.eq j).cap ≤ hwCidx j s) :
    reclaimable j s = Ran.raise s .badStatus (selEq j) := if_pos hout

theorem reclaimable_past {j : Nat} {s : State} (hin : hwCidx j s < (s.eq j).cap)
    (hpast : (s.eq j).inUse < subMod (hwCidx j s) (s.eq j).cidx (s.eq j).cap) :
    reclaimable j s = Ran.raise s .overReclaim (selEq j) := (if_neg (Nat.not_le.2 hin)).trans (if_pos hpast)

theorem reclaimable_count {j : Nat} {s : State} (hin : hwCidx j s < (s.eq j).cap)
    (hfit : subMod (hwCidx j s) (s.eq j).cidx (s.eq j).cap ≤ (s.eq j).inUse) :
    reclaimable j s = .done (subMod (hwCidx j s) (s.eq j).cidx (s.eq j).cap) s :=
  (if_neg (Nat.not_le.2 hin)).trans (if_neg (Nat.not_lt.2 hfit))

/-- `EQ_RECLAIMABLE` on a registered queue answers `reclaimable`. -/
theorem exec_eqReclaimable {q : Qid} {s : State} (hst : (s.eq q.toNat).st = .reg ∨ (s.eq q.toNat).st = .run) :
    exec (.eqReclaimable q) s = .next ((reclaimable q.toNat s).finish fun r => (.ok, r)) :=
  congrArg Host.Outcome.next (if_pos ((registered_iff _).2 hst))

/-- Settles O48: the three outcomes of `reclaimable`. -/
theorem eqReclaimableReadsStatusWord : Obligations.EqReclaimableReadsStatusWord := by
  intro q s j e hw r hst
  rw [exec_eqReclaimable hst]
  refine ⟨fun hout => ?outside, fun hin hpast => ?past, fun hin hfit => ?count⟩
  case outside => rw [reclaimable_outside hout]; rfl
  case past => rw [reclaimable_past hin hpast]; rfl
  case count => rw [reclaimable_count hin hfit]; rfl

/-! ### The maps a reclaim returns (R341) -/

/-- What HOST sees when the map of a packet is returned. -/
def giveBack (p : Packet) : List Effect := [.unmap (.pkt p), .release (.pkt p)]

/-- The oldest maps of the pool are those of `ps`, in this order. -/
def EQ.Oldest (e : EQ) (ps : List Packet) : Prop :=
  ∀ i, i < ps.length → Tab.find e.maps ((e.mapCidx + i) % e.txMaps) = ps[i]?

/-- The record after the `d` oldest slots and the `m` oldest maps were returned. -/
def EQ.returned (e : EQ) (d m : Nat) : EQ :=
  { e with
    cidx := (e.cidx + d) % e.cap, avail := e.avail + d, mapAvail := e.mapAvail + m
    mapCidx := (e.mapCidx + m) % e.txMaps, maps := delMaps e.txMaps m e.mapCidx e.maps }

theorem delMaps_add {n k : Nat} (hk : k < n) (u v : Nat) (t : Tab Packet) :
    delMaps n (u + v) k t = delMaps n v ((k + u) % n) (delMaps n u k t) := by
  induction u generalizing k t with
  | zero => rw [Nat.zero_add, Nat.add_zero, Nat.mod_eq_of_lt hk, delMaps]
  | succ u ih =>
    rw [Nat.add_right_comm, delMaps, delMaps, ih (Nat.mod_lt _ (by omega)), Nat.mod_add_mod, Nat.add_assoc, Nat.add_comm 1]

theorem EQ.returned_zero {e : EQ} (hc : e.cidx < e.cap) (hm : e.mapCidx < e.txMaps) : e.returned 0 0 = e := by
  simp only [EQ.returned, delMaps, Nat.add_zero, Nat.mod_eq_of_lt hc, Nat.mod_eq_of_lt hm]

theorem EQ.returned_returned {e : EQ} (hm : e.mapCidx < e.txMaps) (d m d' m' : Nat) :
    (e.returned d m).returned d' m' = e.returned (d + d') (m + m') := by
  simp only [EQ.returned, Nat.mod_add_mod, Nat.add_assoc, delMaps_add hm]

theorem EQ.find_returned {e : EQ} {m : Nat} (hm : e.mapCidx < e.txMaps) (hle : m ≤ e.txMaps) (d k : Nat) :
    Tab.find (e.returned d m).maps k =
      if subMod k e.mapCidx e.txMaps < m ∧ k < e.txMaps then none else Tab.find e.maps k :=
  (find_delMaps _ hm hle _ _).trans (if_congr and_comm rfl rfl)

/-- The maps in use name the packets they were taken for. -/
theorem EQ.Core.exists_oldest {e : EQ} {y u : Nat} (h : e.Core y) (hu : u ≤ e.txMaps - e.mapAvail) :
    ∃ ps, ps.length = u ∧ e.Oldest ps := by
  have hmap : ∀ i, i < u → ∃ p, Tab.find e.maps ((e.mapCidx + i) % e.txMaps) = some p := fun i hi =>
    Option.isSome_iff_exists.1 ((h.loaded _).2 ⟨Nat.mod_lt _ (Nat.zero_lt_of_lt h.mcidx_lt), by
      rw [subMod_add h.mcidx_lt (by omega)]; omega⟩)
  choose f hf using hmap
  refine ⟨List.ofFn fun i : Fin u => f i i.2, List.length_ofFn, fun i hi => ?_⟩
  rw [List.length_ofFn] at hi
  rw [hf i hi, List.getElem?_ofFn, dif_pos hi]

/-- Behind the oldest maps come those that are the oldest once these were returned. -/
theorem EQ.Oldest.append {e : EQ} {ps qs : List Packet} {d : Nat} (hp : e.Oldest ps) (hm : e.mapCidx < e.txMaps)
    (hq : (e.returned d ps.length).Oldest qs) (hl : ps.length + qs.length ≤ e.txMaps) : e.Oldest (ps ++ qs) := by
  intro i hi
  rw [List.length_append] at hi
  by_cases h : i < ps.length
  · rw [List.getElem?_append_left h]
    exact hp i h
  · have hfound := hq (i - ps.length) (by omega)
    have hplace : ((e.returned d ps.length).mapCidx + (i - ps.length)) % (e.returned d ps.length).txMaps =
        (e.mapCidx + i) % e.txMaps := by
      show ((e.mapCidx + ps.length) % e.txMaps + (i - ps.length)) % e.txMaps = _
      rw [Nat.mod_add_mod, Nat.add_assoc, Nat.add_sub_cancel' (Nat.le_of_not_lt h)]
    rw [List.getElem?_append_right (Nat.le_of_not_lt h), ← hfound, hplace, EQ.find_returned hm (by omega),
      subMod_add hm (by omega), if_neg fun hx => h hx.1]

theorem mapReturn_out {j : Nat} {s : State} {p : Packet} (h : Tab.find (s.eq j).maps (s.eq j).mapCidx = some p) :
    (mapReturn j s).out = s.out ++ giveBack p := by
  unfold mapReturn
  dsimp only
  rw [h]
  exact List.append_assoc s.out [_] [_]

theorem mapReturns_out {j : Nat} {ps : List Packet} {s : State} (hm : (s.eq j).mapCidx < (s.eq j).txMaps)
    (hl : ps.length ≤ (s.eq j).txMaps) (hp : (s.eq j).Oldest ps) :
    (mapReturns j ps.length s).out = s.out ++ ps.flatMap giveBack := by
  induction ps generalizing s with
  | nil => exact (List.append_nil _).symm
  | cons p ps ih =>
    have hfirst : Tab.find (s.eq j).maps (s.eq j).mapCidx = some p := by
      have h0 := hp 0 (Nat.succ_pos _)
      rwa [Nat.add_zero, Nat.mod_eq_of_lt hm] at h0
    have hrest : ((mapReturn j s).eq j).Oldest ps := by
      intro i hi
      have hi' := hp (i + 1) (Nat.succ_lt_succ hi)
      rw [List.length_cons] at hl
      rw [mapReturn_eq]
      show Tab.find (Tab.del _ _) _ = _
      rw [Tab.find_del, Nat.mod_add_mod, Nat.add_assoc, Nat.add_comm 1, hi', List.getElem?_cons_succ, if_neg]
      intro hwrap
      have hdist := subMod_add hm (show i + 1 < (s.eq j).txMaps by omega)
      rw [hwrap, subMod_self hm] at hdist
      omega
    show (mapReturns j ps.length (mapReturn j s)).out = _
    rw [ih (by rw [mapReturn_eq]; exact Nat.mod_lt _ (Nat.zero_lt_of_lt hm))
      (by rw [mapReturn_eq]; exact Nat.le_of_succ_le hl) hrest, mapReturn_out hfirst, List.flatMap_cons, List.append_assoc]

/-! ### The reclaim walk (R341) -/

/-- From `s` to `t` whole work requests were returned: `d` slots and `m` maps. -/
structure Returned (j d m : Nat) (s t : State) : Prop where
  tiles  : Tiles (s.eq j) (s.eq j).cidx d m
  record : t.eq j = (s.eq j).returned d m
  maps   : m ≤ (s.eq j).txMaps - (s.eq j).mapAvail
  out    : ∃ ps : List Packet, ps.length = m ∧ (s.eq j).Oldest ps ∧ t.out = s.out ++ ps.flatMap giveBack

theorem Returned.nothing {j y : Nat} {s : State} (h : (s.eq j).Core y) : Returned j 0 0 s s :=
  ⟨.nil _, (EQ.returned_zero h.cidx_lt h.mcidx_lt).symm, Nat.zero_le _, [], rfl, fun _ hi => (Nat.not_lt_zero _ hi).elim,
    (List.append_nil _).symm⟩

/-- The oldest work request is returned with its maps. -/
theorem reclaimOne_out {j y : Nat} {s : State} (h : (s.eq j).Core y) (hu : 1 ≤ (s.eq j).inUse) :
    ∃ ps : List Packet, ps.length = ((s.eq j).slot (s.eq j).cidx).mapsUsed ∧ (s.eq j).Oldest ps ∧
      (reclaimOne j s).out = s.out ++ ps.flatMap giveBack := by
  obtain ⟨-, -, hmaps, -⟩ := h.reclaim hu
  obtain ⟨ps, hlen, hps⟩ := h.exists_oldest hmaps
  have hout := mapReturns_out h.mcidx_lt (by omega) hps
  rw [hlen] at hout
  exact ⟨ps, hlen, hps, hout⟩

/-- A work request, and then those that follow it. -/
theorem Returned.cons {j y d m : Nat} {s t : State} (h : (s.eq j).Core y) (hu : 1 ≤ (s.eq j).inUse)
    (hrest : Returned j d m (reclaimOne j s) t) :
    Returned j (((s.eq j).slot (s.eq j).cidx).descUsed + d) (((s.eq j).slot (s.eq j).cidx).mapsUsed + m) s t := by
  obtain ⟨hdesc, -, hused, -⟩ := h.reclaim hu
  obtain ⟨ps, hps, hold, hout⟩ := reclaimOne_out h hu
  obtain ⟨htiles, hrecord, hmaps, qs, hqs, hold', hout'⟩ := hrest
  have hone : (reclaimOne j s).eq j = (s.eq j).returned ((s.eq j).slot (s.eq j).cidx).descUsed ps.length := by
    rw [reclaimOne_eq _ _ h.mcidx_lt, hps]; rfl
  rw [hone] at htiles hrecord hmaps hold'
  change m ≤ (s.eq j).txMaps - ((s.eq j).mapAvail + ps.length) at hmaps
  have hcap := h.cap_min
  refine ⟨?tiles, ?record, by omega, ps ++ qs, by rw [List.length_append, hps, hqs],
    hold.append h.mcidx_lt hold' (by omega), ?out⟩
  case tiles =>
    rw [Nat.add_comm _ m]
    exact .cons _ _ _ hdesc (htiles.congr rfl (fun _ _ => rfl) (Nat.mod_lt _ (by show 0 < (s.eq j).cap; omega)))
  case record => rw [hrecord, EQ.returned_returned h.mcidx_lt, hps]
  case out => rw [hout', hout, List.flatMap_append, List.append_assoc]

theorem reclaimLoop_stop {j r most n got : Nat} {s : State}
    (h : ¬ (got < r ∧ got + ((s.eq j).slot (s.eq j).cidx).descUsed ≤ most)) :
    reclaimLoop j r most (n + 1) got s = (got, s) := if_neg h

theorem reclaimLoop_go {j r most n got : Nat} {s : State}
    (h : got < r ∧ got + ((s.eq j).slot (s.eq j).cidx).descUsed ≤ most) :
    reclaimLoop j r most (n + 1) got s =
      reclaimLoop j r most n (got + ((s.eq j).slot (s.eq j).cidx).descUsed) (reclaimOne j s) := if_pos h

/-- The walk returns whole work requests, no more than `r` slots and no more than `most`, and stops before all `r` only at a
work request that would pass `most`. The record law bounds the maps; the tiling bounds the slots and the turns. -/
theorem reclaimLoop_returned {j r most y n got : Nat} {s : State} (h : (s.eq j).Core y) (hr : r ≤ got + (s.eq j).inUse)
    (ht : ∃ x, Tiles (s.eq j) (s.eq j).cidx (r - got) x) (hn : r ≤ got + n) (hgot : got ≤ r) (hmost : got ≤ most) :
    ∃ d m, (reclaimLoop j r most n got s).1 = got + d ∧ got + d ≤ r ∧ got + d ≤ most ∧
      (got + d < r → most < got + d + ((s.eq j).slot (((s.eq j).cidx + d) % (s.eq j).cap)).descUsed) ∧
      Returned j d m s (reclaimLoop j r most n got s).2 := by
  induction n generalizing got s with
  | zero => exact ⟨0, 0, rfl, hgot, hmost, fun hlt => by omega, .nothing h⟩
  | succ n ih =>
    by_cases hgo : got < r ∧ got + ((s.eq j).slot (s.eq j).cidx).descUsed ≤ most
    case neg =>
      rw [reclaimLoop_stop hgo]
      refine ⟨0, 0, rfl, hgot, hmost, fun hlt => ?_, .nothing h⟩
      rw [Nat.add_zero, Nat.add_zero, Nat.mod_eq_of_lt h.cidx_lt]
      exact Nat.lt_of_not_le fun hle => hgo ⟨hlt, hle⟩
    case pos =>
      obtain ⟨x, ht⟩ := ht
      obtain ⟨hdesc, hfits, -, htail⟩ := ht.head (by omega)
      have hu : 1 ≤ (s.eq j).inUse := by omega
      obtain ⟨-, -, -, hcore⟩ := h.reclaim hu
      have hone := reclaimOne_eq j s h.mcidx_lt
      have hcap := h.cap_min
      have hfits' : r ≤ got + ((s.eq j).slot (s.eq j).cidx).descUsed + (s.eq j).reclaimed.inUse := by
        simp only [EQ.inUse, EQ.reclaimed] at hr ⊢
        omega
      have htail' : ∃ x, Tiles (s.eq j).reclaimed (s.eq j).reclaimed.cidx
          (r - (got + ((s.eq j).slot (s.eq j).cidx).descUsed)) x := by
        refine ⟨x - ((s.eq j).slot (s.eq j).cidx).mapsUsed, ?_⟩
        rw [← Nat.sub_sub]
        exact htail.congr rfl (fun _ _ => rfl) (Nat.mod_lt _ (by omega))
      obtain ⟨d, m, hcount, hle, hle', hstop, hreturned⟩ := ih (s := reclaimOne j s) (by rw [hone]; exact hcore)
        (by rw [hone]; exact hfits') (by rw [hone]; exact htail') (by omega) (by omega) hgo.2
      rw [reclaimLoop_go hgo]
      refine ⟨_, _, hcount.trans (Nat.add_assoc _ _ _), by omega, by omega, fun hlt => ?_, hreturned.cons h hu⟩
      have hstop := hstop (by omega)
      rw [hone] at hstop
      simpa only [EQ.reclaimed, EQ.slot, Nat.mod_add_mod, Nat.add_assoc] using hstop

/-! ### EQ_RECLAIM (R341) -/

/-- `EQ_RECLAIM` on a registered queue answers `reclaim`. -/
theorem exec_eqReclaim {q : Qid} {s : State} {atleast : BitVec 16} {howmany : BitVec 32}
    (hst : (s.eq q.toNat).st = .reg ∨ (s.eq q.toNat).st = .run) (hle : atleast.toNat ≤ howmany.toNat) :
    exec (.eqReclaim q atleast howmany) s =
      .next ((reclaim q.toNat atleast.toNat howmany.toNat s).finish fun n => (.ok, n)) :=
  congrArg Host.Outcome.next (if_pos ⟨(registered_iff _).2 hst, hle⟩)

section outcomes
variable {j a most r : Nat} {s : State}

theorem reclaim_raised {c : FaultCode} (h : reclaimable j s = Ran.raise s c (selEq j)) :
    reclaim j a most s = Ran.raise s c (selEq j) := by
  rw [reclaim, h]; rfl

theorem reclaim_little (h : reclaimable j s = .done r s) (hfew : r = 0 ∨ r < a) : reclaim j a most s = .done 0 s := by
  rw [reclaim, h]
  exact if_pos hfew

theorem reclaim_torn (h : reclaimable j s = .done r s) (hpos : 1 ≤ r) (hmany : a ≤ r)
    (htorn : wrMaps (s.eq j) r (s.eq j).cidx r = none) :
    reclaim j a most s = Ran.raise s .partialCredit (selEq j) := by
  rw [reclaim, h]
  exact (if_neg (by omega)).trans (if_neg (by rw [wrTiles_eq, htorn]; exact Bool.false_ne_true))

/-- Records that tile the reclaimable slots are returned by `reclaimLoop_returned`. -/
theorem reclaim_returned (hlaw : (s.eq j).Law) (h : reclaimable j s = .done r s) (hfit : r ≤ (s.eq j).inUse) (hpos : 1 ≤ r)
    (hmany : a ≤ r) (hwhole : wrMaps (s.eq j) r (s.eq j).cidx r ≠ none) :
    ∃ d m t, reclaim j a most s = .done d t ∧ d ≤ r ∧ d ≤ most ∧
      (d < r → most < d + ((s.eq j).slot (((s.eq j).cidx + d) % (s.eq j).cap)).descUsed) ∧
      Returned j d m s t ∧ t.mem = s.mem := by
  obtain ⟨x, hx⟩ := Option.ne_none_iff_exists'.1 hwhole
  obtain ⟨d, m, hcount, hr, hmost, hstop, hreturned⟩ := reclaimLoop_returned (n := r) (got := 0) ((EQ.law_iff _).1 hlaw).1
    (by omega) ⟨x, tiles_of_wrMaps hx⟩ (by omega) (Nat.zero_le _) (Nat.zero_le most)
  rw [Nat.zero_add] at hcount hr hmost hstop
  refine ⟨d, m, _, ?_, hr, hmost, hstop, hreturned, (reclaimLoop_mem _ _ _ _ _ _).1⟩
  rw [reclaim, h, ← hcount]
  exact (if_neg (by omega)).trans (if_pos (by rw [wrTiles_eq, hx]; rfl))

end outcomes

/-- Settles O49: the outcomes of `reclaim`, and `reclaim_returned` for the work requests it returns. -/
theorem eqReclaimReturnsWholeRequests : Obligations.EqReclaimReturnsWholeRequests := by
  intro q atleast howmany s j e hw r hst hlaw
  refine ⟨fun hlt => refused_of_not (fun hg => Nat.not_le.2 hlt hg.2) _ s, fun hle => ?_⟩
  rw [exec_eqReclaim hst hle]
  refine ⟨fun hout => ?outside, fun hin hpast => ?past, fun hin hfit hfew => ?little, fun hin hfit hpos hmany htorn => ?torn,
    fun hin hfit hpos hmany hwhole => ?whole⟩
  case outside => rw [reclaim_raised (reclaimable_outside hout)]; rfl
  case past => rw [reclaim_raised (reclaimable_past hin hpast)]; rfl
  case little => rw [reclaim_little (reclaimable_count hin hfit) hfew]; rfl
  case torn => rw [reclaim_torn (reclaimable_count hin hfit) hpos hmany htorn]; rfl
  case whole =>
    obtain ⟨d, m, t, hrun, hr, hmost, hstop, ⟨htiles, hrecord, hmaps, ps, hlen, hold, hout⟩, hmem⟩ :=
      reclaim_returned (most := howmany.toNat) hlaw (reclaimable_count hin hfit) hfit hpos hmany hwhole
    have hframe := (untouched_eq j s).reclaim (Untouched.refl _ _ _) atleast.toNat howmany.toNat
    have hqmap := (qmap_eq j s.qmap).reclaim (s := s) rfl atleast.toNat howmany.toNat
    rw [hrun] at hframe hqmap
    rw [hrun]
    refine ⟨_, d, m, rfl, rfl, hr, hmost, tiles_iff.2 htiles, hstop, ?record, fun k => ?maps, ⟨ps, hlen, hlen ▸ hold, hout⟩,
      Untouched.finish hframe _ _, hqmap, hmem⟩
    case record =>
      show t.eq j = { e with cidx := _, avail := _, mapAvail := _, mapCidx := _, maps := (t.eq j).maps }
      rw [hrecord]
      rfl
    case maps =>
      show Tab.find (t.eq j).maps k = _
      rw [hrecord]
      exact EQ.find_returned hlaw.mcidx_lt (hmaps.trans (Nat.sub_le _ _)) d k

end Sys2Proof.Machine
end

section
/-! PROOFS. 45_sgl.md: the size of an SGL and its round trip (R361, R365, R366, R367, R368). -/

namespace Sys2Proof.Machine

/-! ### PEER's reading of an SGL (R367) -/

/-- Two lengths share a flit: the earlier segment has the upper half (R365). -/
theorem lengths_halves (a b : BitVec 32) : (a ++ b).extractLsb' 32 32 = a ∧ (a ++ b).extractLsb' 0 32 = b :=
  ⟨(extract_append_hi a b 32 (by omega)).trans (extract_all a), (extract_append_lo a b (by omega)).trans (extract_all b)⟩

theorem sglDecodeRest_sglRest (l : List Segment) : sglDecodeRest l.length (sglRest l) = l := by
  induction l using sglRest.induct with
  | case1 => rfl
  | case2 a =>
    obtain ⟨hlen, -⟩ := lengths_halves a.len 0#32
    simp only [sglRest, List.length_singleton, sglDecodeRest, hlen]
  | case3 a b t ih =>
    obtain ⟨hfirst, hsecond⟩ := lengths_halves a.len b.len
    simp only [sglRest, List.length_cons, sglDecodeRest, hfirst, hsecond, ih]

/-- The segment count of the header has 16 bits. -/
theorem sglDecode_sglBody {l : List Segment} (hne : l ≠ []) (hcount : l.length < 2 ^ 16) : sglDecode (sglBody l) = l := by
  cases l with
  | nil => exact absurd rfl hne
  | cons g t =>
    obtain ⟨v, rest, hbody, -, -, hnsegs, hlen⟩ := sglBody_cons_fields g t
    have hrest : sglRest t = rest := (List.cons.inj (List.cons.inj hbody).2).2
    have hleft : (v.extractLsb' 32 16).toNat - 1 = t.length := by
      rw [hnsegs, BitVec.toNat_ofNat, Nat.mod_eq_of_lt (a := t.length + 1) hcount, Nat.add_sub_cancel]
    rw [hbody, sglDecode, hlen, hleft, ← hrest, sglDecodeRest_sglRest]

/-- The first flits of those written read back as a list. -/
theorem RingWritten.read_first {e : EQ} {f : Nat} {l r : List Flit} {s t : State} (h : RingWritten e f (l ++ r) s t) :
    (List.range l.length).map (fun k => t.read64 (flitAddr e.base e.cap (f + k))) = l := by
  refine List.ext_getElem (by simp) fun k _ hk => ?_
  rw [List.getElem_map, List.getElem_range, h.1 k (by rw [List.length_append]; omega), List.getElem_append_left hk]

/-! ### The obligation -/

/-- The closed form of R361. -/
theorem sglFlits_closed {n : Nat} (h : 1 ≤ n) : sglFlits n = ceilDiv (3 * (n - 1)) 2 + 2 := by
  unfold sglFlits ceilDiv
  omega

/-- Settles O36: the flits are written by `wflits_ringWritten`; read back without the pad they are `sglBody`, which decodes by
`sglDecode_sglBody`. -/
theorem sglSizeAndRoundTrip : Obligations.SglSizeAndRoundTrip := by
  refine ⟨fun n hn => ⟨rfl, sglFlits_closed hn⟩, fun l hne => sglBody_length hne, rfl, ?_⟩
  intro s j f l e n hpos hmax _ hfit hroom t
  have hne : l ≠ [] := List.length_pos_iff.1 hpos
  have hlen : (sglWritten l).length = n + n % 2 := sglWritten_length hne
  have hring : RingWritten e f (sglWritten l) s t := wflits_ringWritten j f _ s hfit (hlen.trans_le hroom)
  refine ⟨hlen, hring, ?_⟩
  have hread := hring.read_first
  rw [sglBody_length hne] at hread
  rw [hread]
  exact sglDecode_sglBody hne (by omega)

end Sys2Proof.Machine
end

section
/-! PROOFS. 45_sgl.md: SGL_BUILD (R362) and SGL_WRITE (R365, R366). -/

namespace Sys2Proof.Machine

/-! ### `sgl_build_pkt` by the answers of HOST (R362) -/

theorem mapLoad_eq (s : State) (p : Packet) (k : Nat) : (s.mapLoad p).2.eq k = s.eq k := rfl

/-- What HOST answers to the compaction of R362, and the state after it, which counts the compaction. -/
def compacted (j : Nat) (p : Packet) (s : State) : Option Packet × State :=
  (eqStats j (fun c => { c with defrags := c.defrags + 1 }) (s.mapLoad p).2).compact p

/-! The counter is no part of what HOST answers, to the compaction and to the retry after it. -/

theorem compacted_fst (j : Nat) (p : Packet) (s : State) : (compacted j p s).1 = ((s.mapLoad p).2.compact p).1 := rfl

theorem compacted_mapLoad (j : Nat) (p p' : Packet) (s : State) :
    ((compacted j p s).2.mapLoad p').1 = (((s.mapLoad p).2.compact p).2.mapLoad p').1 := rfl

theorem compacted_eq (j : Nat) (p : Packet) (s : State) : (compacted j p s).2.eq j =
    { s.eq j with stats := { (s.eq j).stats with defrags := (s.eq j).stats.defrags + 1 } } := by
  rw [compacted, compact_eq, eqStats_eq, mapLoad_eq]

theorem sglLoad_eq (j : Nat) (p : Packet) (l : List Segment) (s : State) :
    (sglLoad j p l s).eq j = { s.eq j with sgl := { valid := true, mapHeld := true, pkt := p, segs := l } } :=
  State.setEq_same _ _ _

theorem eqHold_eq (j : Nat) (p : Option Packet) (s : State) : (eqHold j p s).eq j = { s.eq j with held := p } :=
  State.setEq_same _ _ _

theorem eqDrop_eq (j : Nat) (p : Packet) (s : State) : (eqDrop j p s).eq j =
    { s.eq j with stats := { (s.eq j).stats with drops := (s.eq j).stats.drops + 1 } } := eqStats_eq j _ _

section answers
variable {j : Nat} {p p' : Packet} {l : List Segment} {s : State}

theorem sglRetry_loaded (h : (s.mapLoad p).1 = .ok l) :
    sglRetry j p s = { rc := .ok, pkt := p, s := sglLoad j p l (s.mapLoad p).2 } := by
  simp only [sglRetry, h]

theorem sglRetry_noResource (h : (s.mapLoad p).1 = .noResource) :
    sglRetry j p s = { rc := .noMap, pkt := p, s := (s.mapLoad p).2 } := by
  simp only [sglRetry, h]

theorem sglRetry_tooMany (h : (s.mapLoad p).1 = .tooMany) :
    sglRetry j p s = { rc := .dropped, pkt := p, s := eqDrop j p (s.mapLoad p).2 } := by
  simp only [sglRetry, h]

theorem sglBuildPkt_noPool (hm : (s.eq j).mapAvail = 0) : sglBuildPkt j p s = { rc := .noMap, pkt := p, s := s } :=
  if_pos hm

variable (hm : (s.eq j).mapAvail ≠ 0)
include hm

theorem sglBuildPkt_loaded (h : (s.mapLoad p).1 = .ok l) :
    sglBuildPkt j p s = { rc := .ok, pkt := p, s := sglLoad j p l (s.mapLoad p).2 } := by
  simp only [sglBuildPkt, if_neg hm, h]

theorem sglBuildPkt_noResource (h : (s.mapLoad p).1 = .noResource) :
    sglBuildPkt j p s = { rc := .noMap, pkt := p, s := (s.mapLoad p).2 } := by
  simp only [sglBuildPkt, if_neg hm, h]

theorem sglBuildPkt_uncompacted (h : (s.mapLoad p).1 = .tooMany) (hc : (compacted j p s).1 = none) :
    sglBuildPkt j p s = { rc := .dropped, pkt := p, s := eqDrop j p (compacted j p s).2 } := by
  unfold compacted at hc
  simp only [sglBuildPkt, if_neg hm, h, hc, compacted]

theorem sglBuildPkt_retried (h : (s.mapLoad p).1 = .tooMany) (hc : (compacted j p s).1 = some p') :
    sglBuildPkt j p s = sglRetry j p' (compacted j p s).2 := by
  unfold compacted at hc
  simp only [sglBuildPkt, if_neg hm, h, hc, compacted]

end answers

theorem sglRetry_mem (j : Nat) (p : Packet) (s : State) : (sglRetry j p s).s.mem = s.mem := by
  cases h : (s.mapLoad p).1 with
  | ok l => rw [sglRetry_loaded h]; rfl
  | tooMany => rw [sglRetry_tooMany h]; rfl
  | noResource => rw [sglRetry_noResource h]; rfl

/-- The building writes no memory: the SGL is placed by SGL_WRITE (R362). -/
theorem sglBuildPkt_mem (j : Nat) (p : Packet) (s : State) : (sglBuildPkt j p s).s.mem = s.mem := by
  by_cases hm : (s.eq j).mapAvail = 0
  · rw [sglBuildPkt_noPool hm]
  cases h : (s.mapLoad p).1 with
  | ok l => rw [sglBuildPkt_loaded hm h]; rfl
  | noResource => rw [sglBuildPkt_noResource hm h]; rfl
  | tooMany =>
    cases hc : (compacted j p s).1 with
    | none => rw [sglBuildPkt_uncompacted hm h hc]; rfl
    | some p' => rw [sglBuildPkt_retried hm h hc]; exact sglRetry_mem _ _ _

/-! ### SGL_BUILD (R362) -/

/-- SGL_BUILD with an empty register and no packet to take. -/
theorem exec_sglBuild_empty {q : Qid} {s s1 : State} (hst : (s.eq q.toNat).st = .run)
    (hv : (s.eq q.toNat).sgl.valid = false) (ht : takePacket q.toNat s = (none, s1)) :
    exec (.sglBuild q) s = .next (s1.finish .empty 0) := by
  show execSglBuild q s = _
  simp [execSglBuild, hst, hv, ht]

section build
variable {q : Qid} {s s1 : State} {m : Packet} (hst : (s.eq q.toNat).st = .run)
  (hv : (s.eq q.toNat).sgl.valid = false) (ht : takePacket q.toNat s = (some m, s1))
include hst hv ht

/-- What SGL_BUILD leaves unchanged, however the building ends. -/
theorem exec_sglBuild_frame : ∃ t, exec (.sglBuild q) s = .next t ∧ Untouched .eq q.toNat s t ∧ t.qmap = s.qmap ∧
    t.mem = s.mem := by
  obtain ⟨-, -, hmem, -⟩ := takePacket_spec q.toNat s
  have hframe := (untouched_eq q.toNat s).takePacket (Untouched.refl .eq q.toNat s)
  have hqmap := (qmap_eq q.toNat s.qmap).takePacket (s := s) rfl
  rw [ht] at hmem hframe hqmap
  replace hmem := (sglBuildPkt_mem q.toNat m s1).trans hmem
  replace hframe := (untouched_eq q.toNat s).sglBuildPkt hframe m
  replace hqmap := (qmap_eq q.toNat s.qmap).sglBuildPkt hqmap m
  obtain ⟨-, -, -, -, hrc | hrc | hrc⟩ := sglBuildPkt_cases q.toNat m s1
  · exact ⟨_, exec_sglBuild_ok hst hv ht hrc, hframe.finish _ _, hqmap, hmem⟩
  · exact ⟨_, exec_sglBuild_dropped hst hv ht hrc, hframe.finish _ _, hqmap, hmem⟩
  · exact ⟨_, exec_sglBuild_noMap hst hv ht hrc, ((untouched_eq q.toNat s).eqHold hframe _).finish _ _,
      (qmap_eq q.toNat s.qmap).eqHold hqmap (some (sglBuildPkt q.toNat m s1).pkt), hmem⟩

variable {p : Packet} {u t : State} (he : exec (.sglBuild q) s = .next t)
include he

/-- SGL_BUILD after a map was loaded for packet `p` in state `u`. -/
theorem sglBuild_loads {l : List Segment}
    (hb : sglBuildPkt q.toNat m s1 = { rc := .ok, pkt := p, s := sglLoad q.toNat p l u }) :
    t.res = { rc := .ok, value := BitVec.ofNat 32 (sglFlits l.length) } ∧
    t.eq q.toNat = { u.eq q.toNat with sgl := { valid := true, mapHeld := true, pkt := p, segs := l } } := by
  cases he.symm.trans (exec_sglBuild_ok hst hv ht (by rw [hb]))
  rw [hb, State.finish_res, State.finish_get_eq, sglLoad_eq]
  exact ⟨rfl, rfl⟩

/-- SGL_BUILD that has packet `p` in hand in state `u` and no map for it. -/
theorem sglBuild_keeps (hb : sglBuildPkt q.toNat m s1 = { rc := .noMap, pkt := p, s := u }) :
    t.res = { rc := .noMap, value := 0 } ∧ t.eq q.toNat = { u.eq q.toNat with held := some p } ∧ t.out = u.out := by
  cases he.symm.trans (exec_sglBuild_noMap hst hv ht (by rw [hb]))
  rw [hb]
  exact ⟨rfl, eqHold_eq _ _ _, rfl⟩

/-- SGL_BUILD that drops packet `p` in state `u`. -/
theorem sglBuild_drops (hb : sglBuildPkt q.toNat m s1 = { rc := .dropped, pkt := p, s := eqDrop q.toNat p u }) :
    t.res = { rc := .dropped, value := 0 } ∧ t.eq q.toNat =
      { u.eq q.toNat with stats := { (u.eq q.toNat).stats with drops := (u.eq q.toNat).stats.drops + 1 } } := by
  cases he.symm.trans (exec_sglBuild_dropped hst hv ht (by rw [hb]))
  rw [hb]
  exact ⟨rfl, eqDrop_eq _ _ _⟩

end build

/-- Settles O42: `sglBuildPkt` by the answers of HOST, and what SGL_BUILD makes of each of its three ends (`sglBuild_loads`,
`sglBuild_keeps`, `sglBuild_drops`). -/
theorem sglBuildFollowsHost : Obligations.SglBuildFollowsHost := by
  intro q s j e hst
  refine ⟨fun hv => ?full, fun s1 hv ht => exec_sglBuild_empty hst hv ht, fun p s1 hv ht => ?_⟩
  case full => exact refused_of_not (fun g => by rw [hv] at g; exact nomatch g.2) _ s
  have htaken := takePacket_spec j s
  rw [ht] at htaken
  obtain ⟨heq, hout, -⟩ := htaken
  obtain ⟨t, he, hframe, hqmap, hmem⟩ := exec_sglBuild_frame hst hv ht
  refine ⟨fun hm => ?noPool, fun hm => ⟨t, he, hframe, hqmap, hmem, ?_⟩⟩
  case noPool =>
    obtain ⟨hres, hrec, hto⟩ := sglBuild_keeps hst hv ht he (sglBuildPkt_noPool (by rw [heq]; exact hm))
    rw [heq] at hrec
    exact ⟨t, he, hres, hrec, hto.trans hout, hframe, hqmap, hmem⟩
  intro a c
  have hpool : (s1.eq j).mapAvail ≠ 0 := by
    rw [heq]
    exact Nat.one_le_iff_ne_zero.1 hm
  have hcompacted := compacted_eq j p s1
  rw [heq] at hcompacted
  refine ⟨fun l ha => ?loaded, fun ha => ?kept, fun ha hc => ?dropped, fun p' ha hc => ?compacted⟩
  case loaded =>
    have h := sglBuild_loads hst hv ht he (sglBuildPkt_loaded hpool ha)
    rwa [mapLoad_eq, heq] at h
  case kept =>
    obtain ⟨hres, hrec, -⟩ := sglBuild_keeps hst hv ht he (sglBuildPkt_noResource hpool ha)
    rw [mapLoad_eq, heq] at hrec
    exact ⟨hres, hrec⟩
  case dropped =>
    have h := sglBuild_drops hst hv ht he (sglBuildPkt_uncompacted hpool ha ((compacted_fst j p s1).trans hc))
    rwa [hcompacted] at h
  case compacted =>
    have hretry := compacted_mapLoad j p p' s1
    have hbuilt := sglBuildPkt_retried hpool ha ((compacted_fst j p s1).trans hc)
    refine ⟨fun l hr => ?retryLoaded, fun hr => ?retryKept, fun hr => ?retryDropped⟩
    case retryLoaded =>
      have h := sglBuild_loads hst hv ht he (hbuilt.trans (sglRetry_loaded (hretry.trans hr)))
      rwa [mapLoad_eq, hcompacted] at h
    case retryKept =>
      obtain ⟨hres, hrec, -⟩ := sglBuild_keeps hst hv ht he (hbuilt.trans (sglRetry_noResource (hretry.trans hr)))
      rw [mapLoad_eq, hcompacted] at hrec
      exact ⟨hres, hrec⟩
    case retryDropped =>
      have h := sglBuild_drops hst hv ht he (hbuilt.trans (sglRetry_tooMany (hretry.trans hr)))
      rwa [mapLoad_eq, hcompacted] at h

/-! ### SGL_WRITE (R365, R366) -/

/-- The guard of SGL_WRITE on a running queue (R365). -/
theorem sglWriteOk_iff {e : EQ} {f : Nat} (hst : e.st = .run) : sglWriteOk e f = true ↔
    e.batch.accepting = false ∧ e.sgl.valid = true ∧ f % 2 = 0 ∧ f < 8 * e.cap ∧
      (f + 8 * e.cap - 8 * e.pidx) % (8 * e.cap) + e.sgl.padded ≤ 8 * e.avail := by
  simp only [sglWriteOk, inFreeRegion, hst, Bool.and_eq_true, Bool.not_eq_true', decide_eq_true_eq, and_assoc, true_and]
  exact Iff.rfl

theorem exec_sglWrite {q : Qid} {f : BitVec 32} {s : State} (h : sglWriteOk (s.eq q.toNat) f.toNat = true) :
    exec (.sglWrite q f) s =
      .next ((wflits q.toNat f.toNat (sglWritten (s.eq q.toNat).sgl.segs) s).finish .ok (s.eq q.toNat).sgl.padded) :=
  congrArg Host.Outcome.next (if_pos h)

/-- Settles O43: the guard is `sglWriteOk_iff`; the free region is smaller than the ring, so the flits are written by
`wflits_ringWritten`. -/
theorem sglWriteStaysInFreeRegion : Obligations.SglWriteStaysInFreeRegion := by
  intro q f s j e n ok hst
  refine ⟨fun hok hlaw hfit hne => ?written, fun hno => refused_of_not (fun g => hno ((sglWriteOk_iff hst).1 g)) _ s⟩
  have hroom : n ≤ 8 * e.cap := by
    obtain ⟨-, -, -, -, hfree⟩ := hok
    have := hlaw.avail_le
    omega
  exact ⟨_, exec_sglWrite ((sglWriteOk_iff hst).2 hok), rfl,
    wflits_ringWritten j f.toNat _ s hfit ((sglWritten_length hne).trans_le hroom), wflits_eq _ _ _ _ _,
    ((untouched_eq j s).wflits (Untouched.refl _ _ _) _ _).finish _ _, (qmap_eq j s.qmap).wflits rfl _ _⟩

end Sys2Proof.Machine
end

section
/-! PROOFS. 46_coalesce.md: the budgets of a batch (R390, R395), TXPKTS_ADD (R391) and TXPKTS_FLUSH (R396). -/

namespace Sys2Proof.Machine

/-! ### The budgets, from step to step (R390, R395) -/

/-- Settles O51: every step keeps the credit law and the budgets of every EQ together (`step_eqAll`). -/
theorem stepKeepsBatchBudgets : Obligations.StepKeepsBatchBudgets := by
  intro s t hlaw hbatch h
  have hall : EqAll s := (eqAll_iff s).2 ⟨hlaw, hbatch⟩
  exact ((eqAll_iff t).1 (step_eqAll hall h)).2

/-! ### The batch a packet is offered to (R391) -/

theorem batchBase_nflits (e : EQ) : (batchBase e).nflits = if e.batch.accepting then e.batch.nflits else 2 :=
  apply_ite Batch.nflits _ _ _

theorem batchBase_plen (e : EQ) : (batchBase e).plen = if e.batch.accepting then e.batch.plen else 0 :=
  apply_ite Batch.plen _ _ _

theorem batchBase_cursor (e : EQ) : (batchBase e).cur = if e.batch.accepting then e.batch.cur else 8 * e.pidx + 2 :=
  apply_ite Batch.cur _ _ _

/-- The accumulator after acceptance, by the accumulator before it: a closed one is empty (R390). -/
theorem batchJoined_eq {c : Config} {e : EQ} (h : BatchLaw c e) : batchJoined e =
    { accepting := true
      npkt := e.batch.npkt + 1
      nflits := (if e.batch.accepting then e.batch.nflits else 2) + partFlits e.sgl.segs
      plen := (if e.batch.accepting then e.batch.plen else 0) + e.sgl.pkt.len.toNat
      cur := ((if e.batch.accepting then e.batch.cur else 8 * e.pidx + 2) + partFlits e.sgl.segs) % (8 * e.cap)
      nmaps := e.batch.nmaps + 1 } := by
  obtain ⟨-, -, -, hnmaps, hnpkt⟩ := batchBase_cur h
  rw [← batchBase_nflits, ← batchBase_plen, ← batchBase_cursor, ← hnmaps, ← hnpkt]
  rfl

/-! ### TXPKTS_ADD (R391) -/

theorem exec_txpktsAdd_accepted {q : Qid} {s : State} (hst : (s.eq q.toNat).st = .run)
    (hv : (s.eq q.toNat).sgl.valid = true) (h : batchAccepts s.cfg (s.eq q.toNat) = true) :
    exec (.txpktsAdd q) s =
      .next ((txpktsJoin q.toNat s).finish .ok ((txpktsJoin q.toNat s).eq q.toNat).batch.npkt) := by
  have hadd : txpktsAdd q.toNat s = (true, txpktsJoin q.toNat s) := if_pos h
  rw [exec_txpktsAdd hst hv, hadd]
  rfl

theorem exec_txpktsAdd_rejected {q : Qid} {s : State} (hst : (s.eq q.toNat).st = .run)
    (hv : (s.eq q.toNat).sgl.valid = true) (h : ¬ batchAccepts s.cfg (s.eq q.toNat) = true) :
    exec (.txpktsAdd q) s = .next { s with res := { rc := .reject, value := 0 } } := by
  have hadd : txpktsAdd q.toNat s = (false, s) := if_neg h
  rw [exec_txpktsAdd hst hv, hadd]
  rfl

/-- The part of an accepted packet fits the ring, so it is written whole (R281, R391). -/
theorem txpktsJoin_ringWritten {j : Nat} {s : State} (hlaw : (s.eq j).Law) (hfit : (s.eq j).ringFits)
    (hne : (s.eq j).sgl.segs ≠ []) (h : batchAccepts s.cfg (s.eq j) = true) :
    RingWritten (s.eq j) (batchBase (s.eq j)).cur (partWr (s.eq j).sgl.pkt (s.eq j).sgl.segs) s (txpktsJoin j s) := by
  obtain ⟨-, -, hcredit, -⟩ := (batchAccepts_iff _ _).1 h
  have hroom := hlaw.fits hcredit
  have hpart := wflits_ringWritten j (batchBase (s.eq j)).cur (partWr (s.eq j).sgl.pkt (s.eq j).sgl.segs) s hfit
    (by rw [partWr_length _ hne]; omega)
  exact hpart.of_mem rfl (txpktsJoin_mem j s) rfl rfl

/-- Settles O44: the budgets are those of `batchAccepts_iff`; an accepted packet leaves the record of `txpktsJoin_eq` and the
flits of `txpktsJoin_ringWritten`. -/
theorem txpktsAddChecksBudgets : Obligations.TxpktsAddChecksBudgets := by
  intro q s j e p b part new len c fits hst
  have hfits : batchAccepts s.cfg e = true ↔ fits := by
    rw [batchAccepts_iff, batchBase_nflits, batchBase_plen]
    exact Iff.rfl
  refine ⟨fun hv => ?empty, fun hok hv hne hlaw hbatch hfit => ?accepted, fun hno hv => ?rejected⟩
  case empty => exact refused_of_not (fun ⟨_, hv'⟩ => by rw [hv] at hv'; cases hv') _ s
  case rejected => exact exec_txpktsAdd_rejected hst hv (mt hfits.1 hno)
  case accepted =>
    have hacc := hfits.2 hok
    have hrec := txpktsJoin_eq j s
    rw [batchJoined_eq hbatch] at hrec
    have hring := txpktsJoin_ringWritten hlaw hfit hne hacc
    rw [batchBase_cursor] at hring
    refine ⟨_, exec_txpktsAdd_accepted hst hv hacc, ?_, hring.of_mem rfl (State.finish_mem _ _ _) rfl rfl,
      (State.finish_get_eq _ _ _ _).trans hrec, ((untouched_eq j s).txpktsJoin (Untouched.refl _ _ _)).finish _ _,
      (State.finish_qmap _ _ _).trans ((qmap_eq j s.qmap).txpktsJoin rfl)⟩
    rw [State.finish_res, hrec]

/-! ### TXPKTS_FLUSH (R396) -/

theorem exec_txpktsFlush {q : Qid} {s : State} (hst : (s.eq q.toNat).st = .run) :
    exec (.txpktsFlush q) s = .next ((txpktsFlush q.toNat s).2.finish .ok (txpktsFlush q.toNat s).1) :=
  congrArg Host.Outcome.next (if_pos hst)

theorem txpktsFlush_idle {j : Nat} {s : State} (h : (s.eq j).batch.accepting = false) : txpktsFlush j s = (0, s) :=
  if_neg (by simp [h])

theorem txpktsFlush_npkt {j : Nat} {s : State} (h : (s.eq j).batch.accepting = true) :
    (txpktsFlush j s).1 = (s.eq j).batch.npkt := by
  unfold txpktsFlush
  dsimp only
  rw [if_pos h]

/-- Settles O45: the header is two flits at the producer index (`txpktsFlush_mem`), the record is that of
`txpktsFlush_eq`. -/
theorem txpktsFlushCommitsBatch : Obligations.TxpktsFlushCommitsBatch := by
  intro q s j e b n hst hlaw hbatch hfit
  refine ⟨fun hidle => ?idle, fun hopen => ?flushed⟩
  case idle => rw [exec_txpktsFlush hst, txpktsFlush_idle hidle]; rfl
  case flushed =>
    have hcap := hlaw.cap_min
    have hring := wflits_ringWritten j (8 * e.pidx) (batchHdr b) s hfit (show 2 ≤ 8 * e.cap by omega)
    refine ⟨_, Config.freeCur s.draws, exec_txpktsFlush hst, ?_, hring.of_mem rfl (txpktsFlush_mem j s hopen) rfl rfl,
      txpktsFlush_eq j s hopen, ((untouched_eq j s).txpktsFlush (Untouched.refl _ _ _)).finish _ _,
      (qmap_eq j s.qmap).txpktsFlush rfl⟩
    rw [State.finish_res, txpktsFlush_npkt hopen]

end Sys2Proof.Machine
end

section
/-! PROOFS. 47_lifecycle.md, from step to step: the queue map (R431), the dependencies (R422) and the ring memory (R102), and
which command changes the state of a queue (R431, R61). -/

namespace Sys2Proof.Machine

/-! ### The queue map (R431) -/

/-- No action of HOST or PEER writes `QMAP`, a state or a context id. -/
theorem EnvStep.qmapInv {s t : State} (he : EnvStep s t) (h : QmapInv s) : QmapInv t :=
  h.congr (fun x => congrArg (fun m => Tab.find m x) he.qmap) (fun ty k => by rw [he.qst]) fun ty k _ => he.ctxId ty k

/-- A block without memory for any queue has an empty map (R600). -/
theorem blockReset_qmapInv (s : State) : QmapInv s.blockReset := by
  intro id ty k
  have hst : s.blockReset.qst ty k = .uninit := by cases ty <;> rfl
  rw [hst]
  exact ⟨fun h => (nomatch h), fun h => (nomatch h.1)⟩

/-- Settles O59: every command keeps the map by `exec_qmapInv`, a reset empties it with every queue, and no other event touches
it. -/
theorem stepKeepsQueueMap : Obligations.StepKeepsQueueMap := by
  intro s t hs h
  refine step_keeps (P := QmapInv) ?command ?refused ?taken ?reset ?environment hs h
  case command => exact fun _ _ _ _ hu _ he => exec_qmapInv hu he
  case refused => exact fun _ _ hu => hu
  case taken => exact fun _ _ hu => hu
  case reset => exact fun u _ => blockReset_qmapInv u
  case environment => exact fun _ _ he hu => he.qmapInv hu

/-! ### The dependencies and the ring memory (R422, R102) -/

/-- An action of HOST or PEER writes `svc_req` of an IQ and no other field of a record, so no link of the dependencies. -/
theorem EnvStep.links {s t : State} (he : EnvStep s t) : SameLinks s t where
  iq k := by
    obtain ⟨b, hb⟩ := he.iq k
    rw [hb]
    exact ⟨rfl, rfl, rfl, rfl⟩
  fl k := by rw [he.fl]
  eq k := by rw [he.eq]

theorem EnvStep.depInv {s t : State} (he : EnvStep s t) (h : DepInv s) : DepInv t := by
  have hiq : ∀ k, (t.iq k).st = (s.iq k).st := he.qst .iq
  refine h.moves he.links (fun ty k => by rw [he.qst]) (fun k hk => .inl (by rw [hiq]; exact hk)) fun i hi hr => ?_
  obtain ⟨f, hf, hrun⟩ := h.rx_run i (hiq i ▸ hi) hr
  exact ⟨f, hf, by rw [he.fl]; exact hrun⟩

/-- After a reset no queue has memory, so nothing depends on anything (R600). -/
theorem blockReset_depInv (s : State) : DepInv s.blockReset where
  fl_owner _ h := absurd rfl h
  iq_fl _ _ h := absurd rfl h
  rx_run _ h := nomatch h
  eq_iq _ h := absurd rfl h
  iq_fwd _ h := absurd rfl h

theorem blockReset_apart (s : State) : BlocksApart s.blockReset := by
  intro ty _ _ _ _ h
  cases ty <;> exact absurd rfl h

/-- Settles O60: every command keeps the dependencies by `exec_depInv` and the blocks apart by `exec_apart`, a reset leaves no
queue with memory, and an action of HOST or PEER moves neither links nor blocks. -/
theorem stepKeepsDependencies : Obligations.StepKeepsDependencies := by
  intro s t h
  refine ⟨fun hs => ?dependencies, fun hs => ?blocks⟩
  case dependencies =>
    refine step_keeps (P := DepInv) ?command ?refused ?taken ?reset ?environment hs h
    case command => exact fun _ _ _ _ hu _ he => exec_depInv hu he
    case refused => exact fun _ _ hu => hu.finish _ _
    case taken => exact fun _ _ hu => ⟨hu.fl_owner, hu.iq_fl, hu.rx_run, hu.eq_iq, hu.iq_fwd⟩
    case reset => exact fun u _ => blockReset_depInv u
    case environment => exact fun _ _ he hu => he.depInv hu
  case blocks =>
    refine step_keeps (P := BlocksApart) ?command ?refused ?taken ?reset ?environment hs h
    case command => exact fun _ _ _ _ hu _ he => exec_apart hu he
    case refused => exact fun _ _ hu => hu
    case taken => exact fun _ _ hu => hu
    case reset => exact fun u _ => blockReset_apart u
    case environment => exact fun _ _ he hu => he.apart hu

/-! ### The transitions (R431, R61) -/

/-- Settles O58: `exec_moves` says of every command which state it can change and how. -/
theorem lifecycleTransitions : Obligations.LifecycleTransitions := fun _ _ _ ty j he hne =>
  (exec_moves he ty j).resolve_left hne

end Sys2Proof.Machine
end

section
/-! PROOFS. 47_lifecycle.md: the handshake (R420, R421) and the allocations (R424, R425, R426). -/

namespace Sys2Proof.Machine

/-! ### The handshake (R420, R421) -/

section handshake
variable {t : QType} {j : Nat} {r : PeerReq} {s : State}

/-- What a handshake records: the request, and the log of a refusal. -/
def shakes (t : QType) (j : Nat) (r : PeerReq) : PeerAnswer → List Effect
  | .ok _ => [.peerCmd r]
  | .err c => [.peerCmd r, .log r t j c]

theorem handshake_ok {id : BitVec 17} (h : (s.peerCmd r).1 = .ok id) : handshake t j r s = (.ok id, (s.peerCmd r).2) := by
  unfold handshake
  dsimp only
  rw [h]

theorem handshake_err {c : BitVec 32} (h : (s.peerCmd r).1 = .err c) :
    handshake t j r s = (.err c, (s.peerCmd r).2.emit (.log r t j c)) := by
  unfold handshake
  dsimp only
  rw [h]

theorem handshake_fst (t : QType) (j : Nat) (r : PeerReq) (s : State) : (handshake t j r s).1 = (s.peerCmd r).1 := by
  cases h : (s.peerCmd r).1 with
  | ok id => rw [handshake_ok h]
  | err c => rw [handshake_err h]

theorem handshake_out (t : QType) (j : Nat) (r : PeerReq) (s : State) :
    (handshake t j r s).2.out = s.out ++ shakes t j r (s.peerCmd r).1 := by
  cases h : (s.peerCmd r).1 with
  | ok id => rw [handshake_ok h]; rfl
  | err c => rw [handshake_err h]; exact List.append_assoc _ _ _

end handshake

/-- The result of a command that PEER refused carries PEER's code (R421). -/
theorem finish_cmdFail_res (s : State) (c : BitVec 32) : (s.finish .cmdFail c.toNat).res = { rc := .cmdFail, value := c } := by
  rw [State.finish_res, BitVec.ofNat_toNat, BitVec.setWidth_eq]

theorem lookup_congr {s t : State} (h : t.qmap = s.qmap) (x : Nat) : t.lookup x = s.lookup x := congrArg (Tab.find · x) h

/-! ### The end of an allocation -/

/-- The context id of an IQ or a free list is the answer cut to 16 bits (R420, log entry 3). -/
theorem ctxIdFor_narrow {t : QType} (ht : t ≠ .eq) (id0 : BitVec 17) : (ctxIdFor t id0).toNat = (id0.setWidth 16).toNat := by
  cases t with
  | iq | fl => exact BitVec.toNat_setWidth_of_le (by omega)
  | eq => exact absurd rfl ht

theorem ctxIdFor_setWidth {t : QType} (ht : t ≠ .eq) (id0 : BitVec 17) (n : Nat) :
    (ctxIdFor t id0).setWidth n = (id0.setWidth 16).setWidth n :=
  BitVec.eq_of_toNat_eq (by rw [BitVec.toNat_setWidth, BitVec.toNat_setWidth, ctxIdFor_narrow ht])

section allocEnd
variable {t : QType} {j : Nat} {r : PeerReq} {s : State} {id0 : BitVec 17}

theorem allocEnd_err {c : BitVec 32} (h : (s.peerCmd r).1 = .err c) :
    allocEnd t j r s = ((s.peerCmd r).2.emit (.log r t j c)).finish .cmdFail c.toNat := by
  unfold allocEnd
  rw [handshake_err h]

theorem allocEnd_reused (h : (s.peerCmd r).1 = .ok id0) (hid : (s.lookup (ctxIdFor t id0).toNat).isSome) :
    allocEnd t j r s = ((s.peerCmd r).2.emit (.log r t j 0)).finish .cmdFail 0 := by
  unfold allocEnd
  rw [handshake_ok h]
  exact if_pos hid

theorem allocEnd_fresh (h : (s.peerCmd r).1 = .ok id0) (hid : s.lookup (ctxIdFor t id0).toNat = none) :
    allocEnd t j r s = (register t j (ctxIdFor t id0) (s.peerCmd r).2).finish .ok (ctxIdFor t id0).toNat := by
  unfold allocEnd
  rw [handshake_ok h]
  exact if_neg (by rw [show (s.peerCmd r).2.lookup _ = none from hid]; simp)

/-- The three ends of an allocation: PEER refused, PEER's id is in use, or the queue is registered. -/
theorem allocEnd_ends (t : QType) (r : PeerReq) (s : State) :
    (∃ c, (s.peerCmd r).1 = .err c) ∨
    ∃ id0, (s.peerCmd r).1 = .ok id0 ∧ ((s.lookup (ctxIdFor t id0).toNat).isSome ∨ s.lookup (ctxIdFor t id0).toNat = none) := by
  cases h : (s.peerCmd r).1 with
  | err c => exact .inl ⟨c, rfl⟩
  | ok id0 =>
    refine .inr ⟨id0, rfl, ?_⟩
    cases s.lookup (ctxIdFor t id0).toNat <;> simp

/-- What an allocation records after its request: the log of a refusal or of a reused id (R421, log entry 30). -/
def allocLogs (t : QType) (j : Nat) (r : PeerReq) (s : State) : List Effect :=
  match (s.peerCmd r).1 with
  | .err c => [.log r t j c]
  | .ok id0 => if (s.lookup (ctxIdFor t id0).toNat).isSome then [.log r t j 0] else []

/-- No end of an allocation writes memory or touches another queue, and it records its request and its log. -/
theorem allocEnd_frame (t : QType) (j : Nat) (r : PeerReq) (s : State) : Untouched t j s (allocEnd t j r s) ∧
    (allocEnd t j r s).mem = s.mem ∧ (allocEnd t j r s).out = s.out ++ .peerCmd r :: allocLogs t j r s := by
  have hcall := (peerCmd_calls s r).untouched rfl t j
  have hlog := fun c => (OnlyCalls.emit (s.peerCmd r).2 (.log r t j c)).untouched rfl t j
  obtain ⟨c, h⟩ | ⟨id0, h, hid | hid⟩ := allocEnd_ends t r s
  · rw [allocEnd_err h, allocLogs, h]
    exact ⟨(hcall.trans (hlog c)).finish _ _, rfl, List.append_assoc _ _ _⟩
  · rw [allocEnd_reused h hid, allocLogs, h]
    refine ⟨(hcall.trans (hlog 0)).finish _ _, rfl, ?_⟩
    dsimp only
    rw [if_pos hid]
    exact List.append_assoc _ _ _
  · rw [allocEnd_fresh h hid, allocLogs, h]
    refine ⟨(hcall.trans (register_frame t j _ _)).finish _ _, ?_, ?_⟩
    · cases t <;> rfl
    · dsimp only
      rw [hid]
      cases t <;> rfl

/-- A failed allocation on `s`: its result and its log carry `c`, and every record and `QMAP` are as they were (R421). -/
structure AllocFailed (t : QType) (j : Nat) (r : PeerReq) (s u : State) (c : BitVec 32) : Prop where
  res  : u.res = { rc := .cmdFail, value := c }
  iq   : ∀ k, u.iq k = s.iq k
  fl   : ∀ k, u.fl k = s.fl k
  eq   : ∀ k, u.eq k = s.eq k
  qmap : u.qmap = s.qmap
  logs : allocLogs t j r s = [.log r t j c]

theorem allocEnd_err_failed {c : BitVec 32} (h : (s.peerCmd r).1 = .err c) :
    AllocFailed t j r s (allocEnd t j r s) c := by
  rw [allocEnd_err h]
  refine ⟨finish_cmdFail_res _ c, fun _ => rfl, fun _ => rfl, fun _ => rfl, rfl, ?_⟩
  rw [allocLogs, h]

theorem allocEnd_reused_failed (h : (s.peerCmd r).1 = .ok id0) (hid : (s.lookup (ctxIdFor t id0).toNat).isSome) :
    AllocFailed t j r s (allocEnd t j r s) 0 := by
  rw [allocEnd_reused h hid]
  refine ⟨rfl, fun _ => rfl, fun _ => rfl, fun _ => rfl, rfl, ?_⟩
  rw [allocLogs, h]
  exact if_pos hid

/-- An allocation on `s` that PEER answered with an unused id: the id is the result and leads to the queue, no log. -/
structure AllocRegistered (t : QType) (j : Nat) (r : PeerReq) (s u : State) (id : BitVec 17) : Prop where
  res    : u.res = { rc := .ok, value := id.setWidth 32 }
  iq     : t = .iq → u.iq j = { s.iq j with cntxtId := id.setWidth 16, st := .reg }
  fl     : t = .fl → u.fl j = { s.fl j with cntxtId := id.setWidth 16, st := .reg }
  eq     : t = .eq → u.eq j = { s.eq j with cntxtId := id, st := .reg }
  lookup : ∀ x, u.lookup x = if x = id.toNat then some { type := t, index := j } else s.lookup x
  logs   : allocLogs t j r s = []

theorem allocEnd_registered (h : (s.peerCmd r).1 = .ok id0) (hid : s.lookup (ctxIdFor t id0).toNat = none) :
    AllocRegistered t j r s (allocEnd t j r s) (ctxIdFor t id0) := by
  rw [allocEnd_fresh h hid]
  refine ⟨?res, ?iq, ?fl, ?eq, fun x => ?lookup, ?logs⟩
  case res => rw [State.finish_res, BitVec.ofNat_toNat]
  case iq => rintro rfl; exact (register_iq _ _ _ _).trans (if_pos rfl)
  case fl => rintro rfl; exact (register_fl _ _ _ _).trans (if_pos rfl)
  case eq => rintro rfl; exact (register_eq _ _ _ _).trans (if_pos rfl)
  case lookup =>
    refine (register_lookup _ _ _ _ _).trans ?_
    simp only [eq_comm]
    rfl
  case logs =>
    rw [allocLogs, h]
    exact if_neg (by rw [hid]; simp)

end allocEnd

/-! ### The state an allocation hands to its handshake -/

theorem dmaAlloc_out (s : State) (n e : Nat) : (s.dmaAlloc n e).2.out = s.out ++ [.dmaAlloc n] := rfl

/-- From `s` an allocation made the calls to HOST that lead to `w`, zero-filled the block at `base` (R101) and wrote its
records, which gave `v`: PEER's next answer is that of `w`. -/
structure RingHanded (s w v : State) (base : Addr) (n : Nat) : Prop where
  qmap : v.qmap = s.qmap
  mem  : ∀ x, Memory.get v.mem x = if base.toNat ≤ x ∧ x < base.toNat + n then 0 else Memory.get s.mem x
  out  : v.out = w.out ++ [.zeroFill base n]
  peer : ∀ r, (v.peerCmd r).1 = (w.peerCmd r).1

section handed
variable {s w : State} (h : OnlyCalls s w) (hsrc : w.host.src = s.host.src) (base : Addr) (n j : Nat)
include h

theorem OnlyCalls.zeroFill_handed : RingHanded s w (w.zeroFill base n) base n where
  qmap := h.qmap
  mem x := by rw [← h.mem]; exact Memory.get_zero _ _ _ _
  out := rfl
  peer _ := rfl

theorem OnlyCalls.setIq_handed (q : IQ) : RingHanded s w ((w.zeroFill base n).setIq j q) base n :=
  have hz := h.zeroFill_handed base n
  ⟨hz.qmap, hz.mem, hz.out, hz.peer⟩

theorem OnlyCalls.setFl_setIq_handed (f : FL) (o : Nat) (q : IQ) :
    RingHanded s w (((w.zeroFill base n).setFl j f).setIq o q) base n :=
  have hz := h.zeroFill_handed base n
  ⟨hz.qmap, hz.mem, hz.out, hz.peer⟩

theorem OnlyCalls.setEq_handed (e : EQ) : RingHanded s w ((w.zeroFill base n).setEq j e) base n :=
  have hz := h.zeroFill_handed base n
  ⟨hz.qmap, hz.mem, hz.out, hz.peer⟩

include hsrc

theorem OnlyCalls.zeroFill_untouched (ty : QType) : Untouched ty j s (w.zeroFill base n) :=
  (h.untouched hsrc ty j).trans ⟨rfl, fun _ _ => rfl, fun _ _ => rfl, fun _ _ => rfl, fun _ _ => rfl, fun _ _ => rfl,
    fun _ _ => rfl, fun _ _ => rfl, rfl, rfl⟩

theorem OnlyCalls.setIq_untouched (q : IQ) : Untouched .iq j s ((w.zeroFill base n).setIq j q) :=
  (h.zeroFill_untouched hsrc base n j .iq).trans
    ⟨rfl, fun _ hk => State.setIq_ne _ q (hk.resolve_left (by simp)), fun _ _ => rfl, fun _ _ => rfl, fun _ _ => rfl,
      fun _ _ => rfl, fun _ _ => rfl, fun _ _ => rfl, rfl, rfl⟩

theorem OnlyCalls.setEq_untouched (e : EQ) : Untouched .eq j s ((w.zeroFill base n).setEq j e) :=
  (h.zeroFill_untouched hsrc base n j .eq).trans
    ⟨rfl, fun _ _ => rfl, fun _ _ => rfl, fun _ hk => State.setEq_ne _ e (hk.resolve_left (by simp)), fun _ _ => rfl,
      fun _ _ => rfl, fun _ _ => rfl, fun _ _ => rfl, rfl, rfl⟩

end handed

/-! ### Q_ALLOC_IQ (R424) -/

theorem fwdOk_iff {fwd : Bool} {tgt : Qid} {s : State} : fwdOk fwd tgt s = true ↔
    (fwd = true → (s.iq tgt.toNat).role = .intrFwd ∧ ((s.iq tgt.toNat).st = .reg ∨ (s.iq tgt.toNat).st = .run)) := by
  cases fwd <;> simp [fwdOk, registered_iff]

section allocIq
variable {q : Qid} {role : Role} {tmr pktc : BitVec 3} {esize : ESize} {fwd : Bool} {capM1 : BitVec 16} {tgt : Qid} {s : State}

theorem exec_qAllocIq_noBuf (hst : (s.iq q.toNat).st = .uninit) (hok : fwdOk fwd tgt s = true)
    (h : (s.dmaAlloc ((capM1.toNat + 1) * esize.bytes) esize.bytes).1 = none) :
    exec (.qAllocIq q role tmr pktc esize fwd capM1 tgt) s =
      .next ((s.dmaAlloc ((capM1.toNat + 1) * esize.bytes) esize.bytes).2.finish .noBuf 0) := by
  refine congrArg Host.Outcome.next ((if_pos ⟨hst, hok⟩).trans ?_)
  dsimp only
  rw [h]

/-- The handshake names the target by its id; the queue's own write before it leaves that id as it was. -/
theorem intrTarget_freshIq {u : State} (hu : ∀ k, u.iq k = s.iq k) (base : Addr) (cap e : Nat) :
    intrTarget fwd tgt (u.setIq q.toNat (freshIq s.cfg (s.iq q.toNat) base cap e role tmr pktc fwd tgt)) =
      intrTarget fwd tgt s := by
  unfold intrTarget
  rw [State.setIq_get, hu]
  split
  · split
    · rename_i hj; rw [← hj]; rfl
    · rfl
  · rfl

theorem exec_qAllocIq_placed (hst : (s.iq q.toNat).st = .uninit) (hok : fwdOk fwd tgt s = true) {base : Addr}
    (h : (s.dmaAlloc ((capM1.toNat + 1) * esize.bytes) esize.bytes).1 = some base) :
    ∃ v, exec (.qAllocIq q role tmr pktc esize fwd capM1 tgt) s = .next (allocEnd .iq q.toNat
        (.allocIq base (capM1.toNat + 1) esize.bytes role fwd (intrTarget fwd tgt s) tmr pktc) v) ∧
      v.iq q.toNat = freshIq s.cfg (s.iq q.toNat) base (capM1.toNat + 1) esize.bytes role tmr pktc fwd tgt ∧
      Untouched .iq q.toNat s v ∧ RingHanded s (s.dmaAlloc ((capM1.toNat + 1) * esize.bytes) esize.bytes).2 v base
        ((capM1.toNat + 1) * esize.bytes) := by
  have hcall := dmaAlloc_calls s ((capM1.toNat + 1) * esize.bytes) esize.bytes
  refine ⟨_, congrArg Host.Outcome.next ((if_pos ⟨hst, hok⟩).trans ?_), State.setIq_same _ _ _,
    hcall.setIq_untouched rfl base _ _ _, hcall.setIq_handed base _ _ _⟩
  dsimp only
  rw [h]
  exact congrArg (fun x => allocEnd .iq q.toNat (.allocIq base (capM1.toNat + 1) esize.bytes role fwd x tmr pktc) _)
    (intrTarget_freshIq (fun _ => rfl) _ _ _)

end allocIq

/-- Settles O52: the queue is refused by its guard, left alone without memory, and otherwise placed (`dmaAlloc_placed`),
zero-filled and registered or not as `allocEnd` goes. -/
theorem qAllocIqRegisters : Obligations.QAllocIqRegisters := by
  intro q role tmr pktc esize fwd capM1 tgt s i j cap d target hst
  refine ⟨fun hno => refused_of_not (fun hg => hno (fwdOk_iff.1 hg.2)) _ s, fun hok hnone => ?noMemory,
    fun base hok hbase => ?placed⟩
  case noMemory =>
    exact ⟨_, exec_qAllocIq_noBuf hst (fwdOk_iff.2 hok) hnone, rfl, rfl,
      ((dmaAlloc_calls s _ _).untouched rfl _ _).finish _ _, rfl, rfl⟩
  case placed =>
    intro rq a fresh
    obtain ⟨v, hexec, hrec, hplaced, hv⟩ := exec_qAllocIq_placed (role := role) (tmr := tmr) (pktc := pktc) hst
      (fwdOk_iff.2 hok) hbase
    obtain ⟨hframe, hmem, hout⟩ := allocEnd_frame .iq j rq v
    refine ⟨dmaAlloc_placed hbase, allocEnd .iq j rq v, allocLogs .iq j rq v, hexec, hplaced.trans hframe,
      fun x => (congrArg (Memory.get · x) hmem).trans (hv.mem x), ?out, fun c hc => ?err, fun id0 hid => ?ok⟩
    case out =>
      rw [hout, hv.out, dmaAlloc_out, List.append_assoc, List.append_assoc, List.append_assoc]
      rfl
    case err =>
      have f : AllocFailed .iq j rq v _ c := allocEnd_err_failed ((hv.peer rq).trans hc)
      exact ⟨f.res, (f.iq j).trans hrec, f.qmap.trans hv.qmap, f.logs⟩
    case ok =>
      intro id
      have hlook : v.lookup (ctxIdFor .iq id0).toNat = s.lookup id.toNat := by
        rw [ctxIdFor_narrow (by simp), lookup_congr hv.qmap]
      refine ⟨fun hused => ?reused, fun hfree => ?registered⟩
      case reused =>
        have f : AllocFailed .iq j rq v _ 0 := allocEnd_reused_failed ((hv.peer rq).trans hid) (hlook ▸ hused)
        exact ⟨f.res, (f.iq j).trans hrec, f.qmap.trans hv.qmap, f.logs⟩
      case registered =>
        have g : AllocRegistered .iq j rq v _ _ := allocEnd_registered ((hv.peer rq).trans hid) (hlook.trans hfree)
        refine ⟨?_, ?_, g.logs, fun x => ?_⟩
        · rw [g.res, ctxIdFor_setWidth (by simp)]
        · rw [g.iq rfl, hrec, ctxIdFor_setWidth (by simp), BitVec.setWidth_eq]
          rfl
        · rw [g.lookup, ctxIdFor_narrow (by simp), lookup_congr hv.qmap]

/-! ### Q_ALLOC_FL (R425) -/

theorem ownerOk_iff {o : Nat} {s : State} : ownerOk o s = true ↔
    (s.iq o).role = .rx ∧ ((s.iq o).st = .mem ∨ (s.iq o).st = .reg) ∧ (s.iq o).fl = none := by
  simp [ownerOk, and_assoc]

section allocFl
variable {q : Qid} {capM1 : BitVec 16} {iq : Qid} {s : State}
variable (hst : (s.fl q.toNat).st = .uninit) (hok : ownerOk iq.toNat s = true)
include hst hok

theorem exec_qAllocFl_noBuf (h : (s.dmaAlloc ((capM1.toNat + 1) * 8) 8).1 = none) :
    exec (.qAllocFl q capM1 iq) s = .next ((s.dmaAlloc ((capM1.toNat + 1) * 8) 8).2.finish .noBuf 0) := by
  refine congrArg Host.Outcome.next ((if_pos ⟨hst, hok⟩).trans ?_)
  dsimp only [Config.flEsize]
  rw [h]

theorem exec_qAllocFl_placed {base : Addr} (h : (s.dmaAlloc ((capM1.toNat + 1) * 8) 8).1 = some base) :
    ∃ v, exec (.qAllocFl q capM1 iq) s = .next (allocEnd .fl q.toNat (.allocFl base (capM1.toNat + 1) iq.toNat) v) ∧
      (∀ k, v.iq k = if iq.toNat = k then { s.iq iq.toNat with fl := some q.toNat } else s.iq k) ∧
      (∀ k, v.fl k = if q.toNat = k then freshFl (s.fl q.toNat) base (capM1.toNat + 1) iq.toNat else s.fl k) ∧
      (∀ k, v.eq k = s.eq k) ∧ v.fault = s.fault ∧
      RingHanded s (s.dmaAlloc ((capM1.toNat + 1) * 8) 8).2 v base ((capM1.toNat + 1) * 8) := by
  refine ⟨(((s.dmaAlloc ((capM1.toNat + 1) * 8) 8).2.zeroFill base ((capM1.toNat + 1) * 8)).setFl q.toNat
      (freshFl (s.fl q.toNat) base (capM1.toNat + 1) iq.toNat)).setIq iq.toNat { s.iq iq.toNat with fl := some q.toNat },
    congrArg Host.Outcome.next ((if_pos ⟨hst, hok⟩).trans ?_), fun k => State.setIq_get _ _ _ k,
    fun k => State.setFl_get _ _ _ k, fun _ => rfl, rfl, (dmaAlloc_calls s _ _).setFl_setIq_handed _ _ _ _ _ _⟩
  dsimp only [Config.flEsize]
  rw [h]
  rfl

end allocFl

/-- Settles O53: as for an IQ; the owner's record is written before the handshake, so it points at the list in `MEM` too. -/
theorem qAllocFlRegisters : Obligations.QAllocFlRegisters := by
  intro q capM1 iq s j o cap d owner hst
  refine ⟨fun hno => refused_of_not (fun hg => hno (ownerOk_iff.1 hg.2)) _ s, fun hok hnone => ?noMemory,
    fun base hok hbase => ?placed⟩
  case noMemory =>
    exact ⟨_, exec_qAllocFl_noBuf hst (ownerOk_iff.2 hok) hnone, rfl, rfl,
      ((dmaAlloc_calls s _ _).untouched rfl _ _).finish _ _, rfl, rfl⟩
  case placed =>
    intro a fresh
    let rq : PeerReq := .allocFl base cap o
    obtain ⟨v, hexec, hiq, hfl, heq, hfault, hv⟩ := exec_qAllocFl_placed hst (ownerOk_iff.2 hok) hbase
    obtain ⟨hframe, hmem, -⟩ := allocEnd_frame .fl j rq v
    have hiqs : ∀ k, (allocEnd .fl j rq v).iq k = if o = k then { s.iq o with fl := some j } else s.iq k := fun k =>
      (hframe.iqs k (.inl (by simp))).trans (hiq k)
    have hrec : v.fl j = fresh := (hfl j).trans (if_pos rfl)
    refine ⟨dmaAlloc_placed hbase, allocEnd .fl j rq v, hexec, (hiqs o).trans (if_pos rfl),
      fun k hk => (hiqs k).trans (if_neg (Ne.symm hk)),
      fun k hk => (hframe.fls k (.inr hk)).trans ((hfl k).trans (if_neg (Ne.symm hk))),
      fun k => (hframe.eqs k (.inl (by simp))).trans (heq k), hframe.fault.trans hfault,
      fun x => (congrArg (Memory.get · x) hmem).trans (hv.mem x), fun c hc => ?err, fun id0 hid => ?ok⟩
    case err =>
      have f : AllocFailed .fl j rq v _ c := allocEnd_err_failed ((hv.peer rq).trans hc)
      exact ⟨f.res, (f.fl j).trans hrec, f.qmap.trans hv.qmap⟩
    case ok =>
      intro id
      have hlook : v.lookup (ctxIdFor .fl id0).toNat = s.lookup id.toNat := by
        rw [ctxIdFor_narrow (by simp), lookup_congr hv.qmap]
      refine ⟨fun hused => ?reused, fun hfree => ?registered⟩
      case reused =>
        have f : AllocFailed .fl j rq v _ 0 := allocEnd_reused_failed ((hv.peer rq).trans hid) (hlook ▸ hused)
        exact ⟨f.res, (f.fl j).trans hrec, f.qmap.trans hv.qmap⟩
      case registered =>
        have g : AllocRegistered .fl j rq v _ _ := allocEnd_registered ((hv.peer rq).trans hid) (hlook.trans hfree)
        refine ⟨?_, ?_, fun x => ?_⟩
        · rw [g.res, ctxIdFor_setWidth (by simp)]
        · rw [g.fl rfl, hrec, ctxIdFor_setWidth (by simp), BitVec.setWidth_eq]
        · rw [g.lookup, ctxIdFor_narrow (by simp), lookup_congr hv.qmap]

/-! ### Q_ALLOC_EQ (R426) -/

theorem notifyOk_iff {i : Nat} {s : State} : notifyOk i s = true ↔
    ((s.iq i).role = .fwEvt ∨ (s.iq i).role = .rx) ∧ ((s.iq i).st = .reg ∨ (s.iq i).st = .run) := by
  simp [notifyOk, registered_iff]

/-- The map pool of a queue is larger than its ring, and twice the ring by default (R10). -/
theorem txMapsFor_spec (c : Config) (j cap : Nat) (h : 1 ≤ cap) :
    cap < txMapsFor c j cap ∧ (Tab.find c.txMaps j = none → txMapsFor c j cap = 2 * cap) := by
  unfold txMapsFor
  cases Tab.find c.txMaps j with
  | none => exact ⟨show cap < 2 * cap by omega, fun _ => rfl⟩
  | some m =>
    refine ⟨?_, fun h => nomatch h⟩
    dsimp only
    split <;> omega

section allocEq
variable {q : Qid} {capM1 : BitVec 16} {iq : Qid} {s : State}
variable (hst : (s.eq q.toNat).st = .uninit) (hok : notifyOk iq.toNat s = true)
include hst hok

theorem exec_qAllocEq_noBuf (h : (s.dmaAlloc ((capM1.toNat + 1) * 64 + 64) 64).1 = none) :
    exec (.qAllocEq q capM1 iq) s = .next ((s.dmaAlloc ((capM1.toNat + 1) * 64 + 64) 64).2.finish .noBuf 0) := by
  refine congrArg Host.Outcome.next ((if_pos ⟨hst, hok⟩).trans ?_)
  dsimp only [Config.eqEsize, Config.statusBytes]
  rw [h]

theorem exec_qAllocEq_placed {base : Addr} (h : (s.dmaAlloc ((capM1.toNat + 1) * 64 + 64) 64).1 = some base) :
    ∃ v, exec (.qAllocEq q capM1 iq) s = .next (allocEnd .eq q.toNat
        (.allocEq base (capM1.toNat + 1) (base + BitVec.ofNat 64 ((capM1.toNat + 1) * 64)) (s.iq iq.toNat).cntxtId) v) ∧
      v.eq q.toNat = freshEq (s.eq q.toNat) base (capM1.toNat + 1) iq.toNat (txMapsFor s.cfg q.toNat (capM1.toNat + 1))
        (s.dmaAlloc ((capM1.toNat + 1) * 64 + 64) 64).2.freshCur.1 ∧
      Untouched .eq q.toNat s v ∧ RingHanded s (s.dmaAlloc ((capM1.toNat + 1) * 64 + 64) 64).2.freshCur.2 v base
        ((capM1.toNat + 1) * 64 + 64) := by
  have hcall := (dmaAlloc_calls s ((capM1.toNat + 1) * 64 + 64) 64).trans (freshCur_calls _)
  refine ⟨_, congrArg Host.Outcome.next ((if_pos ⟨hst, hok⟩).trans ?_), State.setEq_same _ _ _,
    hcall.setEq_untouched rfl base _ _ _, hcall.setEq_handed base _ _ _⟩
  dsimp only [Config.eqEsize, Config.statusBytes]
  rw [h]
  dsimp only
  rw [State.setEq_same]
  rfl

end allocEq

/-- Settles O54: as for an IQ; the batch cursor is the free value drawn before the handshake. -/
theorem qAllocEqRegisters : Obligations.QAllocEqRegisters := by
  intro q capM1 iq s j i cap n d notify hst
  refine ⟨fun hno => refused_of_not (fun hg => hno (notifyOk_iff.1 hg.2)) _ s, fun hok hnone => ?noMemory,
    fun base hok hbase => ?placed⟩
  case noMemory =>
    exact ⟨_, exec_qAllocEq_noBuf hst (notifyOk_iff.2 hok) hnone, rfl, rfl,
      ((dmaAlloc_calls s _ _).untouched rfl _ _).finish _ _, rfl, rfl⟩
  case placed =>
    intro a
    let rq : PeerReq := .allocEq base cap (base + BitVec.ofNat 64 (cap * 64)) (s.iq i).cntxtId
    obtain ⟨v, hexec, hrec, hplaced, hv⟩ := exec_qAllocEq_placed hst (notifyOk_iff.2 hok) hbase
    obtain ⟨hframe, hmem, -⟩ := allocEnd_frame .eq j rq v
    obtain ⟨hpool, hdefault⟩ := txMapsFor_spec s.cfg j cap (Nat.le_add_left 1 _)
    refine ⟨dmaAlloc_placed hbase, allocEnd .eq j rq v, txMapsFor s.cfg j cap, d.2.freshCur.1, hexec, hplaced.trans hframe,
      hpool, hdefault, fun x => (congrArg (Memory.get · x) hmem).trans (hv.mem x), fun c hc => ?err,
      fun id hid => ⟨fun hused => ?reused, fun hfree => ?registered⟩⟩
    case err =>
      have f : AllocFailed .eq j rq v _ c := allocEnd_err_failed ((hv.peer rq).trans hc)
      exact ⟨f.res, (f.eq j).trans hrec, f.qmap.trans hv.qmap⟩
    case reused =>
      have f : AllocFailed .eq j rq v _ 0 := allocEnd_reused_failed ((hv.peer rq).trans hid)
        (lookup_congr hv.qmap id.toNat ▸ hused)
      exact ⟨f.res, (f.eq j).trans hrec, f.qmap.trans hv.qmap⟩
    case registered =>
      have g : AllocRegistered .eq j rq v _ id := allocEnd_registered ((hv.peer rq).trans hid)
        ((lookup_congr hv.qmap _).trans hfree)
      refine ⟨g.res, ?_, fun x => ?_⟩
      · rw [g.eq rfl, hrec]
        rfl
      · rw [g.lookup, lookup_congr hv.qmap]

end Sys2Proof.Machine
end

section
/-! PROOFS. 47_lifecycle.md: the dependency checks (R422), and Q_START (R427), Q_STOP (R429) and Q_FREE (R430). -/

namespace Sys2Proof.Machine

/-! ### The dependency checks (R422) -/

theorem canStart_iff {t : QType} {j : Nat} {s : State} : canStart t j s = true ↔
    (t = .iq → (s.iq j).role = .rx → ∃ f, (s.iq j).fl = some f ∧ (s.fl f).st = .run) := by
  cases t with
  | fl | eq => simp [canStart]
  | iq => cases hr : (s.iq j).role <;> cases hf : (s.iq j).fl <;> simp [canStart, hr, hf]

theorem canStop_iff {t : QType} {j : Nat} {s : State} : canStop t j s = true ↔
    (t = .fl → (s.iq (s.fl j).owner).st ≠ .run) := by
  cases t <;> simp [canStop]

theorem canFree_iff {t : QType} {j : Nat} {s : State} : canFree t j s = true ↔
    (t = .fl → (s.iq (s.fl j).owner).st ≠ .run) ∧
    (t = .iq → (∀ f, (s.fl f).st ≠ .uninit → (s.fl f).owner ≠ j) ∧ (∀ e, (s.eq e).st ≠ .uninit → (s.eq e).iq ≠ j) ∧
      ∀ i, (s.iq i).st ≠ .uninit → (s.iq i).fwd = true → (s.iq i).tgt.toNat ≠ j) := by
  cases t with
  | iq => simp only [canFree, Bool.and_eq_true, noFlDepends_iff, noEqDepends_iff, noIqDepends_iff, and_assoc,
      reduceCtorEq, false_implies, true_and, true_implies]
  | fl | eq => simp [canFree]

/-- A queue that others depend on is not freed. -/
theorem not_canFree {t : QType} {j : Nat} {s : State} (h : (t = .fl ∧ (s.iq (s.fl j).owner).st = .run) ∨
      (t = .iq ∧ ((∃ f, (s.fl f).st ≠ .uninit ∧ (s.fl f).owner = j) ∨ (∃ e, (s.eq e).st ≠ .uninit ∧ (s.eq e).iq = j) ∨
        ∃ i, (s.iq i).st ≠ .uninit ∧ (s.iq i).fwd = true ∧ (s.iq i).tgt.toNat = j))) : ¬ canFree t j s = true := by
  rw [canFree_iff]
  rintro ⟨howner, hfree⟩
  obtain ⟨ht, hrun⟩ | ⟨ht, hdep⟩ := h
  · exact howner ht hrun
  · obtain ⟨hfl, heq, hiq⟩ := hfree ht
    obtain ⟨f, hst, hf⟩ | ⟨e, hst, he⟩ | ⟨i, hst, hfwd, hi⟩ := hdep
    · exact hfl f hst hf
    · exact heq e hst he
    · exact hiq i hst hfwd hi

/-! ### A refused handshake (R421) -/

/-- How a command ends when PEER answers its request with an error, outside a teardown (R421). -/
def declined (t : QType) (j : Nat) (r : PeerReq) (c : BitVec 32) (s : State) : State :=
  ((s.peerCmd r).2.emit (.log r t j c)).finish .cmdFail c.toNat

theorem declined_res (t : QType) (j : Nat) (r : PeerReq) (c : BitVec 32) (s : State) :
    (declined t j r c s).res = { rc := .cmdFail, value := c } := finish_cmdFail_res _ c

theorem declined_out (t : QType) (j : Nat) (r : PeerReq) (c : BitVec 32) (s : State) :
    (declined t j r c s).out = s.out ++ [.peerCmd r, .log r t j c] := List.append_assoc _ _ _

theorem declined_untouched (t : QType) (j : Nat) (r : PeerReq) (c : BitVec 32) (s : State) :
    Untouched t j s (declined t j r c s) :=
  (((peerCmd_calls s r).untouched rfl t j).trans ((OnlyCalls.emit _ _).untouched rfl t j)).finish _ _

theorem peerCmd_untouched (s : State) (r : PeerReq) (t : QType) (j : Nat) : Untouched t j s (s.peerCmd r).2 :=
  (peerCmd_calls s r).untouched rfl t j

theorem peerCmd_out (s : State) (r : PeerReq) : (s.peerCmd r).2.out = s.out ++ [.peerCmd r] := rfl

/-! ### A change of state (R61) -/

theorem setSt_untouched (s : State) (t : QType) (j : Nat) (st : QState) : Untouched t j s (s.setSt t j st) := by
  cases t with
  | iq => exact ⟨rfl, fun _ hk => State.setIq_ne _ _ (hk.resolve_left (by simp)), fun _ _ => rfl, fun _ _ => rfl,
      fun _ _ => rfl, fun _ _ => rfl, fun _ _ => rfl, fun _ _ => rfl, rfl, rfl⟩
  | fl => exact ⟨rfl, fun _ _ => rfl, fun _ hk => State.setFl_ne _ _ (hk.resolve_left (by simp)), fun _ _ => rfl,
      fun _ _ => rfl, fun _ _ => rfl, fun _ _ => rfl, fun _ _ => rfl, rfl, rfl⟩
  | eq => exact ⟨rfl, fun _ _ => rfl, fun _ _ => rfl, fun _ hk => State.setEq_ne _ _ (hk.resolve_left (by simp)),
      fun _ _ => rfl, fun _ _ => rfl, fun _ _ => rfl, fun _ _ => rfl, rfl, rfl⟩

@[simp] theorem setSt_qmap (s : State) (t : QType) (j : Nat) (st : QState) : (s.setSt t j st).qmap = s.qmap := by
  cases t <;> rfl
@[simp] theorem setSt_mem (s : State) (t : QType) (j : Nat) (st : QState) : (s.setSt t j st).mem = s.mem := by
  cases t <;> rfl
@[simp] theorem setSt_out (s : State) (t : QType) (j : Nat) (st : QState) : (s.setSt t j st).out = s.out := by
  cases t <;> rfl

/-! ### Q_START (R427) -/

theorem started_untouched (t : QType) (j : Nat) (s : State) : Untouched t j s (started t j s).2 := by
  cases t with
  | iq => exact creditReturn_frame j s
  | fl => exact (untouched_fl j s).flDoorbell ((untouched_fl j s).flRefill (Untouched.refl _ _ _) _) _
  | eq => exact Untouched.refl _ _ _

/-- After the change of state a free list is refilled with all it needs, and everything pending is published (R243, R255). -/
theorem started_fl {j : Nat} {s v : State} (hv : OnlyCalls s v) : started .fl j (v.setSt .fl j .run) =
    ((flRefill j (s.fl j).needed (v.setFl j { s.fl j with st := .run })).1.2,
      (flDoorbell j true (flRefill j (s.fl j).needed (v.setFl j { s.fl j with st := .run })).2).2) := by
  have hw : v.setSt .fl j .run = v.setFl j { s.fl j with st := .run } := by rw [← hv.fl]; rfl
  rw [hw]
  unfold started
  dsimp only
  rw [State.setFl_same]

section start
variable {q : Qid} {t : QType} {s : State} (hst : s.qst t q.toNat = .reg) (hs : canStart t q.toNat s = true)
include hst hs

theorem exec_qStart_err {c : BitVec 32} (h : (s.peerCmd (.start t (s.ctxId t q.toNat))).1 = .err c) :
    exec (.qStart q t) s = .next (declined t q.toNat (.start t (s.ctxId t q.toNat)) c s) := by
  refine congrArg Host.Outcome.next ((if_pos ⟨hst, hs⟩).trans ?_)
  dsimp only
  rw [handshake_err h]
  rfl

theorem exec_qStart_ok {id : BitVec 17} (h : (s.peerCmd (.start t (s.ctxId t q.toNat))).1 = .ok id) :
    exec (.qStart q t) s = .next
      ((started t q.toNat ((s.peerCmd (.start t (s.ctxId t q.toNat))).2.setSt t q.toNat .run)).2.finish .ok
        (started t q.toNat ((s.peerCmd (.start t (s.ctxId t q.toNat))).2.setSt t q.toNat .run)).1) := by
  refine congrArg Host.Outcome.next ((if_pos ⟨hst, hs⟩).trans ?_)
  dsimp only
  rw [handshake_ok h]

end start

/-- Settles O55: a refusal is `declined`; after an agreement `started` is the credit return, the refill with its forced doorbell,
or nothing. -/
theorem qStartRunsQueue : Obligations.QStartRunsQueue := by
  intro q t s j rq a hst
  refine ⟨fun ht hr hfl => refused_of_not (fun hg => ?refused) _ s, fun hdep => ?checked⟩
  case refused =>
    obtain ⟨f, hf, hrun⟩ := canStart_iff.1 hg.2 ht hr
    exact hfl f hf hrun
  case checked =>
    have hs := canStart_iff.2 hdep
    cases ha : a.1 with
    | err c =>
      refine ⟨_, exec_qStart_err hst hs ha, rfl, rfl, fun c' hc => ?_, fun _ hid => (nomatch hid)⟩
      cases hc
      exact ⟨hst, declined_res _ _ _ _ _, rfl, declined_out _ _ _ _ _⟩
    | ok id =>
      have hcall : OnlyCalls s a.2 := peerCmd_calls s rq
      have hout : a.2.out = s.out ++ [.peerCmd rq] := rfl
      have hframe := ((peerCmd_untouched s rq t j).trans (setSt_untouched a.2 t j .run)).trans (started_untouched t j _)
      have hfixed := started_sameFixed t j (a.2.setSt t j .run)
      refine ⟨_, exec_qStart_ok hst hs ha, ?qmap, hframe.fault, fun c hc => (nomatch hc),
        fun _ _ => ⟨?iq, ?fl, ?eq⟩⟩
      case qmap => exact hfixed.qmap.trans ((setSt_qmap _ _ _ _).trans hcall.qmap)
      case iq =>
        rintro rfl
        refine ⟨?_, rfl, hcall.mem, hframe.finish _ _, ?_⟩
        · show (creditReturn j (a.2.setIq j _)).iq j = _
          rw [creditReturn_iq_same, State.setIq_same, hcall.iq]
        · show (creditReturn j (a.2.setIq j _)).out = _
          rw [creditReturn_out, State.setIq_same, hcall.iq, State.setIq_out, hout, List.append_assoc]
          rfl
      case fl =>
        rintro rfl r
        have hrun := hfixed.qst .fl j
        rw [setSt_qst, if_pos ⟨rfl, rfl⟩] at hrun
        have hu : started .fl j (a.2.setSt .fl j .run) = (r.1.2, (flDoorbell j true r.2).2) := started_fl hcall
        clear_value r
        rw [hu] at hframe hrun ⊢
        exact ⟨hframe.finish _ _, rfl, (flDoorbell_fl j true r.2).2, hrun, rfl⟩
      case eq =>
        rintro rfl
        refine ⟨?_, rfl, hcall.mem, hframe.finish _ _, hout⟩
        show (a.2.setEq j _).eq j = _
        rw [State.setEq_same, hcall.eqr]

/-! ### What a stopped EQ gives back (R429) -/

/-- The newest maps of the pool are those of `ps`, the newest first. -/
def EQ.Newest (e : EQ) (ps : List Packet) : Prop :=
  ∀ i, i < ps.length → Tab.find e.maps ((e.mapPidx + e.txMaps - 1 - i) % e.txMaps) = ps[i]?

/-- The maps of the open batch are in use, so they name the packets they were taken for (R343). -/
theorem EQ.Law.exists_newest {e : EQ} (h : e.Law) : ∃ ps, ps.length = e.batch.nmaps ∧ e.Newest ps := by
  have hp := h.mpidx_lt
  have hused : e.batch.nmaps ≤ e.txMaps - e.mapAvail := by
    obtain ⟨m, _, hm⟩ := h.tiled
    omega
  have hmap : ∀ i, i < e.batch.nmaps → ∃ p, Tab.find e.maps ((e.mapPidx + e.txMaps - 1 - i) % e.txMaps) = some p :=
    fun i hi => by
      refine Option.isSome_iff_exists.1 ((h.loaded _).2 ⟨Nat.mod_lt _ (by omega), ?_⟩)
      have hplace : (e.mapPidx + e.txMaps - 1 - i) % e.txMaps = (e.mapCidx + (e.txMaps - e.mapAvail - 1 - i)) % e.txMaps := by
        rw [show e.mapPidx + e.txMaps - 1 - i = e.mapPidx + (e.txMaps - 1 - i) by omega, h.mpidx_eq, Nat.mod_add_mod,
          show e.mapCidx + (e.txMaps - e.mapAvail) + (e.txMaps - 1 - i) =
            e.mapCidx + (e.txMaps - e.mapAvail - 1 - i) + e.txMaps by omega, Nat.add_mod_right]
      rw [hplace, subMod_add h.mcidx_lt (by omega)]
      omega
  choose f hf using hmap
  refine ⟨List.ofFn fun i : Fin e.batch.nmaps => f i i.2, List.length_ofFn, fun i hi => ?_⟩
  rw [List.length_ofFn] at hi
  rw [hf i hi, List.getElem?_ofFn, dif_pos hi]

theorem discardMap_out {j : Nat} {s : State} {p : Packet}
    (h : Tab.find (s.eq j).maps (((s.eq j).mapPidx + (s.eq j).txMaps - 1) % (s.eq j).txMaps) = some p) :
    (discardMap j s).out = s.out ++ giveBack p := by
  unfold discardMap
  dsimp only
  rw [h]
  exact List.append_assoc s.out [_] [_]

/-- Behind the newest map come those that are the newest once it left. -/
theorem discardMap_newest {j : Nat} {s : State} {p : Packet} {ps : List Packet} (hm : (s.eq j).mapPidx < (s.eq j).txMaps)
    (hl : (p :: ps).length ≤ (s.eq j).txMaps) (hp : (s.eq j).Newest (p :: ps)) : ((discardMap j s).eq j).Newest ps := by
  intro i hi
  rw [List.length_cons] at hl
  have hnext := hp (i + 1) (Nat.succ_lt_succ hi)
  rw [discardMap_eq]
  generalize s.eq j = e at *
  show Tab.find (Tab.del _ _) (((e.mapPidx + e.txMaps - 1) % e.txMaps + e.txMaps - 1 - i) % e.txMaps) = _
  have hplace : ((e.mapPidx + e.txMaps - 1) % e.txMaps + e.txMaps - 1 - i) % e.txMaps =
      (e.mapPidx + e.txMaps - 1 - (i + 1)) % e.txMaps := by
    rw [show (e.mapPidx + e.txMaps - 1) % e.txMaps + e.txMaps - 1 - i =
      (e.mapPidx + e.txMaps - 1) % e.txMaps + (e.txMaps - 1 - i) by omega, Nat.mod_add_mod,
      show e.mapPidx + e.txMaps - 1 + (e.txMaps - 1 - i) = e.mapPidx + e.txMaps - 1 - (i + 1) + e.txMaps by omega,
      Nat.add_mod_right]
  rw [hplace, Tab.find_del, hnext, List.getElem?_cons_succ, if_neg]
  intro hsame
  have hzero := add_mod_inj (b := (e.mapPidx + e.txMaps - 1 - (i + 1)) % e.txMaps) (i := 0) (k := i + 1)
    (Nat.mod_lt _ (by omega)) (by omega) (by omega)
    (by rw [Nat.add_zero, Nat.mod_mod, Nat.mod_add_mod, hsame]; congr 1; omega)
  omega

theorem discardMaps_out {j : Nat} {ps : List Packet} {s : State} (hm : (s.eq j).mapPidx < (s.eq j).txMaps)
    (hl : ps.length ≤ (s.eq j).txMaps) (hp : (s.eq j).Newest ps) :
    (discardMaps j ps.length s).out = s.out ++ ps.flatMap giveBack := by
  induction ps generalizing s with
  | nil => exact (List.append_nil _).symm
  | cons p ps ih =>
    have hfirst := hp 0 (Nat.succ_pos _)
    rw [Nat.sub_zero] at hfirst
    show (discardMaps j ps.length (discardMap j s)).out = _
    rw [ih (by rw [discardMap_eq]; exact Nat.mod_lt _ (Nat.zero_lt_of_lt hm))
      (by rw [discardMap_eq]; exact Nat.le_of_succ_le hl) (discardMap_newest hm hl hp), discardMap_out hfirst,
      List.flatMap_cons, List.append_assoc]

theorem discardSgl_out {j : Nat} {s : State} (hmap : (s.eq j).sgl.valid = true → (s.eq j).sgl.mapHeld = true) :
    (discardSgl j s).out = s.out ++ if (s.eq j).sgl.valid then giveBack (s.eq j).sgl.pkt else [] := by
  unfold discardSgl
  cases hv : (s.eq j).sgl.valid with
  | false => exact (List.append_nil _).symm
  | true =>
    rw [if_pos rfl, if_pos rfl]
    unfold sglRelease
    dsimp only
    rw [if_pos (hmap hv)]
    exact List.append_assoc s.out [_] [_]

theorem discardHeld_out (j : Nat) (s : State) :
    (discardHeld j s).out = s.out ++ (s.eq j).held.toList.map fun p => .release (.pkt p) := by
  unfold discardHeld
  cases (s.eq j).held with
  | none => exact (List.append_nil _).symm
  | some p => rfl

/-- What `discard_tx` gives back: the open batch, the packet of the SGL register and the held one, in this order. -/
theorem discardTx_out {j : Nat} {s : State} (h : (s.eq j).Law) {ps : List Packet} (hl : ps.length = (s.eq j).batch.nmaps)
    (hp : (s.eq j).Newest ps) : (discardTx j s).out = s.out ++ ps.flatMap giveBack ++
      (if (s.eq j).sgl.valid then giveBack (s.eq j).sgl.pkt else []) ++
      (s.eq j).held.toList.map fun p => .release (.pkt p) := by
  have hbatch : (discardBatch j s).out = s.out ++ ps.flatMap giveBack := by
    show (discardMaps j (s.eq j).batch.nmaps s).out = _
    rw [← hl]
    exact discardMaps_out h.mpidx_lt (hl ▸ h.nmaps_le) hp
  have hrec := discardBatch_eq h
  have hsgl : ((discardBatch j s).eq j).sgl = (s.eq j).sgl := by rw [hrec]
  have hheld : ((discardSgl j (discardBatch j s)).eq j).held = (s.eq j).held := by
    rw [discardSgl_eq, hrec]
    split <;> rfl
  show (discardHeld j (discardSgl j (discardBatch j s))).out = _
  rw [discardHeld_out, discardSgl_out (by rw [hsgl]; exact fun hv => (h.sg_map hv).1), hbatch, hsgl, hheld]

/-- From `s` to `t` only records of EQs and the recorded actions changed. -/
structure OnlyEgress (s t : State) : Prop where
  eq : ∃ es o, t = { s with eqs := es, out := o }

theorem OnlyEgress.refl (s : State) : OnlyEgress s s := ⟨s.eqs, s.out, rfl⟩

theorem OnlyEgress.trans {s t u : State} (h : OnlyEgress s t) (h' : OnlyEgress t u) : OnlyEgress s u := by
  obtain ⟨es, o, rfl⟩ := h.eq
  obtain ⟨es', o', rfl⟩ := h'.eq
  exact ⟨es', o', rfl⟩

theorem OnlyEgress.mem {s t : State} (h : OnlyEgress s t) : t.mem = s.mem := by
  obtain ⟨_, _, rfl⟩ := h.eq
  rfl

/-- PEER's next answer does not depend on what was discarded. -/
theorem OnlyEgress.peerCmd {s t : State} (h : OnlyEgress s t) (r : PeerReq) : (t.peerCmd r).1 = (s.peerCmd r).1 := by
  obtain ⟨_, _, rfl⟩ := h.eq
  rfl

theorem discardMap_onlyEgress (j : Nat) (s : State) : OnlyEgress s (discardMap j s) := by
  unfold discardMap
  dsimp only
  split <;> exact ⟨_, _, rfl⟩

theorem discardMaps_onlyEgress (j n : Nat) (s : State) : OnlyEgress s (discardMaps j n s) := by
  induction n generalizing s with
  | zero => exact OnlyEgress.refl s
  | succ n ih => exact (discardMap_onlyEgress j s).trans (ih _)

theorem discardSgl_onlyEgress (j : Nat) (s : State) : OnlyEgress s (discardSgl j s) := by
  unfold discardSgl sglRelease
  dsimp only
  split
  · split <;> exact ⟨_, _, rfl⟩
  · exact OnlyEgress.refl s

theorem discardHeld_onlyEgress (j : Nat) (s : State) : OnlyEgress s (discardHeld j s) := by
  unfold discardHeld
  split
  · exact OnlyEgress.refl s
  · exact ⟨_, _, rfl⟩

theorem discardTx_onlyEgress (j : Nat) (s : State) : OnlyEgress s (discardTx j s) := by
  have hbatch : OnlyEgress s (discardBatch j s) := (discardMaps_onlyEgress j _ s).trans ⟨_, _, rfl⟩
  exact ((hbatch.trans (discardSgl_onlyEgress j _)).trans (discardHeld_onlyEgress j _)).trans ⟨_, _, rfl⟩

theorem discardFor_onlyEgress (t : QType) (j : Nat) (s : State) : OnlyEgress s (discardFor t j s) := by
  cases t with
  | iq | fl => exact OnlyEgress.refl s
  | eq => exact discardTx_onlyEgress j s

/-! ### Q_STOP (R429) -/

section stop
variable {q : Qid} {t : QType} {s : State} (hst : s.qst t q.toNat = .run) (hs : canStop t q.toNat s = true)
include hst hs

theorem exec_qStop_err {c : BitVec 32} (h : (s.peerCmd (.stop t (s.ctxId t q.toNat))).1 = .err c) :
    exec (.qStop q t) s = .next (declined t q.toNat (.stop t (s.ctxId t q.toNat)) c s) := by
  refine congrArg Host.Outcome.next ((if_pos ⟨hst, hs⟩).trans ?_)
  dsimp only
  rw [handshake_err h]
  rfl

theorem exec_qStop_ok {id : BitVec 17} (h : (s.peerCmd (.stop t (s.ctxId t q.toNat))).1 = .ok id) :
    exec (.qStop q t) s = .next ((discardFor t q.toNat
      ((s.peerCmd (.stop t (s.ctxId t q.toNat))).2.setSt t q.toNat .reg)).finish .ok 0) := by
  refine congrArg Host.Outcome.next ((if_pos ⟨hst, hs⟩).trans ?_)
  dsimp only
  rw [handshake_ok h]

end stop

/-! ### Q_FREE (R430) -/

section free
variable {q : Qid} {t : QType} {s : State} (hst : s.qst t q.toNat = .reg) (hs : canFree t q.toNat s = true)
include hst hs

theorem exec_qFree_err {c : BitVec 32} (h : (s.peerCmd (.free t (s.ctxId t q.toNat))).1 = .err c) :
    exec (.qFree q t) s = .next (declined t q.toNat (.free t (s.ctxId t q.toNat)) c s) := by
  refine congrArg Host.Outcome.next ((if_pos ⟨hst, hs⟩).trans ?_)
  dsimp only
  rw [handshake_err h]
  rfl

theorem exec_qFree_ok {id : BitVec 17} (h : (s.peerCmd (.free t (s.ctxId t q.toNat))).1 = .ok id) :
    exec (.qFree q t) s = .next ((((s.peerCmd (.free t (s.ctxId t q.toNat))).2.setQmap
      (Tab.del s.qmap (s.ctxId t q.toNat).toNat)).setSt t q.toNat .mem).finish .ok 0) := by
  refine congrArg Host.Outcome.next ((if_pos ⟨hst, hs⟩).trans ?_)
  dsimp only
  rw [handshake_ok h]
  rfl

end free

/-- The record of an EQ that PEER agreed to stop, before it is discarded. -/
theorem stopping_eq {j : Nat} {s v : State} (hv : OnlyCalls s v) : (v.setSt .eq j .reg).eq j = { s.eq j with st := .reg } := by
  show (v.setEq j _).eq j = _
  rw [State.setEq_same, hv.eqr]

/-- `discard_tx` leaves the SGL register empty. -/
theorem released_valid (r : SglReg) : (if r.valid then { r with mapHeld := false, valid := false } else r).valid = false := by
  cases hv : r.valid with
  | true => rfl
  | false => exact hv

/-- Settles O56: a refusal is `declined`; an agreed stop is a change of state and, for an EQ, `discard_tx` (`discardTx_eq`,
`discardTx_out`); an agreed free takes the id out of the map. -/
theorem qStopAndQFreeStepDown : Obligations.QStopAndQFreeStepDown := by
  constructor
  · intro q t s j rq hst
    refine ⟨fun ht hrun => refused_of_not (fun hg => canStop_iff.1 hg.2 ht hrun) _ s, fun hdep => ?_⟩
    have hs := canStop_iff.2 hdep
    have hcall : OnlyCalls s (s.peerCmd rq).2 := peerCmd_calls s rq
    have hout : (s.peerCmd rq).2.out = s.out ++ [.peerCmd rq] := peerCmd_out s rq
    cases ha : (s.peerCmd rq).1 with
    | err c =>
      refine ⟨_, exec_qStop_err hst hs ha, declined_untouched _ _ _ _ _, rfl, rfl, fun c' hc => ?_, fun _ hid => (nomatch hid)⟩
      cases hc
      exact ⟨declined_res _ _ _ _ _, declined_out _ _ _ _ _, rfl, rfl, rfl⟩
    | ok id =>
      obtain ⟨hdiscard, hqmap⟩ := discardFor_frame t j ((s.peerCmd rq).2.setSt t j .reg)
      have hframe := ((peerCmd_untouched s rq t j).trans (setSt_untouched _ t j .reg)).trans hdiscard
      have hmem := (discardFor_onlyEgress t j ((s.peerCmd rq).2.setSt t j .reg)).mem
      refine ⟨_, exec_qStop_ok hst hs ha, hframe.finish _ _, hqmap.trans ((setSt_qmap _ _ _ _).trans hcall.qmap),
        hmem.trans ((setSt_mem _ _ _ _).trans hcall.mem), fun c hc => (nomatch hc), fun _ _ => ⟨rfl, ?iq, ?fl, ?eq⟩⟩
      case iq =>
        rintro rfl
        refine ⟨?_, hout⟩
        show ((s.peerCmd rq).2.setIq j _).iq j = _
        rw [State.setIq_same, hcall.iq]
      case fl =>
        rintro rfl
        refine ⟨?_, hout⟩
        show ((s.peerCmd rq).2.setFl j _).fl j = _
        rw [State.setFl_same, hcall.fl]
      case eq =>
        rintro rfl hlaw e
        obtain ⟨ps, hlen, hnew⟩ := hlaw.exists_newest
        have hrec : ((s.peerCmd rq).2.setSt .eq j .reg).eq j = { e with st := .reg } := stopping_eq hcall
        have hwout : ((s.peerCmd rq).2.setSt .eq j .reg).out = s.out ++ [.peerCmd rq] := hout
        clear hframe hqmap hmem hdiscard
        generalize (s.peerCmd rq).2.setSt .eq j .reg = w at hrec hwout ⊢
        have hwlaw : (w.eq j).Law := by rw [hrec]; exact hlaw.same rfl hlaw.sg_map
        have hgone : ((discardFor .eq j w).finish .ok 0).eq j = _ := discardTx_eq hwlaw
        rw [hrec] at hgone
        refine ⟨⟨ps, hlen, hnew, ?_⟩, ?_, ?_, (discardTx_ok hwlaw).1⟩
        · refine (discardTx_out hwlaw (by rw [hrec]; exact hlen) (by rw [hrec]; exact hnew)).trans ?_
          rw [hwout, hrec, List.append_assoc s.out]
          rfl
        · rw [hgone]
        · rw [hgone]
          exact released_valid e.sgl
  · intro q t s j rq hst
    refine ⟨fun hdep => refused_of_not (fun hg => not_canFree hdep hg.2) _ s, fun howner hnone => ?_⟩
    have hs : canFree t j s = true := canFree_iff.2 ⟨howner, hnone⟩
    have hcall : OnlyCalls s (s.peerCmd rq).2 := peerCmd_calls s rq
    cases ha : (s.peerCmd rq).1 with
    | err c =>
      refine ⟨_, exec_qFree_err hst hs ha, declined_untouched _ _ _ _ _, rfl, fun c' hc => ?_, fun _ hid => (nomatch hid)⟩
      cases hc
      exact ⟨declined_res _ _ _ _ _, rfl, rfl, rfl, rfl⟩
    | ok id =>
      let v := (s.peerCmd rq).2.setQmap (Tab.del s.qmap (s.ctxId t j).toNat)
      have hmapped : Untouched t j s v := (peerCmd_untouched s rq t j).trans
        ⟨rfl, fun _ _ => rfl, fun _ _ => rfl, fun _ _ => rfl, fun _ _ => rfl, fun _ _ => rfl, fun _ _ => rfl, fun _ _ => rfl,
          rfl, rfl⟩
      refine ⟨_, exec_qFree_ok hst hs ha, (hmapped.trans (setSt_untouched v t j .mem)).finish _ _,
        (setSt_mem v t j .mem).trans hcall.mem, fun c hc => (nomatch hc), fun _ _ => ⟨rfl, fun x => ?lookup, ?iq, ?fl, ?eq⟩⟩
      case lookup => exact (lookup_congr (setSt_qmap v t j .mem) x).trans (Tab.find_del _ _ _)
      case iq =>
        rintro rfl
        show (v.setIq j _).iq j = _
        rw [State.setIq_same, show v.iq j = s.iq j from hcall.iq j]
      case fl =>
        rintro rfl
        show (v.setFl j _).fl j = _
        rw [State.setFl_same, show v.fl j = s.fl j from hcall.fl j]
      case eq =>
        rintro rfl
        show (v.setEq j _).eq j = _
        rw [State.setEq_same, show v.eq j = s.eq j from hcall.eqr j]

end Sys2Proof.Machine
end

section
/-! PROOFS. 47_lifecycle.md: Q_TEARDOWN (R428, R614): PEER is asked to disable the queue, what it holds goes back to HOST, and its
memory last. -/

namespace Sys2Proof.Machine

/-! ### Giving back -/

/-- From `s` to `t` the actions `l` were recorded: no ring memory was freed or written, EQ `j` keeps its counters, and a packet
whose map it no longer has was released. -/
structure GivesBack (j : Nat) (s t : State) (l : List Effect) : Prop where
  mem   : t.mem = s.mem
  out   : t.out = s.out ++ l
  keeps : ∀ a, Effect.dmaFree a ∉ l
  stats : (t.eq j).stats = (s.eq j).stats
  maps  : ∀ k p, Tab.find (s.eq j).maps k = some p → Tab.find (t.eq j).maps k = some p ∨ Effect.release (.pkt p) ∈ l

section giving
variable {j : Nat} {s t u : State} {l l' : List Effect}

theorem GivesBack.refl (j : Nat) (s : State) : GivesBack j s s [] :=
  ⟨rfl, (List.append_nil _).symm, fun _ => List.not_mem_nil, rfl, fun _ _ => .inl⟩

theorem GivesBack.trans (h : GivesBack j s t l) (h' : GivesBack j t u l') : GivesBack j s u (l ++ l') where
  mem := h'.mem.trans h.mem
  out := by rw [h'.out, h.out, List.append_assoc]
  keeps a ha := (List.mem_append.1 ha).elim (h.keeps a) (h'.keeps a)
  stats := h'.stats.trans h.stats
  maps k p hp := by
    obtain hk | hl := h.maps k p hp
    · exact (h'.maps k p hk).imp_right (List.mem_append_right _)
    · exact .inr (List.mem_append_left _ hl)

/-- Actions that leave the maps and the counters of the EQ. -/
theorem GivesBack.same (hmem : t.mem = s.mem) (hout : t.out = s.out ++ l) (hkeeps : ∀ a, Effect.dmaFree a ∉ l)
    (hstats : (t.eq j).stats = (s.eq j).stats) (hmaps : (t.eq j).maps = (s.eq j).maps) : GivesBack j s t l :=
  ⟨hmem, hout, hkeeps, hstats, fun _ _ hp => .inl (hmaps ▸ hp)⟩

theorem OnlyCalls.givesBack (h : OnlyCalls s t) (hout : t.out = s.out ++ l) (hkeeps : ∀ a, Effect.dmaFree a ∉ l) :
    GivesBack j s t l := .same h.mem hout hkeeps (by rw [h.eqr]) (by rw [h.eqr])

end giving

theorem handshake_givesBack (k : Nat) (t : QType) (j : Nat) (r : PeerReq) (s : State) :
    GivesBack k s (handshake t j r s).2 (shakes t j r (s.peerCmd r).1) :=
  (handshake_calls t j r s).givesBack (handshake_out t j r s) fun a => by cases (s.peerCmd r).1 <;> simp [shakes]

/-! ### What `discard_tx` gives back (R429) -/

theorem giveBack_keeps (p : Packet) (a : Addr) : Effect.dmaFree a ∉ giveBack p := by simp [giveBack]

theorem release_mem_giveBack (p : Packet) : Effect.release (.pkt p) ∈ giveBack p := by simp [giveBack]

theorem discardMap_givesBack (j : Nat) (s : State) : ∃ l, GivesBack j s (discardMap j s) l := by
  have hrec := discardMap_eq j s
  have hmem := (discardMap_onlyEgress j s).mem
  have hstats : ((discardMap j s).eq j).stats = (s.eq j).stats := by rw [hrec]
  cases hp : Tab.find (s.eq j).maps (((s.eq j).mapPidx + (s.eq j).txMaps - 1) % (s.eq j).txMaps) with
  | none =>
    refine ⟨[], hmem, ?_, fun _ => List.not_mem_nil, hstats, fun k p hk => .inl ?_⟩
    · unfold discardMap
      dsimp only
      rw [hp]
      exact (List.append_nil _).symm
    · rw [hrec]
      refine (Tab.find_del _ _ _).trans ((if_neg ?_).trans hk)
      rintro rfl
      rw [hp] at hk
      cases hk
  | some p =>
    refine ⟨_, hmem, discardMap_out hp, giveBack_keeps p, hstats, fun k p' hk => ?_⟩
    by_cases hkey : k = ((s.eq j).mapPidx + (s.eq j).txMaps - 1) % (s.eq j).txMaps
    · subst hkey
      cases hp.symm.trans hk
      exact .inr (release_mem_giveBack p)
    · rw [hrec]
      exact .inl ((Tab.find_del _ _ _).trans ((if_neg hkey).trans hk))

theorem discardMaps_givesBack (j n : Nat) (s : State) : ∃ l, GivesBack j s (discardMaps j n s) l := by
  induction n generalizing s with
  | zero => exact ⟨[], .refl j s⟩
  | succ n ih =>
    obtain ⟨l, h⟩ := discardMap_givesBack j s
    obtain ⟨l', h'⟩ := ih (discardMap j s)
    exact ⟨_, h.trans h'⟩

theorem discardSgl_givesBack (j : Nat) (s : State) : ∃ l, GivesBack j s (discardSgl j s) l := by
  have hmem := (discardSgl_onlyEgress j s).mem
  have hrec := discardSgl_eq j s
  have hstats : ((discardSgl j s).eq j).stats = (s.eq j).stats := by rw [hrec]; split <;> rfl
  have hmaps : ((discardSgl j s).eq j).maps = (s.eq j).maps := by rw [hrec]; split <;> rfl
  have hout : ∃ l, (discardSgl j s).out = s.out ++ l ∧ ∀ a, Effect.dmaFree a ∉ l := by
    unfold discardSgl sglRelease
    dsimp only
    split
    · split
      · exact ⟨giveBack (s.eq j).sgl.pkt, List.append_assoc s.out [_] [_], giveBack_keeps _⟩
      · exact ⟨[.release (.pkt (s.eq j).sgl.pkt)], rfl, by simp⟩
    · exact ⟨[], (List.append_nil _).symm, by simp⟩
  obtain ⟨l, hout, hkeeps⟩ := hout
  exact ⟨l, .same hmem hout hkeeps hstats hmaps⟩

theorem discardHeld_givesBack (j : Nat) (s : State) : ∃ l, GivesBack j s (discardHeld j s) l := by
  have hrec := discardHeld_eq j s
  exact ⟨_, .same (discardHeld_onlyEgress j s).mem (discardHeld_out j s) (by simp) (by rw [hrec]) (by rw [hrec])⟩

theorem setEq_givesBack {j : Nat} {s : State} {e : EQ} (hstats : e.stats = (s.eq j).stats) (hmaps : e.maps = (s.eq j).maps) :
    GivesBack j s (s.setEq j e) [] :=
  .same rfl (List.append_nil _).symm (fun _ => List.not_mem_nil) (by rw [State.setEq_same, hstats])
    (by rw [State.setEq_same, hmaps])

theorem discardTx_givesBack (j : Nat) (s : State) : ∃ l, GivesBack j s (discardTx j s) l := by
  obtain ⟨_, hmaps⟩ := discardMaps_givesBack j (s.eq j).batch.nmaps s
  have hbatch := hmaps.trans (setEq_givesBack (s := discardMaps j (s.eq j).batch.nmaps s)
    (e := { (discardMaps j (s.eq j).batch.nmaps s).eq j with
      mapAvail := ((discardMaps j (s.eq j).batch.nmaps s).eq j).mapAvail + (s.eq j).batch.nmaps
      batch := Batch.empty ((discardMaps j (s.eq j).batch.nmaps s).eq j).batch.cur }) rfl rfl)
  obtain ⟨_, hsgl⟩ := discardSgl_givesBack j (discardBatch j s)
  obtain ⟨_, hheld⟩ := discardHeld_givesBack j (discardSgl j (discardBatch j s))
  exact ⟨_, ((hbatch.trans hsgl).trans hheld).trans (setEq_givesBack rfl rfl)⟩

theorem discardFor_givesBack (t : QType) (j : Nat) (s : State) : ∃ l, GivesBack j s (discardFor t j s) l := by
  cases t with
  | iq | fl => exact ⟨[], .refl j s⟩
  | eq => exact discardTx_givesBack j s

/-! ### The disable requests (R428) -/

section disable
variable {t : QType} {j : Nat} {s : State}

theorem handshake_peerCmd (t : QType) (j : Nat) (r : PeerReq) (s : State) (r' : PeerReq) :
    ((handshake t j r s).2.peerCmd r').1 = ((s.peerCmd r).2.peerCmd r').1 := by
  cases h : (s.peerCmd r).1 with
  | ok id => rw [handshake_ok h]
  | err c => rw [handshake_err h]; rfl

theorem disable_run (h : s.qst t j = .run) : disable t j s =
    let s1 := discardFor t j (handshake t j (.stop t (s.ctxId t j)) s).2
    let b := handshake t j (.free t (s.ctxId t j)) s1
    (errs (handshake t j (.stop t (s.ctxId t j)) s).1 + errs b.1, b.2.setQmap (Tab.del b.2.qmap (s.ctxId t j).toNat)) := by
  unfold disable
  simp only [h, QState.registered]
  rfl

theorem disable_reg (h : s.qst t j = .reg) : disable t j s =
    let b := handshake t j (.free t (s.ctxId t j)) s
    (errs b.1, b.2.setQmap (Tab.del b.2.qmap (s.ctxId t j).toNat)) := by
  unfold disable
  simp only [h, QState.registered]
  simp
  rfl

theorem disable_mem (h : s.qst t j = .mem) : disable t j s = (0, s) := by
  unfold disable
  simp [h, QState.registered]

/-- A running queue is stopped first and freed then; the second answer is PEER's next one, whatever was discarded between. -/
theorem disable_run_spec (h : s.qst t j = .run) :
    let stop := s.peerCmd (.stop t (s.ctxId t j))
    (disable t j s).1 = errs stop.1 + errs (stop.2.peerCmd (.free t (s.ctxId t j))).1 ∧
    ∃ l, GivesBack j s (disable t j s).2 l ∧ l.head? = some (.peerCmd (.stop t (s.ctxId t j))) ∧
      Effect.peerCmd (.free t (s.ctxId t j)) ∈ l := by
  dsimp only
  rw [disable_run h]
  generalize s.ctxId t j = id at *
  obtain ⟨ld, hd⟩ := discardFor_givesBack t j (handshake t j (.stop t id) s).2
  have hstop := handshake_givesBack j t j (.stop t id) s
  have hfree := handshake_givesBack j t j (.free t id) (discardFor t j (handshake t j (.stop t id) s).2)
  have hasked := (discardFor_onlyEgress t j (handshake t j (.stop t id) s).2).peerCmd (.free t id)
  rw [handshake_peerCmd] at hasked
  refine ⟨?_, _, ((hstop.trans hd).trans hfree).trans (.same rfl (List.append_nil _).symm (by simp) rfl rfl), ?_, ?_⟩
  · dsimp only
    rw [handshake_fst, handshake_fst, hasked]
  · cases (s.peerCmd (.stop t id)).1 <;> rfl
  · cases ((discardFor t j (handshake t j (.stop t id) s).2).peerCmd (.free t id)).1 <;> simp [shakes]

theorem disable_reg_spec (h : s.qst t j = .reg) :
    (disable t j s).1 = errs (s.peerCmd (.free t (s.ctxId t j))).1 ∧
    ∃ l, GivesBack j s (disable t j s).2 l ∧ l.head? = some (.peerCmd (.free t (s.ctxId t j))) := by
  rw [disable_reg h]
  generalize s.ctxId t j = id at *
  refine ⟨?_, _, (handshake_givesBack j t j (.free t id) s).trans (.same rfl (List.append_nil _).symm (by simp) rfl rfl), ?_⟩
  · dsimp only
    rw [handshake_fst]
  · cases (s.peerCmd (.free t id)).1 <;> rfl

/-- The disable requests move no memory of a queue. -/
theorem disable_blocks (h : s.qst t j ≠ .uninit) : SameBlocks s (disable t j s).2 := by
  have hmap : ∀ u : State, ∀ m, SameBlocks u (u.setQmap m) := fun u m =>
    ⟨fun ty _ => by cases ty <;> rfl, fun ty _ => by cases ty <;> rfl⟩
  cases hst : s.qst t j with
  | uninit => exact absurd hst h
  | mem => rw [disable_mem hst]; exact (SameFixed.refl s).blocks
  | reg => rw [disable_reg hst]; exact (handshake_calls _ _ _ _).blocks.trans (hmap _ _)
  | run =>
    rw [disable_run hst]
    exact (((handshake_calls _ _ _ _).blocks.trans (discardFor_sameFixed _ _ _).blocks).trans
      (handshake_calls _ _ _ _).blocks).trans (hmap _ _)

end disable

/-! ### What a teardown releases (R428) -/

/-- What giving one slot back records. -/
def slotReturns (x : FlSlot) : List Effect :=
  match x.own with
  | .empty => []
  | .posted b | .retained b => [.unmap (.rx b.buf), .release (.rx b.buf)]

theorem releaseBufs_out (l : Tab FlSlot) (s : State) : (releaseBufs l s).out = s.out ++ l.flatMap fun c => slotReturns c.2 := by
  induction l generalizing s with
  | nil => exact (List.append_nil _).symm
  | cons c l ih =>
    unfold releaseBufs
    rw [List.flatMap_cons, slotReturns]
    have happend : ∀ (a b : Effect) m, (s.out ++ [a] ++ [b]) ++ m = s.out ++ ([a, b] ++ m) := fun a b m =>
      (List.append_assoc (s.out ++ [a]) [b] m).trans (List.append_assoc s.out [a] _)
    cases hown : c.2.own with
    | empty => exact ih s
    | posted b => exact (ih _).trans (happend _ _ _)
    | retained b => exact (ih _).trans (happend _ _ _)

theorem releaseMaps_out (l : Tab Packet) (s : State) : (releaseMaps l s).out = s.out ++ l.flatMap fun c => giveBack c.2 := by
  induction l generalizing s with
  | nil => exact (List.append_nil _).symm
  | cons c l ih =>
    unfold releaseMaps
    rw [ih, List.flatMap_cons]
    exact (List.append_assoc (s.out ++ [_]) [_] _).trans (List.append_assoc s.out [_] _)

/-- A slot that holds a buffer is listed. -/
theorem slot_mem_of_own {f : FL} {k : Nat} (h : (f.slot k).own ≠ .empty) : (k, f.slot k) ∈ f.sd := by
  have hfind : ∀ t : Tab FlSlot, (Tab.get FlSlot.reset t k).own ≠ .empty → (k, Tab.get FlSlot.reset t k) ∈ t := by
    intro t
    induction t with
    | nil => exact fun h => absurd rfl h
    | cons c t ih =>
      obtain ⟨a, b⟩ := c
      intro h
      by_cases ha : a = k
      · subst ha; simp [Tab.get]
      · simp only [Tab.get, if_neg ha] at h ⊢
        exact List.mem_cons_of_mem _ (ih h)
  exact hfind f.sd h

theorem releaseAll_fl_spec (j : Nat) (s : State) : ∃ l, GivesBack j s (releaseAll .fl j s) l ∧ ∀ k x,
    (((s.fl j).slot k).own = .posted x ∨ ((s.fl j).slot k).own = .retained x) → Effect.release (.rx x.buf) ∈ l := by
  have hcall := releaseBufs_calls (s.fl j).sd s
  refine ⟨_, .same hcall.mem (releaseBufs_out _ _) ?_ (congrArg EQ.stats (hcall.eqr j)) (congrArg EQ.maps (hcall.eqr j)),
    fun k x hx => ?_⟩
  · intro a ha
    obtain ⟨c, -, hc⟩ := List.mem_flatMap.1 ha
    revert hc
    unfold slotReturns
    split <;> simp
  · refine List.mem_flatMap.2 ⟨_, slot_mem_of_own (f := s.fl j) (k := k) ?_, ?_⟩
    · obtain hx | hx := hx <;> rw [hx] <;> simp
    · unfold slotReturns
      obtain hx | hx := hx <;> rw [hx] <;> simp

theorem releaseAll_eq_spec (j : Nat) (s : State) : ∃ l, GivesBack j s (releaseAll .eq j s) l ∧ ∀ k p,
    Tab.find (s.eq j).maps k = some p → Effect.release (.pkt p) ∈ l := by
  obtain ⟨l, w, hw, hrel⟩ : ∃ l w, GivesBack j s w l ∧ releaseAll .eq j s = releaseMaps (w.eq j).maps w := by
    obtain ⟨l, hl⟩ := discardTx_givesBack j s
    by_cases hm : (s.eq j).st = .mem
    · refine ⟨l, _, hl, ?_⟩
      unfold releaseAll
      simp only [if_pos hm]
    · refine ⟨[], s, .refl j s, ?_⟩
      unfold releaseAll
      simp only [if_neg hm]
  have hcall := releaseMaps_calls (w.eq j).maps w
  have hmaps : GivesBack j w (releaseMaps (w.eq j).maps w) _ := hcall.givesBack (releaseMaps_out _ _) fun a ha => by
    obtain ⟨c, -, hc⟩ := List.mem_flatMap.1 ha
    exact giveBack_keeps _ _ hc
  rw [hrel]
  refine ⟨_, hw.trans hmaps, fun k p hp => ?_⟩
  obtain hk | hl := hw.maps k p hp
  · exact List.mem_append_right _ (List.mem_flatMap.2 ⟨_, Tab.find_some_mem hk, release_mem_giveBack p⟩)
  · exact List.mem_append_left _ hl

theorem releaseAll_baseOf (t : QType) (j : Nat) (s : State) : (releaseAll t j s).baseOf t j = s.baseOf t j := by
  cases t with
  | iq => rfl
  | fl => exact congrArg FL.base ((releaseAll_released .fl j s).fls j)
  | eq =>
    have hbase : ∀ u, SameBlocks s u → (releaseMaps (u.eq j).maps u).baseOf .eq j = s.baseOf .eq j := fun u hu =>
      (hu.trans (releaseMaps_calls _ u).blocks).base .eq j
    unfold releaseAll
    dsimp only
    split
    · exact hbase _ (discardFor_sameFixed .eq j s).blocks
    · exact hbase _ (SameFixed.refl s).blocks

/-- Everything a teardown gives back before it frees the memory of its queue. -/
theorem releaseAll_spec (t : QType) (j : Nat) (s : State) : ∃ l, GivesBack j s (releaseAll t j s) l ∧
    (t = .fl → ∀ k x, (((s.fl j).slot k).own = .posted x ∨ ((s.fl j).slot k).own = .retained x) →
      Effect.release (.rx x.buf) ∈ l) ∧
    (t = .eq → ∀ k p, Tab.find (s.eq j).maps k = some p → Effect.release (.pkt p) ∈ l) := by
  cases t with
  | iq => exact ⟨[], .refl j s, by simp, by simp⟩
  | fl =>
    obtain ⟨l, hl, hfl⟩ := releaseAll_fl_spec j s
    exact ⟨l, hl, fun _ => hfl, by simp⟩
  | eq =>
    obtain ⟨l, hl, heq⟩ := releaseAll_eq_spec j s
    exact ⟨l, hl, by simp, fun _ => heq⟩

theorem forget_out (t : QType) (j : Nat) (s : State) : (forget t j s).out = s.out ∧ (forget t j s).mem = s.mem := by
  cases t <;> exact ⟨rfl, rfl⟩

/-- A torn-down queue that was registered is out of `QMAP`. -/
theorem TornDown.lookup {t : QType} {j : Nat} {s u : State} (h : TornDown t j s u) (x : Nat) : u.lookup x =
    if (s.qst t j = .reg ∨ s.qst t j = .run) ∧ x = (s.ctxId t j).toNat then none else s.lookup x := by
  unfold State.lookup
  rw [h.qmap]
  simp only [registered_iff]
  by_cases hr : s.qst t j = .reg ∨ s.qst t j = .run
  · rw [if_pos hr, Tab.find_del]
    exact if_congr (by simp [hr]) rfl rfl
  · rw [if_neg hr, if_neg fun hx => hr hx.1]

/-! ### Q_TEARDOWN (R428) -/

/-- What a teardown disables before it releases, by the state of its queue: the failures counted, and PEER asked first. -/
theorem disable_spec {t : QType} {j : Nat} {s : State} (h : s.qst t j ≠ .uninit) : let id := s.ctxId t j
    let stop := s.peerCmd (.stop t id); let free := s.peerCmd (.free t id); let free2 := stop.2.peerCmd (.free t id)
    (disable t j s).1 = (match s.qst t j with
      | .run => errs stop.1 + errs free2.1 | .reg => errs free.1 | .mem | .uninit => 0) ∧
    ∃ l, GivesBack j s (disable t j s).2 l ∧
      (s.qst t j = .run → l.head? = some (.peerCmd (.stop t id)) ∧ Effect.peerCmd (.free t id) ∈ l) ∧
      (s.qst t j = .reg → l.head? = some (.peerCmd (.free t id))) := by
  intro id stop free free2
  cases hst : s.qst t j with
  | uninit => exact absurd hst h
  | mem =>
    rw [disable_mem hst]
    exact ⟨rfl, [], .refl j s, fun hrun => (nomatch hrun), fun hreg => (nomatch hreg)⟩
  | reg =>
    obtain ⟨hn, l, hl, hhead⟩ := disable_reg_spec hst
    exact ⟨hn, l, hl, fun hrun => (nomatch hrun), fun _ => hhead⟩
  | run =>
    obtain ⟨hn, l, hl, hstop⟩ := disable_run_spec hst
    exact ⟨hn, l, hl, fun _ => hstop, fun hreg => (nomatch hreg)⟩

theorem exec_qTeardown_torn {q : Qid} {t : QType} {s : State} (hst : s.qst t q.toNat ≠ .uninit)
    (hs : canStop t q.toNat s = true ∧ canFree t q.toNat s = true) : exec (.qTeardown q t) s =
      .next ((teardown t q.toNat s).2.finish .ok (teardown t q.toNat s).1) :=
  congrArg Host.Outcome.next ((if_neg hst).trans (if_pos hs))

/-- Settles O57: the refusals are the guard's; otherwise the disable requests come first (`disable_spec`), then what the queue holds
(`releaseAll_spec`), then its memory, and `teardown_spec` says what is left of the queue. -/
theorem qTeardownReleasesAfterDisabling : Obligations.QTeardownReleasesAfterDisabling := by
  intro q t s j id stop free free2
  refine ⟨fun hst => congrArg Host.Outcome.next (if_pos hst), fun hst hdep => ?depended, fun hst howner hnone => ?torn⟩
  case depended =>
    exact congrArg Host.Outcome.next ((if_neg hst).trans (if_neg fun hg => not_canFree hdep hg.2))
  case torn =>
    have hs : canStop t j s = true ∧ canFree t j s = true := ⟨canStop_iff.2 howner, canFree_iff.2 ⟨howner, hnone⟩⟩
    obtain ⟨hcount, ld, hld, hrun, hreg⟩ := disable_spec hst
    obtain ⟨lr, hlr, hfl, heq⟩ := releaseAll_spec t j (disable t j s).2
    have hgives := hld.trans hlr
    have htorn := teardown_spec t j s
    let v := (releaseAll t j (disable t j s).2).emit (.dmaFree ((releaseAll t j (disable t j s).2).baseOf t j))
    have hend : (teardown t j s).2 = forget t j v := rfl
    obtain ⟨hout, hmem⟩ := forget_out t j v
    refine ⟨_, (teardown t j s).1, ld ++ lr, exec_qTeardown_torn hst hs, htorn.gone, rfl, hcount, ?out, hgives.keeps,
      fun h => ?stopped, fun h => ?freed, fun x => ?lookup, fun ht => ?fl, fun ht => ?eq, ?mem, htorn.fault,
      fun ty k hk => ?others⟩
    case out =>
      refine (congrArg State.out hend).trans (hout.trans ?_)
      show (releaseAll t j (disable t j s).2).out ++ [_] = _
      rw [hgives.out, releaseAll_baseOf, (disable_blocks hst).base]
    case stopped =>
      obtain ⟨hhead, hfree⟩ := hrun h
      exact ⟨by rw [List.head?_append, hhead]; rfl, List.mem_append_left _ hfree⟩
    case freed => rw [List.head?_append, hreg h]; rfl
    case lookup => exact htorn.lookup x
    case fl =>
      subst ht
      refine ⟨?_, fun k x hx => List.mem_append_right _ (hfl rfl k x ?_)⟩
      · rw [State.finish_get_iq, htorn.iqs _ (.inl (by simp)), if_pos ⟨rfl, rfl⟩]
      · rw [disable_fl_record]
        exact hx
    case eq =>
      subst ht
      refine ⟨?_, fun k p hp => ?_⟩
      · rw [State.finish_get_eq, hend, forget_eq, if_pos rfl]
        exact hgives.stats
      · obtain hk | hl := hld.maps k p hp
        · exact List.mem_append_right _ (heq rfl k p hk)
        · exact List.mem_append_left _ hl
    case mem => exact (congrArg State.mem hend).trans (hmem.trans hgives.mem)
    case others => exact (htorn.others ty k fun h => hk.elim (fun hne => hne h.1.symm) fun hne => hne h.2.symm).1

end Sys2Proof.Machine
end

section
/-! PROOFS. 60_exceptions.md, the fault latch (R502), and 70_reset_and_hazards.md, block reset (R600, R601). -/

namespace Sys2Proof.Machine

/-! ### The fault latch (R502) -/

/-- With a fault latched a command word is refused before it is decoded. -/
theorem runCommand_latched {w : CmdWord} {s : State} (hf : faultValid s.fault = true) :
    runCommand w s = .next (s.finish .faulted 0) := by
  unfold runCommand
  rw [hf]
  rfl

/-- Settles O6: the command word is taken off the event list and refused by the latch. -/
theorem latchRefusesEveryCommand : Obligations.LatchRefusesEveryCommand := fun s _ rest hin hf =>
  (step_command hin).trans (runCommand_latched (s := s.setInbox rest) hf)

/-- A step other than a block reset keeps a latched `FAULT`: the latch refuses every command word, and no action of HOST or PEER
writes the register. -/
theorem step_keeps_latched {s t : State} (hf : faultValid s.fault = true) (h : step s = .next t)
    (hreset : ∀ rest, s.inbox ≠ .reset :: rest) : t.fault = s.fault := by
  rcases step_cases h with ⟨_, rfl⟩ | ⟨w, rest, _, hrun⟩ | ⟨rest, hin, _⟩ | ⟨e, rest, _, henv, _⟩
  · rfl
  · cases (runCommand_latched (s := s.setInbox rest) hf).symm.trans hrun
    rfl
  · exact absurd hin (hreset rest)
  · exact henv.fault

/-! ### Block reset (R600, R601) -/

/-- A pending block reset is taken off the event list and done in the same step. -/
theorem step_reset {s : State} {rest : List Event} (hin : s.inbox = .reset :: rest) :
    step s = .next (s.setInbox rest).blockReset := by
  unfold step
  rw [hin]
  rfl

/-- Settles O11: every other step keeps the latched register by `step_keeps_latched`, and a reset writes 0. -/
theorem onlyResetClearsFault : Obligations.OnlyResetClearsFault := by
  refine ⟨fun s t hf h hreset => ?kept, fun s t rest hin h => ?cleared⟩
  case kept =>
    have hkept := step_keeps_latched hf h hreset
    exact ⟨hkept, hkept ▸ hf⟩
  case cleared =>
    cases (step_reset hin).symm.trans h
    rw [State.blockReset_fault]
    decide

/-- Settles O12: the step is `blockReset`, which empties the queue map and the three record tables, so that every record reads as
after reset, and keeps every field outside the block. -/
theorem blockResetClearsTheBlock : Obligations.BlockResetClearsTheBlock := by
  intro s rest hin
  refine ⟨_, step_reset hin, State.blockReset_fault _, State.blockReset_res _, ?map, ?ingress, ?freeLists, ?egress, ?outside⟩
  case map => exact fun _ => rfl
  case ingress => exact fun _ => ⟨rfl, rfl, rfl, rfl, rfl⟩
  case freeLists => exact fun _ => ⟨rfl, rfl, rfl⟩
  case egress => exact fun _ => ⟨rfl, rfl, rfl, rfl⟩
  case outside => exact ⟨rfl, rfl, rfl, rfl, rfl, rfl, rfl, rfl⟩

/-! ### The state after reset (R63) -/

/-- After a reset no queue has memory (R600), and the laws of the records speak only of queues that have. -/
theorem blockReset_recordLaws (s : State) :
    IqInv s.blockReset ∧ FlInv s.blockReset ∧ EqInv s.blockReset ∧ BatchInv s.blockReset :=
  ⟨fun _ h => absurd rfl h, fun _ h => absurd rfl h, fun _ h => absurd rfl h, fun _ h => absurd rfl h⟩

/-- The state after reset is what a block reset makes of it, so it has whatever every reset block has. -/
theorem State.reset_blockReset : State.reset.blockReset = State.reset := rfl

/-- The parameters of reset are well formed (R10, log entry 5). -/
theorem reset_cfg_wf : State.reset.cfg.wf = true := by decide

/-- Settles O13: the laws of the queues, of `QMAP`, of the dependencies and of the ring memory hold after every block reset; the
memory lists nothing, and the parameters are well formed by `reset_cfg_wf`. -/
theorem resetMeetsTheInvariants : Obligations.ResetMeetsTheInvariants := by
  obtain ⟨hiq, hfl, heq, hbatch⟩ := State.reset_blockReset ▸ blockReset_recordLaws State.reset
  have hqmap : QmapInv State.reset := State.reset_blockReset ▸ blockReset_qmapInv State.reset
  have hdep : DepInv State.reset := State.reset_blockReset ▸ blockReset_depInv State.reset
  have hapart : BlocksApart State.reset := State.reset_blockReset ▸ blockReset_apart State.reset
  exact ⟨.inl rfl, Memory.reset_wf, hiq, hfl, heq, hbatch, hqmap, hdep, hapart, reset_cfg_wf⟩

end Sys2Proof.Machine
end
